-- ==== Sys2Proof/Word.lean ====
section
/-! DEFINITION. The word types of BSW (spec/00_scope.md R9, R10). -/

namespace Sys2Proof

/-- A 32-bit word: command words, OUT words, SP words, CSRs. -/
abbrev Word := BitVec 32

/-- A byte: a header field, a byte of the bitstream, an element of SLOT and ROM. -/
abbrev Byte := BitVec 8

/-- A 16-bit value: the header field `imm16` and the film-grain register. -/
abbrev Half := BitVec 16

/-- A 64-bit device-virtual address, `ADDR_W` of R8; BSW never dereferences one. -/
abbrev Addr := BitVec 64

end Sys2Proof
end

