-- ==== Sys2Proof/Syntax.lean ====
section
/-! DEFINITION. The commands of BSW-CMD 1.0: one constructor per row of the opcode map
(spec/30_encoding.md R95). Header fields are kept at their encoded width, because a field outside its
range is a legal header that raises `BadField` (R97), not an illegal one. A 64-bit address operand is
one value here; R94 says how its two words form it. -/

namespace Sys2Proof

/-- A command with its fields and operand words (R95). -/
inductive Instr where
  /-- `END` (40_control.md R125) -/
  | endRun
  /-- `BW_RESET` (41_bitwriter.md R132) -/
  | bwReset
  /-- `BW_SETEP en` (R134) -/
  | bwSetep (en : Byte)
  /-- `BW_PUT n, value` (R138) -/
  | bwPut (n : Byte) (value : Word)
  /-- `BW_UE v` (R140) -/
  | bwUe (v : Word)
  /-- `BW_SE v`, `v` in two's complement (R142) -/
  | bwSe (v : Word)
  /-- `BW_ALIGN` (R144) -/
  | bwAlign
  /-- `BW_FLUSH` (R147) -/
  | bwFlush
  /-- `HE_COPY` (42_header_template.md R173) -/
  | heCopy
  /-- `HE_MARK kind` (R174) -/
  | heMark (kind : Byte)
  /-- `HE_END` (R175) -/
  | heEnd
  /-- `HE_SETP idx, value` (R176) -/
  | heSetp (idx : Half) (value : Word)
  /-- `HE_CLRP` (R177) -/
  | heClrp
  /-- `HE_H264_SLICE` (43_header_h264.md R193) -/
  | heH264Slice
  /-- `HE_H265_SLICE` (44_header_h265.md R223) -/
  | heH265Slice
  /-- `FG_SEED plane, grain_seed` (45_av1_prng_cdf.md R262) -/
  | fgSeed (plane : Byte) (seed : Half)
  /-- `FG_RAND bits` (R263) -/
  | fgRand (bits : Byte)
  /-- `CDF_INIT_MODE slot` (R271) -/
  | cdfInitMode (slot : Byte)
  /-- `CDF_INIT_MV slot` (R272) -/
  | cdfInitMv (slot : Byte)
  /-- `CDF_INIT_COEF slot, index` (R273) -/
  | cdfInitCoef (slot index : Byte)
  /-- `CDF_SEED_ALL` (R274) -/
  | cdfSeedAll
  /-- `DPB_SESSION codec, max_refs` (46_dpb_mapper.md R292) -/
  | dpbSession (codec maxRefs : Byte)
  /-- `DPB_BEGIN cur` (R293) -/
  | dpbBegin (cur : Addr)
  /-- `DPB_REF slot, addr` (R294) -/
  | dpbRef (slot : Byte) (addr : Addr)
  /-- `DPB_COMMIT` (R296) -/
  | dpbCommit
  /-- `DPB_LOOKUP slot` (R297) -/
  | dpbLookup (slot : Byte)
deriving DecidableEq, Repr

end Sys2Proof
end

