-- ==== Sys2Proof/Decode.lean ====
section
/-! DEFINITION. Decoding and encoding of command words (spec/30_encoding.md R90 to R98). -/

namespace Sys2Proof

/-! ## Header fields (R90) -/

/-- `op = w[31:24]` -/
def fieldOp (w : Word) : Byte := w.extractLsb' 24 8

/-- `a = w[23:16]` -/
def fieldA (w : Word) : Byte := w.extractLsb' 16 8

/-- `b = w[15:8]` -/
def fieldB (w : Word) : Byte := w.extractLsb' 8 8

/-- `imm16 = w[15:0]` -/
def fieldImm (w : Word) : Half := w.extractLsb' 0 16

/-- The 64-bit operand of R94, low half first. -/
def addrOf (lo hi : Word) : Addr := hi ++ lo

/-- The first operand word of an address (R94). -/
def addrLo (x : Addr) : Word := x.extractLsb' 0 32

/-- The second operand word of an address (R94). -/
def addrHi (x : Addr) : Word := x.extractLsb' 32 32

/-! ## Formats and the opcode map -/

/-- The five header formats of R91. -/
inductive Format where
  | z | a | ab | ai | i
deriving DecidableEq, Repr

/-- The bits of a header that must be zero, besides `op` (R91). -/
def mustBeZero : Format → Word
  | .z => 0x00FFFFFF
  | .a => 0x0000FFFF
  | .ab => 0x000000FF
  | .ai => 0x00000000
  | .i => 0x00FF0000

/-- A row of the opcode map R95. `build` takes the header word and the two words after it, of which
it uses as many as the row has operand words. -/
structure OpRow where
  op : Byte
  format : Format
  nops : Nat
  build : Word → Word → Word → Instr

/-- The opcode map of R95, in its order. -/
def opTable : List OpRow :=
  [ ⟨0x01, .z, 0, fun _ _ _ => .endRun⟩,
    ⟨0x10, .z, 0, fun _ _ _ => .bwReset⟩,
    ⟨0x11, .a, 0, fun w _ _ => .bwSetep (fieldA w)⟩,
    ⟨0x12, .a, 1, fun w x _ => .bwPut (fieldA w) x⟩,
    ⟨0x13, .z, 1, fun _ x _ => .bwUe x⟩,
    ⟨0x14, .z, 1, fun _ x _ => .bwSe x⟩,
    ⟨0x15, .z, 0, fun _ _ _ => .bwAlign⟩,
    ⟨0x16, .z, 0, fun _ _ _ => .bwFlush⟩,
    ⟨0x20, .z, 0, fun _ _ _ => .heCopy⟩,
    ⟨0x21, .a, 0, fun w _ _ => .heMark (fieldA w)⟩,
    ⟨0x22, .z, 0, fun _ _ _ => .heEnd⟩,
    ⟨0x23, .i, 1, fun w x _ => .heSetp (fieldImm w) x⟩,
    ⟨0x24, .z, 0, fun _ _ _ => .heClrp⟩,
    ⟨0x28, .z, 0, fun _ _ _ => .heH264Slice⟩,
    ⟨0x29, .z, 0, fun _ _ _ => .heH265Slice⟩,
    ⟨0x30, .ai, 0, fun w _ _ => .fgSeed (fieldA w) (fieldImm w)⟩,
    ⟨0x31, .a, 0, fun w _ _ => .fgRand (fieldA w)⟩,
    ⟨0x38, .a, 0, fun w _ _ => .cdfInitMode (fieldA w)⟩,
    ⟨0x39, .a, 0, fun w _ _ => .cdfInitMv (fieldA w)⟩,
    ⟨0x3A, .ab, 0, fun w _ _ => .cdfInitCoef (fieldA w) (fieldB w)⟩,
    ⟨0x3B, .z, 0, fun _ _ _ => .cdfSeedAll⟩,
    ⟨0x40, .ab, 0, fun w _ _ => .dpbSession (fieldA w) (fieldB w)⟩,
    ⟨0x41, .z, 2, fun _ x y => .dpbBegin (addrOf x y)⟩,
    ⟨0x42, .a, 2, fun w x y => .dpbRef (fieldA w) (addrOf x y)⟩,
    ⟨0x43, .z, 0, fun _ _ _ => .dpbCommit⟩,
    ⟨0x44, .a, 0, fun w _ _ => .dpbLookup (fieldA w)⟩ ]

/-- The row of an `op`; none for an undefined one. -/
def rowOf (op : Byte) : Option OpRow := opTable.find? fun r => r.op == op

/-! ## The decoder -/

/-- Why the words at the command pointer are no command (steps (1) to (3) of R98). -/
inductive DecodeError where
  /-- no word at the command pointer: `CmdFetch` with the index of the header -/
  | noHeader
  /-- `IllegalCommand` (R96): undefined `op`, or a must-be-zero bit set -/
  | illegal (header : Word)
  /-- an operand word lies outside the stream: `CmdFetch` with `CMD_LEN` -/
  | noOperand
deriving DecidableEq, Repr

/-- The command that starts at the head of the list, in the order of R98 (1) to (3). -/
def decode : List Word → Except DecodeError Instr
  | [] => .error .noHeader
  | w :: ops =>
    match rowOf (fieldOp w) with
    | none => .error (.illegal w)
    | some r =>
      if w &&& mustBeZero r.format ≠ 0 then .error (.illegal w)
      else if ops.length < r.nops then .error .noOperand
      else .ok (r.build w (ops.getD 0 0) (ops.getD 1 0))

/-! ## The encoder (R95, R99) -/

/-- A header word from its four byte fields (R90). -/
def headerWord (op a b c : Byte) : Word := op ++ a ++ b ++ c

/-- A header word from `op`, `a` and `imm16` (R90). -/
def headerWordImm (op a : Byte) (imm : Half) : Word := op ++ a ++ imm

/-- The header word of a command, by the table of R99. -/
def encodeHeader : Instr → Word
  | .endRun => headerWord 0x01 0 0 0
  | .bwReset => headerWord 0x10 0 0 0
  | .bwSetep en => headerWord 0x11 en 0 0
  | .bwPut n _ => headerWord 0x12 n 0 0
  | .bwUe _ => headerWord 0x13 0 0 0
  | .bwSe _ => headerWord 0x14 0 0 0
  | .bwAlign => headerWord 0x15 0 0 0
  | .bwFlush => headerWord 0x16 0 0 0
  | .heCopy => headerWord 0x20 0 0 0
  | .heMark kind => headerWord 0x21 kind 0 0
  | .heEnd => headerWord 0x22 0 0 0
  | .heSetp idx _ => headerWordImm 0x23 0 idx
  | .heClrp => headerWord 0x24 0 0 0
  | .heH264Slice => headerWord 0x28 0 0 0
  | .heH265Slice => headerWord 0x29 0 0 0
  | .fgSeed plane seed => headerWordImm 0x30 plane seed
  | .fgRand bits => headerWord 0x31 bits 0 0
  | .cdfInitMode slot => headerWord 0x38 slot 0 0
  | .cdfInitMv slot => headerWord 0x39 slot 0 0
  | .cdfInitCoef slot index => headerWord 0x3A slot index 0
  | .cdfSeedAll => headerWord 0x3B 0 0 0
  | .dpbSession codec maxRefs => headerWord 0x40 codec maxRefs 0
  | .dpbBegin _ => headerWord 0x41 0 0 0
  | .dpbRef slot _ => headerWord 0x42 slot 0 0
  | .dpbCommit => headerWord 0x43 0 0 0
  | .dpbLookup slot => headerWord 0x44 slot 0 0

/-- The operand words of a command (R92, R94). -/
def operandWords : Instr → List Word
  | .endRun => []
  | .bwReset => []
  | .bwSetep _ => []
  | .bwPut _ value => [value]
  | .bwUe v => [v]
  | .bwSe v => [v]
  | .bwAlign => []
  | .bwFlush => []
  | .heCopy => []
  | .heMark _ => []
  | .heEnd => []
  | .heSetp _ value => [value]
  | .heClrp => []
  | .heH264Slice => []
  | .heH265Slice => []
  | .fgSeed _ _ => []
  | .fgRand _ => []
  | .cdfInitMode _ => []
  | .cdfInitMv _ => []
  | .cdfInitCoef _ _ => []
  | .cdfSeedAll => []
  | .dpbSession _ _ => []
  | .dpbBegin cur => [addrLo cur, addrHi cur]
  | .dpbRef _ addr => [addrLo addr, addrHi addr]
  | .dpbCommit => []
  | .dpbLookup _ => []

/-- The words of a command. -/
def encode (i : Instr) : List Word := encodeHeader i :: operandWords i

/-- The length in words, `1 + nops(op)` (R92). -/
def instrLength (i : Instr) : Nat := 1 + (operandWords i).length

/-! ## The table's numbering of an instruction's bits -/

/-- The three words of an instruction whose bits are `w`, bit 0 the least significant bit of the
first word; bits from `nbits` on are 0. -/
def tableWords (nbits w : Nat) : List Word :=
  let v := w % 2 ^ nbits
  [BitVec.ofNat 32 v, BitVec.ofNat 32 (v >>> 32), BitVec.ofNat 32 (v >>> 64)]

/-- The instruction the decoder reads from such bits. -/
def decodeTableWord (nbits w : Nat) : Option Instr :=
  match decode (tableWords nbits w) with
  | .ok i => some i
  | .error _ => none

end Sys2Proof
end

