-- ==== Sys2Proof/Config.lean ====
section
/-! DEFINITION. The implementation parameters of spec/00_scope.md R8. `Params` is the record of them
that a machine carries unchanged (log 2); `Config.*` are the values `State.reset` takes, uninterpreted
wherever R8 states no default (log 3, 19). -/

namespace Sys2Proof

/-- One of the "two physical layouts" of a CDF slot (R8, R270): where each of the three regions lies
inside a slot, and the default tables. A region's length is the length of its table (log 19). -/
structure CdfLayout where
  /-- `SLOT_BYTES[L]` -/
  slotBytes : Nat
  /-- `MODE_OFF[L]` -/
  modeOff : Nat
  /-- `MV_OFF[L]` -/
  mvOff : Nat
  /-- `COEF_OFF[L]` -/
  coefOff : Nat
  /-- `COEF_LEN[L]` -/
  coefLen : Nat
  /-- `ROM_MODE[L]`; its length is `MODE_LEN[L]` -/
  romMode : List Byte
  /-- `ROM_MV[L]`; its length is `MV_LEN[L]` -/
  romMv : List Byte
  /-- `ROM_COEF[L][0]` -/
  romCoef0 : List Byte
  /-- `ROM_COEF[L][1]` -/
  romCoef1 : List Byte
  /-- `ROM_COEF[L][2]` -/
  romCoef2 : List Byte
  /-- `ROM_COEF[L][3]` -/
  romCoef3 : List Byte
deriving DecidableEq, Repr, Inhabited

/-- Two regions `(offset, length)` share no byte. -/
def regionsApart (off₁ len₁ off₂ len₂ : Nat) : Bool :=
  off₁ + len₁ ≤ off₂ || off₂ + len₂ ≤ off₁ || len₁ == 0 || len₂ == 0

/-- The constraint of R8 and R270 on a layout: the regions lie inside the slot and are pairwise
disjoint, and the four coefficient tables have the length `COEF_LEN[L]`. -/
def CdfLayout.wf (l : CdfLayout) : Bool :=
  (l.modeOff + l.romMode.length ≤ l.slotBytes) &&
  (l.mvOff + l.romMv.length ≤ l.slotBytes) &&
  (l.coefOff + l.coefLen ≤ l.slotBytes) &&
  regionsApart l.modeOff l.romMode.length l.mvOff l.romMv.length &&
  regionsApart l.modeOff l.romMode.length l.coefOff l.coefLen &&
  regionsApart l.mvOff l.romMv.length l.coefOff l.coefLen &&
  (l.romCoef0.length == l.coefLen) && (l.romCoef1.length == l.coefLen) &&
  (l.romCoef2.length == l.coefLen) && (l.romCoef3.length == l.coefLen)

/-- The layout with no bytes at all; it meets the constraint. -/
def CdfLayout.empty : CdfLayout :=
  { slotBytes := 0, modeOff := 0, mvOff := 0, coefOff := 0, coefLen := 0, romMode := [],
    romMv := [], romCoef0 := [], romCoef1 := [], romCoef2 := [], romCoef3 := [] }

/-- The parameters of R8 that never change during the life of a machine. -/
structure Params where
  /-- `IL_MAX`, default 16 -/
  ilMax : Nat
  /-- `DPB_SLOTS`, 1 to 32, default 16 -/
  dpbSlots : Nat
  /-- `HW_GEN`, 0 to 255 -/
  hwGen : Byte
  /-- `DYN_T2_MIN_GEN`, 0 to 256, OPEN (D34) -/
  dynT2MinGen : Nat
  /-- `CDF_LAYOUT`, 0 or 1 -/
  cdfLayout : BitVec 1
  /-- the layout numbered 0 -/
  layout0 : CdfLayout
  /-- the layout numbered 1 -/
  layout1 : CdfLayout
deriving DecidableEq, Repr

/-- The layout in use, `L = CDF_LAYOUT` (R270). -/
def Params.layout (p : Params) : CdfLayout :=
  if p.cdfLayout = 0 then p.layout0 else p.layout1

/-- The ranges R8 gives the parameters. `IL_MAX <= 255` because `il_count`, which reaches `IL_MAX`,
has 8 bits (10_state.md R32; log 12). -/
def Params.wf (p : Params) : Bool :=
  (p.ilMax ≤ 255) && (1 ≤ p.dpbSlots) && (p.dpbSlots ≤ 32) && (p.dynT2MinGen ≤ 256) &&
  p.layout0.wf && p.layout1.wf

/-- `SP_WORDS`, fixed by R8. -/
def spWords : Nat := 512

/-- The greatest `OUT_CAP_WORDS` of R8. -/
def outCapLimit : Nat := 2 ^ 26

/-- The greatest `CMD_LEN` of R8. -/
def cmdLenLimit : Nat := 2 ^ 32 - 1

/-- `FG_XOR_CB` of R8 (log 20). -/
def fgXorCb : Half := 0xB524

/-- `FG_XOR_CR` of R8 (log 20). -/
def fgXorCr : Half := 0x49D8

/-! DESIGN CHOICE (log 3). R8 leaves the following to the run, with no default: each is a constant
without a body, so nothing can be proved that depends on its value. -/

/-- `OUT_CAP_WORDS - 1` before any `load`: a free value. -/
opaque Config.outCapLess1 : BitVec 26

/-- `HW_GEN`: a free value. -/
opaque Config.hwGen : Byte

/-- `DYN_T2_MIN_GEN`: a free value of 0 to 256. -/
opaque Config.dynT2MinGen : Fin 257

/-- `CDF_LAYOUT`: a free value. -/
opaque Config.cdfLayout : BitVec 1

/-- The CDF layouts before the check of R270: free values. -/
opaque Config.rawLayout : BitVec 1 → CdfLayout

/-- `OUT_CAP_WORDS` before any `load`, 1 to 2^26. -/
def Config.outCapWords : Nat := Config.outCapLess1.toNat + 1

/-- A layout that meets the constraint which R270 says is checked when the model is configured. -/
def Config.layout (l : BitVec 1) : CdfLayout :=
  if (Config.rawLayout l).wf then Config.rawLayout l else CdfLayout.empty

/-- The parameters of `State.reset`: the defaults of R8 where it states one, else free values. -/
def Config.params : Params :=
  { ilMax := 16
    dpbSlots := 16
    hwGen := Config.hwGen
    dynT2MinGen := Config.dynT2MinGen.val
    cdfLayout := Config.cdfLayout
    layout0 := Config.layout 0
    layout1 := Config.layout 1 }

end Sys2Proof
end

