-- ==== Sys2Proof/Machine/Memory.lean ====
section
/-! DEFINITION. The memories of BSW. Each of the spaces of spec/20_memory.md R60 is indexed by
element, so a memory is a list of (index, element) pairs; a byte space (SLOT) is a list of
`Host.Cell`. An element that is not listed is unwritten and holds no value (spec/10_state.md R31,
R32, R36, R40; 93 U1; log 6, 8). -/

namespace Sys2Proof.Machine

/-- A sparse memory with elements of type `α`. -/
abbrev Memory (α : Type) := List (Nat × α)

/-- The canonical form: indices strictly rising. Nothing listed can equal what an unlisted index
reads as, since that is no value. -/
abbrev Memory.wf {α : Type} (m : Memory α) : Prop := (m.map Prod.fst).Pairwise (· < ·)

/-- The element at an index; `none` for an unwritten one. -/
def Memory.read {α : Type} : Memory α → Nat → Option α
  | [], _ => none
  | (k, v) :: m, a => if k = a then some v else Memory.read m a

/-- Write one whole element (R65). -/
def Memory.write {α : Type} : Memory α → Nat → α → Memory α
  | [], a, v => [(a, v)]
  | (k, w) :: m, a, v =>
    if a < k then (a, v) :: (k, w) :: m
    else if a = k then (a, v) :: m
    else (k, w) :: Memory.write m a v

/-- Write a list of elements at consecutive indices, in increasing order (R66). -/
def Memory.writeRange {α : Type} : Memory α → Nat → List α → Memory α
  | m, _, [] => m
  | m, a, v :: vs => Memory.writeRange (Memory.write m a v) (a + 1) vs

/-- Every listed index is below a bound. -/
abbrev Memory.below {α : Type} (bound : Nat) (m : Memory α) : Prop := ∀ c ∈ m, c.1 < bound

end Sys2Proof.Machine
end

