-- ==== Sys2Proof/Machine/State.lean ====
section
/-! DEFINITION. The state of BSW (spec/10_state.md), as plain data, its reset value (R46, R350), and
the reasons a step can stop. -/

namespace Sys2Proof.Machine

/-! ## Names -/

/-- The run state of the sequencer (R20). -/
inductive RunState where
  | idle | running | done | faulted
deriving DecidableEq, Repr

/-- The kinds of an instruction-list entry (42_header_template.md R171). -/
inductive IlKind where
  | endList | copy | firstMb | sliceQpDelta | firstSlice | sliceSegment | saoEnable | lfAcrossSlices
deriving DecidableEq, Repr

/-- The mode of the DPB mapper (R38). -/
inductive DpbMode where
  | none | fixed | dynamicT2
deriving DecidableEq, Repr

/-- The codec of a DPB session (R38). -/
inductive Codec where
  | h264 | h265 | av1
deriving DecidableEq, Repr

/-- The 20 faults of the hardware (60_exceptions.md R321). Raising one is not a stop of the model:
fault entry (R323) is taken as a next state (log 1). -/
inductive BswFault where
  | cmdFetch | illegalCommand | badField | outOverflow | ueRange | seRange | ilOverflow
  | templateClosed | markerOrder | spIndex | spUnwritten | heParamRange | heUnsupported
  | heListUnterminated | fgUnseeded | dpbOrder | dpbMode | dpbSlotRange | dpbNullAddress
  | missingReference
deriving DecidableEq, Repr

/-! ## Why a step stops -/

/-- The model's own stops (log 6). No state that meets the invariant `Safety.Inv` reaches one. -/
inductive Fault where
  /-- `output_byte` merges a lane into an OUT word that holds no value. Raised by the bit-writer
  procedures. Safe: the hardware would go on with an arbitrary value. -/
  | outUnwritten (index : Nat)
  /-- `DPB_LOOKUP` reads a table entry that holds no value. Safe: the hardware would go on with an
  arbitrary value. -/
  | dpbtUnwritten (index : Nat)
deriving DecidableEq, Repr

/-- Refusals. -/
inductive Refusal where
  /-- an arm of `exec` with no meaning; no arm is left so. Safe: the model goes no further. -/
  | notModelled (mnemonic : String)
deriving DecidableEq, Repr

/-! ## The state -/

/-- An entry of the instruction list (R32). -/
structure IlEntry where
  kind : IlKind
  numBits : Word
deriving DecidableEq, Repr

/-- A word of the slice-parameter RAM with its written bit `sp_w[i]` (R34). -/
structure SpCell where
  word : Word
  written : Bool
deriving DecidableEq, Repr

/-- The bit writer with its output port (R25 to R31) and the template registers (R32): exactly the
state that `bw_reset` rewinds (41_bitwriter.md R132), with the two memories OUT and IL. -/
structure Encoder where
  /-- `shifter`, the 32-bit accumulator (R25) -/
  shifter : Word
  /-- `nbits`, the bit count in the shifter (R26) -/
  nbits : BitVec 6
  /-- `ep`, emulation prevention enabled (R27) -/
  ep : Bool
  /-- `nz`, the consecutive-zero-byte counter (R28) -/
  nz : BitVec 2
  /-- `bits_out`, total bits emitted (R29) -/
  bitsOut : Word
  /-- `out_wi`, the word index of the next byte (R30) -/
  outWi : BitVec 27
  /-- `out_bi`, the byte lane of the next byte (R30) -/
  outBi : BitVec 2
  /-- `OUT` (R31) -/
  out : Memory Word
  /-- `IL` (R32) -/
  il : Memory IlEntry
  /-- `il_count` (R32) -/
  ilCount : Byte
  /-- `bits_copied` (R32) -/
  bitsCopied : Word
  /-- `tmpl_done` (R32) -/
  tmplDone : Bool
deriving DecidableEq, Repr

/-- One frame-context slot: its memory (R36) and its status bits (R37). -/
structure CdfSlot where
  /-- `SLOT[s]` -/
  mem : Memory Byte
  /-- `cdf_mode_ok[s]` -/
  modeOk : Bool
  /-- `cdf_mv_ok[s]` -/
  mvOk : Bool
  /-- `cdf_coef_ok[s]` -/
  coefOk : Bool
  /-- `cdf_coef_idx[s]` -/
  coefIdx : BitVec 2
deriving DecidableEq, Repr

/-- The state of the DPB mapper (R38 to R40). -/
structure Dpb where
  /-- `dpb_mode` -/
  mode : DpbMode
  /-- `dpb_codec` -/
  codec : Codec
  /-- `dpb_m` -/
  m : BitVec 5
  /-- `dpb_open` -/
  isOpen : Bool
  /-- `dpb_valid` -/
  valid : Bool
  /-- `dpb_cur` -/
  cur : Addr
  /-- `dpb_used` -/
  used : Word
  /-- `DPBT` -/
  table : Memory Addr
deriving DecidableEq, Repr

/-- The state of the machine. The last three fields are arguments of a run and not state of the
hardware (R45); they stand here because a step takes one argument, and no step writes them (log 2). -/
structure State where
  /-- `run` (R20) -/
  run : RunState
  /-- `cp`, the command pointer (R21) -/
  cp : Word
  /-- `fault_code` (R22) -/
  faultCode : Byte
  /-- `fault_cp` (R22) -/
  faultCp : Word
  /-- `fault_info` (R22) -/
  faultInfo : Word
  /-- `res` (R23) -/
  res : BitVec 64
  /-- `res_valid` (R23) -/
  resValid : Bool
  /-- units BW and HE: bit writer, output port and template (R25 to R32) -/
  enc : Encoder
  /-- `SP` and `sp_w`; an index that is not listed has the written bit 0 and no content (R34) -/
  sp : Memory SpCell
  /-- `lfsr` (R35) -/
  lfsr : Half
  /-- `fg_seeded` (R35) -/
  fgSeeded : Bool
  /-- `SLOT[0..3]` and their status bits (R36, R37) -/
  cdf : Vector CdfSlot 4
  /-- unit DPB (R38 to R40) -/
  dpb : Dpb
  /-- `CMD[0 .. CMD_LEN-1]`; its length is `CMD_LEN` (R8, R45) -/
  cmd : List Word
  /-- `OUT_CAP_WORDS` (R8) -/
  outCapWords : Nat
  /-- the other parameters of R8 -/
  params : Params
deriving DecidableEq, Repr

/-! ## Reset (R46) -/

/-- The bit writer and template after hardware reset: registers 0, OUT and IL unwritten. -/
def Encoder.reset : Encoder :=
  { shifter := 0, nbits := 0, ep := false, nz := 0, bitsOut := 0, outWi := 0, outBi := 0, out := [],
    il := [], ilCount := 0, bitsCopied := 0, tmplDone := false }

/-- A slot after hardware reset. -/
def CdfSlot.reset : CdfSlot :=
  { mem := [], modeOk := false, mvOk := false, coefOk := false, coefIdx := 0 }

/-- Unit DPB after hardware reset: no session. -/
def Dpb.reset : Dpb :=
  { mode := .none, codec := .h264, m := 0, isOpen := false, valid := false, cur := 0, used := 0,
    table := [] }

/-- The reset values of R46 under given run arguments. `res` is 0: the spec leaves it unspecified
(DESIGN CHOICE, unsafe, log 5). -/
def State.resetWith (cmd : List Word) (outCapWords : Nat) (params : Params) : State :=
  { run := .idle, cp := 0, faultCode := 0, faultCp := 0, faultInfo := 0, res := 0, resValid := false,
    enc := Encoder.reset, sp := [], lfsr := 0, fgSeeded := false,
    cdf := Vector.replicate 4 CdfSlot.reset, dpb := Dpb.reset,
    cmd := cmd, outCapWords := outCapWords, params := params }

/-- The machine right after reset, before any `load`: no command stream (log 4), parameters as
`Config` has them (log 3). -/
def State.reset : State := State.resetWith [] Config.outCapWords Config.params

end Sys2Proof.Machine
end

