-- ==== Sys2Proof/Machine/Flags.lean ====
section
/-! DEFINITION. Numeric codes of the named values, the computation of the status flags
(spec/10_state.md R41), and the packing of status fields into CSR words (R42). -/

namespace Sys2Proof.Machine

/-! ## Codes -/

/-- The two bits of `run` (R20). -/
def runCode : RunState → BitVec 2
  | .idle => 0
  | .running => 1
  | .done => 2
  | .faulted => 3

/-- The code of a kind of entry (42_header_template.md R171). -/
def kindCode : IlKind → Byte
  | .endList => 0
  | .copy => 1
  | .firstMb => 2
  | .sliceQpDelta => 3
  | .firstSlice => 4
  | .sliceSegment => 5
  | .saoEnable => 6
  | .lfAcrossSlices => 7

/-- The two bits of `dpb_mode` (R38). -/
def modeCode : DpbMode → BitVec 2
  | .none => 0
  | .fixed => 1
  | .dynamicT2 => 2

/-- The two bits of `dpb_codec` (R38). -/
def codecCode : Codec → BitVec 2
  | .h264 => 0
  | .h265 => 1
  | .av1 => 2

/-- The value written to `fault_code` (60_exceptions.md R321). -/
def faultCodeOf : BswFault → Byte
  | .cmdFetch => 0x01
  | .illegalCommand => 0x02
  | .badField => 0x03
  | .outOverflow => 0x10
  | .ueRange => 0x11
  | .seRange => 0x12
  | .ilOverflow => 0x20
  | .templateClosed => 0x21
  | .markerOrder => 0x22
  | .spIndex => 0x23
  | .spUnwritten => 0x24
  | .heParamRange => 0x25
  | .heUnsupported => 0x26
  | .heListUnterminated => 0x27
  | .fgUnseeded => 0x30
  | .dpbOrder => 0x40
  | .dpbMode => 0x41
  | .dpbSlotRange => 0x42
  | .dpbNullAddress => 0x43
  | .missingReference => 0x44

/-! ## The emulation-prevention flags (41_bitwriter.md R134, R135) -/

/-- A stuffing byte precedes data byte `b` when the counter stands at `nz` (R135). -/
def stuffs (nz : BitVec 2) (b : Byte) : Bool := 2 ≤ nz.toNat && b.toNat ≤ 3

/-- The counter after a data byte was counted (R135). -/
def countZero (nz : BitVec 2) (b : Byte) : BitVec 2 := if b = 0 then nz + 1 else 0

/-- `BW_SETEP`: a change of the flag clears the counter, the same value changes nothing (R134). -/
def setEp (en : Bool) (e : Encoder) : Encoder :=
  if en = e.ep then e else { e with ep := en, nz := 0 }

/-! ## Written bits of SP (10_state.md R34) -/

/-- `HE_CLRP`: every written bit becomes 0, the contents stay (42_header_template.md R177). -/
def clearWritten (sp : Memory SpCell) : Memory SpCell :=
  sp.map fun c => (c.1, { c.2 with written := false })

/-- `sp_w[i]` -/
def spWritten (sp : Memory SpCell) (i : Nat) : Bool :=
  match Memory.read sp i with
  | some c => c.written
  | none => false

/-! ## The `used` bits of the DPB (10_state.md R39) -/

/-- `dpb_used[slot]` -/
def isUsed (used : Word) (slot : Nat) : Bool := used.getLsbD slot

/-- `dpb_used[slot] <- 1` -/
def markUsed (used : Word) (slot : Nat) : Word := used ||| BitVec.twoPow 32 slot

/-! ## CSR words (R42) -/

/-- A one-bit field at a bit position. -/
def flagAt (b : Bool) (pos : Nat) : Word := if b then BitVec.twoPow 32 pos else 0

/-- A field of any width at a bit position. -/
def fieldAt {w : Nat} (v : BitVec w) (pos : Nat) : Word := v.setWidth 32 <<< pos

/-- CSR `DPB_CTL`, also the information of fault `DpbOrder` (46_dpb_mapper.md R293). -/
def dpbCtl (d : Dpb) : Word :=
  fieldAt (modeCode d.mode) 0 ||| fieldAt (codecCode d.codec) 4 ||| fieldAt d.m 8 |||
    flagAt d.isOpen 16 ||| flagAt d.valid 17

/-- CSR `BW_CTL`. -/
def bwCtl (e : Encoder) : Word := fieldAt e.nbits 0 ||| flagAt e.ep 8 ||| fieldAt e.nz 16

/-- CSR `IL_STAT`. -/
def ilStat (e : Encoder) : Word := fieldAt e.ilCount 0 ||| flagAt e.tmplDone 8

/-- CSR `FG_LFSR`. -/
def fgLfsr (s : State) : Word := fieldAt s.lfsr 0 ||| flagAt s.fgSeeded 16

/-- The byte of CSR `CDF_STAT` that describes slot `i`, at bit offset `8 * i`. -/
def cdfSlotStat (c : CdfSlot) (i : Nat) : Word :=
  flagAt c.modeOk (8 * i) ||| flagAt c.mvOk (8 * i + 1) ||| flagAt c.coefOk (8 * i + 2) |||
    fieldAt c.coefIdx (8 * i + 4)

/-- CSR `CDF_STAT`. -/
def cdfStat (cdf : Vector CdfSlot 4) : Word :=
  cdfSlotStat cdf[0] 0 ||| cdfSlotStat cdf[1] 1 ||| cdfSlotStat cdf[2] 2 ||| cdfSlotStat cdf[3] 3

/-- CSR `CFG`, hardwired to the parameters (R43). -/
def cfgWord (p : Params) : Word := fieldAt p.hwGen 0 ||| fieldAt p.cdfLayout 8

end Sys2Proof.Machine
end

