-- ==== Sys2Proof/Machine/Ops.lean ====
section
/-! DEFINITION. The operations every command shares: the end of a command, fault entry, and the named
updates of the state. There is no return from a fault (spec/60_exceptions.md R324): the only exit from
`FAULTED` is `hwReset`, which stands here beside fault entry. -/

namespace Sys2Proof.Machine

/-! ## How a procedure ends -/

/-- Why a procedure ends without completing. -/
inductive Stop where
  /-- `raise X(info)` of the pseudocode (00_scope.md R11), `info` reduced to 32 bits (R323) -/
  | raise (f : BswFault) (info : Word)
  /-- a stop of the model (log 6) -/
  | halt (r : Fault)
deriving DecidableEq, Repr

/-- The outcome of a procedure: a value, or a stop that discards every write of the command
(00_scope.md R12). -/
abbrev Result (α : Type) := Except Stop α

/-! ## Named updates -/

/-- `cp <- cp + n` (10_state.md R21). -/
def advance (n : Nat) (s : State) : State := { s with cp := s.cp + BitVec.ofNat 32 n }

/-- The units BW and HE's template replaced. -/
def setEnc (e : Encoder) (s : State) : State := { s with enc := e }

/-- The slice-parameter RAM replaced. -/
def setSp (m : Memory SpCell) (s : State) : State := { s with sp := m }

/-- `res <- v; res_valid <- 1` (10_state.md R23). -/
def setRes (v : BitVec 64) (s : State) : State := { s with res := v, resValid := true }

/-- `lfsr <- v`. -/
def setLfsr (v : Half) (s : State) : State := { s with lfsr := v }

/-- `lfsr <- v; fg_seeded <- 1` (45_av1_prng_cdf.md R262). -/
def seedLfsr (v : Half) (s : State) : State := { s with lfsr := v, fgSeeded := true }

/-- The four CDF slots replaced. -/
def setCdf (c : Vector CdfSlot 4) (s : State) : State := { s with cdf := c }

/-- Unit DPB replaced. -/
def setDpb (d : Dpb) (s : State) : State := { s with dpb := d }

/-- `run <- r`. -/
def setRun (r : RunState) (s : State) : State := { s with run := r }

/-! ## Fault entry (60_exceptions.md R323) -/

/-- Fault entry: the three record registers and `run` are written, and nothing else. -/
def takeFault (f : BswFault) (info : Word) (s : State) : State :=
  { s with faultCode := faultCodeOf f, faultCp := s.cp, faultInfo := info, run := .faulted }

/-- `hw_reset` (70_reset_and_hazards.md R350): every piece of state at its reset value, in any run
state; the parameters and the command stream are not state and stay (log 10). It is the only exit from
`FAULTED` (R324). -/
def hwReset (s : State) : State := State.resetWith s.cmd s.outCapWords s.params

/-! ## The end of a command (40_control.md R123) -/

/-- A command of `len` words ends: it completes with the state `t` it computed from `s`, and `cp` moves
past it; or a fault is entered from `s`, so that none of its writes takes effect. -/
def finish (len : Nat) (s : State) (r : Result State) : Host.Outcome State Fault Refusal :=
  match r with
  | .ok t => .next (advance len t)
  | .error (.raise f info) => .next (takeFault f info s)
  | .error (.halt x) => .fault x

/-- The command completes with state `t`. -/
def complete (len : Nat) (t : State) : Host.Outcome State Fault Refusal := .next (advance len t)

/-- The command raises a fault. -/
def raise (f : BswFault) (info : Word) (s : State) : Host.Outcome State Fault Refusal :=
  .next (takeFault f info s)

/-- `raise BadField(header)` (30_encoding.md R97); the header is the command's own (log 22). -/
def badField (i : Instr) (s : State) : Host.Outcome State Fault Refusal :=
  raise .badField (encodeHeader i) s

/-- A command of `len` words that runs a procedure of units BW and HE. -/
def onEncoder (len : Nat) (f : Encoder → Result Encoder) (s : State) :
    Host.Outcome State Fault Refusal :=
  finish len s ((f s.enc).map fun e => setEnc e s)

end Sys2Proof.Machine
end

