-- ==== Sys2Proof/Machine/BitOps.lean ====
section
/-! DEFINITION. The procedures of unit BW (spec/41_bitwriter.md): `bw_reset`, `output_byte`,
`drain_byte`, `put_bits`, `put_ue`, `put_se`, `byte_align`, `flush`. `cap` is `OUT_CAP_WORDS`. The
specification variable `obytes` of R131 is not state; `Safety.lean` reads it back from OUT. -/

namespace Sys2Proof.Machine

/-- `bw_reset` (R132). OUT and IL keep their contents, which become stale (log 21). -/
def bwResetProc (e : Encoder) : Encoder :=
  { e with shifter := 0, nbits := 0, ep := false, nz := 0, bitsOut := 0, outWi := 0, outBi := 0,
           ilCount := 0, bitsCopied := 0, tmplDone := false }

/-! ## The output port (R133) -/

/-- Byte `b` in lane `lane` of a word: lane 0 is bits 31 to 24 (20_memory.md R63). -/
def laneByte (b : Byte) (lane : Nat) : Word := b.setWidth 32 <<< (24 - 8 * lane)

/-- The word that `output_byte` stores: the whole word for lane 0, else the lane merged into the word
being filled (R133, 20_memory.md R66); none if that word holds no value. -/
def mergedWord (b : Byte) (e : Encoder) : Option Word :=
  if e.outBi = 0 then some (laneByte b 0)
  else (Memory.read e.out e.outWi.toNat).map fun w => w ||| laneByte b e.outBi.toNat

/-- The output position one lane further. -/
def nextLane (e : Encoder) : Encoder :=
  if e.outBi = 3 then { e with outBi := 0, outWi := e.outWi + 1 } else { e with outBi := e.outBi + 1 }

/-- `output_byte(b)` (R133). -/
def outputByte (cap : Nat) (b : Byte) (e : Encoder) : Result Encoder :=
  if cap ≤ e.outWi.toNat then .error (.raise .outOverflow (e.outWi.setWidth 32))
  else match mergedWord b e with
    | some w => .ok (nextLane { e with out := Memory.write e.out e.outWi.toNat w })
    | none => .error (.halt (.outUnwritten e.outWi.toNat))

/-! ## Emulation prevention (R135) -/

/-- The stuffing byte, counted in `bits_out`, with the zero counter cleared. -/
def stuffByte (cap : Nat) (e : Encoder) : Result Encoder :=
  (outputByte cap 0x03 e).map fun e' => { e' with bitsOut := e'.bitsOut + 8, nz := 0 }

/-- `drain_byte(b)` (R135). -/
def drainByte (cap : Nat) (b : Byte) (e : Encoder) : Result Encoder :=
  if e.ep then
    (if stuffs e.nz b then stuffByte cap e else .ok e).bind fun e' =>
      outputByte cap b { e' with nz := countZero e'.nz b }
  else outputByte cap b e

/-! ## Fixed-width coding (R137) -/

/-- The inner loop of `put_bits`: drain `k` whole bytes out of the shifter. -/
def drainHeld (cap : Nat) : Nat → Encoder → Result Encoder
  | 0, e => .ok e
  | k + 1, e =>
    (drainByte cap (e.shifter.extractLsb' 24 8) { e with shifter := e.shifter <<< 8 }).bind fun e' =>
      drainHeld cap k { e' with nbits := e'.nbits - 8, bitsOut := e'.bitsOut + 8 }

/-- `take` bits of `chunk` put below the held ones (R137). -/
def holdBits (chunk take : Nat) (e : Encoder) : Encoder :=
  { e with shifter := e.shifter ||| (BitVec.ofNat 32 chunk <<< (32 - e.nbits.toNat - take))
           nbits := e.nbits + BitVec.ofNat 6 take }

/-- The outer loop of `put_bits`, with `rem` bits of `v` left. One turn takes at least one bit unless
the shifter is full, which only the first turn can find, so `rem + 1` turns always suffice (log 15). -/
def putLoop (cap v : Nat) : Nat → Nat → Encoder → Result Encoder
  | 0, _, e => .ok e
  | fuel + 1, rem, e =>
    if rem = 0 then .ok e
    else
      let take := min rem (32 - e.nbits.toNat)
      let e₁ := holdBits ((v >>> (rem - take)) % 2 ^ take) take e
      (drainHeld cap (e₁.nbits.toNat / 8) e₁).bind fun e₂ => putLoop cap v fuel (rem - take) e₂

/-- `put_bits(value, n)` (R137): the low `n` bits of `value`, most significant first. -/
def putBits (cap : Nat) (value : Word) (n : Nat) (e : Encoder) : Result Encoder :=
  putLoop cap (value.toNat % 2 ^ n) (n + 1) n e

/-! ## Exp-Golomb coding (R139, R141) -/

/-- `put_ue(v)` (R139): `k` zero bits, then the `k + 1` significant bits of `c = v + 1`. -/
def putUe (cap : Nat) (v : Word) (e : Encoder) : Result Encoder :=
  if v.toNat = 2 ^ 32 - 1 then .error (.raise .ueRange v)
  else
    let c := v.toNat + 1
    let k := Nat.log2 c
    (putBits cap 0 k e).bind fun e' => putBits cap (BitVec.ofNat 32 c) (k + 1) e'

/-- The unsigned number that codes a signed one: `2v - 1` for `v > 0`, else `-2v` (R141). -/
def seMap (v : Int) : Nat := if 0 < v then (2 * v - 1).toNat else (-2 * v).toNat

/-- `put_se(v)` (R141), `v` being the word in two's complement. -/
def putSe (cap : Nat) (v : Word) (e : Encoder) : Result Encoder :=
  if v.toInt = -2 ^ 31 then .error (.raise .seRange v)
  else putUe cap (BitVec.ofNat 32 (seMap v.toInt)) e

/-! ## Alignment and flush (R144, R146) -/

/-- `byte_align()` (R144). -/
def byteAlign (cap : Nat) (e : Encoder) : Result Encoder :=
  putBits cap 0 ((8 - e.nbits.toNat % 8) % 8) e

/-- The held bits drained as one byte padded with zeros; only the real bits are counted (R146). -/
def flushHeld (cap : Nat) (e : Encoder) : Result Encoder :=
  if e.nbits = 0 then .ok e
  else (drainByte cap (e.shifter.extractLsb' 24 8) e).map fun e' =>
    { e' with bitsOut := e'.bitsOut + e.nbits.setWidth 32, shifter := 0, nbits := 0 }

/-- The output position moved to the next word boundary (R146). -/
def alignWord (e : Encoder) : Encoder :=
  if e.outBi = 0 then e else { e with outWi := e.outWi + 1, outBi := 0 }

/-- `flush()` (R146). -/
def flush (cap : Nat) (e : Encoder) : Result Encoder := (flushHeld cap e).map alignWord

end Sys2Proof.Machine
end

