-- ==== Sys2Proof/Machine/BitWriter.lean ====
section
/-! DEFINITION. The commands of unit BW (spec/41_bitwriter.md), over the procedures of `BitOps`. -/

namespace Sys2Proof.Machine

/-- `BW_RESET` (R132). -/
def execBwReset (s : State) : Host.Outcome State Fault Refusal :=
  complete 1 (setEnc (bwResetProc s.enc) s)

/-- `BW_SETEP` (R134). -/
def execBwSetep (en : Byte) (s : State) : Host.Outcome State Fault Refusal :=
  if 1 < en.toNat then badField (.bwSetep en) s
  else complete 1 (setEnc (setEp (en == 1) s.enc) s)

/-- `BW_PUT` (R138). -/
def execBwPut (n : Byte) (value : Word) (s : State) : Host.Outcome State Fault Refusal :=
  if 32 < n.toNat then badField (.bwPut n value) s
  else onEncoder 2 (putBits s.outCapWords value n.toNat) s

/-- `BW_UE` (R140). -/
def execBwUe (v : Word) (s : State) : Host.Outcome State Fault Refusal :=
  onEncoder 2 (putUe s.outCapWords v) s

/-- `BW_SE` (R142). -/
def execBwSe (v : Word) (s : State) : Host.Outcome State Fault Refusal :=
  onEncoder 2 (putSe s.outCapWords v) s

/-- `BW_ALIGN` (R144). -/
def execBwAlign (s : State) : Host.Outcome State Fault Refusal :=
  onEncoder 1 (byteAlign s.outCapWords) s

/-- `BW_FLUSH` (R147). -/
def execBwFlush (s : State) : Host.Outcome State Fault Refusal :=
  onEncoder 1 (flush s.outCapWords) s

end Sys2Proof.Machine
end

