-- ==== Sys2Proof/Machine/Operands.lean ====
section
/-! DEFINITION. The operand forms: the named values of header fields (spec/30_encoding.md R95, R100),
and the checked reads of slice parameters that the two header sequencers make
(spec/42_header_template.md R178, R179). -/

namespace Sys2Proof.Machine

/-! ## Header fields -/

/-- The marker kind of `HE_MARK`: codes 2 to 7 (42_header_template.md R171, R174). -/
def markKind (kind : Byte) : Option IlKind :=
  if kind = 2 then some .firstMb
  else if kind = 3 then some .sliceQpDelta
  else if kind = 4 then some .firstSlice
  else if kind = 5 then some .sliceSegment
  else if kind = 6 then some .saoEnable
  else if kind = 7 then some .lfAcrossSlices
  else none

/-- The codec of `DPB_SESSION`: codes 0 to 2 (46_dpb_mapper.md R292). -/
def codecField (codec : Byte) : Option Codec :=
  if codec = 0 then some .h264
  else if codec = 1 then some .h265
  else if codec = 2 then some .av1
  else none

/-- The constant XORed into the seed for plane 0, 1 or 2 (45_av1_prng_cdf.md R262). -/
def planeXor (plane : Byte) : Option Half :=
  if plane = 0 then some 0
  else if plane = 1 then some fgXorCb
  else if plane = 2 then some fgXorCr
  else none

/-- A slot or table number of a CDF command: 0 to 3 (R271 to R273). -/
def slotField (slot : Byte) : Option (Fin 4) :=
  if h : slot.toNat < 4 then some ⟨slot.toNat, h⟩ else none

/-! ## Parameter reads of the header sequencers. SP indices are natural numbers below 512. -/

/-- `P(i)`: the word, if its written bit is 1 (R178). -/
def param (sp : Memory SpCell) (i : Nat) : Result Word :=
  match Memory.read sp i with
  | some c => if c.written then .ok c.word else .error (.raise .spUnwritten (BitVec.ofNat 32 i))
  | none => .error (.raise .spUnwritten (BitVec.ofNat 32 i))

/-- `PR(i, lo, hi)`: an unsigned value in a range (R179). -/
def ranged (sp : Memory SpCell) (i lo hi : Nat) : Result Word :=
  (param sp i).bind fun x =>
    if x.toNat < lo ∨ hi < x.toNat then .error (.raise .heParamRange (BitVec.ofNat 32 i)) else .ok x

/-- `F(i)`: a flag (R179). -/
def flagParam (sp : Memory SpCell) (i : Nat) : Result Word :=
  (param sp i).bind fun x =>
    if 1 < x.toNat then .error (.raise .heParamRange (BitVec.ofNat 32 i)) else .ok x

/-- `SR(i, lo, hi)`: a signed value in a range, `S(i)` being the word in two's complement (R178, R179).
The word itself is returned; `put_se` reads it in two's complement again. -/
def signedRanged (sp : Memory SpCell) (i : Nat) (lo hi : Int) : Result Word :=
  (param sp i).bind fun x =>
    if x.toInt < lo ∨ hi < x.toInt then .error (.raise .heParamRange (BitVec.ofNat 32 i)) else .ok x

/-- `REQ(i, v)`: a value that the admitted subset requires (R179). -/
def required (sp : Memory SpCell) (i v : Nat) : Result Word :=
  (param sp i).bind fun x =>
    if x.toNat ≠ v then .error (.raise .heUnsupported (BitVec.ofNat 32 i)) else .ok x

/-- `Z(i) = REQ(i, 0)` (R179). -/
def zeroParam (sp : Memory SpCell) (i : Nat) : Result Word := required sp i 0

end Sys2Proof.Machine
end

