-- ==== Sys2Proof/Machine/CdfInit.lean ====
section
/-! DEFINITION. Unit CDF, the default-CDF initializer (spec/45_av1_prng_cdf.md Part B). -/

namespace Sys2Proof.Machine

/-- `ROM_COEF[L][index]`. -/
def romCoef (l : CdfLayout) (index : Fin 4) : List Byte :=
  match index with
  | 0 => l.romCoef0
  | 1 => l.romCoef1
  | 2 => l.romCoef2
  | 3 => l.romCoef3

/-- `init_mode_probs` on a slot (R271). -/
def initMode (l : CdfLayout) (c : CdfSlot) : CdfSlot :=
  { c with mem := Memory.writeRange c.mem l.modeOff l.romMode, modeOk := true }

/-- `init_mv_probs` on a slot (R272). -/
def initMv (l : CdfLayout) (c : CdfSlot) : CdfSlot :=
  { c with mem := Memory.writeRange c.mem l.mvOff l.romMv, mvOk := true }

/-- `init_coef_probs(index)` on a slot (R273). -/
def initCoef (l : CdfLayout) (index : Fin 4) (c : CdfSlot) : CdfSlot :=
  { c with mem := Memory.writeRange c.mem l.coefOff (romCoef l index), coefOk := true,
           coefIdx := BitVec.ofNat 2 index.val }

/-- One slot changed. -/
def onSlot (i : Fin 4) (f : CdfSlot → CdfSlot) (cdf : Vector CdfSlot 4) : Vector CdfSlot 4 :=
  cdf.set i (f cdf[i])

/-- The three tables into slot `i`, coefficient table `i` (R274). -/
def seedSlot (l : CdfLayout) (i : Fin 4) (cdf : Vector CdfSlot 4) : Vector CdfSlot 4 :=
  onSlot i (initCoef l i) (onSlot i (initMv l) (onSlot i (initMode l) cdf))

/-- All four slots, in order (R274). -/
def seedAll (l : CdfLayout) (cdf : Vector CdfSlot 4) : Vector CdfSlot 4 :=
  seedSlot l 3 (seedSlot l 2 (seedSlot l 1 (seedSlot l 0 cdf)))

/-- `CDF_INIT_MODE` (R271). -/
def execCdfInitMode (slot : Byte) (s : State) : Host.Outcome State Fault Refusal :=
  match slotField slot with
  | none => badField (.cdfInitMode slot) s
  | some i => complete 1 (setCdf (onSlot i (initMode s.params.layout) s.cdf) s)

/-- `CDF_INIT_MV` (R272). -/
def execCdfInitMv (slot : Byte) (s : State) : Host.Outcome State Fault Refusal :=
  match slotField slot with
  | none => badField (.cdfInitMv slot) s
  | some i => complete 1 (setCdf (onSlot i (initMv s.params.layout) s.cdf) s)

/-- `CDF_INIT_COEF` (R273). -/
def execCdfInitCoef (slot index : Byte) (s : State) : Host.Outcome State Fault Refusal :=
  match slotField slot, slotField index with
  | some i, some j => complete 1 (setCdf (onSlot i (initCoef s.params.layout j) s.cdf) s)
  | _, _ => badField (.cdfInitCoef slot index) s

/-- `CDF_SEED_ALL` (R274). -/
def execCdfSeedAll (s : State) : Host.Outcome State Fault Refusal :=
  complete 1 (setCdf (seedAll s.params.layout s.cdf) s)

end Sys2Proof.Machine
end

