-- ==== Sys2Proof/Machine/Control.lean ====
section
/-! DEFINITION. The control command (spec/40_control.md). -/

namespace Sys2Proof.Machine

/-- `END` (R125): the run is done; nothing is flushed or closed. -/
def execEndRun (s : State) : Host.Outcome State Fault Refusal := complete 1 (setRun .done s)

end Sys2Proof.Machine
end

