-- ==== Sys2Proof/Machine/DpbMapper.lean ====
section
/-! DEFINITION. Unit DPB, the reference-slot to address mapper (spec/46_dpb_mapper.md). -/

namespace Sys2Proof.Machine

/-- `dpb_mode_of(codec)` (R291). -/
def dpbModeOf (p : Params) (codec : Codec) : DpbMode :=
  if codec = .av1 then .dynamicT2
  else if p.dynT2MinGen ≤ p.hwGen.toNat then .dynamicT2
  else .fixed

/-- A new session (R292). -/
def dpbNewSession (p : Params) (codec : Codec) (maxRefs : Nat) : Dpb :=
  { mode := dpbModeOf p codec, codec := codec, m := BitVec.ofNat 5 maxRefs, isOpen := false,
    valid := false, cur := 0, used := 0, table := [] }

/-- `DPBT[0 .. n-1] <- cur` (R293). -/
def fillTable (n : Nat) (cur : Addr) (t : Memory Addr) : Memory Addr :=
  Memory.writeRange t 0 (List.replicate n cur)

/-- A new decode call (R293). -/
def dpbOpenCall (cur : Addr) (d : Dpb) : Dpb :=
  { d with cur := cur, table := fillTable (d.m.toNat + 1) cur d.table, used := 0, isOpen := true,
           valid := false }

/-- The first two checks of `DPB_BEGIN`, `DPB_REF` and `DPB_COMMIT`: a session, and a dynamic one
(R293, R294, R296). -/
def dpbDynamic (d : Dpb) : Result Unit :=
  match d.mode with
  | .none => .error (.raise .dpbOrder (dpbCtl d))
  | .fixed => .error (.raise .dpbMode (fieldAt (modeCode d.mode) 0))
  | .dynamicT2 => .ok ()

/-- `raise DpbOrder(dpb_ctl_bits)` unless `dpb_open` has the value wanted. -/
def dpbWantOpen (want : Bool) (d : Dpb) : Result Unit :=
  if d.isOpen = want then .ok () else .error (.raise .dpbOrder (dpbCtl d))

/-- `raise DpbSlotRange(slot)` if `slot > dpb_m` (R294, R297). -/
def dpbSlotCheck (slot : Byte) (d : Dpb) : Result Unit :=
  if d.m.toNat < slot.toNat then .error (.raise .dpbSlotRange (slot.setWidth 32)) else .ok ()

/-- `DPB_BEGIN` on the unit (R293). -/
def dpbBeginProc (cur : Addr) (d : Dpb) : Result Dpb :=
  (dpbDynamic d).bind fun _ => (dpbWantOpen false d).bind fun _ =>
    if cur = 0 then .error (.raise .dpbNullAddress 0xFFFFFFFF) else .ok (dpbOpenCall cur d)

/-- `DPB_REF` on the unit (R294). -/
def dpbRefProc (slot : Byte) (addr : Addr) (d : Dpb) : Result Dpb :=
  (dpbDynamic d).bind fun _ => (dpbWantOpen true d).bind fun _ => (dpbSlotCheck slot d).bind fun _ =>
    if addr = 0 then .error (.raise .dpbNullAddress (slot.setWidth 32))
    else .ok { d with table := Memory.write d.table slot.toNat addr
                      used := markUsed d.used slot.toNat }

/-- `DPB_COMMIT` on the unit (R296). Step 3 of the document's algorithm does nothing (R295). -/
def dpbCommitProc (d : Dpb) : Result Dpb :=
  (dpbDynamic d).bind fun _ => (dpbWantOpen true d).bind fun _ =>
    .ok { d with isOpen := false, valid := true }

/-- The result of `DPB_LOOKUP` (R297). -/
def dpbLookupProc (slot : Byte) (d : Dpb) : Result (BitVec 64) :=
  match d.mode with
  | .none => .error (.raise .dpbOrder (dpbCtl d))
  | .fixed => (dpbSlotCheck slot d).bind fun _ => .ok (slot.setWidth 64)
  | .dynamicT2 =>
    if d.valid = false then .error (.raise .dpbOrder (dpbCtl d))
    else (dpbSlotCheck slot d).bind fun _ =>
      if isUsed d.used slot.toNat = false then
        .error (.raise .missingReference (slot.setWidth 32))
      else match Memory.read d.table slot.toNat with
        | some x => .ok x
        | none => .error (.halt (.dpbtUnwritten slot.toNat))

/-- `DPB_SESSION` (R292). -/
def execDpbSession (codec maxRefs : Byte) (s : State) : Host.Outcome State Fault Refusal :=
  match codecField codec with
  | none => badField (.dpbSession codec maxRefs) s
  | some c =>
    if s.params.dpbSlots ≤ maxRefs.toNat then badField (.dpbSession codec maxRefs) s
    else complete 1 (setDpb (dpbNewSession s.params c maxRefs.toNat) s)

/-- `DPB_BEGIN` (R293). -/
def execDpbBegin (cur : Addr) (s : State) : Host.Outcome State Fault Refusal :=
  finish 3 s ((dpbBeginProc cur s.dpb).map fun d => setDpb d s)

/-- `DPB_REF` (R294). -/
def execDpbRef (slot : Byte) (addr : Addr) (s : State) : Host.Outcome State Fault Refusal :=
  finish 3 s ((dpbRefProc slot addr s.dpb).map fun d => setDpb d s)

/-- `DPB_COMMIT` (R296). -/
def execDpbCommit (s : State) : Host.Outcome State Fault Refusal :=
  finish 1 s ((dpbCommitProc s.dpb).map fun d => setDpb d s)

/-- `DPB_LOOKUP` (R297). -/
def execDpbLookup (slot : Byte) (s : State) : Host.Outcome State Fault Refusal :=
  finish 1 s ((dpbLookupProc slot s.dpb).map fun v => setRes v s)

end Sys2Proof.Machine
end

