-- ==== Sys2Proof/Machine/FilmGrain.lean ====
section
/-! DEFINITION. Unit FG, the film-grain generator (spec/45_av1_prng_cdf.md Part A). The taps, the shift
direction and the output rule are what the spec marks as general knowledge (93 U5; log 20). -/

namespace Sys2Proof.Machine

/-- The feedback bit, of bits 0, 1, 3 and 12 of the old value (R261). -/
def fgFeedback (l : Half) : Bool :=
  l.getLsbD 0 ^^ l.getLsbD 1 ^^ l.getLsbD 3 ^^ l.getLsbD 12

/-- The register after one shift to the right, the feedback bit entering bit 15 (R261). -/
def fgShift (l : Half) : Half := (l >>> 1) ||| (if fgFeedback l then 0x8000 else 0)

/-- The top `bits` bits of the new value (R261). -/
def fgOutput (l : Half) (bits : Nat) : Half := (l >>> (16 - bits)) &&& BitVec.ofNat 16 (2 ^ bits - 1)

/-- `FG_SEED` (R262). -/
def execFgSeed (plane : Byte) (seed : Half) (s : State) : Host.Outcome State Fault Refusal :=
  match planeXor plane with
  | none => badField (.fgSeed plane seed) s
  | some x => complete 1 (seedLfsr (seed ^^^ x) s)

/-- `FG_RAND` (R263). -/
def execFgRand (bits : Byte) (s : State) : Host.Outcome State Fault Refusal :=
  if bits.toNat < 1 ∨ 16 < bits.toNat then badField (.fgRand bits) s
  else if s.fgSeeded then
    complete 1 (setRes ((fgOutput (fgShift s.lfsr) bits.toNat).setWidth 64) (setLfsr (fgShift s.lfsr) s))
  else raise .fgUnseeded 0 s

end Sys2Proof.Machine
end

