-- ==== Sys2Proof/Machine/TemplateOps.lean ====
section
/-! DEFINITION. The procedures of the instruction list (spec/42_header_template.md R172 to R175), and
the scripts in which the two header sequencers are written. `cap` is `OUT_CAP_WORDS`, `ilMax` is
`IL_MAX`. -/

namespace Sys2Proof.Machine

/-! ## The instruction list -/

/-- `raise TemplateClosed(il_count)` once the list is closed (R172 to R175). -/
def checkOpen (e : Encoder) : Result Unit :=
  if e.tmplDone then .error (.raise .templateClosed (e.ilCount.setWidth 32)) else .ok ()

/-- `il_append(kind, num_bits)` (R172). -/
def ilAppend (ilMax : Nat) (kind : IlKind) (numBits : Word) (e : Encoder) : Result Encoder :=
  (checkOpen e).bind fun _ =>
    if ilMax ≤ e.ilCount.toNat then .error (.raise .ilOverflow (e.ilCount.setWidth 32))
    else .ok { e with il := Memory.write e.il e.ilCount.toNat ⟨kind, numBits⟩
                      ilCount := e.ilCount + 1 }

/-- The bits put since the last `COPY`, `bits_out - bits_copied + nbits` (R174; log 14). -/
def uncovered (e : Encoder) : Word := e.bitsOut - e.bitsCopied + e.nbits.setWidth 32

/-- `raise MarkerOrder` while bits put are not covered by a `COPY` (R174, R175). -/
def checkCovered (e : Encoder) : Result Unit :=
  if e.nbits ≠ 0 ∨ e.bitsOut ≠ e.bitsCopied then .error (.raise .markerOrder (uncovered e)) else .ok ()

/-- `he_copy()` (R173). -/
def heCopyProc (cap ilMax : Nat) (e : Encoder) : Result Encoder :=
  (checkOpen e).bind fun _ =>
    (flush cap e).bind fun e₁ =>
      (ilAppend ilMax .copy (e₁.bitsOut - e₁.bitsCopied) e₁).map fun e₂ =>
        { e₂ with bitsCopied := e₂.bitsOut }

/-- `he_mark(kind)` (R174). -/
def heMarkProc (ilMax : Nat) (kind : IlKind) (e : Encoder) : Result Encoder :=
  (checkOpen e).bind fun _ => (checkCovered e).bind fun _ => ilAppend ilMax kind 0 e

/-- `he_end()` (R175). -/
def heEndProc (ilMax : Nat) (e : Encoder) : Result Encoder :=
  (checkOpen e).bind fun _ =>
    (checkCovered e).bind fun _ =>
      (ilAppend ilMax .endList 0 e).map fun e₁ => { e₁ with tmplDone := true }

/-! ## Scripts

A header sequencer reads SP and never writes it, and what it reads does not depend on what it has
emitted. So its pseudocode is a list of the procedure calls it makes, in order, computed from SP alone,
and a `raise` of the pseudocode is an item where the list stops (log 18). -/

/-- One call of a procedure, or the end of the sequence by a `raise`. -/
inductive Item where
  /-- `bw_reset()` -/
  | reset
  /-- `put_bits(v, n)` -/
  | bits (v : Word) (n : Nat)
  /-- `put_ue(v)` -/
  | ue (v : Word)
  /-- `put_se(v)`, `v` in two's complement -/
  | se (v : Word)
  /-- `he_copy()` -/
  | copy
  /-- `he_mark(kind)` -/
  | mark (kind : IlKind)
  /-- `he_end()` -/
  | close
  /-- `raise` -/
  | stop (x : Stop)
deriving DecidableEq, Repr

/-- A sequence of calls. -/
abbrev Script := List Item

/-- Run one call. -/
def runItem (cap ilMax : Nat) (i : Item) (e : Encoder) : Result Encoder :=
  match i with
  | .reset => .ok (bwResetProc e)
  | .bits v n => putBits cap v n e
  | .ue v => putUe cap v e
  | .se v => putSe cap v e
  | .copy => heCopyProc cap ilMax e
  | .mark kind => heMarkProc ilMax kind e
  | .close => heEndProc ilMax e
  | .stop x => .error x

/-- Run a sequence; the first `raise` ends it. -/
def runScript (cap ilMax : Nat) : Script → Encoder → Result Encoder
  | [], e => .ok e
  | i :: is, e => (runItem cap ilMax i e).bind fun e' => runScript cap ilMax is e'

/-- Read a parameter and go on with it; a `raise` of the read ends the sequence. -/
def need (r : Result Word) (k : Word → Script) : Script :=
  match r with
  | .ok x => k x
  | .error x => [.stop x]

/-- `raise HeParamRange(i)` -/
def badParam (i : Nat) : Script := [.stop (.raise .heParamRange (BitVec.ofNat 32 i))]

/-- `raise HeUnsupported(i)` -/
def unsupported (i : Nat) : Script := [.stop (.raise .heUnsupported (BitVec.ofNat 32 i))]

/-- `put_bits(r, n)` of a parameter. -/
def emitBits (r : Result Word) (n : Nat) : Script := need r fun x => [.bits x n]

/-- `put_ue(r)` of a parameter. -/
def emitUe (r : Result Word) : Script := need r fun x => [.ue x]

/-- `put_se(r)` of a parameter. -/
def emitSe (r : Result Word) : Script := need r fun x => [.se x]

/-- `if r = 1: a` for a flag `r`. -/
def whenSet (r : Result Word) (a : Script) : Script := need r fun x => if x = 1 then a else []

end Sys2Proof.Machine
end

