-- ==== Sys2Proof/Machine/HeaderH264.lean ====
section
/-! DEFINITION. Unit HE part 2: the H.264 slice-header sequencer (spec/43_header_h264.md), written step
by step as R193 is. The element order is what the spec marks as general knowledge (93 U3; log 20). -/

namespace Sys2Proof.Machine

/-- `h264_rplm(base)` from entry `i` with `k` entries of room left (R197). -/
def h264RplmFrom (sp : Memory SpCell) (base : Nat) : Nat → Nat → Script
  | 0, _ => [.stop (.raise .heListUnterminated (BitVec.ofNat 32 base))]
  | k + 1, i =>
    need (ranged sp (base + 2 * i) 0 3) fun idc =>
      .ue idc ::
        if idc = 3 then []
        else need (param sp (base + 2 * i + 1)) fun v => .ue v :: h264RplmFrom sp base k (i + 1)

/-- `h264_rplm(base)`: at most 32 entries (R197). -/
def h264Rplm (sp : Memory SpCell) (base : Nat) : Script := h264RplmFrom sp base 32 0

/-- The operands of one memory-management-control operation at SP index `b` (R198). -/
def h264MmcoOperands (sp : Memory SpCell) (b : Nat) (op : Word) : Script :=
  (if op = 1 ∨ op = 3 then emitUe (param sp (b + 1)) else []) ++
  (if op = 2 then emitUe (param sp (b + 1)) else []) ++
  (if op = 3 then emitUe (param sp (b + 2)) else []) ++
  (if op = 6 then emitUe (param sp (b + 1)) else []) ++
  (if op = 4 then emitUe (param sp (b + 1)) else [])

/-- `h264_mmco()` from entry `i` with `k` entries of room left (R198). -/
def h264MmcoFrom (sp : Memory SpCell) : Nat → Nat → Script
  | 0, _ => [.stop (.raise .heListUnterminated 0xC0)]
  | k + 1, i =>
    need (ranged sp (0xC0 + 3 * i) 0 6) fun op =>
      .ue op ::
        if op = 0 then []
        else h264MmcoOperands sp (0xC0 + 3 * i) op ++ h264MmcoFrom sp k (i + 1)

/-- `h264_mmco()`: at most 21 entries (R198). -/
def h264Mmco (sp : Memory SpCell) : Script := h264MmcoFrom sp 21 0

/-- The values that steer the sequence (R193 (1)). -/
structure H264Steer where
  /-- `nal_unit_type` -/
  nut : Word
  /-- `nal_ref_idc` -/
  nri : Word
  /-- `slice_type` -/
  st : Word
deriving DecidableEq, Repr

/-- `idr` of R193. -/
def h264Idr (c : H264Steer) : Bool := c.nut == 5

/-- `T = st mod 5`: 0 = P, 1 = B, 2 = I (R193). -/
def h264Type (c : H264Steer) : Nat := c.st.toNat % 5

/-- The refusals that depend on the slice type (R193 (1)). -/
def h264Weighted (sp : Memory SpCell) (c : H264Steer) (k : Script) : Script :=
  if h264Type c = 0 then need (zeroParam sp 0x22) fun _ => k
  else if h264Type c = 1 then
    need (ranged sp 0x23 0 2) fun w => if w = 1 then unsupported 0x23 else k
  else k

/-- R193 (1): refusals and steering values; `k` is the rest of the sequence. -/
def h264Checks (sp : Memory SpCell) (k : H264Steer → Script) : Script :=
  need (required sp 0x20 1) fun _ =>
  need (zeroParam sp 0x21) fun _ =>
  need (zeroParam sp 0x24) fun _ =>
  need (param sp 0x01) fun nut =>
  if nut ≠ 1 ∧ nut ≠ 5 then unsupported 0x01 else
  need (ranged sp 0x00 0 3) fun nri =>
  if nut = 5 ∧ nri = 0 then badParam 0x00 else
  need (ranged sp 0x02 0 9) fun st =>
  if 2 < st.toNat % 5 then unsupported 0x02 else
  if nut = 5 ∧ st.toNat % 5 ≠ 2 then badParam 0x02 else
  h264Weighted sp ⟨nut, nri, st⟩ (k ⟨nut, nri, st⟩)

/-- R193 (2): NAL unit header and the first patchable field. -/
def h264Nal (c : H264Steer) : Script :=
  [.reset, .bits 0 1, .bits c.nri 2, .bits c.nut 5, .copy, .mark .firstMb]

/-- `frame_num`, fixed width (R193; 90_conflicts.md C1). -/
def h264FrameNum (sp : Memory SpCell) : Script :=
  need (ranged sp 0x04 0 12) fun l =>
    emitBits (ranged sp 0x05 0 (2 ^ (l.toNat + 4) - 1)) (l.toNat + 4)

/-- The picture-order-count fields (R193 (3)). -/
def h264Poc (sp : Memory SpCell) : Script :=
  need (ranged sp 0x07 0 2) fun pt =>
    if pt = 0 then
      need (ranged sp 0x08 0 12) fun lp =>
        emitBits (ranged sp 0x09 0 (2 ^ (lp.toNat + 4) - 1)) (lp.toNat + 4) ++
        whenSet (flagParam sp 0x0A) (emitSe (param sp 0x0B))
    else if pt = 1 then
      need (flagParam sp 0x0C) fun z =>
        if z = 0 then
          emitSe (param sp 0x0D) ++ whenSet (flagParam sp 0x0A) (emitSe (param sp 0x0E))
        else []
    else []

/-- `num_ref_idx_active_override_flag` and what it announces (R193 (3)). -/
def h264NumRefIdx (sp : Memory SpCell) (c : H264Steer) : Script :=
  if h264Type c = 0 ∨ h264Type c = 1 then
    need (flagParam sp 0x12) fun o =>
      .bits o 1 ::
        if o = 1 then
          emitUe (ranged sp 0x13 0 31) ++
          (if h264Type c = 1 then emitUe (ranged sp 0x14 0 31) else [])
        else []
  else []

/-- A `ref_pic_list_modification_flag` at SP index `i` and its loop at `base` (R193 (3)). -/
def h264RplmFlag (sp : Memory SpCell) (i base : Nat) : Script :=
  need (flagParam sp i) fun f => .bits f 1 :: if f = 1 then h264Rplm sp base else []

/-- `dec_ref_pic_marking()` (R193 (3)). -/
def h264Marking (sp : Memory SpCell) (c : H264Steer) : Script :=
  if c.nri ≠ 0 then
    if h264Idr c then emitBits (flagParam sp 0x17) 1 ++ emitBits (flagParam sp 0x18) 1
    else need (flagParam sp 0x19) fun a => .bits a 1 :: if a = 1 then h264Mmco sp else []
  else []

/-- R193 (3): slice_type .. cabac_init_idc. -/
def h264Fields (sp : Memory SpCell) (c : H264Steer) : Script :=
  [.ue c.st] ++
  emitUe (ranged sp 0x03 0 255) ++
  h264FrameNum sp ++
  (if h264Idr c then emitUe (ranged sp 0x06 0 65535) else []) ++
  h264Poc sp ++
  whenSet (flagParam sp 0x0F) (emitUe (ranged sp 0x10 0 127)) ++
  (if h264Type c = 1 then emitBits (flagParam sp 0x11) 1 else []) ++
  h264NumRefIdx sp c ++
  (if h264Type c ≠ 2 then h264RplmFlag sp 0x15 0x40 else []) ++
  (if h264Type c = 1 then h264RplmFlag sp 0x16 0x80 else []) ++
  h264Marking sp c ++
  need (flagParam sp 0x1A) fun e =>
    if e = 1 ∧ h264Type c ≠ 2 then emitUe (ranged sp 0x1B 0 2) else []

/-- R193 (5): deblocking-filter overrides. -/
def h264Deblock (sp : Memory SpCell) : Script :=
  whenSet (flagParam sp 0x1C)
    (need (ranged sp 0x1D 0 2) fun d =>
      .ue d ::
        if d ≠ 1 then emitSe (signedRanged sp 0x1E (-6) 6) ++ emitSe (signedRanged sp 0x1F (-6) 6)
        else [])

/-- The whole of R193. -/
def h264Script (sp : Memory SpCell) : Script :=
  h264Checks sp fun c =>
    h264Nal c ++ h264Fields sp c ++ [.copy, .mark .sliceQpDelta] ++ h264Deblock sp ++ [.copy, .close]

/-- `HE_H264_SLICE` (R193). -/
def execHeH264Slice (s : State) : Host.Outcome State Fault Refusal :=
  onEncoder 1 (runScript s.outCapWords s.params.ilMax (h264Script s.sp)) s

end Sys2Proof.Machine
end

