-- ==== Sys2Proof/Machine/HeaderH265.lean ====
section
/-! DEFINITION. Unit HE part 3: the H.265 slice-segment-header sequencer (spec/44_header_h265.md),
written step by step as R223 is. The element order is what the spec marks as general knowledge (93 U4;
log 20). -/

namespace Sys2Proof.Machine

/-- `clog2(n)`: the least `w` with `2^w >= n` (00_scope.md R10). -/
def clog2 (n : Nat) : Nat := if n ≤ 1 then 0 else Nat.log2 (n - 1) + 1

/-- `k` pairs (delta, used flag) of a reference picture set, from SP index `b` (R226). -/
def h265RpsPairs (sp : Memory SpCell) : Nat → Nat → Script
  | 0, _ => []
  | k + 1, b =>
    emitUe (ranged sp b 0 32767) ++ emitBits (flagParam sp (b + 1)) 1 ++ h265RpsPairs sp k (b + 2)

/-- `h265_st_rps(n)` (R226). -/
def h265StRps (sp : Memory SpCell) (n : Nat) : Script :=
  (if n ≠ 0 then need (zeroParam sp 0x13A) fun _ => [.bits 0 1] else []) ++
  need (ranged sp 0x10D 0 16) fun nn =>
  need (ranged sp 0x10E 0 16) fun np =>
  [.ue nn, .ue np] ++ h265RpsPairs sp nn.toNat 0x180 ++ h265RpsPairs sp np.toNat 0x1A0

/-- `k` list entries of `w` bits each, from SP index `b` (R227). -/
def h265Entries (sp : Memory SpCell) (npc w : Nat) : Nat → Nat → Script
  | 0, _ => []
  | k + 1, b => emitBits (ranged sp b 0 (npc - 1)) w ++ h265Entries sp npc w k (b + 1)

/-- One `ref_pic_list_modification_flag` at SP index `i` and its list of `l + 1` entries at `base`
(R227). -/
def h265RplmList (sp : Memory SpCell) (i base l npc : Nat) : Script :=
  need (flagParam sp i) fun f =>
    .bits f 1 :: if f = 1 then h265Entries sp npc (clog2 npc) (l + 1) base else []

/-- `h265_rplm(st, l0, l1, npc)` (R227). -/
def h265Rplm (sp : Memory SpCell) (st : Word) (l0 l1 npc : Nat) : Script :=
  h265RplmList sp 0x117 0x1C0 l0 npc ++
  (if st = 0 then h265RplmList sp 0x118 0x1D0 l1 npc else [])

/-- The values that steer the sequence (R223 (1)). -/
structure H265Steer where
  /-- `nal_unit_type` -/
  nut : Word
  /-- `nuh_layer_id` -/
  lid : Word
  /-- `nuh_temporal_id_plus1` -/
  tid : Word
  /-- `slice_type`: 0 = B, 1 = P, 2 = I -/
  st : Word
deriving DecidableEq, Repr

/-- `irap` of R223 (1). -/
def h265Irap (nut : Word) : Bool := 16 ≤ nut.toNat && nut.toNat ≤ 23

/-- `idr` of R223 (1). -/
def h265Idr (nut : Word) : Bool := nut == 19 || nut == 20

/-- The NAL unit types of the admitted subset (R222). -/
def h265NutAdmitted (nut : Word) : Bool :=
  nut.toNat ≤ 9 || (16 ≤ nut.toNat && nut.toNat ≤ 21)

/-- The refusals that depend on the slice type (R223 (1)). -/
def h265Weighted (sp : Memory SpCell) (st : Word) (k : Script) : Script :=
  if st = 1 then need (zeroParam sp 0x134) fun _ => k
  else if st = 0 then need (zeroParam sp 0x135) fun _ => k
  else k

/-- R223 (1): refusals and steering values; `k` is the rest of the sequence. -/
def h265Checks (sp : Memory SpCell) (k : H265Steer → Script) : Script :=
  need (zeroParam sp 0x130) fun _ =>
  need (zeroParam sp 0x131) fun _ =>
  need (zeroParam sp 0x132) fun _ =>
  need (zeroParam sp 0x133) fun _ =>
  need (zeroParam sp 0x136) fun _ =>
  need (zeroParam sp 0x137) fun _ =>
  need (zeroParam sp 0x138) fun _ =>
  need (zeroParam sp 0x139) fun _ =>
  need (param sp 0x100) fun nut =>
  if !h265NutAdmitted nut then unsupported 0x100 else
  need (ranged sp 0x101 0 63) fun lid =>
  need (ranged sp 0x102 1 7) fun tid =>
  need (ranged sp 0x105 0 2) fun st =>
  if h265Irap nut ∧ st ≠ 2 then badParam 0x105 else
  h265Weighted sp st (k ⟨nut, lid, tid, st⟩)

/-- R223 (2): NAL unit header, then `first_slice_segment_in_pic_flag`. -/
def h265Nal (c : H265Steer) : Script :=
  [.reset, .bits 0 1, .bits c.nut 6, .bits c.lid 6, .bits c.tid 3, .copy, .mark .firstSlice]

/-- R223 (3): up to the slice address. -/
def h265Address (sp : Memory SpCell) (c : H265Steer) : Script :=
  (if h265Irap c.nut then emitBits (flagParam sp 0x103) 1 else []) ++
  emitUe (ranged sp 0x104 0 63) ++
  [.copy, .mark .sliceSegment]

/-- The short-term reference picture set of the slice: coded in the header, or an index into the `n`
sets of the SPS (R223 (4)). -/
def h265RefSet (sp : Memory SpCell) (n : Word) (sf : Word) : Script :=
  if sf = 0 then h265StRps sp n.toNat
  else if n = 0 then badParam 0x10B
  else if 1 < n.toNat then emitBits (ranged sp 0x10C 0 (n.toNat - 1)) (clog2 n.toNat)
  else []

/-- `slice_temporal_mvp_enabled_flag`; `k` goes on with `tmvp` (R223 (4)). -/
def h265Tmvp (sp : Memory SpCell) (k : Word → Script) : Script :=
  need (flagParam sp 0x10F) fun f =>
    if f = 1 then need (flagParam sp 0x110) fun tmvp => .bits tmvp 1 :: k tmvp else k 0

/-- R223 (4): slice_type .. slice_temporal_mvp_enabled_flag; `k` goes on with `tmvp`. -/
def h265Poc (sp : Memory SpCell) (c : H265Steer) (k : Word → Script) : Script :=
  [.ue c.st] ++
  whenSet (flagParam sp 0x106) (emitBits (flagParam sp 0x107) 1) ++
  if h265Idr c.nut then k 0
  else
    need (ranged sp 0x108 0 12) fun lp =>
    emitBits (ranged sp 0x109 0 (2 ^ (lp.toNat + 4) - 1)) (lp.toNat + 4) ++
    need (ranged sp 0x10B 0 64) fun n =>
    need (flagParam sp 0x10A) fun sf =>
    [.bits sf 1] ++ h265RefSet sp n sf ++ h265Tmvp sp k

/-- The collocated-picture fields (R223 (6)). -/
def h265Collocated (sp : Memory SpCell) (st : Word) (l0 l1 : Nat) : Script :=
  if st = 0 then
    need (flagParam sp 0x11C) fun c0 =>
      .bits c0 1 ::
        if (c0 = 1 ∧ 0 < l0) ∨ (c0 = 0 ∧ 0 < l1) then emitUe (ranged sp 0x11D 0 14) else []
  else if 0 < l0 then emitUe (ranged sp 0x11D 0 14) else []

/-- `l1 <- PR(0x114, 0, 14)` for a B slice, else 0 (R223 (6)). -/
def h265L1 (sp : Memory SpCell) (st : Word) : Result Word :=
  if st = 0 then ranged sp 0x114 0 14 else .ok 0

/-- R223 (6): inter-prediction fields. -/
def h265Inter (sp : Memory SpCell) (st tmvp : Word) : Script :=
  if st = 2 then []
  else
    need (flagParam sp 0x112) fun o =>
    [.bits o 1] ++
    need (ranged sp 0x113 0 14) fun l0 =>
    need (h265L1 sp st) fun l1 =>
    (if o = 1 then [.ue l0] ++ (if st = 0 then [.ue l1] else []) else []) ++
    whenSet (flagParam sp 0x115)
      (need (ranged sp 0x116 0 16) fun npc =>
        if 1 < npc.toNat then h265Rplm sp st l0.toNat l1.toNat npc.toNat else []) ++
    (if st = 0 then emitBits (flagParam sp 0x119) 1 else []) ++
    whenSet (flagParam sp 0x11A) (emitBits (flagParam sp 0x11B) 1) ++
    (if tmvp = 1 then h265Collocated sp st l0.toNat l1.toNat else []) ++
    emitUe (ranged sp 0x11E 0 4)

/-- The chroma offsets (R223 (8)). -/
def h265Chroma (sp : Memory SpCell) : Script :=
  whenSet (flagParam sp 0x11F)
    (emitSe (signedRanged sp 0x120 (-12) 12) ++ emitSe (signedRanged sp 0x121 (-12) 12))

/-- The deblocking overrides of R223 (8); `k` goes on with `dis`. -/
def h265Deblock (sp : Memory SpCell) (k : Word → Script) : Script :=
  need (flagParam sp 0x128) fun pps =>
  need (flagParam sp 0x122) fun enabled =>
  if enabled = 1 then
    need (flagParam sp 0x123) fun ov =>
    .bits ov 1 ::
      if ov = 1 then
        need (flagParam sp 0x124) fun dis =>
        .bits dis 1 ::
          ((if dis = 0 then emitSe (signedRanged sp 0x125 (-6) 6) ++ emitSe (signedRanged sp 0x126 (-6) 6)
            else []) ++ k dis)
      else k pps
  else k pps

/-- R223 (9) and (10): loop filter across slices, and the close. -/
def h265Close (sp : Memory SpCell) (sao dis : Word) : Script :=
  need (flagParam sp 0x127) fun lf =>
    (if lf = 1 ∧ (sao = 1 ∨ dis = 0) then [.copy, .mark .lfAcrossSlices] else []) ++ [.copy, .close]

/-- R223 (5) to (10). -/
def h265Rest (sp : Memory SpCell) (c : H265Steer) (tmvp : Word) : Script :=
  need (flagParam sp 0x111) fun sao =>
    (if sao = 1 then [.copy, .mark .saoEnable] else []) ++
    h265Inter sp c.st tmvp ++
    [.copy, .mark .sliceQpDelta] ++
    h265Chroma sp ++
    h265Deblock sp fun dis => h265Close sp sao dis

/-- The whole of R223. -/
def h265Script (sp : Memory SpCell) : Script :=
  h265Checks sp fun c => h265Nal c ++ h265Address sp c ++ h265Poc sp c fun tmvp => h265Rest sp c tmvp

/-- `HE_H265_SLICE` (R223). -/
def execHeH265Slice (s : State) : Host.Outcome State Fault Refusal :=
  onEncoder 1 (runScript s.outCapWords s.params.ilMax (h265Script s.sp)) s

end Sys2Proof.Machine
end

