-- ==== Sys2Proof/Machine/HeaderTemplate.lean ====
section
/-! DEFINITION. The list commands and the slice-parameter commands of unit HE
(spec/42_header_template.md). -/

namespace Sys2Proof.Machine

/-- `HE_COPY` (R173). -/
def execHeCopy (s : State) : Host.Outcome State Fault Refusal :=
  onEncoder 1 (heCopyProc s.outCapWords s.params.ilMax) s

/-- `HE_MARK` (R174). -/
def execHeMark (kind : Byte) (s : State) : Host.Outcome State Fault Refusal :=
  match markKind kind with
  | none => badField (.heMark kind) s
  | some k => onEncoder 1 (heMarkProc s.params.ilMax k) s

/-- `HE_END` (R175). -/
def execHeEnd (s : State) : Host.Outcome State Fault Refusal :=
  onEncoder 1 (heEndProc s.params.ilMax) s

/-- `HE_SETP` (R176). -/
def execHeSetp (idx : Half) (value : Word) (s : State) : Host.Outcome State Fault Refusal :=
  if 511 < idx.toNat then raise .spIndex (idx.setWidth 32) s
  else complete 2 (setSp (Memory.write s.sp idx.toNat ⟨value, true⟩) s)

/-- `HE_CLRP` (R177). -/
def execHeClrp (s : State) : Host.Outcome State Fault Refusal :=
  complete 1 (setSp (clearWritten s.sp) s)

end Sys2Proof.Machine
end

