-- ==== Sys2Proof/Machine/Dispatch.lean ====
section
/-! DEFINITION. The meaning of every command: one arm per constructor of `Instr`. -/

namespace Sys2Proof.Machine

/-- Run one command from a state. -/
def exec (i : Instr) (s : State) : Host.Outcome State Fault Refusal :=
  match i with
  | .endRun => Sys2Proof.Machine.execEndRun s
  | .bwReset => Sys2Proof.Machine.execBwReset s
  | .bwSetep en => Sys2Proof.Machine.execBwSetep en s
  | .bwPut n value => Sys2Proof.Machine.execBwPut n value s
  | .bwUe v => Sys2Proof.Machine.execBwUe v s
  | .bwSe v => Sys2Proof.Machine.execBwSe v s
  | .bwAlign => Sys2Proof.Machine.execBwAlign s
  | .bwFlush => Sys2Proof.Machine.execBwFlush s
  | .heCopy => Sys2Proof.Machine.execHeCopy s
  | .heMark kind => Sys2Proof.Machine.execHeMark kind s
  | .heEnd => Sys2Proof.Machine.execHeEnd s
  | .heSetp idx value => Sys2Proof.Machine.execHeSetp idx value s
  | .heClrp => Sys2Proof.Machine.execHeClrp s
  | .heH264Slice => Sys2Proof.Machine.execHeH264Slice s
  | .heH265Slice => Sys2Proof.Machine.execHeH265Slice s
  | .fgSeed plane seed => Sys2Proof.Machine.execFgSeed plane seed s
  | .fgRand bits => Sys2Proof.Machine.execFgRand bits s
  | .cdfInitMode slot => Sys2Proof.Machine.execCdfInitMode slot s
  | .cdfInitMv slot => Sys2Proof.Machine.execCdfInitMv slot s
  | .cdfInitCoef slot index => Sys2Proof.Machine.execCdfInitCoef slot index s
  | .cdfSeedAll => Sys2Proof.Machine.execCdfSeedAll s
  | .dpbSession codec maxRefs => Sys2Proof.Machine.execDpbSession codec maxRefs s
  | .dpbBegin cur => Sys2Proof.Machine.execDpbBegin cur s
  | .dpbRef slot addr => Sys2Proof.Machine.execDpbRef slot addr s
  | .dpbCommit => Sys2Proof.Machine.execDpbCommit s
  | .dpbLookup slot => Sys2Proof.Machine.execDpbLookup slot s

end Sys2Proof.Machine
end

