-- ==== Sys2Proof/Machine/Fetch.lean ====
section
/-! DEFINITION. Command fetch (spec/40_control.md R122, spec/30_encoding.md R98), the faults it raises,
and the placing of a command stream. -/

namespace Sys2Proof.Machine

/-- The command stream from the command pointer on. -/
def stream (s : State) : List Word := s.cmd.drop s.cp.toNat

/-- Fetch and decode the command at `cp`, steps (1) to (3) of R98. -/
def fetch (s : State) : Except DecodeError Instr := decode (stream s)

/-- The fault of a fetch or decode that fails, with its information (R96, R98, R122; log 23). -/
def fetchFault (x : DecodeError) (s : State) : Host.Outcome State Fault Refusal :=
  match x with
  | .noHeader => raise .cmdFetch s.cp s
  | .illegal w => raise .illegalCommand w s
  | .noOperand => raise .cmdFetch (BitVec.ofNat 32 s.cmd.length) s

/-- What the sequencer does while `run` is not `RUNNING`: nothing (10_state.md R20, 60_exceptions.md
R324, R331; log 9). -/
def idleStep (s : State) : Host.Outcome State Fault Refusal := .next s

/-- A command stream placed as `load` does, and a run started on it as `start` does (40_control.md
R120, R121), without regard to the run state; `OUT_CAP_WORDS` stays (log 4). -/
def placeStream (ws : List Word) (s : State) : State := { s with cmd := ws, cp := 0, run := .running }

end Sys2Proof.Machine
end

