-- ==== Sys2Proof/Machine/Step.lean ====
section
/-! DEFINITION. One step of the sequencer (spec/40_control.md R123). -/

namespace Sys2Proof.Machine

/-- One step: while `RUNNING`, fetch, decode and run the command at `cp`; a fault of the fetch is
entered like any other. -/
def step (s : State) : Host.Outcome State Fault Refusal :=
  match s.run with
  | .running =>
    match fetch s with
    | .ok i => exec i s
    | .error x => fetchFault x s
  | .idle => idleStep s
  | .done => idleStep s
  | .faulted => idleStep s

/-- The instruction whose bits are `w` as the whole command stream of a run that has just been started,
so that the next step runs it (log 4). -/
def State.withFetchWord (s : State) (nbits w : Nat) : State := placeStream (tableWords nbits w) s

end Sys2Proof.Machine
end

