-- ==== Sys2Proof/Machine/HostOps.lean ====
section
/-! DEFINITION. What the host can do (spec/40_control.md R120, R121): `hw_reset`, `load`, `start`, and
reads (spec/10_state.md R42, R43, spec/20_memory.md R77). `none` stands for a move the spec does not give
the host, and for a read whose value is unspecified (log 10, 17). -/

namespace Sys2Proof.Machine

/-- The three operations of R120. -/
inductive HostOp where
  /-- `hw_reset` (70_reset_and_hazards.md R350) -/
  | hwReset
  /-- `load` of a command stream and of `OUT_CAP_WORDS` (R120) -/
  | load (cmd : List Word) (outCapWords : Nat)
  /-- `start` (R121) -/
  | start
deriving DecidableEq, Repr

/-- `load` and `start` are allowed while `run` is `IDLE` or `DONE` (R120, R121). -/
def hostMayMove (s : State) : Bool := s.run == .idle || s.run == .done

/-- The ranges of R8 for the arguments of a run. -/
def runArgsWf (cmd : List Word) (outCapWords : Nat) : Bool :=
  cmd.length ≤ cmdLenLimit && 1 ≤ outCapWords && outCapWords ≤ outCapLimit

/-- `load` (R120). -/
def hostLoad (cmd : List Word) (outCapWords : Nat) (s : State) : Option State :=
  if hostMayMove s && runArgsWf cmd outCapWords then
    some { s with cmd := cmd, outCapWords := outCapWords }
  else none

/-- `start` (R121): `cp <- 0; run <- RUNNING`, nothing else. -/
def hostStart (s : State) : Option State :=
  if hostMayMove s then some { s with cp := 0, run := .running } else none

/-- A host operation. -/
def hostMove (op : HostOp) (s : State) : Option State :=
  match op with
  | .hwReset => some (hwReset s)
  | .load cmd cap => hostLoad cmd cap s
  | .start => hostStart s

/-! ## CSR reads (R42, R43) -/

/-- The word a CSR holds, by number; `RES_LO` and `RES_HI` are unspecified while `res_valid = 0`, and
reserved numbers read 0. -/
def csrWord (n : Nat) (s : State) : Option Word :=
  match n with
  | 0x00 => some (fieldAt (runCode s.run) 0)
  | 0x01 => some s.cp
  | 0x02 => some (fieldAt s.faultCode 0)
  | 0x03 => some s.faultCp
  | 0x04 => some s.faultInfo
  | 0x05 => if s.resValid then some (s.res.extractLsb' 0 32) else none
  | 0x06 => if s.resValid then some (s.res.extractLsb' 32 32) else none
  | 0x07 => some (flagAt s.resValid 0)
  | 0x08 => some s.enc.shifter
  | 0x09 => some (bwCtl s.enc)
  | 0x0A => some s.enc.bitsOut
  | 0x0B => some (fieldAt s.enc.outWi 0)
  | 0x0C => some (fieldAt s.enc.outBi 0)
  | 0x0D => some (ilStat s.enc)
  | 0x0E => some s.enc.bitsCopied
  | 0x10 => some (fgLfsr s)
  | 0x18 => some (cdfStat s.cdf)
  | 0x20 => some (dpbCtl s.dpb)
  | 0x21 => some s.dpb.used
  | 0x22 => some (s.dpb.cur.extractLsb' 0 32)
  | 0x23 => some (s.dpb.cur.extractLsb' 32 32)
  | 0x30 => some (cfgWord s.params)
  | _ => some 0

/-- A host read of a CSR: while `RUNNING`, only `STATUS` has a specified value (R42, 20_memory.md
R77). -/
def csrRead (n : Nat) (s : State) : Option Word :=
  if s.run = .running ∧ n ≠ 0 then none else csrWord n s

/-! ## Host reads of the memories (20_memory.md R77) -/

/-- A read that has a specified value only while no run is in progress. -/
def whenStopped {α : Type} (s : State) (r : Option α) : Option α :=
  if s.run = .running then none else r

/-- `OUT[i]`. An index at or above `OUT_CAP_WORDS` reads as any other one: a word that an earlier run
with a larger capacity wrote there is still answered. The spec gives no rule for such a read
(DESIGN CHOICE, unsafe, log 25). -/
def hostReadOut (i : Nat) (s : State) : Option Word := whenStopped s (Memory.read s.enc.out i)

/-- `IL[i]` as the pair (kind: 8 bits, num_bits: 32 bits) of R32. -/
def hostReadIl (i : Nat) (s : State) : Option (Byte × Word) :=
  whenStopped s ((Memory.read s.enc.il i).map fun e => (kindCode e.kind, e.numBits))

/-- `SLOT[slot][i]` -/
def hostReadSlot (slot : Fin 4) (i : Nat) (s : State) : Option Byte :=
  whenStopped s (Memory.read s.cdf[slot].mem i)

/-- `DPBT[i]` -/
def hostReadDpbt (i : Nat) (s : State) : Option Addr := whenStopped s (Memory.read s.dpb.table i)

end Sys2Proof.Machine
end

