-- ==== Sys2Proof/Safety.lean ====
section
/-! DEFINITION. The terms in which claims about BSW are stated: the bitstream as a list of bits and of
bytes (spec/41_bitwriter.md R131, R136, R149, R150), what it means that bytes were appended to OUT, the
invariant of the machine, and the runs that are safe. -/

namespace Sys2Proof.Safety

open Sys2Proof.Machine

/-! ## Bit strings, first bit first (00_scope.md R9) -/

/-- The low `n` bits of `v`, most significant first. -/
def bitsOf (v n : Nat) : List Bool := (List.range n).map fun i => v.testBit (n - 1 - i)

/-- The number that a bit string stands for, first bit most significant. -/
def natOf (bs : List Bool) : Nat := bs.foldl (fun a b => 2 * a + b.toNat) 0

/-- The bits held in the shifter, earliest first (10_state.md R25). -/
def heldBits (e : Encoder) : List Bool :=
  (List.range e.nbits.toNat).map fun i => e.shifter.getLsbD (31 - i)

/-- The whole bytes of a bit string. -/
def bytesOf : List Bool → List Byte
  | a :: b :: c :: d :: e :: f :: g :: h :: r =>
    BitVec.ofNat 8 (natOf [a, b, c, d, e, f, g, h]) :: bytesOf r
  | _ => []

/-- The bits after the last whole byte. -/
def restBits : List Bool → List Bool
  | _ :: _ :: _ :: _ :: _ :: _ :: _ :: _ :: r => restBits r
  | l => l

/-! ## Emulation prevention on a list of data bytes (R135, R136) -/

/-- The bytes that leave emulation prevention, each with a mark: `true` for a stuffing byte. `nz` is the
zero counter before the first data byte. -/
def epMarked : Nat → List Byte → List (Byte × Bool)
  | _, [] => []
  | nz, b :: bs =>
    if 2 ≤ nz ∧ b.toNat ≤ 3 then
      (3, true) :: (b, false) :: epMarked (if b = 0 then 1 else 0) bs
    else (b, false) :: epMarked (if b = 0 then nz + 1 else 0) bs

/-- The zero counter after the data bytes. -/
def epCount : Nat → List Byte → Nat
  | nz, [] => nz
  | nz, b :: bs =>
    epCount (if b = 0 then (if 2 ≤ nz then 1 else nz + 1) else 0) bs

/-- The bytes that reach OUT when data bytes are drained: with `ep = 0` they alone (R135). -/
def emitted (e : Encoder) (data : List Byte) : List Byte :=
  if e.ep then (epMarked e.nz.toNat data).map Prod.fst else data

/-- The zero counter after data bytes are drained; with `ep = 0` it keeps its value (R135). -/
def nzAfter (e : Encoder) (data : List Byte) : Nat :=
  if e.ep then epCount e.nz.toNat data else e.nz.toNat

/-- A reader that removes each `03` which follows two `00` bytes counted from the start or from the byte
removed last (R136 (c)); `z` is its count of zeros. -/
def unstuff : Nat → List Byte → List Byte
  | _, [] => []
  | z, b :: bs =>
    if 2 ≤ z ∧ b = 3 then unstuff 0 bs else b :: unstuff (if b = 0 then z + 1 else 0) bs

/-- Drain a list of data bytes, one after the other (R135). -/
def drainAll (cap : Nat) : List Byte → Encoder → Result Encoder
  | [], e => .ok e
  | b :: bs, e => (drainByte cap b e).bind fun e' => drainAll cap bs e'

/-! ## Exp-Golomb codes (R139, R141, R150) -/

/-- The code of `v`: `k` zero bits, then the `k + 1` bits of `v + 1`, `k = floor_log2(v + 1)`. -/
def ueBits (v : Nat) : List Bool :=
  List.replicate (Nat.log2 (v + 1)) false ++ bitsOf (v + 1) (Nat.log2 (v + 1) + 1)

/-- The standard reader of R150 after `z` leading zeros: the value read and the bits left. -/
def readUeFrom (z : Nat) : List Bool → Option (Nat × List Bool)
  | [] => none
  | false :: bs => readUeFrom (z + 1) bs
  | true :: bs =>
    if bs.length < z then none else some (2 ^ z - 1 + natOf (bs.take z), bs.drop z)

/-- The standard reader of R150. -/
def readUe (bs : List Bool) : Option (Nat × List Bool) := readUeFrom 0 bs

/-! ## The bit-serial form (R149) -/

/-- One bit put, as R149 says. -/
def putBit (cap : Nat) (b : Bool) (e : Encoder) : Result Encoder :=
  let e₁ : Encoder :=
    { e with shifter := e.shifter ||| (if b then BitVec.twoPow 32 (31 - e.nbits.toNat) else 0)
             nbits := e.nbits + 1 }
  if e₁.nbits = 8 then
    (drainByte cap (e₁.shifter.extractLsb' 24 8) { e₁ with shifter := 0, nbits := 0 }).map fun e₂ =>
      { e₂ with bitsOut := e₂.bitsOut + 8 }
  else .ok e₁

/-- A bit string put bit by bit. -/
def putSerial (cap : Nat) : List Bool → Encoder → Result Encoder
  | [], e => .ok e
  | b :: bs, e => (putBit cap b e).bind fun e' => putSerial cap bs e'

/-! ## Positions in OUT (20_memory.md R63) -/

/-- The output position as a lane number: lane `p % 4` of word `p / 4`. -/
def pos (e : Encoder) : Nat := 4 * e.outWi.toNat + e.outBi.toNat

/-- The byte in a lane of OUT. -/
def laneAt (m : Memory Word) (p : Nat) : Option Byte :=
  (Memory.read m (p / 4)).map fun w => w.extractLsb' (24 - 8 * (p % 4)) 8

/-- The bit of OUT at a bitstream position: bit 31 of word 0 is position 0. -/
def bitAt (m : Memory Word) (q : Nat) : Option Bool :=
  (Memory.read m (q / 32)).map fun w => w.getLsbD (31 - q % 32)

/-- `n` lanes of OUT from lane `p` on. -/
def lanesFrom (m : Memory Word) (p n : Nat) : List (Option Byte) :=
  (List.range n).map fun k => laneAt m (p + k)

/-- `after` is OUT `before` with the bytes `o` stored in the lanes from `p` on, and nothing else: lanes
before `p` keep their bytes, the lanes after the last stored one are 0 in a word that a stored byte opened
and keep their bytes in a word that was open before, and every word that no stored byte touches is as
before (R133, 20_memory.md R66). -/
structure Appended (before after : Memory Word) (p : Nat) (o : List Byte) : Prop where
  stored : lanesFrom after p o.length = o.map some
  earlier : ∀ q < p, laneAt after q = laneAt before q
  padded : ∀ q, p + o.length ≤ q → q / 4 < (p + o.length + 3) / 4 →
    laneAt after q = if p ≤ 4 * (q / 4) then some 0 else laneAt before q
  later : ∀ w, p + o.length ≤ 4 * w → Memory.read after w = Memory.read before w

/-- `e'` is `e` after the bit string `bs` was put: the whole bytes of the held bits and `bs` have gone
through emulation prevention into OUT, the rest is held, `bits_out` has grown by 8 for each byte that
reached OUT, and nothing else has changed (R135, R137). -/
structure Fed (e e' : Encoder) (bs : List Bool) : Prop where
  held : heldBits e' = restBits (heldBits e ++ bs)
  count : e'.nbits.toNat = (restBits (heldBits e ++ bs)).length
  lowZero : e'.shifter <<< e'.nbits.toNat = 0
  zeros : e'.nz.toNat = nzAfter e (bytesOf (heldBits e ++ bs))
  total : e'.bitsOut.toNat = e.bitsOut.toNat + 8 * (emitted e (bytesOf (heldBits e ++ bs))).length
  position : pos e' = pos e + (emitted e (bytesOf (heldBits e ++ bs))).length
  out : Appended e.out e'.out (pos e) (emitted e (bytesOf (heldBits e ++ bs)))
  rest : e' = { e with shifter := e'.shifter, nbits := e'.nbits, nz := e'.nz, bitsOut := e'.bitsOut,
                       outWi := e'.outWi, outBi := e'.outBi, out := e'.out }

/-- OUT has room for the bytes `o` at the output position (R133). -/
def fits (cap : Nat) (e : Encoder) (o : List Byte) : Prop := o = [] ∨ pos e + o.length ≤ 4 * cap

/-- OUT has room for the bytes that putting `bs` makes leave the shifter (R133, R152). -/
def roomFor (cap : Nat) (e : Encoder) (bs : List Bool) : Prop :=
  fits cap e (emitted e (bytesOf (heldBits e ++ bs)))

/-- The bytes a flush drains: the held bits padded with zeros, if there are any (R146). -/
def flushBytes (e : Encoder) : List Byte :=
  if e.nbits = 0 then [] else [e.shifter.extractLsb' 24 8]

/-- `e'` is `e` after a flush (R146). -/
structure Flushed (e e' : Encoder) : Prop where
  shifter : e'.shifter = 0
  nbits : e'.nbits = 0
  lane : e'.outBi = 0
  word : e'.outWi.toNat = (pos e + (emitted e (flushBytes e)).length + 3) / 4
  zeros : e'.nz.toNat = nzAfter e (flushBytes e)
  total : e'.bitsOut.toNat = e.bitsOut.toNat + e.nbits.toNat +
    8 * ((emitted e (flushBytes e)).length - (flushBytes e).length)
  out : Appended e.out e'.out (pos e) (emitted e (flushBytes e))
  rest : e' = { e with shifter := e'.shifter, nbits := e'.nbits, nz := e'.nz, bitsOut := e'.bitsOut,
                       outWi := e'.outWi, outBi := e'.outBi, out := e'.out }

/-- OUT has room for what a flush drains. -/
def roomForFlush (cap : Nat) (e : Encoder) : Prop := fits cap e (emitted e (flushBytes e))

/-! ## Scripts of the header sequencers -/

/-- The bits a call puts. -/
def itemBits : Item → List Bool
  | .reset => []
  | .bits v n => bitsOf v.toNat n
  | .ue v => ueBits v.toNat
  | .se v => ueBits (seMap v.toInt)
  | .copy => []
  | .mark _ => []
  | .close => []
  | .stop _ => []

/-- A call that only puts bits and raises no fault of its own. -/
def codes : Item → Bool
  | .reset => false
  | .bits _ n => n ≤ 32
  | .ue v => v.toNat ≠ 2 ^ 32 - 1
  | .se v => v.toInt ≠ -2 ^ 31
  | .copy => false
  | .mark _ => false
  | .close => false
  | .stop _ => false

/-- A call of `put_bits`, `put_ue` or `put_se`. -/
def isPut : Item → Bool
  | .reset => false
  | .bits _ _ => true
  | .ue _ => true
  | .se _ => true
  | .copy => false
  | .mark _ => false
  | .close => false
  | .stop _ => false

/-- A call that is a `raise`. -/
def isStop : Item → Bool
  | .reset => false
  | .bits _ _ => false
  | .ue _ => false
  | .se _ => false
  | .copy => false
  | .mark _ => false
  | .close => false
  | .stop _ => true

/-- `SP[i]` is written and holds `v` (42_header_template.md R178). -/
def holds (sp : Memory SpCell) (i : Nat) (v : Word) : Prop := Memory.read sp i = some ⟨v, true⟩

/-- `SP[i]` has the written bit 0 (R178). -/
def unwritten (sp : Memory SpCell) (i : Nat) : Prop := spWritten sp i = false

/-- The bits of a stretch of a script. -/
def scriptBits (a : Script) : List Bool := a.flatMap itemBits

/-- A range of a template: the calls that put its bits, and the marker that follows its `COPY`. -/
structure Range where
  body : Script
  mark : IlKind
deriving DecidableEq, Repr

/-- A whole template: the ranges that end in a marker, and the last range, which ends in `END`
(43_header_h264.md R190, 44_header_h265.md R220). -/
def templateScript (rs : List Range) (last : Script) : Script :=
  .reset :: (rs.flatMap fun r => r.body ++ [.copy, .mark r.mark]) ++ (last ++ [.copy, .close])

/-- The words of OUT a range takes, `ceil(n / 32)` (42_header_template.md R180). -/
def rangeWords (a : Script) : Nat := ((scriptBits a).length + 31) / 32

/-- The entries of the finished list (R172 to R175). -/
def templateEntries : List Range → Script → List IlEntry
  | [], last => [⟨.copy, BitVec.ofNat 32 (scriptBits last).length⟩, ⟨.endList, 0⟩]
  | r :: rs, last =>
    ⟨.copy, BitVec.ofNat 32 (scriptBits r.body).length⟩ :: ⟨r.mark, 0⟩ :: templateEntries rs last

/-- The bodies of all ranges, in order. -/
def bodies (rs : List Range) (last : Script) : List Script := rs.map Range.body ++ [last]

/-- The first word of each range in OUT, `W_0 = 0` and `W_(j+1) = W_j + ceil(n_j / 32)` (R180). -/
def rangeStart (bs : List Script) (j : Nat) : Nat := ((bs.take j).map rangeWords).sum

/-- The words of OUT a template takes (R180). -/
def templateWords (bs : List Script) : Nat := (bs.map rangeWords).sum

/-- A template that a sequencer can complete: every range consists of calls that raise no fault of their
own, and OUT and IL have room. -/
structure Room (s : State) (rs : List Range) (last : Script) : Prop where
  codes : ∀ b ∈ bodies rs last, b.all Safety.codes
  out : templateWords (bodies rs last) ≤ s.outCapWords
  cap : s.outCapWords ≤ outCapLimit
  il : (templateEntries rs last).length ≤ s.params.ilMax
  ilMax : s.params.ilMax ≤ 255

/-- All bits of a template. -/
def templateBits (bs : List Script) : Nat := (bs.map fun a => (scriptBits a).length).sum

/-- The template `bs` lies in OUT as R180 says: range `j` at bit 31 of `OUT[W_j]` in bitstream order, the
rest of its last word 0. -/
def liesAt (m : Memory Word) (bs : List Script) : Prop :=
  ∀ j < bs.length, ∀ i < 32 * rangeWords (bs.getD j []),
    bitAt m (32 * rangeStart bs j + i) = some ((scriptBits (bs.getD j [])).getD i false)

/-- `e'` is what a header sequencer leaves (43_header_h264.md R194, 44_header_h265.md R224): the finished
template in IL and OUT, and everything above the valid counts as it was. -/
structure Templated (e e' : Encoder) (rs : List Range) (last : Script) : Prop where
  entries : ∀ i < (templateEntries rs last).length,
    Memory.read e'.il i = (templateEntries rs last)[i]?
  count : e'.ilCount.toNat = (templateEntries rs last).length
  otherEntries : ∀ i, (templateEntries rs last).length ≤ i → Memory.read e'.il i = Memory.read e.il i
  total : e'.bitsOut.toNat = templateBits (bodies rs last)
  copied : e'.bitsCopied = e'.bitsOut
  done : e'.tmplDone = true
  empty : e'.nbits = 0 ∧ e'.shifter = 0 ∧ e'.outBi = 0 ∧ e'.ep = false ∧ e'.nz = 0
  words : e'.outWi.toNat = templateWords (bodies rs last)
  out : liesAt e'.out (bodies rs last)
  otherWords : ∀ w, e'.outWi.toNat ≤ w → Memory.read e'.out w = Memory.read e.out w

/-! ## The invariant -/

/-- The bits of the `COPY` entries among the first `n` entries. -/
def copyBits (il : Memory IlEntry) (n : Nat) : Nat :=
  ((List.range n).map fun i =>
    match Memory.read il i with
    | some x => if x.kind = .copy then x.numBits.toNat else 0
    | none => 0).sum

/-- The bit writer and the template, between commands (10_state.md R25 to R33; 42 R181). -/
structure EncInv (ilMax : Nat) (e : Encoder) : Prop where
  /-- `0 <= nbits <= 7` (R26) -/
  held : e.nbits.toNat ≤ 7
  /-- the bits below the held ones are 0 (R25) -/
  lowZero : e.shifter <<< e.nbits.toNat = 0
  /-- `nz` never exceeds 2 (R28) -/
  zeros : e.nz.toNat ≤ 2
  /-- the position is inside the largest OUT, or at its end (R30) -/
  inside : pos e ≤ 4 * outCapLimit
  /-- every counted bit occupies OUT (R29) -/
  counted : e.bitsOut.toNat ≤ 8 * pos e
  /-- `bits_copied <= bits_out` (R33) -/
  copied : e.bitsCopied.toNat ≤ e.bitsOut.toNat
  outWf : Memory.wf e.out
  outBelow : Memory.below outCapLimit e.out
  /-- complete words are written (20_memory.md R78) -/
  filled : ∀ w < e.outWi.toNat, (Memory.read e.out w).isSome
  /-- the word being filled is written, its unfilled lanes 0 (R44 (c)) -/
  partialWord : e.outBi ≠ 0 →
    (Memory.read e.out e.outWi.toNat).any (fun (w : Word) => w <<< (8 * e.outBi.toNat) == 0)
  ilWf : Memory.wf e.il
  ilBelow : Memory.below ilMax e.il
  /-- `il_count <= IL_MAX` (R32) -/
  ilCountLe : e.ilCount.toNat ≤ ilMax
  /-- every counted entry is written (R32) -/
  entries : ∀ i < e.ilCount.toNat, (Memory.read e.il i).isSome
  /-- a closed list ends in `(END, 0)` (R181) -/
  closed : e.tmplDone →
    0 < e.ilCount.toNat ∧ Memory.read e.il (e.ilCount.toNat - 1) = some ⟨.endList, 0⟩
  /-- no other entry has kind `END` (R181) -/
  ends : ∀ i < e.ilCount.toNat, (Memory.read e.il i).all fun (x : IlEntry) =>
    x.kind != .endList || (e.tmplDone && i + 1 == e.ilCount.toNat)
  /-- the `COPY` lengths add up to `bits_copied` (R181) -/
  copies : copyBits e.il e.ilCount.toNat = e.bitsCopied.toNat

/-- A region of a slot holds a table. -/
def holdsTable (m : Memory Byte) (off : Nat) (rom : List Byte) : Prop :=
  ∀ k < rom.length, Memory.read m (off + k) = rom[k]?

/-- Index `a` lies in a region. -/
def inRegion (off len a : Nat) : Bool := off ≤ a && a < off + len

/-- A slot: each region whose `ok` bit is 1 holds its default table, and no other byte is written
(45_av1_prng_cdf.md R275). -/
structure SlotInv (l : CdfLayout) (c : CdfSlot) : Prop where
  wf : Memory.wf c.mem
  mode : c.modeOk → holdsTable c.mem l.modeOff l.romMode
  mv : c.mvOk → holdsTable c.mem l.mvOff l.romMv
  coef : c.coefOk → holdsTable c.mem l.coefOff (romCoef l c.coefIdx.toFin)
  only : ∀ x ∈ c.mem,
    (c.modeOk && inRegion l.modeOff l.romMode.length x.1) ||
    (c.mvOk && inRegion l.mvOff l.romMv.length x.1) ||
    (c.coefOk && inRegion l.coefOff l.coefLen x.1)

/-- All four slots. -/
def CdfInv (l : CdfLayout) (cdf : Vector CdfSlot 4) : Prop := ∀ i : Fin 4, SlotInv l cdf[i]

/-- Unit DPB (10_state.md R38 to R40, 46_dpb_mapper.md R298). -/
structure DpbInv (p : Params) (d : Dpb) : Prop where
  slots : d.m.toNat < p.dpbSlots
  mode : d.mode ≠ .none → d.mode = dpbModeOf p d.codec
  /-- without a dynamic session no call is open or committed and nothing is in the table -/
  quiet : d.mode ≠ .dynamicT2 → d.isOpen = false ∧ d.valid = false ∧ d.table = []
  phases : ¬(d.isOpen ∧ d.valid)
  /-- the table invariant of R298 -/
  table : d.isOpen ∨ d.valid → d.cur ≠ 0 ∧ ∀ i < d.m.toNat + 1,
    (Memory.read d.table i).any fun (x : Addr) => x != 0 && (isUsed d.used i || x == d.cur)
  tableWf : Memory.wf d.table
  tableBelow : Memory.below (d.m.toNat + 1) d.table
  used : ∀ i < 32, d.m.toNat < i → isUsed d.used i = false

/-- The sequencer and its fault record (10_state.md R20 to R22). -/
structure SeqInv (s : State) : Prop where
  args : runArgsWf s.cmd s.outCapWords
  params : s.params.wf
  /-- while running, `cp` is inside the stream or at its end -/
  inside : s.run = .running → s.cp.toNat ≤ s.cmd.length
  /-- in `FAULTED` the record names a fault of the table at `cp` -/
  faulted : s.run = .faulted → s.faultCp = s.cp ∧ ∃ f, s.faultCode = faultCodeOf f
  /-- outside `FAULTED` nothing is recorded -/
  clean : s.run ≠ .faulted → s.faultCode = 0 ∧ s.faultCp = 0 ∧ s.faultInfo = 0

/-- The slice-parameter RAM: canonical, 512 words (10_state.md R34). -/
structure SpInv (m : Memory SpCell) : Prop where
  wf : Memory.wf m
  below : Memory.below spWords m

/-- The invariant of the machine. -/
structure Inv (s : State) : Prop where
  seq : SeqInv s
  enc : EncInv s.params.ilMax s.enc
  sp : SpInv s.sp
  cdf : CdfInv s.params.layout s.cdf
  dpb : DpbInv s.params s.dpb

/-- What a bit-writer claim assumes of a state: the encoder part of the invariant, and the range R8 gives
`OUT_CAP_WORDS`. -/
structure Writable (s : State) : Prop where
  enc : EncInv s.params.ilMax s.enc
  cap : s.outCapWords ≤ outCapLimit

/-! ## The opcode map as (match, mask) pairs, and what each command may write (30_encoding.md R91, R95) -/

/-- The legal headers: `w` is legal when `w &&& mask = match` for one pair (R91, R95). -/
def legalHeaders : List (Word × Word) :=
  [ (0x01000000, 0xFFFFFFFF), (0x10000000, 0xFFFFFFFF), (0x11000000, 0xFF00FFFF),
    (0x12000000, 0xFF00FFFF), (0x13000000, 0xFFFFFFFF), (0x14000000, 0xFFFFFFFF),
    (0x15000000, 0xFFFFFFFF), (0x16000000, 0xFFFFFFFF), (0x20000000, 0xFFFFFFFF),
    (0x21000000, 0xFF00FFFF), (0x22000000, 0xFFFFFFFF), (0x23000000, 0xFFFF0000),
    (0x24000000, 0xFFFFFFFF), (0x28000000, 0xFFFFFFFF), (0x29000000, 0xFFFFFFFF),
    (0x30000000, 0xFF000000), (0x31000000, 0xFF00FFFF), (0x38000000, 0xFF00FFFF),
    (0x39000000, 0xFF00FFFF), (0x3A000000, 0xFF0000FF), (0x3B000000, 0xFFFFFFFF),
    (0x40000000, 0xFF0000FF), (0x41000000, 0xFFFFFFFF), (0x42000000, 0xFF00FFFF),
    (0x43000000, 0xFFFFFFFF), (0x44000000, 0xFF00FFFF) ]

/-- A header word that R96 does not call illegal. -/
def legal (w : Word) : Prop := ∃ p ∈ legalHeaders, w &&& p.2 = p.1

/-- The parts of the state a command may write, besides `cp`, `run` and the fault record. -/
inductive Part where
  | enc | sp | lfsr | res | cdf | dpb
deriving DecidableEq, Repr

/-- The parts each command writes when it completes, by its own rule (R95, last column). -/
def writes : Instr → List Part
  | .endRun => []
  | .bwReset => [.enc]
  | .bwSetep _ => [.enc]
  | .bwPut _ _ => [.enc]
  | .bwUe _ => [.enc]
  | .bwSe _ => [.enc]
  | .bwAlign => [.enc]
  | .bwFlush => [.enc]
  | .heCopy => [.enc]
  | .heMark _ => [.enc]
  | .heEnd => [.enc]
  | .heSetp _ _ => [.sp]
  | .heClrp => [.sp]
  | .heH264Slice => [.enc]
  | .heH265Slice => [.enc]
  | .fgSeed _ _ => [.lfsr]
  | .fgRand _ => [.lfsr, .res]
  | .cdfInitMode _ => [.cdf]
  | .cdfInitMv _ => [.cdf]
  | .cdfInitCoef _ _ => [.cdf]
  | .cdfSeedAll => [.cdf]
  | .dpbSession _ _ => [.dpb]
  | .dpbBegin _ => [.dpb]
  | .dpbRef _ _ => [.dpb]
  | .dpbCommit => [.dpb]
  | .dpbLookup _ => [.res]

/-! ## Faults, runs of commands, and safe runs -/

/-- The state after fault entry with a code and an information, and nothing else changed (R323). -/
def recorded (code : Byte) (info : Word) (s : State) : State :=
  { s with faultCode := code, faultCp := s.cp, faultInfo := info, run := .faulted }

/-- Commands run one after the other. -/
def execAll : List Instr → State → Host.Outcome State Fault Refusal
  | [], s => .next s
  | i :: is, s =>
    match exec i s with
    | .next t => execAll is t
    | .fault r => .fault r
    | .refused r => .refused r

/-! ## EP windows (41_bitwriter.md R131, R136) -/

/-- The data bytes a command takes out of the shifter; none for a command that ends the EP window, which
is one that resets the bit writer or changes `ep`. -/
def drained (e : Encoder) : Instr → Option (List Byte)
  | .endRun => some []
  | .bwReset => none
  | .bwSetep en => if (en == 1) = e.ep then some [] else none
  | .bwPut n value => some (bytesOf (heldBits e ++ bitsOf value.toNat n.toNat))
  | .bwUe v => some (bytesOf (heldBits e ++ ueBits v.toNat))
  | .bwSe v => some (bytesOf (heldBits e ++ ueBits (seMap v.toInt)))
  | .bwAlign => some (bytesOf (heldBits e ++ List.replicate ((8 - e.nbits.toNat) % 8) false))
  | .bwFlush => some (flushBytes e)
  | .heCopy => some (flushBytes e)
  | .heMark _ => some []
  | .heEnd => some []
  | .heSetp _ _ => some []
  | .heClrp => some []
  | .heH264Slice => none
  | .heH265Slice => none
  | .fgSeed _ _ => some []
  | .fgRand _ => some []
  | .cdfInitMode _ => some []
  | .cdfInitMv _ => some []
  | .cdfInitCoef _ _ => some []
  | .cdfSeedAll => some []
  | .dpbSession _ _ => some []
  | .dpbBegin _ => some []
  | .dpbRef _ _ => some []
  | .dpbCommit => some []
  | .dpbLookup _ => some []

/-- A stretch of an EP window: the data bytes that its commands drained, the lanes of OUT that they
filled, in order, and the state after them. -/
structure Window where
  data : List Byte
  lanes : List Nat
  final : State

/-- What commands run one after the other add to an EP window; none if one of them ends the window or
does not leave the machine `RUNNING`. A flush leaves lanes behind that are not part of the emitted bytes
(R146), so the lanes of one command are as many as the bytes that reach OUT, from its position on. -/
def windowOf : List Instr → State → Option Window
  | [], s => some ⟨[], [], s⟩
  | i :: is, s =>
    (drained s.enc i).bind fun data =>
      match exec i s with
      | .next t =>
        if t.run = .running then
          (windowOf is t).map fun w =>
            { w with data := data ++ w.data
                     lanes := (List.range (emitted s.enc data).length).map (pos s.enc + ·) ++ w.lanes }
        else none
      | .fault _ => none
      | .refused _ => none

/-- The twelve single commands of R274. -/
def twelve : List Instr :=
  (List.range 4).flatMap fun k =>
    [.cdfInitMode (BitVec.ofNat 8 k), .cdfInitMv (BitVec.ofNat 8 k),
     .cdfInitCoef (BitVec.ofNat 8 k) (BitVec.ofNat 8 k)]

/-- A run from `s` of at most `k` steps reaches the end of the run (40_control.md R126). -/
def endsWithin (k : Nat) (s : State) : Prop :=
  ∃ t, Host.Core.run Sys2Proof.core k s = .next t ∧ (t.run = .done ∨ t.run = .faulted)

/-- The states that steps and host operations reach from a state. -/
inductive Reaches (s : State) : State → Prop where
  | start : Reaches s s
  | step {t u : State} : Reaches s t → Machine.step t = .next u → Reaches s u
  | host {t u : State} (op : HostOp) : Reaches s t → hostMove op t = some u → Reaches s u

end Sys2Proof.Safety
end

