-- ==== Sys2Proof/Safety/Headers.lean ====
section
/-! DEFINITION. Slice headers as data: what a header holds, under which SP indices its parameters stand,
and which elements it consists of, in order (spec/43_header_h264.md R191, R193, R197, R198,
spec/44_header_h265.md R221, R223, R226, R227). The claims about the two header sequencers are stated in
these terms; nothing here runs. A field of a header that its slice does not code is not looked at. The
element order is what the spec takes from general knowledge (log 20). -/

namespace Sys2Proof.Safety

open Sys2Proof.Machine

/-! ## Elements -/

/-- A stretch of a header: the words of SP it is read from, and the calls that put its bits. -/
structure Piece where
  reads : List (Nat × Word)
  puts : Script
deriving DecidableEq, Repr

/-- Nothing. -/
def Piece.none : Piece := ⟨[], []⟩

/-- Pieces one after the other. -/
def Piece.join (l : List Piece) : Piece := ⟨l.flatMap Piece.reads, l.flatMap Piece.puts⟩

/-- A parameter that is read and not put. -/
def readOnly (i : Nat) (v : Word) : Piece := ⟨[(i, v)], []⟩

/-- A parameter put in `n` bits. -/
def bitsOfParam (i : Nat) (v : Word) (n : Nat) : Piece := ⟨[(i, v)], [.bits v n]⟩

/-- A parameter put as `ue(v)`. -/
def ueOfParam (i : Nat) (v : Word) : Piece := ⟨[(i, v)], [.ue v]⟩

/-- A parameter put as `se(v)`. -/
def seOfParam (i : Nat) (v : Word) : Piece := ⟨[(i, v)], [.se v]⟩

/-- A flag of SP that is not put and says whether `x` follows. -/
def present {α : Type} (i : Nat) (x : Option α) (f : α → Piece) : Piece :=
  match x with
  | .none => readOnly i 0
  | .some a => Piece.join [readOnly i 1, f a]

/-- A flag of SP that is put and says whether `x` follows. -/
def flagged {α : Type} (i : Nat) (x : Option α) (f : α → Piece) : Piece :=
  match x with
  | .none => bitsOfParam i 0 1
  | .some a => Piece.join [bitsOfParam i 1 1, f a]

/-- A piece that is there under a condition. -/
def onlyIf (c : Prop) [Decidable c] (p : Piece) : Piece := if c then p else Piece.none

/-- A signed parameter within the bounds `-b` and `b` (42_header_template.md R179). -/
def within (b : Int) (v : Word) : Bool := -b ≤ v.toInt && v.toInt ≤ b

/-! ## H.264 -/

/-- The picture-order-count fields, one form for each `POC_TYPE` (R193 (3)). -/
inductive Poc264 where
  /-- type 0: `LOG2_MAX_POC_LSB_MINUS4`, `POC_LSB`, and perhaps `DELTA_POC_BOTTOM` -/
  | lsb (l v : Word) (bottom : Option Word)
  /-- type 1 with `DELTA_POC_ALWAYS_ZERO = 0`: `DELTA_POC0`, and perhaps `DELTA_POC1` -/
  | deltas (d₀ : Word) (d₁ : Option Word)
  /-- type 1 with `DELTA_POC_ALWAYS_ZERO = 1` -/
  | allZero
  /-- type 2 -/
  | inferred
deriving DecidableEq, Repr

/-- An H.264 slice header of the admitted subset (R191, R192). -/
structure Header264 where
  /-- `NAL_REF_IDC` -/
  nri : Word
  /-- `NAL_UNIT_TYPE`; 5 is an IDR picture -/
  nut : Word
  /-- `SLICE_TYPE` -/
  st : Word
  /-- `WEIGHTED_BIPRED_IDC`, read for a B slice -/
  biPred : Word
  /-- `PPS_ID` -/
  pps : Word
  /-- `LOG2_MAX_FRAME_NUM_MINUS4` -/
  log2FrameNum : Word
  /-- `FRAME_NUM` -/
  frameNum : Word
  /-- `IDR_PIC_ID`, coded for an IDR picture -/
  idrPicId : Word
  poc : Poc264
  /-- `REDUNDANT_PIC_CNT`, if present -/
  redundant : Option Word
  /-- `DIRECT_SPATIAL_MV_PRED`, coded for a B slice -/
  direct : Word
  /-- `L0_MINUS1` and `L1_MINUS1`, if overridden; coded for P and B, the second for B only -/
  counts : Option (Word × Word)
  /-- the entries of `RPLM_L0` before the terminator, if the list is modified; coded for P and B -/
  list0 : Option (List (Word × Word))
  /-- the same for `RPLM_L1`; coded for B -/
  list1 : Option (List (Word × Word))
  /-- `NO_OUTPUT_OF_PRIOR_PICS`, coded for an IDR picture -/
  noOutput : Word
  /-- `LONG_TERM_REFERENCE_FLAG`, coded for an IDR picture -/
  longTerm : Word
  /-- the entries `(op, a1, a2)` of `MMCO` before the end code, if marking is adaptive; coded for a
  reference picture that is not IDR -/
  mmco : Option (List (Word × Word × Word))
  /-- `ENTROPY_CODING_MODE` -/
  entropy : Word
  /-- `CABAC_INIT_IDC`, coded for P and B if `ENTROPY_CODING_MODE = 1` -/
  cabacInit : Word
  /-- `DISABLE_DEBLOCK_IDC` and the two offsets, if `DEBLOCK_CTRL_PRESENT`; the offsets are coded unless
  the first is 1 -/
  deblock : Option (Word × Word × Word)
deriving DecidableEq, Repr

namespace Header264

/-- `T`: 0 = P, 1 = B, 2 = I. -/
def kind (h : Header264) : Nat := h.st.toNat % 5

/-- The parameters that R193 (1) reads. -/
def steering (h : Header264) : Piece :=
  Piece.join
    [ readOnly 0x20 1, readOnly 0x21 0, readOnly 0x24 0, readOnly 0x01 h.nut, readOnly 0x00 h.nri,
      readOnly 0x02 h.st, onlyIf (h.kind = 0) (readOnly 0x22 0),
      onlyIf (h.kind = 1) (readOnly 0x23 h.biPred) ]

/-- The NAL unit header (R193 (2)). -/
def nal (h : Header264) : Script := [.bits 0 1, .bits h.nri 2, .bits h.nut 5]

/-- The picture-order-count fields. -/
def pocPiece : Poc264 → Piece
  | .lsb l v bottom => Piece.join
      [readOnly 0x07 0, readOnly 0x08 l, bitsOfParam 0x09 v (l.toNat + 4),
       present 0x0A bottom (seOfParam 0x0B)]
  | .deltas d₀ d₁ => Piece.join
      [readOnly 0x07 1, readOnly 0x0C 0, seOfParam 0x0D d₀, present 0x0A d₁ (seOfParam 0x0E)]
  | .allZero => Piece.join [readOnly 0x07 1, readOnly 0x0C 1]
  | .inferred => readOnly 0x07 2

/-- A reference-list-modification loop whose next entry stands at SP index `b` (R197): the code 3 ends
it, and the value word behind that code is not read. -/
def rplmFrom (b : Nat) : List (Word × Word) → Piece
  | [] => ueOfParam b 3
  | x :: xs => Piece.join [ueOfParam b x.1, ueOfParam (b + 1) x.2, rplmFrom (b + 2) xs]

/-- A memory-management-control loop whose next entry stands at SP index `b` (R198): operation 0 ends it,
operation 5 has no operand, operation 3 has two, every other one has one. -/
def mmcoFrom (b : Nat) : List (Word × Word × Word) → Piece
  | [] => ueOfParam b 0
  | x :: xs => Piece.join
      [ueOfParam b x.1, onlyIf (x.1 ≠ 5) (ueOfParam (b + 1) x.2.1),
       onlyIf (x.1 = 3) (ueOfParam (b + 2) x.2.2), mmcoFrom (b + 3) xs]

/-- `dec_ref_pic_marking()`, coded for a reference picture. -/
def marking (h : Header264) : Piece :=
  if h.nut = 5 then Piece.join [bitsOfParam 0x17 h.noOutput 1, bitsOfParam 0x18 h.longTerm 1]
  else flagged 0x19 h.mmco (mmcoFrom 0xC0)

/-- The elements from `slice_type` to `cabac_init_idc` (R193 (3)). -/
def fields (h : Header264) : Piece :=
  Piece.join
    [ ⟨[], [.ue h.st]⟩,
      ueOfParam 0x03 h.pps,
      readOnly 0x04 h.log2FrameNum,
      bitsOfParam 0x05 h.frameNum (h.log2FrameNum.toNat + 4),
      onlyIf (h.nut = 5) (ueOfParam 0x06 h.idrPicId),
      pocPiece h.poc,
      present 0x0F h.redundant (ueOfParam 0x10),
      onlyIf (h.kind = 1) (bitsOfParam 0x11 h.direct 1),
      onlyIf (h.kind ≠ 2) (flagged 0x12 h.counts fun c =>
        Piece.join [ueOfParam 0x13 c.1, onlyIf (h.kind = 1) (ueOfParam 0x14 c.2)]),
      onlyIf (h.kind ≠ 2) (flagged 0x15 h.list0 (rplmFrom 0x40)),
      onlyIf (h.kind = 1) (flagged 0x16 h.list1 (rplmFrom 0x80)),
      onlyIf (h.nri ≠ 0) h.marking,
      readOnly 0x1A h.entropy,
      onlyIf (h.entropy = 1 ∧ h.kind ≠ 2) (ueOfParam 0x1B h.cabacInit) ]

/-- The deblocking-filter overrides (R193 (5)). -/
def deblocking (h : Header264) : Piece :=
  present 0x1C h.deblock fun d =>
    Piece.join
      [ueOfParam 0x1D d.1,
       onlyIf (d.1 ≠ 1) (Piece.join [seOfParam 0x1E d.2.1, seOfParam 0x1F d.2.2])]

/-- Every word of SP that the command reads for this header, with its value. -/
def reads (h : Header264) : List (Nat × Word) :=
  (Piece.join [h.steering, h.fields, h.deblocking]).reads

/-- The ranges that end in a marker (R190). -/
def ranges (h : Header264) : List Range :=
  [⟨h.nal, .firstMb⟩, ⟨h.fields.puts, .sliceQpDelta⟩]

/-- The last range. -/
def last (h : Header264) : Script := h.deblocking.puts

/-- The ranges of a reference-list-modification list: at most 31 entries before the terminator (R197). -/
def rplmOk (l : List (Word × Word)) : Bool :=
  l.length ≤ 31 && l.all fun x => x.1.toNat ≤ 2 && x.2 != 0xFFFFFFFF

/-- The ranges of a memory-management-control list: at most 20 entries before the end code (R198). -/
def mmcoOk (l : List (Word × Word × Word)) : Bool :=
  l.length ≤ 20 && l.all fun x =>
    1 ≤ x.1.toNat && x.1.toNat ≤ 6 && x.2.1 != 0xFFFFFFFF && x.2.2 != 0xFFFFFFFF

/-- The ranges of the picture-order-count fields. -/
def pocOk : Poc264 → Bool
  | .lsb l v bottom => l.toNat ≤ 12 && v.toNat < 2 ^ (l.toNat + 4) && bottom != some 0x80000000
  | .deltas d₀ d₁ => d₀ != 0x80000000 && d₁ != some 0x80000000
  | .allZero => true
  | .inferred => true

/-- The ranges of R191 and the admitted subset of R192. -/
structure Ok (h : Header264) : Prop where
  nri : h.nri.toNat ≤ 3
  nut : h.nut = 1 ∨ h.nut = 5 ∧ h.nri ≠ 0 ∧ h.kind = 2
  st : h.st.toNat ≤ 9 ∧ h.kind ≤ 2
  biPred : h.biPred = 0 ∨ h.biPred = 2
  pps : h.pps.toNat ≤ 255
  frameNum : h.log2FrameNum.toNat ≤ 12 ∧ h.frameNum.toNat < 2 ^ (h.log2FrameNum.toNat + 4)
  idrPicId : h.idrPicId.toNat ≤ 65535
  poc : pocOk h.poc
  redundant : h.redundant.all fun v => v.toNat ≤ 127
  direct : h.direct.toNat ≤ 1
  counts : h.counts.all fun c => c.1.toNat ≤ 31 && c.2.toNat ≤ 31
  list0 : h.list0.all rplmOk
  list1 : h.list1.all rplmOk
  flags : h.noOutput.toNat ≤ 1 ∧ h.longTerm.toNat ≤ 1
  mmco : h.mmco.all mmcoOk
  entropy : h.entropy.toNat ≤ 1
  cabacInit : h.cabacInit.toNat ≤ 2
  deblock : h.deblock.all fun d => d.1.toNat ≤ 2 && within 6 d.2.1 && within 6 d.2.2

end Header264

/-! ## H.265 -/

/-- The short-term reference picture set of a slice (R223 (4)). -/
inductive RefSet265 where
  /-- one of the sets of the SPS: `ST_RPS_IDX`, put in `w` bits if there is more than one set -/
  | ofSps (idx : Word) (w : Nat)
  /-- coded in the header: the pairs of `S0` and of `S1` -/
  | coded (negative positive : List (Word × Word))
deriving DecidableEq, Repr

/-- An H.265 slice segment header of the admitted subset (R221, R222). -/
structure Header265 where
  /-- `NAL_UNIT_TYPE` -/
  nut : Word
  /-- `NUH_LAYER_ID` -/
  lid : Word
  /-- `TEMPORAL_ID_PLUS1` -/
  tid : Word
  /-- `SLICE_TYPE`: 0 = B, 1 = P, 2 = I -/
  st : Word
  /-- `NO_OUTPUT_OF_PRIOR_PICS`, coded for an IRAP picture -/
  noOutput : Word
  /-- `PPS_ID` -/
  pps : Word
  /-- `PIC_OUTPUT_FLAG`, if `OUTPUT_FLAG_PRESENT` -/
  picOutput : Option Word
  /-- `LOG2_MAX_POC_LSB_MINUS4`; this field and the next four are coded unless the picture is IDR -/
  log2PocLsb : Word
  /-- `POC_LSB` -/
  pocLsb : Word
  /-- `NUM_ST_RPS` -/
  numSets : Word
  refSet : RefSet265
  /-- `SLICE_TEMPORAL_MVP_ENABLED`, if `SPS_TEMPORAL_MVP_ENABLED` -/
  tmvp : Option Word
  /-- `SAO_ENABLED` -/
  sao : Word
  /-- `NUM_REF_IDX_OVERRIDE`; this field and those up to `merge` are coded for P and B -/
  override : Word
  /-- `L0_MINUS1` -/
  l0 : Word
  /-- `L1_MINUS1`, read for a B slice -/
  l1 : Word
  /-- `NUM_PIC_TOTAL_CURR`, the width of a list entry and the two modified lists, if
  `LISTS_MODIFICATION_PRESENT`; the lists are coded if the number is greater than 1, the second for B -/
  lists : Option (Word × Nat × Option (List Word) × Option (List Word))
  /-- `MVD_L1_ZERO`, coded for a B slice -/
  mvdL1Zero : Word
  /-- `CABAC_INIT_FLAG`, if `CABAC_INIT_PRESENT` -/
  cabacInit : Option Word
  /-- `COLLOCATED_FROM_L0`, coded for a B slice with the temporal predictor -/
  fromL0 : Word
  /-- `COLLOCATED_REF_IDX` -/
  collocated : Word
  /-- `FIVE_MINUS_MAX_NUM_MERGE_CAND` -/
  merge : Word
  /-- the two chroma offsets, if `CHROMA_QP_OFFSETS_PRESENT` -/
  chroma : Option (Word × Word)
  /-- `PPS_DEBLOCK_DISABLED` -/
  ppsDisabled : Word
  /-- if `DEBLOCK_OVERRIDE_ENABLED`: the override, if there is one, as `SLICE_DEBLOCK_DISABLED` and the
  two offsets, which are coded if the first is 0 -/
  deblock : Option (Option (Word × Word × Word))
  /-- `PPS_LF_ACROSS_SLICES_ENABLED` -/
  acrossSlices : Word
deriving DecidableEq, Repr

namespace Header265

/-- An IRAP picture. -/
def irap (h : Header265) : Bool := 16 ≤ h.nut.toNat && h.nut.toNat ≤ 23

/-- An IDR picture. -/
def idr (h : Header265) : Bool := h.nut = 19 ∨ h.nut = 20

/-- The parameters that R223 (1) reads. -/
def steering (h : Header265) : Piece :=
  Piece.join
    [ readOnly 0x130 0, readOnly 0x131 0, readOnly 0x132 0, readOnly 0x133 0, readOnly 0x136 0,
      readOnly 0x137 0, readOnly 0x138 0, readOnly 0x139 0, readOnly 0x100 h.nut,
      readOnly 0x101 h.lid, readOnly 0x102 h.tid, readOnly 0x105 h.st,
      onlyIf (h.st = 1) (readOnly 0x134 0), onlyIf (h.st = 0) (readOnly 0x135 0) ]

/-- The NAL unit header (R223 (2)). -/
def nal (h : Header265) : Script := [.bits 0 1, .bits h.nut 6, .bits h.lid 6, .bits h.tid 3]

/-- Up to the slice address (R223 (3)). -/
def address (h : Header265) : Piece :=
  Piece.join
    [ onlyIf (h.irap = true) (bitsOfParam 0x103 h.noOutput 1),
      ueOfParam 0x104 h.pps ]

/-- The pairs of a coded reference picture set from SP index `b` on (R226). -/
def pairsFrom (b : Nat) : List (Word × Word) → Piece
  | [] => Piece.none
  | x :: xs => Piece.join [ueOfParam b x.1, bitsOfParam (b + 1) x.2 1, pairsFrom (b + 2) xs]

/-- The reference picture set among `n` sets (R223 (4), R226). -/
def refSetPiece (n : Word) : RefSet265 → Piece
  | .ofSps idx w => Piece.join
      [bitsOfParam 0x10A 1 1, onlyIf (1 < n.toNat) (bitsOfParam 0x10C idx w)]
  | .coded negative positive => Piece.join
      [bitsOfParam 0x10A 0 1, onlyIf (n ≠ 0) (bitsOfParam 0x13A 0 1),
       ueOfParam 0x10D (BitVec.ofNat 32 negative.length),
       ueOfParam 0x10E (BitVec.ofNat 32 positive.length),
       pairsFrom 0x180 negative, pairsFrom 0x1A0 positive]

/-- The fields that an IDR picture does not have (R223 (4)). -/
def notIdr (h : Header265) : Piece :=
  Piece.join
    [ readOnly 0x108 h.log2PocLsb, bitsOfParam 0x109 h.pocLsb (h.log2PocLsb.toNat + 4),
      readOnly 0x10B h.numSets, refSetPiece h.numSets h.refSet,
      present 0x10F h.tmvp fun v => bitsOfParam 0x110 v 1 ]

/-- From `slice_type` to `slice_temporal_mvp_enabled_flag` (R223 (4)). -/
def picture (h : Header265) : Piece :=
  Piece.join
    [ ⟨[], [.ue h.st]⟩,
      present 0x106 h.picOutput fun v => bitsOfParam 0x107 v 1,
      onlyIf (h.idr = false) h.notIdr ]

/-- List entries of `w` bits from SP index `b` on (R227). -/
def entriesFrom (w b : Nat) : List Word → Piece
  | [] => Piece.none
  | x :: xs => Piece.join [bitsOfParam b x w, entriesFrom w (b + 1) xs]

/-- The collocated-picture fields (R223 (6)). -/
def collocatedPiece (h : Header265) : Piece :=
  let c := if h.st = 0 then h.fromL0 else 1
  Piece.join
    [ onlyIf (h.st = 0) (bitsOfParam 0x11C h.fromL0 1),
      onlyIf (c = 1 ∧ h.l0 ≠ 0 ∨ c = 0 ∧ h.l1 ≠ 0) (ueOfParam 0x11D h.collocated) ]

/-- The inter-prediction fields (R223 (6)), coded for P and B. -/
def inter (h : Header265) : Piece :=
  Piece.join
    [ bitsOfParam 0x112 h.override 1,
      readOnly 0x113 h.l0,
      onlyIf (h.st = 0) (readOnly 0x114 h.l1),
      onlyIf (h.override = 1) ⟨[], [.ue h.l0]⟩,
      onlyIf (h.override = 1 ∧ h.st = 0) ⟨[], [.ue h.l1]⟩,
      present 0x115 h.lists fun x =>
        Piece.join
          [ readOnly 0x116 x.1,
            onlyIf (1 < x.1.toNat) (flagged 0x117 x.2.2.1 (entriesFrom x.2.1 0x1C0)),
            onlyIf (1 < x.1.toNat ∧ h.st = 0) (flagged 0x118 x.2.2.2 (entriesFrom x.2.1 0x1D0)) ],
      onlyIf (h.st = 0) (bitsOfParam 0x119 h.mvdL1Zero 1),
      present 0x11A h.cabacInit fun v => bitsOfParam 0x11B v 1,
      onlyIf (h.tmvp = some 1) h.collocatedPiece,
      ueOfParam 0x11E h.merge ]

/-- The inter-prediction fields, or nothing for an I slice. -/
def interOrNone (h : Header265) : Piece := onlyIf (h.st ≠ 2) h.inter

/-- Chroma offsets and deblocking overrides (R223 (8)). -/
def offsets (h : Header265) : Piece :=
  Piece.join
    [ present 0x11F h.chroma fun c => Piece.join [seOfParam 0x120 c.1, seOfParam 0x121 c.2],
      readOnly 0x128 h.ppsDisabled,
      present 0x122 h.deblock fun o => flagged 0x123 o fun d =>
        Piece.join
          [ bitsOfParam 0x124 d.1 1,
            onlyIf (d.1 = 0) (Piece.join [seOfParam 0x125 d.2.1, seOfParam 0x126 d.2.2]) ] ]

/-- Whether the deblocking filter is disabled for the slice: the override's value if there is one, else
the value of the PPS (R223 (8)). -/
def disabled (h : Header265) : Word :=
  match h.deblock with
  | some (some d) => d.1
  | some none => h.ppsDisabled
  | none => h.ppsDisabled

/-- Every word of SP that the command reads for this header, with its value. -/
def reads (h : Header265) : List (Nat × Word) :=
  (Piece.join [h.steering, h.address, h.picture, readOnly 0x111 h.sao, h.interOrNone, h.offsets,
    readOnly 0x127 h.acrossSlices]).reads

/-- The ranges before the chroma offsets (R223 (2) to (7)). -/
def firstRanges (h : Header265) : List Range :=
  [⟨h.nal, .firstSlice⟩, ⟨h.address.puts, .sliceSegment⟩] ++
    if h.sao = 1 then [⟨h.picture.puts, .saoEnable⟩, ⟨h.interOrNone.puts, .sliceQpDelta⟩]
    else [⟨h.picture.puts ++ h.interOrNone.puts, .sliceQpDelta⟩]

/-- Whether the marker `LF_ACROSS_SLICES` is there (R223 (9)). -/
def marksAcross (h : Header265) : Bool := h.acrossSlices = 1 ∧ (h.sao = 1 ∨ h.disabled = 0)

/-- The ranges that end in a marker (R220). -/
def ranges (h : Header265) : List Range :=
  h.firstRanges ++ if h.marksAcross then [⟨h.offsets.puts, .lfAcrossSlices⟩] else []

/-- The last range. -/
def last (h : Header265) : Script := if h.marksAcross then [] else h.offsets.puts

/-- `w` is `clog2(n)` for `n` greater than 1: the least width that holds `n` values. -/
def widthOf (n w : Nat) : Bool := n ≤ 2 ^ w && 2 ^ w < 2 * n

/-- The ranges of a list of pairs of a reference picture set (R226). -/
def pairsOk (l : List (Word × Word)) : Bool :=
  l.length ≤ 16 && l.all fun x => x.1.toNat ≤ 32767 && x.2.toNat ≤ 1

/-- The ranges of a reference picture set among `n` sets. -/
def refSetOk (n : Nat) : RefSet265 → Bool
  | .ofSps idx w => idx.toNat < n && widthOf n w
  | .coded negative positive => pairsOk negative && pairsOk positive

/-- The ranges of a list modification: `l + 1` entries, each below `n` (R227). -/
def listOk (n l : Nat) (x : Option (List Word)) : Bool :=
  x.all fun es => es.length == l + 1 && es.all fun v => v.toNat < n

/-- The ranges of what `LISTS_MODIFICATION_PRESENT` announces, for `l0 + 1` and `l1 + 1` entries. -/
def listsOk (l0 l1 : Nat) (x : Word × Nat × Option (List Word) × Option (List Word)) : Bool :=
  x.1.toNat ≤ 1 ||
    (x.1.toNat ≤ 16 && widthOf x.1.toNat x.2.1 && listOk x.1.toNat l0 x.2.2.1 &&
      listOk x.1.toNat l1 x.2.2.2)

/-- The ranges of R221 and the admitted subset of R222. -/
structure Ok (h : Header265) : Prop where
  nut : h.nut.toNat ≤ 9 ∨ 16 ≤ h.nut.toNat ∧ h.nut.toNat ≤ 21 ∧ h.st = 2
  lid : h.lid.toNat ≤ 63
  tid : 1 ≤ h.tid.toNat ∧ h.tid.toNat ≤ 7
  st : h.st.toNat ≤ 2
  noOutput : h.noOutput.toNat ≤ 1
  pps : h.pps.toNat ≤ 63
  picOutput : h.picOutput.all fun v => v.toNat ≤ 1
  pocLsb : h.log2PocLsb.toNat ≤ 12 ∧ h.pocLsb.toNat < 2 ^ (h.log2PocLsb.toNat + 4)
  numSets : h.numSets.toNat ≤ 64
  refSet : refSetOk h.numSets.toNat h.refSet
  tmvp : h.tmvp.all fun v => v.toNat ≤ 1
  sao : h.sao.toNat ≤ 1
  override : h.override.toNat ≤ 1
  counts : h.l0.toNat ≤ 14 ∧ h.l1.toNat ≤ 14
  lists : h.lists.all (listsOk h.l0.toNat h.l1.toNat)
  mvdL1Zero : h.mvdL1Zero.toNat ≤ 1
  cabacInit : h.cabacInit.all fun v => v.toNat ≤ 1
  fromL0 : h.fromL0.toNat ≤ 1
  collocated : h.collocated.toNat ≤ 14
  merge : h.merge.toNat ≤ 4
  chroma : h.chroma.all fun c => within 12 c.1 && within 12 c.2
  ppsDisabled : h.ppsDisabled.toNat ≤ 1
  deblock : h.deblock.all fun o => o.all fun d =>
    d.1.toNat ≤ 1 && within 6 d.2.1 && within 6 d.2.2
  acrossSlices : h.acrossSlices.toNat ≤ 1

end Header265

/-! ## The checks that open a header sequence (R193 (1), R223 (1)) -/

/-- The word that `SP[i]` holds, if it is written (42_header_template.md R178). -/
def written (sp : Memory SpCell) (i : Nat) : Option Word :=
  (Memory.read sp i).bind fun c => if c.written then some c.word else none

/-- One check: an SP index, and for the word there the code of the fault that refuses it. -/
structure Check where
  index : Nat
  refuses : Word → Option Byte

/-- The first check that refuses, as fault code and SP index; an unwritten word is refused with
`SpUnwritten` (0x24). -/
def firstRefusal (sp : Memory SpCell) : List Check → Option (Byte × Nat)
  | [] => none
  | c :: cs =>
    match written sp c.index with
    | none => some (0x24, c.index)
    | some v =>
      match c.refuses v with
      | some code => some (code, c.index)
      | none => firstRefusal sp cs

/-- `Z(i)`: `HeUnsupported` (0x26) unless the word is 0. -/
def zeroCheck (i : Nat) : Check := ⟨i, fun v => if v = 0 then none else some 0x26⟩

/-- A range: `HeParamRange` (0x25) outside. -/
def rangeCheck (i lo hi : Nat) : Check :=
  ⟨i, fun v => if lo ≤ v.toNat ∧ v.toNat ≤ hi then none else some 0x25⟩

/-- The checks that R193 (1) makes for the slice type `T` at the end. -/
def weightChecks264 (st : Option Word) : List Check :=
  match st with
  | some v =>
    if v.toNat % 5 = 0 then [zeroCheck 0x22]
    else if v.toNat % 5 = 1 then
      [rangeCheck 0x23 0 2, ⟨0x23, fun w => if w = 1 then some 0x26 else none⟩]
    else []
  | none => []

/-- The checks of R193 (1), in order. -/
def checks264 (sp : Memory SpCell) : List Check :=
  [ ⟨0x20, fun v => if v = 1 then none else some 0x26⟩, zeroCheck 0x21, zeroCheck 0x24,
    ⟨0x01, fun v => if v = 1 ∨ v = 5 then none else some 0x26⟩,
    rangeCheck 0x00 0 3,
    ⟨0x00, fun v => if written sp 0x01 = some 5 ∧ v = 0 then some 0x25 else none⟩,
    rangeCheck 0x02 0 9,
    ⟨0x02, fun v => if 2 < v.toNat % 5 then some 0x26 else none⟩,
    ⟨0x02, fun v => if written sp 0x01 = some 5 ∧ v.toNat % 5 ≠ 2 then some 0x25 else none⟩ ] ++
  weightChecks264 (written sp 0x02)

/-- The checks that R223 (1) makes for the slice type at the end. -/
def weightChecks265 (st : Option Word) : List Check :=
  if st = some 1 then [zeroCheck 0x134] else if st = some 0 then [zeroCheck 0x135] else []

/-- The checks of R223 (1), in order. -/
def checks265 (sp : Memory SpCell) : List Check :=
  [ zeroCheck 0x130, zeroCheck 0x131, zeroCheck 0x132, zeroCheck 0x133, zeroCheck 0x136,
    zeroCheck 0x137, zeroCheck 0x138, zeroCheck 0x139,
    ⟨0x100, fun v => if v.toNat ≤ 9 ∨ 16 ≤ v.toNat ∧ v.toNat ≤ 21 then none else some 0x26⟩,
    rangeCheck 0x101 0 63, rangeCheck 0x102 1 7, rangeCheck 0x105 0 2,
    ⟨0x105, fun v =>
      if (written sp 0x100).any (fun n => 16 ≤ n.toNat && n.toNat ≤ 23) ∧ v ≠ 2 then some 0x25
      else none⟩ ] ++
  weightChecks265 (written sp 0x105)

end Sys2Proof.Safety
end

