-- ==== Sys2Proof/WellFormed.lean ====
section
/-! DEFINITION. The field ranges that spec/30_encoding.md R97 checks in step (4) of the decode order
R98: a command that is not well-formed raises `BadField`. The index of `HE_SETP` and the slots of
`DPB_REF` and `DPB_LOOKUP` are not checked here: R97 gives their ranges to the commands' own rules. -/

namespace Sys2Proof

/-- Every header field is inside the fixed range of R95; `dpbSlots` is the parameter `DPB_SLOTS`. -/
def Instr.wellFormed (dpbSlots : Nat) : Instr → Bool
  | .endRun => true
  | .bwReset => true
  | .bwSetep en => en.toNat ≤ 1
  | .bwPut n _ => n.toNat ≤ 32
  | .bwUe _ => true
  | .bwSe _ => true
  | .bwAlign => true
  | .bwFlush => true
  | .heCopy => true
  | .heMark kind => 2 ≤ kind.toNat && kind.toNat ≤ 7
  | .heEnd => true
  | .heSetp _ _ => true
  | .heClrp => true
  | .heH264Slice => true
  | .heH265Slice => true
  | .fgSeed plane _ => plane.toNat ≤ 2
  | .fgRand bits => 1 ≤ bits.toNat && bits.toNat ≤ 16
  | .cdfInitMode slot => slot.toNat ≤ 3
  | .cdfInitMv slot => slot.toNat ≤ 3
  | .cdfInitCoef slot index => slot.toNat ≤ 3 && index.toNat ≤ 3
  | .cdfSeedAll => true
  | .dpbSession codec maxRefs => codec.toNat ≤ 2 && maxRefs.toNat < dpbSlots
  | .dpbBegin _ => true
  | .dpbRef _ _ => true
  | .dpbCommit => true
  | .dpbLookup _ => true

end Sys2Proof
end

