-- ==== Sys2Proof/Certificates/Slice0/Obligations.lean ====
section
/-! DEFINITION. The statements about the model. Each docstring names the rule of spec/ it formalises; a
clause that rests on a choice of the model names its log entry. -/

open Sys2Proof Sys2Proof.Machine Sys2Proof.Safety

/-! ## Encoding (spec/30_encoding.md) -/

/-- Decoding the encoding of a command gives the command back, with every field and operand at every
value the encoding admits, whatever follows it in the stream (R90 to R95). -/
def Obligations.DecodeEncode : Prop :=
  ∀ (i : Instr) (rest : List Word), decode (encode i ++ rest) = .ok i

/-- What decodes to a command begins with the encoding of that command: no bit of a header or operand
word is dropped, and the command has the length of R92. -/
def Obligations.DecodedWordsAreEncoding : Prop :=
  ∀ (ws : List Word) (i : Instr), decode ws = .ok i → ws.take (instrLength i) = encode i

/-- R96: a header is illegal when its `op` is not in R95 or a must-be-zero bit is 1; the decoder calls
exactly these illegal, whatever the rest of the stream is, and the step raises `IllegalCommand` with the
header; the all-zero and the all-ones word are illegal. -/
def Obligations.IllegalHeader : Prop :=
  (∀ (w : Word) (ops : List Word), decode (w :: ops) = .error (.illegal w) ↔ ¬legal w) ∧
  (∀ (s : State) (w : Word) (ops : List Word), s.run = .running → s.cmd.drop s.cp.toNat = w :: ops →
    ¬legal w → step s = .next (recorded 0x02 w s)) ∧
  ¬legal 0 ∧ ¬legal 0xFFFFFFFF

/-- A few words written out from the table of R99 decode to the commands they stand for. -/
def Obligations.SampleWordsDecode : Prop :=
  decode [0x01000000] = .ok .endRun ∧
  decode [0x11010000] = .ok (.bwSetep 1) ∧
  decode [0x12080000, 0x00000065] = .ok (.bwPut 8 0x65) ∧
  decode [0x21030000] = .ok (.heMark 3) ∧
  decode [0x230001FF, 0xFFFFFFFA] = .ok (.heSetp 511 0xFFFFFFFA) ∧
  decode [0x30011234] = .ok (.fgSeed 1 0x1234) ∧
  decode [0x3A020300] = .ok (.cdfInitCoef 2 3) ∧
  decode [0x40020700] = .ok (.dpbSession 2 7) ∧
  decode [0x42010000, 0x23460000, 0x00000001] = .ok (.dpbRef 1 0x123460000)

/-! ## Sequencer (spec/40_control.md, spec/60_exceptions.md, spec/70_reset_and_hazards.md) -/

/-- While `RUNNING`, a step runs the command that the words at `cp` decode to: the step is `exec` of
that command and nothing around it (R122, R123). -/
def Obligations.StepRunsDecoded : Prop :=
  ∀ (s : State) (i : Instr), s.run = .running → decode (s.cmd.drop s.cp.toNat) = .ok i →
    step s = exec i s

/-- The two `CmdFetch` faults of R98: (1) no header word at `cp`: the information is `cp`; (3) the
stream ends inside the operand words of a command: the information is `CMD_LEN`. -/
def Obligations.FetchFaults : Prop :=
  (∀ s : State, s.run = .running → s.cmd.length ≤ s.cp.toNat →
    step s = .next (recorded 0x01 s.cp s)) ∧
  (∀ (s : State) (i : Instr) (n : Nat), s.run = .running → 0 < n → n < instrLength i →
    s.cmd.drop s.cp.toNat = (encode i).take n →
    step s = .next (recorded 0x01 (BitVec.ofNat 32 s.cmd.length) s))

/-- R97: a command whose field lies outside its range raises `BadField` with its header word, and no
other command raises it. -/
def Obligations.BadFields : Prop :=
  (∀ (i : Instr) (s : State), i.wellFormed s.params.dpbSlots = false →
    exec i s = .next (recorded 0x03 (encodeHeader i) s)) ∧
  (∀ (i : Instr) (s : State) (info : Word), i.wellFormed s.params.dpbSlots = true →
    s.run = .running → exec i s ≠ .next (recorded 0x03 info s))

/-- A command either completes, `cp` moving past its words (R123), `run` staying `RUNNING` but for `END`
(R125) and the fault record staying as it was (R22); or it enters a fault, which writes `fault_code`,
`fault_cp`, `fault_info` and `run` and nothing else (R323). -/
def Obligations.CommandEnds : Prop :=
  ∀ (i : Instr) (s t : State), s.run = .running → exec i s = .next t →
    (t.cp = s.cp + BitVec.ofNat 32 (instrLength i) ∧
      t.run = (if i = .endRun then .done else .running) ∧
      t.faultCode = s.faultCode ∧ t.faultCp = s.faultCp ∧ t.faultInfo = s.faultInfo) ∨
    ∃ f info, t = recorded (faultCodeOf f) info s

/-- A completed command writes only the parts of the state that its own rule names: every other unit
keeps its state. -/
def Obligations.UnitFrames : Prop :=
  ∀ (i : Instr) (s t : State), exec i s = .next t →
    (Part.enc ∉ writes i → t.enc = s.enc) ∧
    (Part.sp ∉ writes i → t.sp = s.sp) ∧
    (Part.lfsr ∉ writes i → t.lfsr = s.lfsr ∧ t.fgSeeded = s.fgSeeded) ∧
    (Part.res ∉ writes i → t.res = s.res ∧ t.resValid = s.resValid) ∧
    (Part.cdf ∉ writes i → t.cdf = s.cdf) ∧
    (Part.dpb ∉ writes i → t.dpb = s.dpb)

/-- Outside `RUNNING` a step changes nothing. R20 says that no command is executed; that the step is then
the identity is the model's choice (log 9). -/
def Obligations.OnlyRunningExecutes : Prop :=
  ∀ s : State, s.run ≠ .running → step s = .next s

/-- No step changes the command stream or a parameter (R45; they stand in `State` by log 2). -/
def Obligations.RunArgumentsKept : Prop :=
  ∀ s t : State, step s = .next t →
    t.cmd = s.cmd ∧ t.outCapWords = s.outCapWords ∧ t.params = s.params

/-- `END` (R125) completes in every state: `run` becomes `DONE`, `cp` moves by 1, nothing else changes. -/
def Obligations.EndStopsRun : Prop :=
  ∀ s : State, exec .endRun s = .next { s with run := .done, cp := s.cp + 1 }

/-- R126: a run always ends, in `DONE` or in `FAULTED`. The bound, from a running state that meets the
invariant, is derived: as many steps as words are left, and one more, since every command that completes
has a word of its own. That a step after the end changes nothing, so that the run stays ended up to the
bound, is the model's reading (log 9). -/
def Obligations.RunEnds : Prop :=
  ∀ s : State, Inv s → s.run = .running → endsWithin (s.cmd.length - s.cp.toNat + 1) s

/-- R46, R350: what `hw_reset` leaves, from any state, and what the machine holds at `State.reset`:
every register at its reset value and every memory element unwritten. Nothing is said about `res`. -/
def Obligations.ResetValues : Prop :=
  ∀ s t : State, t = State.reset ∨ hostMove .hwReset s = some t →
    t.run = .idle ∧ t.cp = 0 ∧ t.faultCode = 0 ∧ t.faultCp = 0 ∧ t.faultInfo = 0 ∧
    t.resValid = false ∧
    t.enc.shifter = 0 ∧ t.enc.nbits = 0 ∧ t.enc.ep = false ∧ t.enc.nz = 0 ∧ t.enc.bitsOut = 0 ∧
    t.enc.outWi = 0 ∧ t.enc.outBi = 0 ∧ (∀ a, Memory.read t.enc.out a = none) ∧
    t.enc.ilCount = 0 ∧ t.enc.bitsCopied = 0 ∧ t.enc.tmplDone = false ∧
    (∀ a, Memory.read t.enc.il a = none) ∧ (∀ a, unwritten t.sp a) ∧
    t.lfsr = 0 ∧ t.fgSeeded = false ∧
    (∀ k : Fin 4, (∀ a, Memory.read t.cdf[k].mem a = none) ∧ t.cdf[k].modeOk = false ∧
      t.cdf[k].mvOk = false ∧ t.cdf[k].coefOk = false ∧ t.cdf[k].coefIdx = 0) ∧
    t.dpb.mode = .none ∧ t.dpb.codec = .h264 ∧ t.dpb.m = 0 ∧ t.dpb.isOpen = false ∧
    t.dpb.valid = false ∧ t.dpb.cur = 0 ∧ t.dpb.used = 0 ∧ (∀ a, Memory.read t.dpb.table a = none)

/-- The reset state meets the invariant. -/
def Obligations.ResetInvariant : Prop := Inv State.reset

/-- R120, R121: `load` and `start` are moves of the host in `IDLE` and `DONE` only. `load`, with arguments
in the ranges of R8, replaces the command stream and `OUT_CAP_WORDS` and changes nothing else; `start`
sets `cp` to 0 and `run` to `RUNNING` and changes nothing else. That a refused operation is no move, where
R120 only says that it is not allowed, is the model's reading (log 10). -/
def Obligations.LoadAndStart : Prop :=
  ∀ s : State,
    (s.run = .idle ∨ s.run = .done →
      hostMove .start s = some { s with cp := 0, run := .running } ∧
      ∀ (cmd : List Word) (cap : Nat), cmd.length ≤ 2 ^ 32 - 1 → 1 ≤ cap → cap ≤ 2 ^ 26 →
        hostMove (.load cmd cap) s = some { s with cmd := cmd, outCapWords := cap }) ∧
    (s.run = .running ∨ s.run = .faulted →
      hostMove .start s = none ∧
      ∀ (cmd : List Word) (cap : Nat), hostMove (.load cmd cap) s = none)

/-- The CSR space and the host's reads (R42, R43, R77). While `RUNNING` only `STATUS` is readable. Otherwise
each CSR of the table holds its fields at the bits the table names, `RES_LO` and `RES_HI` have no value
while `res_valid = 0`, a reserved number reads 0, and OUT, IL, SLOT and DPBT read as they stand. The
information of `DpbOrder` has the layout of `DPB_CTL`. That a read without a specified value is answered by
none is the model's form (log 17); a read of OUT above the capacity is its choice (log 25). -/
def Obligations.HostReads : Prop :=
  ∀ s : State,
    (csrRead 0 s).map BitVec.toNat =
      some (match s.run with | .idle => 0 | .running => 1 | .done => 2 | .faulted => 3) ∧
    (s.run = .running →
      (∀ n, n ≠ 0 → csrRead n s = none) ∧
      ∀ i, hostReadOut i s = none ∧ hostReadIl i s = none ∧ hostReadDpbt i s = none ∧
        ∀ k : Fin 4, hostReadSlot k i s = none) ∧
    (s.run ≠ .running →
      (∀ x ∈ ([(0x01, s.cp.toNat), (0x02, s.faultCode.toNat), (0x03, s.faultCp.toNat),
          (0x04, s.faultInfo.toNat), (0x07, s.resValid.toNat), (0x08, s.enc.shifter.toNat),
          (0x09, s.enc.nbits.toNat + 2 ^ 8 * s.enc.ep.toNat + 2 ^ 16 * s.enc.nz.toNat),
          (0x0A, s.enc.bitsOut.toNat), (0x0B, s.enc.outWi.toNat), (0x0C, s.enc.outBi.toNat),
          (0x0D, s.enc.ilCount.toNat + 2 ^ 8 * s.enc.tmplDone.toNat),
          (0x0E, s.enc.bitsCopied.toNat), (0x10, s.lfsr.toNat + 2 ^ 16 * s.fgSeeded.toNat),
          (0x18, ((List.finRange 4).map fun k => 2 ^ (8 * k.val) *
            (s.cdf[k].modeOk.toNat + 2 * s.cdf[k].mvOk.toNat + 4 * s.cdf[k].coefOk.toNat +
              16 * s.cdf[k].coefIdx.toNat)).sum),
          (0x20, (dpbCtl s.dpb).toNat), (0x21, s.dpb.used.toNat),
          (0x22, s.dpb.cur.toNat % 2 ^ 32), (0x23, s.dpb.cur.toNat / 2 ^ 32),
          (0x30, s.params.hwGen.toNat + 2 ^ 8 * s.params.cdfLayout.toNat)] : List (Nat × Nat)),
        (csrRead x.1 s).map BitVec.toNat = some x.2) ∧
      (s.resValid = true →
        (csrRead 0x05 s).map BitVec.toNat = some (s.res.toNat % 2 ^ 32) ∧
        (csrRead 0x06 s).map BitVec.toNat = some (s.res.toNat / 2 ^ 32)) ∧
      (s.resValid = false → csrRead 0x05 s = none ∧ csrRead 0x06 s = none) ∧
      (∀ n, n ∉ ([0x00, 0x01, 0x02, 0x03, 0x04, 0x05, 0x06, 0x07, 0x08, 0x09, 0x0A, 0x0B, 0x0C, 0x0D,
          0x0E, 0x10, 0x18, 0x20, 0x21, 0x22, 0x23, 0x30] : List Nat) → csrRead n s = some 0) ∧
      ∀ i,
        hostReadOut i s = Memory.read s.enc.out i ∧
        (Memory.read s.enc.il i = none → hostReadIl i s = none) ∧
        (∀ (kind : IlKind) (code : Byte) (n : Word),
          (kind, code) ∈ ([(.endList, 0), (.copy, 1), (.firstMb, 2), (.sliceQpDelta, 3),
            (.firstSlice, 4), (.sliceSegment, 5), (.saoEnable, 6), (.lfAcrossSlices, 7)] :
            List (IlKind × Byte)) →
          Memory.read s.enc.il i = some ⟨kind, n⟩ → hostReadIl i s = some (code, n)) ∧
        (∀ k : Fin 4, hostReadSlot k i s = Memory.read s.cdf[k].mem i) ∧
        hostReadDpbt i s = Memory.read s.dpb.table i) ∧
    (dpbCtl s.dpb).toNat =
      (match s.dpb.mode with | .none => 0 | .fixed => 1 | .dynamicT2 => 2) +
      2 ^ 4 * (match s.dpb.codec with | .h264 => 0 | .h265 => 1 | .av1 => 2) +
      2 ^ 8 * s.dpb.m.toNat + 2 ^ 16 * s.dpb.isOpen.toNat + 2 ^ 17 * s.dpb.valid.toNat

/-- R324: in `FAULTED` nothing is executed, `load` and `start` are refused, and the only exit is
`hw_reset`, after which `fault_code = 0`. That nothing is executed is read as a step that changes nothing
(log 9). -/
def Obligations.FaultedStays : Prop :=
  ∀ s : State, s.run = .faulted →
    step s = .next s ∧
    (∀ op t, hostMove op s = some t → op = .hwReset) ∧
    ∃ t, hostMove .hwReset s = some t ∧ t.run = .idle ∧ t.faultCode = 0

/-! ## Invariants -/

/-- In every state that meets the invariant, no step stops the machine (log 6), and the next state meets
the invariant. -/
def Obligations.StepKeepsInvariant : Prop :=
  ∀ s : State, Inv s → ∃ t, step s = .next t ∧ Inv t

/-- Every operation of the host keeps the invariant. -/
def Obligations.HostKeepsInvariant : Prop :=
  ∀ (op : HostOp) (s t : State), Inv s → hostMove op s = some t → Inv t

/-- Every command keeps the invariant of the bit writer and the template (R25 to R33, R181), and a command
that finds the output position inside OUT, or at its end, leaves it so (R30). The invariant itself bounds
the position by the greatest capacity only, since a load may lower `OUT_CAP_WORDS` below a position that
an earlier run left (log 11). -/
def Obligations.EncoderInvariantKept : Prop :=
  ∀ (i : Instr) (s t : State), EncInv s.params.ilMax s.enc → s.outCapWords ≤ outCapLimit →
    s.params.ilMax ≤ 255 → exec i s = .next t →
    EncInv s.params.ilMax t.enc ∧
    (pos s.enc ≤ 4 * s.outCapWords → pos t.enc ≤ 4 * t.outCapWords)

/-- Every command keeps the invariant of the CDF slots: a region whose `ok` bit is 1 holds its table, and
no byte outside such a region is written (R275). -/
def Obligations.SlotInvariantKept : Prop :=
  ∀ (i : Instr) (s t : State), s.params.layout.wf = true → CdfInv s.params.layout s.cdf →
    exec i s = .next t → CdfInv s.params.layout t.cdf

/-- Every command keeps the invariant of the mapper, among it the table invariant of R298. -/
def Obligations.MapperInvariantKept : Prop :=
  ∀ (i : Instr) (s t : State), s.params.dpbSlots ≤ 32 → DpbInv s.params s.dpb →
    exec i s = .next t → DpbInv s.params t.dpb

/-! ## Unit BW (spec/41_bitwriter.md) -/

/-- `BW_RESET` (R132) completes in every state: the ten registers are cleared; OUT, IL and everything
else are as before. -/
def Obligations.BwResetClears : Prop :=
  ∀ s : State, ∃ e : Encoder,
    exec .bwReset s = .next { s with cp := s.cp + 1, enc := e } ∧
    e.shifter = 0 ∧ e.nbits = 0 ∧ e.ep = false ∧ e.nz = 0 ∧ e.bitsOut = 0 ∧ e.outWi = 0 ∧ e.outBi = 0 ∧
    e.ilCount = 0 ∧ e.bitsCopied = 0 ∧ e.tmplDone = false ∧ e.out = s.enc.out ∧ e.il = s.enc.il

/-- `BW_SETEP` (R134) completes for `en` 0 and 1: a change of the flag also clears `nz`, the same value
changes nothing. -/
def Obligations.BwSetepSets : Prop :=
  ∀ (en : Byte) (b : Bool) (s : State), en = 0 ∧ b = false ∨ en = 1 ∧ b = true →
    exec (.bwSetep en) s =
      .next { s with
        cp := s.cp + 1
        enc := if s.enc.ep = b then s.enc else { s.enc with ep := b, nz := 0 } }

/-- `BW_PUT` (R138) completes whenever OUT has room: the low `n` bits of the value, most significant
first, go behind the held bits, and the whole bytes go through emulation prevention into OUT (R135,
R137). -/
def Obligations.BwPutFeeds : Prop :=
  ∀ (n : Byte) (value : Word) (s : State), n.toNat ≤ 32 → Writable s →
    roomFor s.outCapWords s.enc (bitsOf value.toNat n.toNat) →
    ∃ e, exec (.bwPut n value) s = .next { s with cp := s.cp + 2, enc := e } ∧
      Fed s.enc e (bitsOf value.toNat n.toNat)

/-- `BW_UE` (R140) completes for every value but `2^32 - 1` whenever OUT has room, and puts the
Exp-Golomb code of the value: `k` zero bits, then the `k + 1` bits of `v + 1` (R139). -/
def Obligations.BwUeFeeds : Prop :=
  ∀ (v : Word) (s : State), v ≠ 0xFFFFFFFF → Writable s →
    roomFor s.outCapWords s.enc (ueBits v.toNat) →
    ∃ e, exec (.bwUe v) s = .next { s with cp := s.cp + 2, enc := e } ∧ Fed s.enc e (ueBits v.toNat)

/-- `BW_SE` (R142) completes for every operand but `-2^31` whenever OUT has room, and puts the code of
`2v - 1` for a positive `v` and of `-2v` otherwise, without wrap (R141). -/
def Obligations.BwSeFeeds : Prop :=
  ∀ (v : Word) (u : Nat) (s : State), v ≠ 0x80000000 →
    (u : Int) = (if 0 < v.toInt then 2 * v.toInt - 1 else -2 * v.toInt) → Writable s →
    roomFor s.outCapWords s.enc (ueBits u) →
    ∃ e, exec (.bwSe v) s = .next { s with cp := s.cp + 2, enc := e } ∧ Fed s.enc e (ueBits u)

/-- `BW_ALIGN` (R144) completes whenever OUT has room: zero bits up to the next byte boundary are put,
and no bit is held afterwards. -/
def Obligations.BwAlignPads : Prop :=
  ∀ s : State, Writable s →
    roomFor s.outCapWords s.enc (List.replicate ((8 - s.enc.nbits.toNat) % 8) false) →
    ∃ e, exec .bwAlign s = .next { s with cp := s.cp + 1, enc := e } ∧
      Fed s.enc e (List.replicate ((8 - s.enc.nbits.toNat) % 8) false) ∧ e.nbits = 0

/-- `BW_FLUSH` (R147) completes whenever OUT has room: the held bits leave as one byte padded with
zeros, of which only the real bits are counted, and the position moves to the next word boundary
(R146). -/
def Obligations.BwFlushEmpties : Prop :=
  ∀ s : State, Writable s → roomForFlush s.outCapWords s.enc →
    ∃ e, exec .bwFlush s = .next { s with cp := s.cp + 1, enc := e } ∧ Flushed s.enc e

/-- The faults of unit BW: `OutOverflow` with the word index that OUT lacks, when a byte finds no room
(R133); `UeRange` and `SeRange` for the two values without a code (R140, R142). -/
def Obligations.BwFaults : Prop :=
  (∀ s : State, Writable s →
    (∀ (n : Byte) (value : Word), n.toNat ≤ 32 →
      ¬roomFor s.outCapWords s.enc (bitsOf value.toNat n.toNat) →
      exec (.bwPut n value) s =
        .next (recorded 0x10 (BitVec.ofNat 32 (max s.outCapWords s.enc.outWi.toNat)) s)) ∧
    (∀ v : Word, v ≠ 0xFFFFFFFF → ¬roomFor s.outCapWords s.enc (ueBits v.toNat) →
      exec (.bwUe v) s =
        .next (recorded 0x10 (BitVec.ofNat 32 (max s.outCapWords s.enc.outWi.toNat)) s)) ∧
    (∀ v : Word, v ≠ 0x80000000 → ¬roomFor s.outCapWords s.enc (ueBits (seMap v.toInt)) →
      exec (.bwSe v) s =
        .next (recorded 0x10 (BitVec.ofNat 32 (max s.outCapWords s.enc.outWi.toNat)) s)) ∧
    (¬roomFor s.outCapWords s.enc (List.replicate ((8 - s.enc.nbits.toNat) % 8) false) →
      exec .bwAlign s =
        .next (recorded 0x10 (BitVec.ofNat 32 (max s.outCapWords s.enc.outWi.toNat)) s)) ∧
    (¬roomForFlush s.outCapWords s.enc →
      exec .bwFlush s =
        .next (recorded 0x10 (BitVec.ofNat 32 (max s.outCapWords s.enc.outWi.toNat)) s))) ∧
  (∀ s : State, exec (.bwUe 0xFFFFFFFF) s = .next (recorded 0x11 0xFFFFFFFF s)) ∧
  (∀ s : State, exec (.bwSe 0x80000000) s = .next (recorded 0x12 0x80000000 s))

/-- Alignment is idempotent (R145), and so is a flush (R147): the second of two in a row completes and
changes nothing but `cp`. -/
def Obligations.AlignFlushTwice : Prop :=
  (∀ s t : State, s.run = .running → s.enc.nbits.toNat ≤ 7 → exec .bwAlign s = .next t →
    t.run = .running → exec .bwAlign t = .next { t with cp := t.cp + 1 }) ∧
  (∀ s t : State, s.run = .running → exec .bwFlush s = .next t →
    t.run = .running → exec .bwFlush t = .next { t with cp := t.cp + 1 })

/-- R149: `put_bits` is the bit-serial form, in its results and in its faults. -/
def Obligations.SerialForm : Prop :=
  ∀ (cap n : Nat) (value : Word) (e : Encoder), n ≤ 32 → e.nbits.toNat ≤ 7 →
    e.shifter <<< e.nbits.toNat = 0 →
    putBits cap value n e = putSerial cap (bitsOf value.toNat n) e

/-- R148: two calls of `put_bits` leave the same state as one call with both values side by side; and
the state after any sequence of calls depends only on the concatenated bit string. -/
def Obligations.Concatenation : Prop :=
  (∀ (cap n₁ n₂ : Nat) (a b : Word) (e : Encoder), n₁ + n₂ ≤ 32 → e.nbits.toNat ≤ 7 →
    e.shifter <<< e.nbits.toNat = 0 →
    (putBits cap a n₁ e).bind (putBits cap b n₂) =
      putBits cap (BitVec.ofNat 32 ((a.toNat % 2 ^ n₁) * 2 ^ n₂ + b.toNat % 2 ^ n₂)) (n₁ + n₂) e) ∧
  (∀ (cap ilMax : Nat) (xs ys : Script) (e : Encoder),
    xs.all (fun x => isPut x && codes x) → ys.all (fun x => isPut x && codes x) →
    scriptBits xs = scriptBits ys → e.nbits.toNat ≤ 7 → e.shifter <<< e.nbits.toNat = 0 →
    runScript cap ilMax xs e = runScript cap ilMax ys e)

/-- R150: the standard reader reads the code of `v` back as `v`, and leaves what follows the code: the
code is prefix-free. -/
def Obligations.GolombRoundTrip : Prop :=
  ∀ (v : Nat) (rest : List Bool), readUe (ueBits v ++ rest) = some (v, rest)

/-- R136 and R152, for the bytes in OUT: whatever commands run in one EP window from its start on, flushes
among them, the lanes of OUT that they filled hold, in order, the bytes that emulation prevention makes of
the data bytes they drained. Of these bytes, for every list of data bytes: (a) after two zero bytes no
byte is 0, 1 or 2; (b) a 3 after two zero bytes is a stuffing byte; (c) without the stuffing bytes they
are the data bytes, and a reader that deletes each 3 after two zero bytes finds them; and at most one of
them is a stuffing byte for every two data bytes. -/
def Obligations.EmulationPrevention : Prop :=
  (∀ (is : List Instr) (s : State) (w : Window), Writable s → s.run = .running → s.enc.ep = true →
    s.enc.nz = 0 → windowOf is s = some w →
    w.lanes.map (laneAt w.final.enc.out) = (epMarked 0 w.data).map fun x => some x.1) ∧
  (∀ data : List Byte,
    let marked := epMarked 0 data
    let bytes := marked.map Prod.fst
    (∀ (k : Nat) (b : Byte), bytes[k]? = some 0 → bytes[k + 1]? = some 0 → bytes[k + 2]? = some b →
      3 ≤ b.toNat ∧ (b = 3 → marked[k + 2]? = some (3, true))) ∧
    (marked.filter fun x => !x.2).map Prod.fst = data ∧
    unstuff 0 bytes = data ∧
    2 * (marked.filter fun x => x.2).length ≤ data.length)

/-- Draining data bytes one after the other completes whenever OUT has room: it stores the bytes that
R135 lets through at the output position and nothing else, counts 8 bits for each stuffing byte, and
leaves the zero counter of R135. -/
def Obligations.DrainStores : Prop :=
  ∀ (ilMax cap : Nat) (data : List Byte) (e : Encoder), EncInv ilMax e → cap ≤ outCapLimit →
    fits cap e (emitted e data) →
    ∃ e', drainAll cap data e = .ok e' ∧
      Appended e.out e'.out (pos e) (emitted e data) ∧
      pos e' = pos e + (emitted e data).length ∧
      e'.nz.toNat = nzAfter e data ∧
      e'.bitsOut = e.bitsOut + BitVec.ofNat 32 (8 * ((emitted e data).length - data.length)) ∧
      e' = { e with nz := e'.nz, bitsOut := e'.bitsOut, outWi := e'.outWi, outBi := e'.outBi,
                    out := e'.out }

/-! ## Unit HE: instruction list and slice parameters (spec/42_header_template.md) -/

/-- `HE_COPY` (R173) completes while the list is open and OUT and IL have room: a flush, then one entry
with the bits emitted since the last `COPY`, all of which are then covered. -/
def Obligations.HeCopyAppends : Prop :=
  ∀ s : State, Writable s → s.enc.tmplDone = false → roomForFlush s.outCapWords s.enc →
    s.enc.ilCount.toNat < s.params.ilMax →
    ∃ e il, Flushed s.enc e ∧
      (∀ a, Memory.read il a =
        if a = s.enc.ilCount.toNat then some ⟨.copy, e.bitsOut - s.enc.bitsCopied⟩
        else Memory.read s.enc.il a) ∧
      exec .heCopy s =
        .next { s with
          cp := s.cp + 1
          enc := { e with il := il, ilCount := s.enc.ilCount + 1, bitsCopied := e.bitsOut } }

/-- `HE_MARK` (R174), for the kinds 2 to 7, and `HE_END` (R175) complete while the list is open and has
room and every bit put is covered: one entry of that kind and no bits, or the entry `(END, 0)` and a
closed list, and nothing else changes. -/
def Obligations.HeMarkEndAppend : Prop :=
  ∀ s : State, s.enc.tmplDone = false → s.enc.nbits = 0 → s.enc.bitsOut = s.enc.bitsCopied →
    s.enc.ilCount.toNat < s.params.ilMax →
    (∀ (kind : Byte) (k : IlKind),
      (kind, k) ∈ ([(2, .firstMb), (3, .sliceQpDelta), (4, .firstSlice), (5, .sliceSegment),
        (6, .saoEnable), (7, .lfAcrossSlices)] : List (Byte × IlKind)) →
      ∃ il, (∀ a, Memory.read il a =
          if a = s.enc.ilCount.toNat then some ⟨k, 0⟩ else Memory.read s.enc.il a) ∧
        exec (.heMark kind) s =
          .next { s with
            cp := s.cp + 1
            enc := { s.enc with il := il, ilCount := s.enc.ilCount + 1 } }) ∧
    (∃ il, (∀ a, Memory.read il a =
        if a = s.enc.ilCount.toNat then some ⟨.endList, 0⟩ else Memory.read s.enc.il a) ∧
      exec .heEnd s =
        .next { s with
          cp := s.cp + 1
          enc := { s.enc with il := il, ilCount := s.enc.ilCount + 1, tmplDone := true } })

/-- The faults of the list commands in their order (R172 to R175): `TemplateClosed` on a closed list;
then `MarkerOrder` for a marker or the end while bits are uncovered, with their number, or `OutOverflow`
of the flush; then `IlOverflow` on a full list. -/
def Obligations.TemplateFaults : Prop :=
  ∀ s : State,
    (s.enc.tmplDone = true → ∀ i ∈ [Instr.heCopy, .heEnd, .heMark 2, .heMark 3, .heMark 4, .heMark 5,
        .heMark 6, .heMark 7],
      exec i s = .next (recorded 0x21 (s.enc.ilCount.setWidth 32) s)) ∧
    (s.enc.tmplDone = false → s.enc.nbits ≠ 0 ∨ s.enc.bitsOut ≠ s.enc.bitsCopied →
      ∀ i ∈ [Instr.heEnd, .heMark 2, .heMark 3, .heMark 4, .heMark 5, .heMark 6, .heMark 7],
      exec i s = .next (recorded 0x22
        (s.enc.bitsOut - s.enc.bitsCopied + s.enc.nbits.setWidth 32) s)) ∧
    (s.enc.tmplDone = false → s.enc.nbits = 0 → s.enc.bitsOut = s.enc.bitsCopied →
      s.params.ilMax ≤ s.enc.ilCount.toNat →
      ∀ i ∈ [Instr.heEnd, .heMark 2, .heMark 3, .heMark 4, .heMark 5, .heMark 6, .heMark 7],
      exec i s = .next (recorded 0x20 (s.enc.ilCount.setWidth 32) s)) ∧
    (s.enc.tmplDone = false → Writable s → ¬roomForFlush s.outCapWords s.enc →
      exec .heCopy s =
        .next (recorded 0x10 (BitVec.ofNat 32 (max s.outCapWords s.enc.outWi.toNat)) s)) ∧
    (s.enc.tmplDone = false → Writable s → roomForFlush s.outCapWords s.enc →
      s.params.ilMax ≤ s.enc.ilCount.toNat →
      exec .heCopy s = .next (recorded 0x20 (s.enc.ilCount.setWidth 32) s))

/-- `HE_SETP` (R176): for `idx` up to 511 the word is stored with its written bit, and no other word of
SP changes; beyond, `SpIndex` with the index. `HE_CLRP` (R177) completes in every state: every written bit
becomes 0; that the contents stay behind it is the rule's own remark. -/
def Obligations.HeSetpClrp : Prop :=
  (∀ (idx : Half) (value : Word) (s : State),
    (idx.toNat ≤ 511 →
      ∃ sp, (∀ a, Memory.read sp a =
          if a = idx.toNat then some ⟨value, true⟩ else Memory.read s.sp a) ∧
        exec (.heSetp idx value) s = .next { s with cp := s.cp + 2, sp := sp }) ∧
    (511 < idx.toNat →
      exec (.heSetp idx value) s = .next (recorded 0x23 (BitVec.ofNat 32 idx.toNat) s))) ∧
  (∀ s : State, ∃ sp,
    (∀ a, unwritten sp a ∧
      (Memory.read sp a).map SpCell.word = (Memory.read s.sp a).map SpCell.word) ∧
    exec .heClrp s = .next { s with cp := s.cp + 1, sp := sp })

/-! ## Unit HE: the header sequencers (spec/43_header_h264.md, spec/44_header_h265.md) -/

/-- `HE_H264_SLICE` completes whenever the parameters in SP let its sequence run without a `raise` and
OUT and IL have room, whatever the bit writer held before: it leaves the template of that sequence in
OUT and IL, as R180 and R194 describe it, and changes nothing else. -/
def Obligations.H264Completes : Prop :=
  ∀ (rs : List Range) (last : Script) (s : State),
    h264Script s.sp = templateScript rs last → Room s rs last →
    ∃ e, exec .heH264Slice s = .next { s with cp := s.cp + 1, enc := e } ∧
      Templated s.enc e rs last

/-- `HE_H265_SLICE` completes under the same conditions, and leaves the template as R180 and R224
describe it. -/
def Obligations.H265Completes : Prop :=
  ∀ (rs : List Range) (last : Script) (s : State),
    h265Script s.sp = templateScript rs last → Room s rs last →
    ∃ e, exec .heH265Slice s = .next { s with cp := s.cp + 1, enc := e } ∧
      Templated s.enc e rs last

/-- Whatever SP holds, the H.264 sequence either meets a `raise` or is a template of the shape R190
gives: the NAL unit header of 8 bits, `FIRST_MB`, the header fields, `SLICE_QP_DELTA`, the deblocking
fields, and the end. -/
def Obligations.H264Shape : Prop :=
  ∀ sp : Memory SpCell,
    (h264Script sp).any isStop ∨
    ∃ nri nut fields deblock,
      h264Script sp =
        templateScript [⟨[.bits 0 1, .bits nri 2, .bits nut 5], .firstMb⟩, ⟨fields, .sliceQpDelta⟩]
          deblock ∧
      fields.all isPut ∧ deblock.all isPut

/-- Whatever SP holds, the H.265 sequence either meets a `raise` or is a template whose markers are, in
this order: `FIRST_SLICE`, `SLICE_SEGMENT`, perhaps `SAO_ENABLE`, `SLICE_QP_DELTA`, perhaps
`LF_ACROSS_SLICES` (R220, R223). -/
def Obligations.H265Shape : Prop :=
  ∀ sp : Memory SpCell,
    (h265Script sp).any isStop ∨
    ∃ (rs : List Range) (last : Script) (sao lf : Bool),
      h265Script sp = templateScript rs last ∧
      (∀ b ∈ bodies rs last, b.all isPut) ∧
      rs.map Range.mark =
        [.firstSlice, .sliceSegment] ++ (if sao then [.saoEnable] else []) ++ [.sliceQpDelta] ++
          (if lf then [.lfAcrossSlices] else [])

/-- The H.264 header of an IDR slice with picture-order-count type 0, element by element (R193): the
bits that reach OUT, for every value of the parameters in the ranges of R191. The element order is what
the spec takes from general knowledge (log 20). -/
def Obligations.H264IdrSlice : Prop :=
  ∀ (s : State) (nri st pps l fn idr lp lsb noOut longTerm ent dis alpha beta : Word),
    (1 ≤ nri.toNat ∧ nri.toNat ≤ 3) → (st = 2 ∨ st = 7) → pps.toNat ≤ 255 →
    l.toNat ≤ 12 → fn.toNat < 2 ^ (l.toNat + 4) → idr.toNat ≤ 65535 →
    lp.toNat ≤ 12 → lsb.toNat < 2 ^ (lp.toNat + 4) → noOut.toNat ≤ 1 → longTerm.toNat ≤ 1 →
    ent.toNat ≤ 1 → dis.toNat ≤ 2 →
    (-6 ≤ alpha.toInt ∧ alpha.toInt ≤ 6) → (-6 ≤ beta.toInt ∧ beta.toInt ≤ 6) →
    (∀ x ∈ ([(0x00, nri), (0x01, 5), (0x02, st), (0x03, pps), (0x04, l), (0x05, fn), (0x06, idr),
        (0x07, 0), (0x08, lp), (0x09, lsb), (0x0A, 0), (0x0F, 0), (0x17, noOut), (0x18, longTerm),
        (0x1A, ent), (0x1C, 1), (0x1D, dis), (0x1E, alpha), (0x1F, beta), (0x20, 1), (0x21, 0),
        (0x24, 0)] : List (Nat × Word)), holds s.sp x.1 x.2) →
    7 ≤ s.outCapWords → s.outCapWords ≤ outCapLimit → 6 ≤ s.params.ilMax → s.params.ilMax ≤ 255 →
    ∃ e, exec .heH264Slice s = .next { s with cp := s.cp + 1, enc := e } ∧
      Templated s.enc e
        [⟨[.bits 0 1, .bits nri 2, .bits 5 5], .firstMb⟩,
         ⟨[.ue st, .ue pps, .bits fn (l.toNat + 4), .ue idr, .bits lsb (lp.toNat + 4),
           .bits noOut 1, .bits longTerm 1], .sliceQpDelta⟩]
        (if dis = 1 then [.ue dis] else [.ue dis, .se alpha, .se beta])

/-- Every H.264 header of the admitted subset, element by element (R191, R193, R197, R198): I, P and B
slices, IDR or not, each picture-order-count type, count overrides, list-modification and
memory-management loops, deblocking overrides. Where the words of SP that R193 reads hold the header's
values, each in its range, and OUT and IL have room, the command completes and leaves exactly the header's
elements. The element order is what the spec takes from general knowledge (log 20). -/
def Obligations.H264Slices : Prop :=
  ∀ (h : Header264) (s : State), h.Ok → (∀ x ∈ h.reads, holds s.sp x.1 x.2) →
    templateWords (bodies h.ranges h.last) ≤ s.outCapWords → s.outCapWords ≤ outCapLimit →
    6 ≤ s.params.ilMax → s.params.ilMax ≤ 255 →
    ∃ e, exec .heH264Slice s = .next { s with cp := s.cp + 1, enc := e } ∧
      Templated s.enc e h.ranges h.last

/-- The H.265 header of an IDR slice, element by element (R223), with the markers that the SAO and
loop-filter parameters call for. The element order is what the spec takes from general knowledge
(log 20). -/
def Obligations.H265IdrSlice : Prop :=
  ∀ (s : State) (nut lid tid noOut pps sao dis lf : Word),
    (nut = 19 ∨ nut = 20) → lid.toNat ≤ 63 → (1 ≤ tid.toNat ∧ tid.toNat ≤ 7) → noOut.toNat ≤ 1 →
    pps.toNat ≤ 63 → sao.toNat ≤ 1 → dis.toNat ≤ 1 → lf.toNat ≤ 1 →
    (∀ x ∈ ([(0x100, nut), (0x101, lid), (0x102, tid), (0x103, noOut), (0x104, pps), (0x105, 2),
        (0x106, 0), (0x111, sao), (0x11F, 0), (0x122, 0), (0x127, lf), (0x128, dis), (0x130, 0),
        (0x131, 0), (0x132, 0), (0x133, 0), (0x136, 0), (0x137, 0), (0x138, 0), (0x139, 0)] :
        List (Nat × Word)), holds s.sp x.1 x.2) →
    3 ≤ s.outCapWords → s.outCapWords ≤ outCapLimit → 12 ≤ s.params.ilMax → s.params.ilMax ≤ 255 →
    ∃ e, exec .heH265Slice s = .next { s with cp := s.cp + 1, enc := e } ∧
      Templated s.enc e
        ([⟨[.bits 0 1, .bits nut 6, .bits lid 6, .bits tid 3], .firstSlice⟩,
          ⟨[.bits noOut 1, .ue pps], .sliceSegment⟩] ++
         (if sao = 1 then [⟨[.ue 2], .saoEnable⟩, ⟨[], .sliceQpDelta⟩]
          else [⟨[.ue 2], .sliceQpDelta⟩]) ++
         (if lf = 1 ∧ (sao = 1 ∨ dis = 0) then [⟨[], .lfAcrossSlices⟩] else []))
        []

/-- Every H.265 header of the admitted subset, element by element (R221, R223, R226, R227): I, P and B
slices, IDR or not, both forms of the reference picture set, list modification, collocated picture, chroma
offsets and deblocking overrides. Where the words of SP that R223 reads hold the header's values, each in
its range, and OUT and IL have room, the command completes and leaves exactly the header's elements. The
element order is what the spec takes from general knowledge (log 20). -/
def Obligations.H265Slices : Prop :=
  ∀ (h : Header265) (s : State), h.Ok → (∀ x ∈ h.reads, holds s.sp x.1 x.2) →
    templateWords (bodies h.ranges h.last) ≤ s.outCapWords → s.outCapWords ≤ outCapLimit →
    12 ≤ s.params.ilMax → s.params.ilMax ≤ 255 →
    ∃ e, exec .heH265Slice s = .next { s with cp := s.cp + 1, enc := e } ∧
      Templated s.enc e h.ranges h.last

/-- The refusals of the two sequencers come in the order of all the checks of R193 (1) and R223 (1), before
any bit is put and whatever the bit writer holds: `SpUnwritten` (0x24) for a parameter that is not written
(R178), `HeUnsupported` (0x26) for a configuration outside the admitted subset (R192, R222),
`HeParamRange` (0x25) for a value out of range (R179), with the SP index. Where no check refuses, the
sequence goes on to its `bw_reset`. -/
def Obligations.SequencerRefusals : Prop :=
  (∀ (s : State) (code : Byte) (i : Nat),
    (firstRefusal s.sp (checks264 s.sp) = some (code, i) →
      exec .heH264Slice s = .next (recorded code (BitVec.ofNat 32 i) s)) ∧
    (firstRefusal s.sp (checks265 s.sp) = some (code, i) →
      exec .heH265Slice s = .next (recorded code (BitVec.ofNat 32 i) s))) ∧
  (∀ sp : Memory SpCell,
    (firstRefusal sp (checks264 sp) = none → ∃ rest, h264Script sp = .reset :: rest) ∧
    (firstRefusal sp (checks265 sp) = none → ∃ rest, h265Script sp = .reset :: rest))

/-- A fault inside a header sequence undoes the whole command (R323, 00_scope.md R12), however much was put
before it. (1) When the calls before one run and that one raises a fault, the fault is entered and nothing
else changes. (2) When the parameters lead to no refusal but OUT is too small for the template,
`OutOverflow` with `OUT_CAP_WORDS`; when OUT has room and IL is too small, `IlOverflow` with `IL_MAX`.
(3) When the checks pass and the PPS identifier is unwritten or out of range, `SpUnwritten` or
`HeParamRange` with its index, though the NAL unit header was put before. (4) A modification list of 32
entries without its terminator, and a memory-management list of 21 without its end code, raise
`HeListUnterminated` with the index of the list (R197, R198). -/
def Obligations.SequencerFaults : Prop :=
  (∀ (i : Instr) (script : Script) (s : State),
    i = .heH264Slice ∧ script = h264Script s.sp ∨ i = .heH265Slice ∧ script = h265Script s.sp →
    (∀ (a b : Script) (x : Item) (e : Encoder) (f : BswFault) (info : Word),
      script = a ++ x :: b → runScript s.outCapWords s.params.ilMax a s.enc = .ok e →
      runItem s.outCapWords s.params.ilMax x e = .error (.raise f info) →
      exec i s = .next (recorded (faultCodeOf f) info s)) ∧
    (∀ (rs : List Range) (last : Script), script = templateScript rs last →
      (∀ b ∈ bodies rs last, b.all codes) → s.outCapWords ≤ outCapLimit → s.params.ilMax ≤ 255 →
      (s.outCapWords < templateWords (bodies rs last) →
        (templateEntries rs last).length ≤ s.params.ilMax →
        exec i s = .next (recorded 0x10 (BitVec.ofNat 32 s.outCapWords) s)) ∧
      (templateWords (bodies rs last) ≤ s.outCapWords →
        s.params.ilMax < (templateEntries rs last).length →
        exec i s = .next (recorded 0x20 (BitVec.ofNat 32 s.params.ilMax) s)))) ∧
  (∀ s : State, 2 ≤ s.outCapWords → s.outCapWords ≤ outCapLimit → 2 ≤ s.params.ilMax →
    s.params.ilMax ≤ 255 →
    (firstRefusal s.sp (checks264 s.sp) = none →
      (unwritten s.sp 0x03 → exec .heH264Slice s = .next (recorded 0x24 0x03 s)) ∧
      (∀ v, holds s.sp 0x03 v → 255 < v.toNat →
        exec .heH264Slice s = .next (recorded 0x25 0x03 s))) ∧
    (firstRefusal s.sp (checks265 s.sp) = none →
      (∀ v, holds s.sp 0x100 v → v.toNat ≤ 9 →
        (unwritten s.sp 0x104 → exec .heH265Slice s = .next (recorded 0x24 0x104 s)) ∧
        (∀ p, holds s.sp 0x104 p → 63 < p.toNat →
          exec .heH265Slice s = .next (recorded 0x25 0x104 s))))) ∧
  (∀ (sp : Memory SpCell) (l : List (Word × Word)) (base : Nat), l.length = 32 →
    (∀ x ∈ l, x.1.toNat ≤ 2) →
    (∀ (k : Nat) (x : Word × Word), l[k]? = some x →
      holds sp (base + 2 * k) x.1 ∧ holds sp (base + 2 * k + 1) x.2) →
    h264Rplm sp base = (l.flatMap fun x => [.ue x.1, .ue x.2]) ++
      [.stop (.raise .heListUnterminated (BitVec.ofNat 32 base))]) ∧
  (∀ (s : State) (nri st pps l fn count : Word) (list : List (Word × Word)), list.length = 32 →
    (1 ≤ nri.toNat ∧ nri.toNat ≤ 3) → (st = 0 ∨ st = 5) → pps.toNat ≤ 255 →
    l.toNat ≤ 12 → fn.toNat < 2 ^ (l.toNat + 4) → count.toNat ≤ 31 →
    (∀ x ∈ list, x.1.toNat ≤ 2 ∧ x.2 ≠ 0xFFFFFFFF) →
    (∀ x ∈ ([(0x00, nri), (0x01, 1), (0x02, st), (0x03, pps), (0x04, l), (0x05, fn), (0x07, 2),
        (0x0F, 0), (0x12, 1), (0x13, count), (0x15, 1), (0x20, 1), (0x21, 0), (0x22, 0),
        (0x24, 0)] : List (Nat × Word)), holds s.sp x.1 x.2) →
    (∀ (k : Nat) (x : Word × Word), list[k]? = some x →
      holds s.sp (0x40 + 2 * k) x.1 ∧ holds s.sp (0x41 + 2 * k) x.2) →
    80 ≤ s.outCapWords → s.outCapWords ≤ outCapLimit → 6 ≤ s.params.ilMax → s.params.ilMax ≤ 255 →
    exec .heH264Slice s = .next (recorded 0x27 0x40 s)) ∧
  (∀ (s : State) (nri pps l fn : Word) (ops : List (Word × Word × Word)), ops.length = 21 →
    (1 ≤ nri.toNat ∧ nri.toNat ≤ 3) → pps.toNat ≤ 255 → l.toNat ≤ 12 →
    fn.toNat < 2 ^ (l.toNat + 4) →
    (∀ x ∈ ops, (1 ≤ x.1.toNat ∧ x.1.toNat ≤ 6) ∧ x.2.1 ≠ 0xFFFFFFFF ∧ x.2.2 ≠ 0xFFFFFFFF) →
    (∀ x ∈ ([(0x00, nri), (0x01, 1), (0x02, 2), (0x03, pps), (0x04, l), (0x05, fn), (0x07, 2),
        (0x0F, 0), (0x19, 1), (0x20, 1), (0x21, 0), (0x24, 0)] : List (Nat × Word)),
      holds s.sp x.1 x.2) →
    (∀ (k : Nat) (x : Word × Word × Word), ops[k]? = some x →
      holds s.sp (0xC0 + 3 * k) x.1 ∧ holds s.sp (0xC1 + 3 * k) x.2.1 ∧
      holds s.sp (0xC2 + 3 * k) x.2.2) →
    100 ≤ s.outCapWords → s.outCapWords ≤ outCapLimit → 6 ≤ s.params.ilMax → s.params.ilMax ≤ 255 →
    exec .heH264Slice s = .next (recorded 0x27 0xC0 s))

/-! ## Units FG and CDF (spec/45_av1_prng_cdf.md) -/

/-- `FG_SEED` (R262) completes for the three planes: the register is the seed XORed with the constant of
the plane. -/
def Obligations.FgSeedLoads : Prop :=
  ∀ (plane : Byte) (x seed : Half) (s : State),
    (plane, x) ∈ ([(0, 0), (1, 0xB524), (2, 0x49D8)] : List (Byte × Half)) →
    exec (.fgSeed plane seed) s =
      .next { s with cp := s.cp + 1, lfsr := seed ^^^ x, fgSeeded := true }

/-- `FG_RAND` (R263): while seeded it completes for 1 to 16 bits; the register is shifted right by one,
its new bit 15 the exclusive or of the old bits 0, 1, 3 and 12, and the result is its top `bits` bits
(R261); while unseeded it raises `FgUnseeded`. -/
def Obligations.FgRandSteps : Prop :=
  ∀ (bits : Byte) (s : State), 1 ≤ bits.toNat → bits.toNat ≤ 16 →
    (s.fgSeeded = true →
      ∃ l : Half,
        (∀ k < 15, l.getLsbD k = s.lfsr.getLsbD (k + 1)) ∧
        l.getLsbD 15 =
          (s.lfsr.getLsbD 0 ^^ s.lfsr.getLsbD 1 ^^ s.lfsr.getLsbD 3 ^^ s.lfsr.getLsbD 12) ∧
        exec (.fgRand bits) s =
          .next { s with
            cp := s.cp + 1
            lfsr := l
            res := BitVec.ofNat 64 (l.toNat / 2 ^ (16 - bits.toNat))
            resValid := true }) ∧
    (s.fgSeeded = false → exec (.fgRand bits) s = .next (recorded 0x30 0 s))

/-- Properties of the register that R265 lists: from 0 every result is 0 and the register stays 0; the
register after a call does not depend on the number of bits asked for; the result for `n` bits is the
top `n` bits of the result for 16. -/
def Obligations.FgRegister : Prop :=
  ∀ (a : Byte) (s : State), 1 ≤ a.toNat → a.toNat ≤ 16 → s.fgSeeded = true →
    ∃ t u : State, exec (.fgRand a) s = .next t ∧ exec (.fgRand 16) s = .next u ∧
      t.lfsr = u.lfsr ∧ t.res = u.res >>> (16 - a.toNat) ∧
      (s.lfsr = 0 → t.lfsr = 0 ∧ t.res = 0) ∧ (s.lfsr ≠ 0 → t.lfsr ≠ 0)

/-- `CDF_INIT_MODE`, `CDF_INIT_MV` and `CDF_INIT_COEF` (R271 to R273) complete for slots and tables 0 to
3: the table goes into its region of the slot, the region's `ok` bit is set, and no other byte, slot or
bit changes. -/
def Obligations.CdfInitCopies : Prop :=
  ∀ (i j : Fin 4) (s : State),
    (∃ m, (∀ a, Memory.read m a =
        if inRegion s.params.layout.modeOff s.params.layout.romMode.length a then
          s.params.layout.romMode[a - s.params.layout.modeOff]?
        else Memory.read s.cdf[i].mem a) ∧
      exec (.cdfInitMode (BitVec.ofNat 8 i)) s =
        .next { s with cp := s.cp + 1, cdf := s.cdf.set i { s.cdf[i] with mem := m, modeOk := true } }) ∧
    (∃ m, (∀ a, Memory.read m a =
        if inRegion s.params.layout.mvOff s.params.layout.romMv.length a then
          s.params.layout.romMv[a - s.params.layout.mvOff]?
        else Memory.read s.cdf[i].mem a) ∧
      exec (.cdfInitMv (BitVec.ofNat 8 i)) s =
        .next { s with cp := s.cp + 1, cdf := s.cdf.set i { s.cdf[i] with mem := m, mvOk := true } }) ∧
    (∀ rom : List Byte,
      rom = [s.params.layout.romCoef0, s.params.layout.romCoef1, s.params.layout.romCoef2,
        s.params.layout.romCoef3][j] →
      ∃ m, (∀ a, Memory.read m a =
          if inRegion s.params.layout.coefOff rom.length a then rom[a - s.params.layout.coefOff]?
          else Memory.read s.cdf[i].mem a) ∧
        exec (.cdfInitCoef (BitVec.ofNat 8 i) (BitVec.ofNat 8 j)) s =
          .next { s with
            cp := s.cp + 1
            cdf := s.cdf.set i
              { s.cdf[i] with mem := m, coefOk := true, coefIdx := BitVec.ofNat 2 j } })

/-- `CDF_SEED_ALL` (R274) completes in every state and does what the twelve single commands do, run in
any order, since the regions are disjoint; the `ok` bits of all slots are set, and slot `k` holds
coefficient table `k`. -/
def Obligations.CdfSeedAllIsTwelve : Prop :=
  (∀ (l : List Instr) (s : State), s.params.layout.wf = true → (∀ k : Fin 4, Memory.wf s.cdf[k].mem) →
    l.Perm twelve →
    ∃ t, execAll l s = .next t ∧ exec .cdfSeedAll s = .next { t with cp := s.cp + 1 }) ∧
  (∀ s : State, ∃ cdf : Vector CdfSlot 4,
    exec .cdfSeedAll s = .next { s with cp := s.cp + 1, cdf := cdf } ∧
    ∀ k : Fin 4, cdf[k].modeOk = true ∧ cdf[k].mvOk = true ∧ cdf[k].coefOk = true ∧
      cdf[k].coefIdx = BitVec.ofNat 2 k)

/-! ## Unit DPB (spec/46_dpb_mapper.md) -/

/-- `DPB_SESSION` (R292) completes for the three codecs and `max_refs < DPB_SLOTS`, in any state of the
mapper: a new session, dynamic for AV1 or a generation that is new enough, else fixed (R291), with an
empty table. -/
def Obligations.DpbSessionStarts : Prop :=
  ∀ (codec : Byte) (c : Codec) (maxRefs : Byte) (s : State),
    (codec, c) ∈ ([(0, .h264), (1, .h265), (2, .av1)] : List (Byte × Codec)) →
    maxRefs.toNat < s.params.dpbSlots →
    exec (.dpbSession codec maxRefs) s =
      .next { s with
        cp := s.cp + 1
        dpb :=
          { mode := if c = .av1 ∨ s.params.dynT2MinGen ≤ s.params.hwGen.toNat then .dynamicT2 else .fixed
            codec := c
            m := BitVec.ofNat 5 maxRefs.toNat
            isOpen := false
            valid := false
            cur := 0
            used := 0
            table := [] } }

/-- A decode call in a dynamic session. `DPB_BEGIN` (R293) fills entries 0 to `dpb_m` with the current
target; `DPB_REF` (R294) replaces one entry and marks the slot used; `DPB_COMMIT` (R296) closes the call.
Each completes under the conditions of its rule and changes nothing else. -/
def Obligations.DpbCall : Prop :=
  ∀ s : State, s.dpb.mode = .dynamicT2 →
    (∀ cur : Addr, s.dpb.isOpen = false → cur ≠ 0 →
      ∃ t, (∀ a, Memory.read t a =
          if a ≤ s.dpb.m.toNat then some cur else Memory.read s.dpb.table a) ∧
        exec (.dpbBegin cur) s =
          .next { s with
            cp := s.cp + 3
            dpb := { s.dpb with cur := cur, table := t, used := 0, isOpen := true, valid := false } }) ∧
    (∀ (slot : Byte) (addr : Addr), s.dpb.isOpen = true → slot.toNat ≤ s.dpb.m.toNat → addr ≠ 0 →
      ∃ t used,
        (∀ a, Memory.read t a = if a = slot.toNat then some addr else Memory.read s.dpb.table a) ∧
        (∀ k < 32, isUsed used k = (k == slot.toNat || isUsed s.dpb.used k)) ∧
        exec (.dpbRef slot addr) s =
          .next { s with cp := s.cp + 3, dpb := { s.dpb with table := t, used := used } }) ∧
    (s.dpb.isOpen = true →
      exec .dpbCommit s =
        .next { s with cp := s.cp + 1, dpb := { s.dpb with isOpen := false, valid := true } })

/-- `DPB_LOOKUP` (R297): in a fixed session the slot number itself, whatever the table holds; in a
dynamic session, after a commit, the address of a used slot. The table does not change. -/
def Obligations.DpbLookupAnswers : Prop :=
  ∀ (slot : Byte) (s : State), slot.toNat ≤ s.dpb.m.toNat →
    (s.dpb.mode = .fixed →
      exec (.dpbLookup slot) s =
        .next { s with cp := s.cp + 1, res := BitVec.ofNat 64 slot.toNat, resValid := true }) ∧
    (∀ x : Addr, s.dpb.mode = .dynamicT2 → s.dpb.valid = true → isUsed s.dpb.used slot.toNat = true →
      Memory.read s.dpb.table slot.toNat = some x →
      exec (.dpbLookup slot) s = .next { s with cp := s.cp + 1, res := x, resValid := true })

/-- The faults of unit DPB, each where the checks before it pass (R293, R294, R296, R297). -/
def Obligations.DpbFaults : Prop :=
  ∀ (s : State) (slot : Byte) (x : Addr),
    (s.dpb.mode = .none → ∀ i ∈ [Instr.dpbBegin x, .dpbRef slot x, .dpbCommit, .dpbLookup slot],
      exec i s = .next (recorded 0x40 (dpbCtl s.dpb) s)) ∧
    (s.dpb.mode = .fixed → ∀ i ∈ [Instr.dpbBegin x, .dpbRef slot x, .dpbCommit],
      exec i s = .next (recorded 0x41 1 s)) ∧
    (s.dpb.mode = .dynamicT2 → s.dpb.isOpen = true →
      exec (.dpbBegin x) s = .next (recorded 0x40 (dpbCtl s.dpb) s)) ∧
    (s.dpb.mode = .dynamicT2 → s.dpb.isOpen = false →
      exec (.dpbBegin 0) s = .next (recorded 0x43 0xFFFFFFFF s) ∧
      exec (.dpbRef slot x) s = .next (recorded 0x40 (dpbCtl s.dpb) s) ∧
      exec .dpbCommit s = .next (recorded 0x40 (dpbCtl s.dpb) s)) ∧
    (s.dpb.mode = .dynamicT2 → s.dpb.isOpen = true → s.dpb.m.toNat < slot.toNat →
      exec (.dpbRef slot x) s = .next (recorded 0x42 (BitVec.ofNat 32 slot.toNat) s)) ∧
    (s.dpb.mode = .dynamicT2 → s.dpb.isOpen = true → slot.toNat ≤ s.dpb.m.toNat →
      exec (.dpbRef slot 0) s = .next (recorded 0x43 (BitVec.ofNat 32 slot.toNat) s)) ∧
    (s.dpb.mode = .dynamicT2 → s.dpb.valid = false →
      exec (.dpbLookup slot) s = .next (recorded 0x40 (dpbCtl s.dpb) s)) ∧
    (s.dpb.mode = .fixed ∨ s.dpb.mode = .dynamicT2 ∧ s.dpb.valid = true →
      s.dpb.m.toNat < slot.toNat →
      exec (.dpbLookup slot) s = .next (recorded 0x42 (BitVec.ofNat 32 slot.toNat) s)) ∧
    (s.dpb.mode = .dynamicT2 → s.dpb.valid = true → slot.toNat ≤ s.dpb.m.toNat →
      isUsed s.dpb.used slot.toNat = false →
      exec (.dpbLookup slot) s = .next (recorded 0x44 (BitVec.ofNat 32 slot.toNat) s))
end

