-- ==== Sys2Proof/Laws/Decode.lean ====
section
/-! SUPPORT. The fields of header words and of 64-bit operands (spec/30_encoding.md R90, R94). -/

namespace Sys2Proof

@[simp] theorem fieldOp_headerWord (op a b c : Byte) : fieldOp (headerWord op a b c) = op := by
  unfold fieldOp headerWord; ext i; simp; grind

@[simp] theorem fieldA_headerWord (op a b c : Byte) : fieldA (headerWord op a b c) = a := by
  unfold fieldA headerWord; ext i; simp; grind

@[simp] theorem fieldB_headerWord (op a b c : Byte) : fieldB (headerWord op a b c) = b := by
  unfold fieldB headerWord; ext i; simp; grind

@[simp] theorem fieldOp_headerWordImm (op a : Byte) (imm : Half) :
    fieldOp (headerWordImm op a imm) = op := by
  unfold fieldOp headerWordImm; ext i; simp; grind

@[simp] theorem fieldA_headerWordImm (op a : Byte) (imm : Half) :
    fieldA (headerWordImm op a imm) = a := by
  unfold fieldA headerWordImm; ext i; simp; grind

@[simp] theorem fieldImm_headerWordImm (op a : Byte) (imm : Half) :
    fieldImm (headerWordImm op a imm) = imm := by
  unfold fieldImm headerWordImm; ext i; simp; grind

@[simp] theorem addrOf_lo_hi (x : Addr) : addrOf (addrLo x) (addrHi x) = x := by
  unfold addrOf addrLo addrHi; ext i; simp; grind

@[simp] theorem addrLo_addrOf (lo hi : Word) : addrLo (addrOf lo hi) = lo := by
  unfold addrOf addrLo; ext i; simp; grind

@[simp] theorem addrHi_addrOf (lo hi : Word) : addrHi (addrOf lo hi) = hi := by
  unfold addrOf addrHi; ext i h
  simp only [BitVec.getElem_extractLsb', BitVec.getLsbD_append]; simp [h]

/-- Masks act on the fields one by one. -/
theorem headerWord_and (op a b c x y z w : Byte) :
    headerWord op a b c &&& headerWord x y z w =
      headerWord (op &&& x) (a &&& y) (b &&& z) (c &&& w) := by
  unfold headerWord; ext i h; simp; grind

theorem headerWordImm_and (op a x y : Byte) (imm z : Half) :
    headerWordImm op a imm &&& headerWordImm x y z =
      headerWordImm (op &&& x) (a &&& y) (imm &&& z) := by
  unfold headerWordImm; ext i h; simp; grind

@[simp] theorem length_encode (i : Instr) : (encode i).length = instrLength i := by
  simp [encode, instrLength, Nat.add_comm]

end Sys2Proof
end

