-- ==== Sys2Proof/Laws/State.lean ====
section
/-! SUPPORT. One lemma per field per named update of the state, true by `rfl`, so that no proof unfolds
a record update. -/

namespace Sys2Proof.Machine

/-! ### `advance` -/

@[simp] theorem advance_run (n : Nat) (s : State) :
    (advance n s).run = s.run := rfl

@[simp] theorem advance_cp (n : Nat) (s : State) :
    (advance n s).cp = s.cp + BitVec.ofNat 32 n := rfl

@[simp] theorem advance_faultCode (n : Nat) (s : State) :
    (advance n s).faultCode = s.faultCode := rfl

@[simp] theorem advance_faultCp (n : Nat) (s : State) :
    (advance n s).faultCp = s.faultCp := rfl

@[simp] theorem advance_faultInfo (n : Nat) (s : State) :
    (advance n s).faultInfo = s.faultInfo := rfl

@[simp] theorem advance_res (n : Nat) (s : State) :
    (advance n s).res = s.res := rfl

@[simp] theorem advance_resValid (n : Nat) (s : State) :
    (advance n s).resValid = s.resValid := rfl

@[simp] theorem advance_enc (n : Nat) (s : State) :
    (advance n s).enc = s.enc := rfl

@[simp] theorem advance_sp (n : Nat) (s : State) :
    (advance n s).sp = s.sp := rfl

@[simp] theorem advance_lfsr (n : Nat) (s : State) :
    (advance n s).lfsr = s.lfsr := rfl

@[simp] theorem advance_fgSeeded (n : Nat) (s : State) :
    (advance n s).fgSeeded = s.fgSeeded := rfl

@[simp] theorem advance_cdf (n : Nat) (s : State) :
    (advance n s).cdf = s.cdf := rfl

@[simp] theorem advance_dpb (n : Nat) (s : State) :
    (advance n s).dpb = s.dpb := rfl

@[simp] theorem advance_cmd (n : Nat) (s : State) :
    (advance n s).cmd = s.cmd := rfl

@[simp] theorem advance_outCapWords (n : Nat) (s : State) :
    (advance n s).outCapWords = s.outCapWords := rfl

@[simp] theorem advance_params (n : Nat) (s : State) :
    (advance n s).params = s.params := rfl

/-! ### `setEnc` -/

@[simp] theorem setEnc_run (e : Encoder) (s : State) :
    (setEnc e s).run = s.run := rfl

@[simp] theorem setEnc_cp (e : Encoder) (s : State) :
    (setEnc e s).cp = s.cp := rfl

@[simp] theorem setEnc_faultCode (e : Encoder) (s : State) :
    (setEnc e s).faultCode = s.faultCode := rfl

@[simp] theorem setEnc_faultCp (e : Encoder) (s : State) :
    (setEnc e s).faultCp = s.faultCp := rfl

@[simp] theorem setEnc_faultInfo (e : Encoder) (s : State) :
    (setEnc e s).faultInfo = s.faultInfo := rfl

@[simp] theorem setEnc_res (e : Encoder) (s : State) :
    (setEnc e s).res = s.res := rfl

@[simp] theorem setEnc_resValid (e : Encoder) (s : State) :
    (setEnc e s).resValid = s.resValid := rfl

@[simp] theorem setEnc_enc (e : Encoder) (s : State) :
    (setEnc e s).enc = e := rfl

@[simp] theorem setEnc_sp (e : Encoder) (s : State) :
    (setEnc e s).sp = s.sp := rfl

@[simp] theorem setEnc_lfsr (e : Encoder) (s : State) :
    (setEnc e s).lfsr = s.lfsr := rfl

@[simp] theorem setEnc_fgSeeded (e : Encoder) (s : State) :
    (setEnc e s).fgSeeded = s.fgSeeded := rfl

@[simp] theorem setEnc_cdf (e : Encoder) (s : State) :
    (setEnc e s).cdf = s.cdf := rfl

@[simp] theorem setEnc_dpb (e : Encoder) (s : State) :
    (setEnc e s).dpb = s.dpb := rfl

@[simp] theorem setEnc_cmd (e : Encoder) (s : State) :
    (setEnc e s).cmd = s.cmd := rfl

@[simp] theorem setEnc_outCapWords (e : Encoder) (s : State) :
    (setEnc e s).outCapWords = s.outCapWords := rfl

@[simp] theorem setEnc_params (e : Encoder) (s : State) :
    (setEnc e s).params = s.params := rfl

/-! ### `setSp` -/

@[simp] theorem setSp_run (m : Memory SpCell) (s : State) :
    (setSp m s).run = s.run := rfl

@[simp] theorem setSp_cp (m : Memory SpCell) (s : State) :
    (setSp m s).cp = s.cp := rfl

@[simp] theorem setSp_faultCode (m : Memory SpCell) (s : State) :
    (setSp m s).faultCode = s.faultCode := rfl

@[simp] theorem setSp_faultCp (m : Memory SpCell) (s : State) :
    (setSp m s).faultCp = s.faultCp := rfl

@[simp] theorem setSp_faultInfo (m : Memory SpCell) (s : State) :
    (setSp m s).faultInfo = s.faultInfo := rfl

@[simp] theorem setSp_res (m : Memory SpCell) (s : State) :
    (setSp m s).res = s.res := rfl

@[simp] theorem setSp_resValid (m : Memory SpCell) (s : State) :
    (setSp m s).resValid = s.resValid := rfl

@[simp] theorem setSp_enc (m : Memory SpCell) (s : State) :
    (setSp m s).enc = s.enc := rfl

@[simp] theorem setSp_sp (m : Memory SpCell) (s : State) :
    (setSp m s).sp = m := rfl

@[simp] theorem setSp_lfsr (m : Memory SpCell) (s : State) :
    (setSp m s).lfsr = s.lfsr := rfl

@[simp] theorem setSp_fgSeeded (m : Memory SpCell) (s : State) :
    (setSp m s).fgSeeded = s.fgSeeded := rfl

@[simp] theorem setSp_cdf (m : Memory SpCell) (s : State) :
    (setSp m s).cdf = s.cdf := rfl

@[simp] theorem setSp_dpb (m : Memory SpCell) (s : State) :
    (setSp m s).dpb = s.dpb := rfl

@[simp] theorem setSp_cmd (m : Memory SpCell) (s : State) :
    (setSp m s).cmd = s.cmd := rfl

@[simp] theorem setSp_outCapWords (m : Memory SpCell) (s : State) :
    (setSp m s).outCapWords = s.outCapWords := rfl

@[simp] theorem setSp_params (m : Memory SpCell) (s : State) :
    (setSp m s).params = s.params := rfl

/-! ### `setRes` -/

@[simp] theorem setRes_run (v : BitVec 64) (s : State) :
    (setRes v s).run = s.run := rfl

@[simp] theorem setRes_cp (v : BitVec 64) (s : State) :
    (setRes v s).cp = s.cp := rfl

@[simp] theorem setRes_faultCode (v : BitVec 64) (s : State) :
    (setRes v s).faultCode = s.faultCode := rfl

@[simp] theorem setRes_faultCp (v : BitVec 64) (s : State) :
    (setRes v s).faultCp = s.faultCp := rfl

@[simp] theorem setRes_faultInfo (v : BitVec 64) (s : State) :
    (setRes v s).faultInfo = s.faultInfo := rfl

@[simp] theorem setRes_res (v : BitVec 64) (s : State) :
    (setRes v s).res = v := rfl

@[simp] theorem setRes_resValid (v : BitVec 64) (s : State) :
    (setRes v s).resValid = true := rfl

@[simp] theorem setRes_enc (v : BitVec 64) (s : State) :
    (setRes v s).enc = s.enc := rfl

@[simp] theorem setRes_sp (v : BitVec 64) (s : State) :
    (setRes v s).sp = s.sp := rfl

@[simp] theorem setRes_lfsr (v : BitVec 64) (s : State) :
    (setRes v s).lfsr = s.lfsr := rfl

@[simp] theorem setRes_fgSeeded (v : BitVec 64) (s : State) :
    (setRes v s).fgSeeded = s.fgSeeded := rfl

@[simp] theorem setRes_cdf (v : BitVec 64) (s : State) :
    (setRes v s).cdf = s.cdf := rfl

@[simp] theorem setRes_dpb (v : BitVec 64) (s : State) :
    (setRes v s).dpb = s.dpb := rfl

@[simp] theorem setRes_cmd (v : BitVec 64) (s : State) :
    (setRes v s).cmd = s.cmd := rfl

@[simp] theorem setRes_outCapWords (v : BitVec 64) (s : State) :
    (setRes v s).outCapWords = s.outCapWords := rfl

@[simp] theorem setRes_params (v : BitVec 64) (s : State) :
    (setRes v s).params = s.params := rfl

/-! ### `setLfsr` -/

@[simp] theorem setLfsr_run (v : Half) (s : State) :
    (setLfsr v s).run = s.run := rfl

@[simp] theorem setLfsr_cp (v : Half) (s : State) :
    (setLfsr v s).cp = s.cp := rfl

@[simp] theorem setLfsr_faultCode (v : Half) (s : State) :
    (setLfsr v s).faultCode = s.faultCode := rfl

@[simp] theorem setLfsr_faultCp (v : Half) (s : State) :
    (setLfsr v s).faultCp = s.faultCp := rfl

@[simp] theorem setLfsr_faultInfo (v : Half) (s : State) :
    (setLfsr v s).faultInfo = s.faultInfo := rfl

@[simp] theorem setLfsr_res (v : Half) (s : State) :
    (setLfsr v s).res = s.res := rfl

@[simp] theorem setLfsr_resValid (v : Half) (s : State) :
    (setLfsr v s).resValid = s.resValid := rfl

@[simp] theorem setLfsr_enc (v : Half) (s : State) :
    (setLfsr v s).enc = s.enc := rfl

@[simp] theorem setLfsr_sp (v : Half) (s : State) :
    (setLfsr v s).sp = s.sp := rfl

@[simp] theorem setLfsr_lfsr (v : Half) (s : State) :
    (setLfsr v s).lfsr = v := rfl

@[simp] theorem setLfsr_fgSeeded (v : Half) (s : State) :
    (setLfsr v s).fgSeeded = s.fgSeeded := rfl

@[simp] theorem setLfsr_cdf (v : Half) (s : State) :
    (setLfsr v s).cdf = s.cdf := rfl

@[simp] theorem setLfsr_dpb (v : Half) (s : State) :
    (setLfsr v s).dpb = s.dpb := rfl

@[simp] theorem setLfsr_cmd (v : Half) (s : State) :
    (setLfsr v s).cmd = s.cmd := rfl

@[simp] theorem setLfsr_outCapWords (v : Half) (s : State) :
    (setLfsr v s).outCapWords = s.outCapWords := rfl

@[simp] theorem setLfsr_params (v : Half) (s : State) :
    (setLfsr v s).params = s.params := rfl

/-! ### `seedLfsr` -/

@[simp] theorem seedLfsr_run (v : Half) (s : State) :
    (seedLfsr v s).run = s.run := rfl

@[simp] theorem seedLfsr_cp (v : Half) (s : State) :
    (seedLfsr v s).cp = s.cp := rfl

@[simp] theorem seedLfsr_faultCode (v : Half) (s : State) :
    (seedLfsr v s).faultCode = s.faultCode := rfl

@[simp] theorem seedLfsr_faultCp (v : Half) (s : State) :
    (seedLfsr v s).faultCp = s.faultCp := rfl

@[simp] theorem seedLfsr_faultInfo (v : Half) (s : State) :
    (seedLfsr v s).faultInfo = s.faultInfo := rfl

@[simp] theorem seedLfsr_res (v : Half) (s : State) :
    (seedLfsr v s).res = s.res := rfl

@[simp] theorem seedLfsr_resValid (v : Half) (s : State) :
    (seedLfsr v s).resValid = s.resValid := rfl

@[simp] theorem seedLfsr_enc (v : Half) (s : State) :
    (seedLfsr v s).enc = s.enc := rfl

@[simp] theorem seedLfsr_sp (v : Half) (s : State) :
    (seedLfsr v s).sp = s.sp := rfl

@[simp] theorem seedLfsr_lfsr (v : Half) (s : State) :
    (seedLfsr v s).lfsr = v := rfl

@[simp] theorem seedLfsr_fgSeeded (v : Half) (s : State) :
    (seedLfsr v s).fgSeeded = true := rfl

@[simp] theorem seedLfsr_cdf (v : Half) (s : State) :
    (seedLfsr v s).cdf = s.cdf := rfl

@[simp] theorem seedLfsr_dpb (v : Half) (s : State) :
    (seedLfsr v s).dpb = s.dpb := rfl

@[simp] theorem seedLfsr_cmd (v : Half) (s : State) :
    (seedLfsr v s).cmd = s.cmd := rfl

@[simp] theorem seedLfsr_outCapWords (v : Half) (s : State) :
    (seedLfsr v s).outCapWords = s.outCapWords := rfl

@[simp] theorem seedLfsr_params (v : Half) (s : State) :
    (seedLfsr v s).params = s.params := rfl

/-! ### `setCdf` -/

@[simp] theorem setCdf_run (c : Vector CdfSlot 4) (s : State) :
    (setCdf c s).run = s.run := rfl

@[simp] theorem setCdf_cp (c : Vector CdfSlot 4) (s : State) :
    (setCdf c s).cp = s.cp := rfl

@[simp] theorem setCdf_faultCode (c : Vector CdfSlot 4) (s : State) :
    (setCdf c s).faultCode = s.faultCode := rfl

@[simp] theorem setCdf_faultCp (c : Vector CdfSlot 4) (s : State) :
    (setCdf c s).faultCp = s.faultCp := rfl

@[simp] theorem setCdf_faultInfo (c : Vector CdfSlot 4) (s : State) :
    (setCdf c s).faultInfo = s.faultInfo := rfl

@[simp] theorem setCdf_res (c : Vector CdfSlot 4) (s : State) :
    (setCdf c s).res = s.res := rfl

@[simp] theorem setCdf_resValid (c : Vector CdfSlot 4) (s : State) :
    (setCdf c s).resValid = s.resValid := rfl

@[simp] theorem setCdf_enc (c : Vector CdfSlot 4) (s : State) :
    (setCdf c s).enc = s.enc := rfl

@[simp] theorem setCdf_sp (c : Vector CdfSlot 4) (s : State) :
    (setCdf c s).sp = s.sp := rfl

@[simp] theorem setCdf_lfsr (c : Vector CdfSlot 4) (s : State) :
    (setCdf c s).lfsr = s.lfsr := rfl

@[simp] theorem setCdf_fgSeeded (c : Vector CdfSlot 4) (s : State) :
    (setCdf c s).fgSeeded = s.fgSeeded := rfl

@[simp] theorem setCdf_cdf (c : Vector CdfSlot 4) (s : State) :
    (setCdf c s).cdf = c := rfl

@[simp] theorem setCdf_dpb (c : Vector CdfSlot 4) (s : State) :
    (setCdf c s).dpb = s.dpb := rfl

@[simp] theorem setCdf_cmd (c : Vector CdfSlot 4) (s : State) :
    (setCdf c s).cmd = s.cmd := rfl

@[simp] theorem setCdf_outCapWords (c : Vector CdfSlot 4) (s : State) :
    (setCdf c s).outCapWords = s.outCapWords := rfl

@[simp] theorem setCdf_params (c : Vector CdfSlot 4) (s : State) :
    (setCdf c s).params = s.params := rfl

/-! ### `setDpb` -/

@[simp] theorem setDpb_run (d : Dpb) (s : State) :
    (setDpb d s).run = s.run := rfl

@[simp] theorem setDpb_cp (d : Dpb) (s : State) :
    (setDpb d s).cp = s.cp := rfl

@[simp] theorem setDpb_faultCode (d : Dpb) (s : State) :
    (setDpb d s).faultCode = s.faultCode := rfl

@[simp] theorem setDpb_faultCp (d : Dpb) (s : State) :
    (setDpb d s).faultCp = s.faultCp := rfl

@[simp] theorem setDpb_faultInfo (d : Dpb) (s : State) :
    (setDpb d s).faultInfo = s.faultInfo := rfl

@[simp] theorem setDpb_res (d : Dpb) (s : State) :
    (setDpb d s).res = s.res := rfl

@[simp] theorem setDpb_resValid (d : Dpb) (s : State) :
    (setDpb d s).resValid = s.resValid := rfl

@[simp] theorem setDpb_enc (d : Dpb) (s : State) :
    (setDpb d s).enc = s.enc := rfl

@[simp] theorem setDpb_sp (d : Dpb) (s : State) :
    (setDpb d s).sp = s.sp := rfl

@[simp] theorem setDpb_lfsr (d : Dpb) (s : State) :
    (setDpb d s).lfsr = s.lfsr := rfl

@[simp] theorem setDpb_fgSeeded (d : Dpb) (s : State) :
    (setDpb d s).fgSeeded = s.fgSeeded := rfl

@[simp] theorem setDpb_cdf (d : Dpb) (s : State) :
    (setDpb d s).cdf = s.cdf := rfl

@[simp] theorem setDpb_dpb (d : Dpb) (s : State) :
    (setDpb d s).dpb = d := rfl

@[simp] theorem setDpb_cmd (d : Dpb) (s : State) :
    (setDpb d s).cmd = s.cmd := rfl

@[simp] theorem setDpb_outCapWords (d : Dpb) (s : State) :
    (setDpb d s).outCapWords = s.outCapWords := rfl

@[simp] theorem setDpb_params (d : Dpb) (s : State) :
    (setDpb d s).params = s.params := rfl

/-! ### `setRun` -/

@[simp] theorem setRun_run (r : RunState) (s : State) :
    (setRun r s).run = r := rfl

@[simp] theorem setRun_cp (r : RunState) (s : State) :
    (setRun r s).cp = s.cp := rfl

@[simp] theorem setRun_faultCode (r : RunState) (s : State) :
    (setRun r s).faultCode = s.faultCode := rfl

@[simp] theorem setRun_faultCp (r : RunState) (s : State) :
    (setRun r s).faultCp = s.faultCp := rfl

@[simp] theorem setRun_faultInfo (r : RunState) (s : State) :
    (setRun r s).faultInfo = s.faultInfo := rfl

@[simp] theorem setRun_res (r : RunState) (s : State) :
    (setRun r s).res = s.res := rfl

@[simp] theorem setRun_resValid (r : RunState) (s : State) :
    (setRun r s).resValid = s.resValid := rfl

@[simp] theorem setRun_enc (r : RunState) (s : State) :
    (setRun r s).enc = s.enc := rfl

@[simp] theorem setRun_sp (r : RunState) (s : State) :
    (setRun r s).sp = s.sp := rfl

@[simp] theorem setRun_lfsr (r : RunState) (s : State) :
    (setRun r s).lfsr = s.lfsr := rfl

@[simp] theorem setRun_fgSeeded (r : RunState) (s : State) :
    (setRun r s).fgSeeded = s.fgSeeded := rfl

@[simp] theorem setRun_cdf (r : RunState) (s : State) :
    (setRun r s).cdf = s.cdf := rfl

@[simp] theorem setRun_dpb (r : RunState) (s : State) :
    (setRun r s).dpb = s.dpb := rfl

@[simp] theorem setRun_cmd (r : RunState) (s : State) :
    (setRun r s).cmd = s.cmd := rfl

@[simp] theorem setRun_outCapWords (r : RunState) (s : State) :
    (setRun r s).outCapWords = s.outCapWords := rfl

@[simp] theorem setRun_params (r : RunState) (s : State) :
    (setRun r s).params = s.params := rfl

/-! ### `takeFault` -/

@[simp] theorem takeFault_run (f : BswFault) (info : Word) (s : State) :
    (takeFault f info s).run = .faulted := rfl

@[simp] theorem takeFault_cp (f : BswFault) (info : Word) (s : State) :
    (takeFault f info s).cp = s.cp := rfl

@[simp] theorem takeFault_faultCode (f : BswFault) (info : Word) (s : State) :
    (takeFault f info s).faultCode = faultCodeOf f := rfl

@[simp] theorem takeFault_faultCp (f : BswFault) (info : Word) (s : State) :
    (takeFault f info s).faultCp = s.cp := rfl

@[simp] theorem takeFault_faultInfo (f : BswFault) (info : Word) (s : State) :
    (takeFault f info s).faultInfo = info := rfl

@[simp] theorem takeFault_res (f : BswFault) (info : Word) (s : State) :
    (takeFault f info s).res = s.res := rfl

@[simp] theorem takeFault_resValid (f : BswFault) (info : Word) (s : State) :
    (takeFault f info s).resValid = s.resValid := rfl

@[simp] theorem takeFault_enc (f : BswFault) (info : Word) (s : State) :
    (takeFault f info s).enc = s.enc := rfl

@[simp] theorem takeFault_sp (f : BswFault) (info : Word) (s : State) :
    (takeFault f info s).sp = s.sp := rfl

@[simp] theorem takeFault_lfsr (f : BswFault) (info : Word) (s : State) :
    (takeFault f info s).lfsr = s.lfsr := rfl

@[simp] theorem takeFault_fgSeeded (f : BswFault) (info : Word) (s : State) :
    (takeFault f info s).fgSeeded = s.fgSeeded := rfl

@[simp] theorem takeFault_cdf (f : BswFault) (info : Word) (s : State) :
    (takeFault f info s).cdf = s.cdf := rfl

@[simp] theorem takeFault_dpb (f : BswFault) (info : Word) (s : State) :
    (takeFault f info s).dpb = s.dpb := rfl

@[simp] theorem takeFault_cmd (f : BswFault) (info : Word) (s : State) :
    (takeFault f info s).cmd = s.cmd := rfl

@[simp] theorem takeFault_outCapWords (f : BswFault) (info : Word) (s : State) :
    (takeFault f info s).outCapWords = s.outCapWords := rfl

@[simp] theorem takeFault_params (f : BswFault) (info : Word) (s : State) :
    (takeFault f info s).params = s.params := rfl

/-! ### `hwReset` -/

@[simp] theorem hwReset_run (s : State) : (hwReset s).run = .idle := rfl

@[simp] theorem hwReset_cp (s : State) : (hwReset s).cp = 0 := rfl

@[simp] theorem hwReset_faultCode (s : State) : (hwReset s).faultCode = 0 := rfl

@[simp] theorem hwReset_faultCp (s : State) : (hwReset s).faultCp = 0 := rfl

@[simp] theorem hwReset_faultInfo (s : State) : (hwReset s).faultInfo = 0 := rfl

@[simp] theorem hwReset_res (s : State) : (hwReset s).res = 0 := rfl

@[simp] theorem hwReset_resValid (s : State) : (hwReset s).resValid = false := rfl

@[simp] theorem hwReset_enc (s : State) : (hwReset s).enc = Encoder.reset := rfl

@[simp] theorem hwReset_sp (s : State) : (hwReset s).sp = [] := rfl

@[simp] theorem hwReset_lfsr (s : State) : (hwReset s).lfsr = 0 := rfl

@[simp] theorem hwReset_fgSeeded (s : State) : (hwReset s).fgSeeded = false := rfl

@[simp] theorem hwReset_cdf (s : State) : (hwReset s).cdf = Vector.replicate 4 CdfSlot.reset := rfl

@[simp] theorem hwReset_dpb (s : State) : (hwReset s).dpb = Dpb.reset := rfl

@[simp] theorem hwReset_cmd (s : State) : (hwReset s).cmd = s.cmd := rfl

@[simp] theorem hwReset_outCapWords (s : State) : (hwReset s).outCapWords = s.outCapWords := rfl

@[simp] theorem hwReset_params (s : State) : (hwReset s).params = s.params := rfl

/-! ### Two updates of one unit -/

@[simp] theorem setEnc_setEnc (e f : Encoder) (s : State) : setEnc e (setEnc f s) = setEnc e s := rfl

@[simp] theorem setEnc_self (s : State) : setEnc s.enc s = s := rfl

@[simp] theorem setCdf_setCdf (c d : Vector CdfSlot 4) (s : State) :
    setCdf c (setCdf d s) = setCdf c s := rfl

@[simp] theorem setDpb_setDpb (c d : Dpb) (s : State) : setDpb c (setDpb d s) = setDpb c s := rfl

@[simp] theorem advance_zero (s : State) : advance 0 s = s := by
  cases s; simp [advance]

end Sys2Proof.Machine
end

