-- ==== Sys2Proof/Laws/Ops.lean ====
section
/-! SUPPORT. What each shared operation can do, said once: if it answers, then this is the answer. -/

namespace Sys2Proof.Machine

/-! ## Peeling procedures apart -/

theorem result_bind_ok {α β : Type} {x : Result α} {f : α → Result β} {b : β} :
    x.bind f = .ok b ↔ ∃ a, x = .ok a ∧ f a = .ok b := by
  cases x <;> simp [Except.bind]

theorem result_bind_error {α β : Type} {x : Result α} {f : α → Result β} {z : Stop} :
    x.bind f = .error z ↔ x = .error z ∨ ∃ a, x = .ok a ∧ f a = .error z := by
  cases x <;> simp [Except.bind]

theorem result_map_ok {α β : Type} {x : Result α} {f : α → β} {b : β} :
    x.map f = .ok b ↔ ∃ a, x = .ok a ∧ f a = b := by
  cases x <;> simp [Except.map]

theorem result_map_error {α β : Type} {x : Result α} {f : α → β} {z : Stop} :
    x.map f = .error z ↔ x = .error z := by
  cases x <;> simp [Except.map]

/-! ## The end of a command -/

@[simp] theorem finish_ok (len : Nat) (s t : State) :
    finish len s (.ok t) = .next (advance len t) := rfl

@[simp] theorem finish_raise (len : Nat) (s : State) (f : BswFault) (info : Word) :
    finish len s (.error (.raise f info)) = .next (takeFault f info s) := rfl

@[simp] theorem finish_halt (len : Nat) (s : State) (x : Fault) :
    finish len s (.error (.halt x)) = .fault x := rfl

/-- A command that answers a next state has completed, or has entered a fault (40_control.md R123). -/
theorem finish_next {len : Nat} {s t : State} {r : Result State} (h : finish len s r = .next t) :
    (∃ u, r = .ok u ∧ t = advance len u) ∨
      ∃ f info, r = .error (.raise f info) ∧ t = takeFault f info s := by
  rcases r with ⟨f, info⟩ | u
  · right; exact ⟨f, info, rfl, by simpa [finish] using h.symm⟩
  · rename_i x; simp [finish] at h
  · left; exact ⟨_, rfl, by simpa [finish] using h.symm⟩

/-- The same for a procedure of units BW and HE. -/
theorem onEncoder_next {len : Nat} {f : Encoder → Result Encoder} {s t : State}
    (h : onEncoder len f s = .next t) :
    (∃ e, f s.enc = .ok e ∧ t = advance len (setEnc e s)) ∨
      ∃ x info, f s.enc = .error (.raise x info) ∧ t = takeFault x info s := by
  rcases finish_next h with ⟨u, hu, ht⟩ | ⟨x, info, hx, ht⟩
  · obtain ⟨e, he, rfl⟩ := result_map_ok.1 hu
    exact .inl ⟨e, he, ht⟩
  · exact .inr ⟨x, info, result_map_error.1 hx, ht⟩

theorem onEncoder_of_ok {len : Nat} {f : Encoder → Result Encoder} {s : State} {e : Encoder}
    (h : f s.enc = .ok e) : onEncoder len f s = .next (advance len (setEnc e s)) := by
  simp [onEncoder, h, Except.map]

theorem onEncoder_of_raise {len : Nat} {f : Encoder → Result Encoder} {s : State} {x : BswFault}
    {info : Word} (h : f s.enc = .error (.raise x info)) :
    onEncoder len f s = .next (takeFault x info s) := by
  simp [onEncoder, h, Except.map]

/-! ## The output port (R133) -/

/-- A byte was stored: there was room, and only OUT and the position have changed. -/
theorem outputByte_ok {cap : Nat} {b : Byte} {e e' : Encoder} (h : outputByte cap b e = .ok e') :
    e.outWi.toNat < cap ∧ ∃ w, mergedWord b e = some w ∧
      e' = nextLane { e with out := Memory.write e.out e.outWi.toNat w } := by
  simp only [outputByte] at h
  split at h
  · cases h
  · rename_i hc
    split at h
    · rename_i w hw
      exact ⟨Nat.lt_of_not_le hc, w, hw, by simpa using h.symm⟩
    · cases h

/-- A byte was not stored: OUT is full, or the word to merge into holds no value. -/
theorem outputByte_error {cap : Nat} {b : Byte} {e : Encoder} {z : Stop}
    (h : outputByte cap b e = .error z) :
    (cap ≤ e.outWi.toNat ∧ z = .raise .outOverflow (e.outWi.setWidth 32)) ∨
      (e.outWi.toNat < cap ∧ mergedWord b e = none ∧ z = .halt (.outUnwritten e.outWi.toNat)) := by
  simp only [outputByte] at h
  split at h
  · rename_i hc; exact .inl ⟨hc, by simpa using h.symm⟩
  · rename_i hc
    split at h
    · cases h
    · rename_i hw; exact .inr ⟨Nat.lt_of_not_le hc, hw, by simpa using h.symm⟩

theorem nextLane_frame (e : Encoder) :
    nextLane e = { e with outWi := (nextLane e).outWi, outBi := (nextLane e).outBi } := by
  unfold nextLane; split <;> rfl

/-- The frame of the output port. -/
theorem outputByte_frame {cap : Nat} {b : Byte} {e e' : Encoder} (h : outputByte cap b e = .ok e') :
    e' = { e with out := e'.out, outWi := e'.outWi, outBi := e'.outBi } := by
  obtain ⟨-, w, -, rfl⟩ := outputByte_ok h
  unfold nextLane; split <;> rfl

/-- The frame of a drained byte. -/
theorem drainByte_frame {cap : Nat} {b : Byte} {e e' : Encoder} (h : drainByte cap b e = .ok e') :
    e' = { e with out := e'.out, outWi := e'.outWi, outBi := e'.outBi, nz := e'.nz,
                  bitsOut := e'.bitsOut } := by
  simp only [drainByte] at h
  split at h
  · obtain ⟨e₁, h₁, h₂⟩ := result_bind_ok.1 h
    have f₂ := outputByte_frame h₂
    split at h₁
    · obtain ⟨e₀, h₀, rfl⟩ := result_map_ok.1 h₁
      have f₀ := outputByte_frame h₀
      rw [f₂, f₀]
    · cases h₁; rw [f₂]
  · have f := outputByte_frame h
    rw [f]

/-- A byte was drained: without emulation prevention it was stored; with it, a stuffing byte may have
been stored first, and the data byte was counted and stored (R135). -/
theorem drainByte_ok {cap : Nat} {b : Byte} {e e' : Encoder} (h : drainByte cap b e = .ok e') :
    (e.ep = false ∧ outputByte cap b e = .ok e') ∨
    (e.ep = true ∧ stuffs e.nz b = false ∧
      outputByte cap b { e with nz := countZero e.nz b } = .ok e') ∨
    (e.ep = true ∧ stuffs e.nz b = true ∧ ∃ e₁, outputByte cap 0x03 e = .ok e₁ ∧
      outputByte cap b { e₁ with bitsOut := e₁.bitsOut + 8, nz := countZero 0 b } = .ok e') := by
  simp only [drainByte] at h
  split at h
  · rename_i hep
    obtain ⟨e₁, h₁, h₂⟩ := result_bind_ok.1 h
    split at h₁
    · rename_i hs
      obtain ⟨e₀, h₀, rfl⟩ := result_map_ok.1 h₁
      exact .inr (.inr ⟨hep, hs, e₀, h₀, h₂⟩)
    · rename_i hs
      cases h₁
      exact .inr (.inl ⟨hep, by simpa using hs, h₂⟩)
  · rename_i hep; exact .inl ⟨by simpa using hep, h⟩

/-! ## Codes, alignment and flush (R139, R141, R144, R146) -/

theorem putUe_ok {cap : Nat} {v : Word} {e e' : Encoder} (h : putUe cap v e = .ok e') :
    v.toNat ≠ 2 ^ 32 - 1 ∧ ∃ e₁, putBits cap 0 (Nat.log2 (v.toNat + 1)) e = .ok e₁ ∧
      putBits cap (BitVec.ofNat 32 (v.toNat + 1)) (Nat.log2 (v.toNat + 1) + 1) e₁ = .ok e' := by
  simp only [putUe] at h
  split at h
  · cases h
  · rename_i hv
    obtain ⟨e₁, h₁, h₂⟩ := result_bind_ok.1 h
    exact ⟨hv, e₁, h₁, h₂⟩

theorem putSe_ok {cap : Nat} {v : Word} {e e' : Encoder} (h : putSe cap v e = .ok e') :
    v.toInt ≠ -2 ^ 31 ∧ putUe cap (BitVec.ofNat 32 (seMap v.toInt)) e = .ok e' := by
  simp only [putSe] at h
  split at h
  · cases h
  · rename_i hv; exact ⟨hv, h⟩

theorem flushHeld_ok {cap : Nat} {e e' : Encoder} (h : flushHeld cap e = .ok e') :
    (e.nbits = 0 ∧ e' = e) ∨
    (e.nbits ≠ 0 ∧ ∃ e₁, drainByte cap (e.shifter.extractLsb' 24 8) e = .ok e₁ ∧
      e' = { e₁ with bitsOut := e₁.bitsOut + e.nbits.setWidth 32, shifter := 0, nbits := 0 }) := by
  simp only [flushHeld] at h
  split at h
  · rename_i hn; exact .inl ⟨hn, (Except.ok.inj h).symm⟩
  · rename_i hn
    obtain ⟨e₁, h₁, rfl⟩ := result_map_ok.1 h
    exact .inr ⟨hn, e₁, h₁, rfl⟩

theorem flush_ok {cap : Nat} {e e' : Encoder} (h : flush cap e = .ok e') :
    ∃ e₁, flushHeld cap e = .ok e₁ ∧ e' = alignWord e₁ := by
  obtain ⟨e₁, h₁, rfl⟩ := result_map_ok.1 h
  exact ⟨e₁, h₁, rfl⟩

/-! ## Parameter reads (R178, R179) -/

theorem param_ok {sp : Memory SpCell} {i : Nat} {x : Word} :
    param sp i = .ok x ↔ Safety.holds sp i x := by
  unfold param Safety.holds
  cases Memory.read sp i with
  | none => simp
  | some c =>
    obtain ⟨w, b⟩ := c
    cases b <;> simp

theorem ranged_ok {sp : Memory SpCell} {i lo hi : Nat} {x : Word} (h : ranged sp i lo hi = .ok x) :
    Safety.holds sp i x ∧ lo ≤ x.toNat ∧ x.toNat ≤ hi := by
  obtain ⟨y, hy, h⟩ := result_bind_ok.1 h
  split at h
  · cases h
  · rename_i hc
    cases h
    exact ⟨param_ok.1 hy, by omega, by omega⟩

theorem ranged_of_holds {sp : Memory SpCell} {i lo hi : Nat} {x : Word} (h : Safety.holds sp i x)
    (hlo : lo ≤ x.toNat) (hhi : x.toNat ≤ hi) : ranged sp i lo hi = .ok x := by
  rw [ranged, param_ok.2 h]
  simp only [Except.bind]
  rw [if_neg (by omega)]

theorem flagParam_of_holds {sp : Memory SpCell} {i : Nat} {x : Word} (h : Safety.holds sp i x)
    (hx : x.toNat ≤ 1) : flagParam sp i = .ok x := by
  rw [flagParam, param_ok.2 h]
  simp only [Except.bind]
  rw [if_neg (by omega)]

theorem required_of_holds {sp : Memory SpCell} {i v : Nat} {x : Word} (h : Safety.holds sp i x)
    (hx : x.toNat = v) : required sp i v = .ok x := by
  rw [required, param_ok.2 h]
  simp [Except.bind, hx]

/-! ## The instruction list (R172 to R175) -/

theorem checkOpen_ok {e : Encoder} {u : Unit} : checkOpen e = .ok u ↔ e.tmplDone = false := by
  unfold checkOpen; split <;> simp_all

theorem checkCovered_ok {e : Encoder} {u : Unit} :
    checkCovered e = .ok u ↔ e.nbits = 0 ∧ e.bitsOut = e.bitsCopied := by
  unfold checkCovered; split
  · simp_all; tauto
  · simp_all

theorem ilAppend_ok {ilMax : Nat} {kind : IlKind} {n : Word} {e e' : Encoder}
    (h : ilAppend ilMax kind n e = .ok e') :
    e.tmplDone = false ∧ e.ilCount.toNat < ilMax ∧
      e' = { e with il := Memory.write e.il e.ilCount.toNat ⟨kind, n⟩, ilCount := e.ilCount + 1 } := by
  obtain ⟨u, hu, h⟩ := result_bind_ok.1 h
  split at h
  · cases h
  · rename_i hc
    exact ⟨checkOpen_ok.1 hu, Nat.lt_of_not_le hc, by simpa using h.symm⟩

theorem heCopyProc_ok {cap ilMax : Nat} {e e' : Encoder} (h : heCopyProc cap ilMax e = .ok e') :
    e.tmplDone = false ∧ ∃ e₁ e₂, flush cap e = .ok e₁ ∧
      ilAppend ilMax .copy (e₁.bitsOut - e₁.bitsCopied) e₁ = .ok e₂ ∧
      e' = { e₂ with bitsCopied := e₂.bitsOut } := by
  obtain ⟨u, hu, h⟩ := result_bind_ok.1 h
  obtain ⟨e₁, h₁, h⟩ := result_bind_ok.1 h
  obtain ⟨e₂, h₂, rfl⟩ := result_map_ok.1 h
  exact ⟨checkOpen_ok.1 hu, e₁, e₂, h₁, h₂, rfl⟩

theorem heMarkProc_ok {ilMax : Nat} {kind : IlKind} {e e' : Encoder}
    (h : heMarkProc ilMax kind e = .ok e') :
    e.tmplDone = false ∧ e.nbits = 0 ∧ e.bitsOut = e.bitsCopied ∧
      ilAppend ilMax kind 0 e = .ok e' := by
  obtain ⟨u, hu, h⟩ := result_bind_ok.1 h
  obtain ⟨v, hv, h⟩ := result_bind_ok.1 h
  exact ⟨checkOpen_ok.1 hu, (checkCovered_ok.1 hv).1, (checkCovered_ok.1 hv).2, h⟩

theorem heEndProc_ok {ilMax : Nat} {e e' : Encoder} (h : heEndProc ilMax e = .ok e') :
    e.tmplDone = false ∧ e.nbits = 0 ∧ e.bitsOut = e.bitsCopied ∧
      ∃ e₁, ilAppend ilMax .endList 0 e = .ok e₁ ∧ e' = { e₁ with tmplDone := true } := by
  obtain ⟨u, hu, h⟩ := result_bind_ok.1 h
  obtain ⟨v, hv, h⟩ := result_bind_ok.1 h
  obtain ⟨e₁, h₁, rfl⟩ := result_map_ok.1 h
  exact ⟨checkOpen_ok.1 hu, (checkCovered_ok.1 hv).1, (checkCovered_ok.1 hv).2, e₁, h₁, rfl⟩

/-! ## Scripts -/

@[simp] theorem runScript_nil (cap ilMax : Nat) (e : Encoder) : runScript cap ilMax [] e = .ok e := rfl

theorem runScript_append (cap ilMax : Nat) (a b : Script) (e : Encoder) :
    runScript cap ilMax (a ++ b) e = (runScript cap ilMax a e).bind (runScript cap ilMax b) := by
  induction a generalizing e with
  | nil => rfl
  | cons i is ih =>
    simp only [List.cons_append, runScript]
    cases runItem cap ilMax i e with
    | error z => rfl
    | ok e' => exact ih e'

/-! ## Unit DPB -/

theorem dpbDynamic_ok {d : Dpb} {u : Unit} : dpbDynamic d = .ok u ↔ d.mode = .dynamicT2 := by
  unfold dpbDynamic; split <;> simp_all

theorem dpbWantOpen_ok {want : Bool} {d : Dpb} {u : Unit} :
    dpbWantOpen want d = .ok u ↔ d.isOpen = want := by
  unfold dpbWantOpen; split <;> simp_all

theorem dpbSlotCheck_ok {slot : Byte} {d : Dpb} {u : Unit} :
    dpbSlotCheck slot d = .ok u ↔ slot.toNat ≤ d.m.toNat := by
  unfold dpbSlotCheck; split <;> simp_all

theorem dpbBeginProc_ok {cur : Addr} {d d' : Dpb} (h : dpbBeginProc cur d = .ok d') :
    d.mode = .dynamicT2 ∧ d.isOpen = false ∧ cur ≠ 0 ∧ d' = dpbOpenCall cur d := by
  obtain ⟨u, hu, h⟩ := result_bind_ok.1 h
  obtain ⟨v, hv, h⟩ := result_bind_ok.1 h
  split at h
  · cases h
  · rename_i hc
    exact ⟨dpbDynamic_ok.1 hu, dpbWantOpen_ok.1 hv, hc, (Except.ok.inj h).symm⟩

theorem dpbRefProc_ok {slot : Byte} {addr : Addr} {d d' : Dpb} (h : dpbRefProc slot addr d = .ok d') :
    d.mode = .dynamicT2 ∧ d.isOpen = true ∧ slot.toNat ≤ d.m.toNat ∧ addr ≠ 0 ∧
      d' = { d with table := Memory.write d.table slot.toNat addr
                    used := markUsed d.used slot.toNat } := by
  obtain ⟨u, hu, h⟩ := result_bind_ok.1 h
  obtain ⟨v, hv, h⟩ := result_bind_ok.1 h
  obtain ⟨w, hw, h⟩ := result_bind_ok.1 h
  split at h
  · cases h
  · rename_i hc
    exact ⟨dpbDynamic_ok.1 hu, dpbWantOpen_ok.1 hv, dpbSlotCheck_ok.1 hw, hc, (Except.ok.inj h).symm⟩

theorem dpbCommitProc_ok {d d' : Dpb} (h : dpbCommitProc d = .ok d') :
    d.mode = .dynamicT2 ∧ d.isOpen = true ∧ d' = { d with isOpen := false, valid := true } := by
  obtain ⟨u, hu, h⟩ := result_bind_ok.1 h
  obtain ⟨v, hv, h⟩ := result_bind_ok.1 h
  exact ⟨dpbDynamic_ok.1 hu, dpbWantOpen_ok.1 hv, (Except.ok.inj h).symm⟩

/-! ## Steps -/

theorem step_running_ok {s : State} {i : Instr} (h : s.run = .running) (hf : fetch s = .ok i) :
    step s = exec i s := by
  simp [step, h, hf]

theorem step_running_error {s : State} {x : DecodeError} (h : s.run = .running)
    (hf : fetch s = .error x) : step s = fetchFault x s := by
  simp [step, h, hf]

theorem step_stopped {s : State} (h : s.run ≠ .running) : step s = .next s := by
  unfold step; split <;> first | contradiction | rfl

end Sys2Proof.Machine
end

