-- ==== Sys2Proof/Laws/Headers.lean ====
section
/-! SUPPORT. The small lemmas of slice headers as data, of parameter reads inside a sequence, of the
checks that open a sequence, and of EP windows: proofs cite these and unfold none of the definitions. -/

namespace Sys2Proof.Safety

open Sys2Proof.Machine

/-! ## Pieces -/

@[simp] theorem piece_none_reads : Piece.none.reads = [] := rfl
@[simp] theorem piece_none_puts : Piece.none.puts = [] := rfl
@[simp] theorem join_nil : Piece.join [] = Piece.none := rfl
@[simp] theorem join_cons_reads (p : Piece) (l : List Piece) :
    (Piece.join (p :: l)).reads = p.reads ++ (Piece.join l).reads := rfl
@[simp] theorem join_cons_puts (p : Piece) (l : List Piece) :
    (Piece.join (p :: l)).puts = p.puts ++ (Piece.join l).puts := rfl
@[simp] theorem present_none {α : Type} (i : Nat) (f : α → Piece) :
    present i none f = readOnly i 0 := rfl
@[simp] theorem present_some {α : Type} (i : Nat) (a : α) (f : α → Piece) :
    present i (some a) f = Piece.join [readOnly i 1, f a] := rfl
@[simp] theorem flagged_none {α : Type} (i : Nat) (f : α → Piece) :
    flagged i none f = bitsOfParam i 0 1 := rfl
@[simp] theorem flagged_some {α : Type} (i : Nat) (a : α) (f : α → Piece) :
    flagged i (some a) f = Piece.join [bitsOfParam i 1 1, f a] := rfl
@[simp] theorem onlyIf_pos {c : Prop} [Decidable c] (h : c) (p : Piece) : onlyIf c p = p := if_pos h
@[simp] theorem onlyIf_neg {c : Prop} [Decidable c] (h : ¬c) (p : Piece) : onlyIf c p = Piece.none :=
  if_neg h

/-! ## Parameter reads inside a sequence -/

@[simp] theorem need_ok (x : Word) (k : Word → Script) : need (.ok x) k = k x := rfl
@[simp] theorem need_error (z : Stop) (k : Word → Script) : need (.error z) k = [.stop z] := rfl
@[simp] theorem emitBits_ok (x : Word) (n : Nat) : emitBits (.ok x) n = [.bits x n] := rfl
@[simp] theorem emitUe_ok (x : Word) : emitUe (.ok x) = [.ue x] := rfl
@[simp] theorem emitSe_ok (x : Word) : emitSe (.ok x) = [.se x] := rfl
@[simp] theorem whenSet_ok (x : Word) (a : Script) :
    whenSet (.ok x) a = if x = 1 then a else [] := rfl

theorem signedRanged_of_holds {sp : Memory SpCell} {i : Nat} {lo hi : Int} {x : Word}
    (h : holds sp i x) (hlo : lo ≤ x.toInt) (hhi : x.toInt ≤ hi) :
    signedRanged sp i lo hi = .ok x := by
  rw [signedRanged, param_ok.2 h]
  simp only [Except.bind]
  rw [if_neg (by omega)]

/-- A parameter that is not written raises `SpUnwritten` (R178). -/
theorem param_of_unwritten {sp : Memory SpCell} {i : Nat} (h : unwritten sp i) :
    param sp i = .error (.raise .spUnwritten (BitVec.ofNat 32 i)) := by
  unfold unwritten spWritten at h
  unfold param
  split at h <;> simp_all

/-! ## The checks that open a sequence -/

theorem written_eq_some {sp : Memory SpCell} {i : Nat} {v : Word} :
    written sp i = some v ↔ holds sp i v := by
  unfold written holds
  cases Memory.read sp i with
  | none => simp
  | some c =>
    obtain ⟨w, b⟩ := c
    cases b <;> simp

theorem written_eq_none {sp : Memory SpCell} {i : Nat} : written sp i = none ↔ unwritten sp i := by
  unfold written unwritten spWritten
  cases Memory.read sp i with
  | none => simp
  | some c =>
    obtain ⟨w, b⟩ := c
    cases b <;> simp

@[simp] theorem firstRefusal_nil (sp : Memory SpCell) : firstRefusal sp [] = none := rfl

theorem firstRefusal_unwritten {sp : Memory SpCell} {c : Check} {cs : List Check}
    (h : unwritten sp c.index) : firstRefusal sp (c :: cs) = some (0x24, c.index) := by
  simp [firstRefusal, written_eq_none.2 h]

theorem firstRefusal_refused {sp : Memory SpCell} {c : Check} {cs : List Check} {v : Word}
    {code : Byte} (h : holds sp c.index v) (hr : c.refuses v = some code) :
    firstRefusal sp (c :: cs) = some (code, c.index) := by
  simp [firstRefusal, written_eq_some.2 h, hr]

theorem firstRefusal_passed {sp : Memory SpCell} {c : Check} {cs : List Check} {v : Word}
    (h : holds sp c.index v) (hr : c.refuses v = none) :
    firstRefusal sp (c :: cs) = firstRefusal sp cs := by
  simp [firstRefusal, written_eq_some.2 h, hr]

/-! ## EP windows -/

@[simp] theorem windowOf_nil (s : State) : windowOf [] s = some ⟨[], [], s⟩ := rfl

/-- What the first command of a window did: it completed with the machine still running, and the rest of
the commands made the rest of the window. -/
theorem windowOf_cons {i : Instr} {is : List Instr} {s : State} {w : Window}
    (h : windowOf (i :: is) s = some w) :
    ∃ data t u, drained s.enc i = some data ∧ exec i s = .next t ∧ t.run = .running ∧
      windowOf is t = some u ∧ w.data = data ++ u.data ∧
      w.lanes = (List.range (emitted s.enc data).length).map (pos s.enc + ·) ++ u.lanes ∧
      w.final = u.final := by
  simp only [windowOf] at h
  obtain ⟨data, hd, h⟩ := Option.bind_eq_some_iff.1 h
  split at h
  · rename_i t ht
    split at h
    · rename_i hr
      obtain ⟨u, hu, rfl⟩ := Option.map_eq_some_iff.1 h
      exact ⟨data, t, u, hd, ht, hr, hu, rfl, rfl, rfl⟩
    · cases h
  · cases h
  · cases h

end Sys2Proof.Safety

namespace Sys2Proof.Machine

/-! ## Host reads and moves -/

theorem csrRead_running {s : State} (h : s.run = .running) {n : Nat} (hn : n ≠ 0) :
    csrRead n s = none := by
  simp [csrRead, h, hn]

theorem csrRead_stopped {s : State} (h : s.run ≠ .running) (n : Nat) : csrRead n s = csrWord n s := by
  simp [csrRead, h]

theorem whenStopped_running {α : Type} {s : State} (h : s.run = .running) (r : Option α) :
    whenStopped s r = none := by
  simp [whenStopped, h]

theorem whenStopped_stopped {α : Type} {s : State} (h : s.run ≠ .running) (r : Option α) :
    whenStopped s r = r := by
  simp [whenStopped, h]

theorem hostMayMove_iff {s : State} : hostMayMove s = true ↔ s.run = .idle ∨ s.run = .done := by
  simp [hostMayMove]

end Sys2Proof.Machine
end

