-- ==== Sys2Proof/Laws/Memory.lean ====
section
/-! SUPPORT. The laws of the memories: a read after a write, the frame of a write, and that every
operation keeps the canonical form and the bound of the space. -/

namespace Sys2Proof.Machine

variable {α : Type}

/-! ## Reads after writes -/

@[simp] theorem Memory.read_nil (a : Nat) : Memory.read ([] : Memory α) a = none := rfl

@[simp] theorem Memory.read_write_same (m : Memory α) (a : Nat) (v : α) :
    Memory.read (Memory.write m a v) a = some v := by
  induction m with
  | nil => simp [Memory.write, Memory.read]
  | cons c m ih =>
    obtain ⟨k, w⟩ := c
    simp only [Memory.write]
    split
    · simp [Memory.read]
    · split
      · simp [Memory.read]
      · rename_i h; simp [Memory.read, Ne.symm h, ih]

theorem Memory.read_write_other (m : Memory α) {a b : Nat} (v : α) (h : b ≠ a) :
    Memory.read (Memory.write m a v) b = Memory.read m b := by
  induction m with
  | nil => simp [Memory.write, Memory.read, Ne.symm h]
  | cons c m ih =>
    obtain ⟨k, w⟩ := c
    simp only [Memory.write]
    split
    · simp [Memory.read, Ne.symm h]
    · split
      · rename_i e; subst e; simp [Memory.read, Ne.symm h]
      · simp [Memory.read, ih]

/-- Both read laws in one equation. -/
theorem Memory.read_write (m : Memory α) (a b : Nat) (v : α) :
    Memory.read (Memory.write m a v) b = if b = a then some v else Memory.read m b := by
  by_cases h : b = a
  · subst h; simp
  · simp [h, Memory.read_write_other m v h]

theorem Memory.read_writeRange (vs : List α) (m : Memory α) (a b : Nat) :
    Memory.read (Memory.writeRange m a vs) b =
      if a ≤ b ∧ b < a + vs.length then vs[b - a]? else Memory.read m b := by
  induction vs generalizing m a with
  | nil => rw [if_neg (by simp only [List.length_nil]; omega)]; rfl
  | cons v vs ih =>
    rw [Memory.writeRange, ih, Memory.read_write, List.length_cons]
    by_cases h : b = a
    · subst h; simp
    · by_cases h' : a ≤ b ∧ b < a + (vs.length + 1)
      · have e : b - a = (b - (a + 1)) + 1 := by omega
        rw [if_pos (by omega), if_pos h', e, List.getElem?_cons_succ]
      · rw [if_neg (by omega), if_neg h, if_neg h']

/-! ## What is listed -/

theorem Memory.mem_write {m : Memory α} {a : Nat} {v : α} {c : Nat × α}
    (h : c ∈ Memory.write m a v) : c = (a, v) ∨ c ∈ m := by
  induction m with
  | nil => simpa [Memory.write] using h
  | cons d m ih =>
    obtain ⟨k, w⟩ := d
    simp only [Memory.write] at h
    split at h
    · simpa using h
    · split at h
      · rcases List.mem_cons.1 h with h | h
        · exact .inl h
        · exact .inr (List.mem_cons_of_mem _ h)
      · rcases List.mem_cons.1 h with h | h
        · exact .inr (by simp [h])
        · exact (ih h).imp_right (List.mem_cons_of_mem _)

theorem Memory.mem_writeRange {vs : List α} {m : Memory α} {a : Nat} {c : Nat × α}
    (h : c ∈ Memory.writeRange m a vs) : (a ≤ c.1 ∧ c.1 < a + vs.length) ∨ c ∈ m := by
  induction vs generalizing m a with
  | nil => exact .inr h
  | cons v vs ih =>
    rcases ih h with h | h
    · left; simp only [List.length_cons]; omega
    · rcases Memory.mem_write h with rfl | h
      · left; simp
      · exact .inr h

theorem Memory.mem_of_read {m : Memory α} {a : Nat} {v : α} (h : Memory.read m a = some v) :
    (a, v) ∈ m := by
  induction m with
  | nil => simp at h
  | cons c m ih =>
    obtain ⟨k, w⟩ := c
    simp only [Memory.read] at h
    split at h
    · rename_i e; subst e; simp_all
    · exact List.mem_cons_of_mem _ (ih h)

/-! ## The canonical form (`Memory.wf`) and the bound of a space (`Memory.below`) -/

theorem Memory.wf_nil : Memory.wf ([] : Memory α) := List.Pairwise.nil

theorem Memory.wf_write {m : Memory α} (h : Memory.wf m) (a : Nat) (v : α) :
    Memory.wf (Memory.write m a v) := by
  induction m with
  | nil => simp [Memory.wf, Memory.write]
  | cons c m ih =>
    obtain ⟨k, w⟩ := c
    have hk : ∀ x ∈ m.map Prod.fst, k < x := (List.pairwise_cons.1 h).1
    have hm : Memory.wf m := (List.pairwise_cons.1 h).2
    simp only [Memory.write]
    split
    · rename_i hak
      refine List.pairwise_cons.2 ⟨?_, h⟩
      intro x hx
      rcases List.mem_cons.1 (by simpa using hx : x ∈ k :: m.map Prod.fst) with rfl | hx
      · exact hak
      · exact hak.trans (hk x hx)
    · split
      · rename_i e; subst e; exact List.pairwise_cons.2 ⟨hk, hm⟩
      · refine List.pairwise_cons.2 ⟨?_, ih hm⟩
        intro x hx
        obtain ⟨c, hc, rfl⟩ := List.mem_map.1 hx
        rcases Memory.mem_write hc with rfl | hc
        · show k < a; omega
        · exact hk _ (List.mem_map.2 ⟨c, hc, rfl⟩)

theorem Memory.wf_writeRange {m : Memory α} (h : Memory.wf m) (a : Nat) (vs : List α) :
    Memory.wf (Memory.writeRange m a vs) := by
  induction vs generalizing m a with
  | nil => exact h
  | cons v vs ih => exact ih (Memory.wf_write h a v) (a + 1)

theorem Memory.below_write {m : Memory α} {bound a : Nat} (h : Memory.below bound m) (ha : a < bound)
    (v : α) : Memory.below bound (Memory.write m a v) := by
  intro c hc
  rcases Memory.mem_write hc with rfl | hc
  · exact ha
  · exact h c hc

theorem Memory.below_writeRange {m : Memory α} {bound a : Nat} {vs : List α}
    (h : Memory.below bound m) (ha : a + vs.length ≤ bound) :
    Memory.below bound (Memory.writeRange m a vs) := by
  intro c hc
  rcases Memory.mem_writeRange hc with hc | hc
  · omega
  · exact h c hc

theorem Memory.below_mono {m : Memory α} {b b' : Nat} (h : Memory.below b m) (hb : b ≤ b') :
    Memory.below b' m := fun c hc => Nat.lt_of_lt_of_le (h c hc) hb

/-! ## The slice-parameter RAM -/

theorem clearWritten_map_fst (sp : Memory SpCell) :
    (clearWritten sp).map Prod.fst = sp.map Prod.fst := by
  simp [clearWritten]

theorem wf_clearWritten {sp : Memory SpCell} (h : Memory.wf sp) : Memory.wf (clearWritten sp) := by
  show List.Pairwise _ _; rw [clearWritten_map_fst]; exact h

theorem below_clearWritten {sp : Memory SpCell} {b : Nat} (h : Memory.below b sp) :
    Memory.below b (clearWritten sp) := by
  intro c hc
  obtain ⟨d, hd, rfl⟩ := List.mem_map.1 hc
  exact h d hd

theorem read_clearWritten (sp : Memory SpCell) (i : Nat) :
    Memory.read (clearWritten sp) i =
      (Memory.read sp i).map fun c => { c with written := false } := by
  induction sp with
  | nil => rfl
  | cons c sp ih =>
    obtain ⟨k, c⟩ := c
    simp only [clearWritten, List.map_cons, Memory.read] at ih ⊢
    split <;> simp_all

/-! ## Reset -/

theorem reset_memories_wf : Memory.wf State.reset.enc.out ∧ Memory.wf State.reset.enc.il ∧
    Memory.wf State.reset.sp ∧ Memory.wf State.reset.dpb.table :=
  ⟨Memory.wf_nil, Memory.wf_nil, Memory.wf_nil, Memory.wf_nil⟩

theorem reset_slots_wf (i : Fin 4) : Memory.wf State.reset.cdf[i].mem := by
  fin_cases i <;> exact Memory.wf_nil

end Sys2Proof.Machine
end

