-- ==== Sys2Proof/Laws/PerInstr.lean ====
section
/-! SUPPORT. Statements made for every command, one lemma per constructor. -/

namespace Sys2Proof.Laws.EncodedLegal

/-- The header of the encoding names a row of the opcode map (spec/30_encoding.md R95) whose
must-be-zero bits are clear in it (R91), and the operand words are as many as the row has (R92). -/
def Statement (i : Instr) : Prop :=
  ∃ r ∈ opTable, r.op = fieldOp (encodeHeader i) ∧ encodeHeader i &&& mustBeZero r.format = 0 ∧
    (operandWords i).length = r.nops

/-- `Statement` from the position of the row in the opcode map. -/
theorem of_row {i : Instr} (k : Nat) (hk : k < opTable.length)
    (hop : opTable[k].op = fieldOp (encodeHeader i))
    (hz : encodeHeader i &&& mustBeZero opTable[k].format = 0)
    (hn : (operandWords i).length = opTable[k].nops) : Statement i :=
  ⟨opTable[k], List.getElem_mem hk, hop, hz, hn⟩

theorem zero_z (op : Byte) : headerWord op 0 0 0 &&& mustBeZero .z = 0 := by
  rw [show mustBeZero .z = headerWord 0 255 255 255 by decide, headerWord_and]; simp [headerWord]

theorem zero_a (op a : Byte) : headerWord op a 0 0 &&& mustBeZero .a = 0 := by
  rw [show mustBeZero .a = headerWord 0 0 255 255 by decide, headerWord_and]; simp [headerWord]

theorem zero_ab (op a b : Byte) : headerWord op a b 0 &&& mustBeZero .ab = 0 := by
  rw [show mustBeZero .ab = headerWord 0 0 0 255 by decide, headerWord_and]; simp [headerWord]

theorem zero_ai (op a : Byte) (imm : Half) : headerWordImm op a imm &&& mustBeZero .ai = 0 := by
  simp [mustBeZero]

theorem zero_i (op : Byte) (imm : Half) : headerWordImm op 0 imm &&& mustBeZero .i = 0 := by
  rw [show mustBeZero .i = headerWordImm 0 255 0 by decide, headerWordImm_and]; simp [headerWordImm]

theorem endRun : Statement .endRun :=
  of_row 0 (by decide) (fieldOp_headerWord _ _ _ _).symm (zero_z _) rfl

theorem bwReset : Statement .bwReset :=
  of_row 1 (by decide) (fieldOp_headerWord _ _ _ _).symm (zero_z _) rfl

theorem bwSetep (en : Byte) : Statement (.bwSetep en) :=
  of_row 2 (by decide) (fieldOp_headerWord _ _ _ _).symm (zero_a _ _) rfl

theorem bwPut (n : Byte) (value : Word) : Statement (.bwPut n value) :=
  of_row 3 (by decide) (fieldOp_headerWord _ _ _ _).symm (zero_a _ _) rfl

theorem bwUe (v : Word) : Statement (.bwUe v) :=
  of_row 4 (by decide) (fieldOp_headerWord _ _ _ _).symm (zero_z _) rfl

theorem bwSe (v : Word) : Statement (.bwSe v) :=
  of_row 5 (by decide) (fieldOp_headerWord _ _ _ _).symm (zero_z _) rfl

theorem bwAlign : Statement .bwAlign :=
  of_row 6 (by decide) (fieldOp_headerWord _ _ _ _).symm (zero_z _) rfl

theorem bwFlush : Statement .bwFlush :=
  of_row 7 (by decide) (fieldOp_headerWord _ _ _ _).symm (zero_z _) rfl

theorem heCopy : Statement .heCopy :=
  of_row 8 (by decide) (fieldOp_headerWord _ _ _ _).symm (zero_z _) rfl

theorem heMark (kind : Byte) : Statement (.heMark kind) :=
  of_row 9 (by decide) (fieldOp_headerWord _ _ _ _).symm (zero_a _ _) rfl

theorem heEnd : Statement .heEnd :=
  of_row 10 (by decide) (fieldOp_headerWord _ _ _ _).symm (zero_z _) rfl

theorem heSetp (idx : Half) (value : Word) : Statement (.heSetp idx value) :=
  of_row 11 (by decide) (fieldOp_headerWordImm _ _ _).symm (zero_i _ _) rfl

theorem heClrp : Statement .heClrp :=
  of_row 12 (by decide) (fieldOp_headerWord _ _ _ _).symm (zero_z _) rfl

theorem heH264Slice : Statement .heH264Slice :=
  of_row 13 (by decide) (fieldOp_headerWord _ _ _ _).symm (zero_z _) rfl

theorem heH265Slice : Statement .heH265Slice :=
  of_row 14 (by decide) (fieldOp_headerWord _ _ _ _).symm (zero_z _) rfl

theorem fgSeed (plane : Byte) (seed : Half) : Statement (.fgSeed plane seed) :=
  of_row 15 (by decide) (fieldOp_headerWordImm _ _ _).symm (zero_ai _ _ _) rfl

theorem fgRand (bits : Byte) : Statement (.fgRand bits) :=
  of_row 16 (by decide) (fieldOp_headerWord _ _ _ _).symm (zero_a _ _) rfl

theorem cdfInitMode (slot : Byte) : Statement (.cdfInitMode slot) :=
  of_row 17 (by decide) (fieldOp_headerWord _ _ _ _).symm (zero_a _ _) rfl

theorem cdfInitMv (slot : Byte) : Statement (.cdfInitMv slot) :=
  of_row 18 (by decide) (fieldOp_headerWord _ _ _ _).symm (zero_a _ _) rfl

theorem cdfInitCoef (slot index : Byte) : Statement (.cdfInitCoef slot index) :=
  of_row 19 (by decide) (fieldOp_headerWord _ _ _ _).symm (zero_ab _ _ _) rfl

theorem cdfSeedAll : Statement .cdfSeedAll :=
  of_row 20 (by decide) (fieldOp_headerWord _ _ _ _).symm (zero_z _) rfl

theorem dpbSession (codec maxRefs : Byte) : Statement (.dpbSession codec maxRefs) :=
  of_row 21 (by decide) (fieldOp_headerWord _ _ _ _).symm (zero_ab _ _ _) rfl

theorem dpbBegin (cur : Addr) : Statement (.dpbBegin cur) :=
  of_row 22 (by decide) (fieldOp_headerWord _ _ _ _).symm (zero_z _) rfl

theorem dpbRef (slot : Byte) (addr : Addr) : Statement (.dpbRef slot addr) :=
  of_row 23 (by decide) (fieldOp_headerWord _ _ _ _).symm (zero_a _ _) rfl

theorem dpbCommit : Statement .dpbCommit :=
  of_row 24 (by decide) (fieldOp_headerWord _ _ _ _).symm (zero_z _) rfl

theorem dpbLookup (slot : Byte) : Statement (.dpbLookup slot) :=
  of_row 25 (by decide) (fieldOp_headerWord _ _ _ _).symm (zero_a _ _) rfl

end Sys2Proof.Laws.EncodedLegal
end

