-- ==== Sys2Proof/Machine/Assembler.lean ====
section
/-! DEFINITION. The textual form of a command stream (spec/30_encoding.md R99 to R101): from the text
of a program to its commands and words. A text is a list of characters; `none` stands for a text that the
rules do not give a meaning. -/

namespace Sys2Proof.Assembler

/-! ## Characters -/

/-- The pieces of a text between the separators `c`. -/
def splitOn (c : Char) (l : List Char) : List (List Char) :=
  l.foldr
    (fun x acc =>
      if x = c then [] :: acc
      else match acc with
        | [] => [[x]]
        | h :: t => (x :: h) :: t)
    [[]]

/-- A text without the spaces around it. -/
def trim (l : List Char) : List Char :=
  ((l.dropWhile (· = ' ')).reverse.dropWhile (· = ' ')).reverse

/-- The value of a digit. -/
def digit (c : Char) : Option Nat :=
  if '0' ≤ c ∧ c ≤ '9' then some (c.toNat - '0'.toNat)
  else if 'a' ≤ c ∧ c ≤ 'f' then some (c.toNat - 'a'.toNat + 10)
  else if 'A' ≤ c ∧ c ≤ 'F' then some (c.toNat - 'A'.toNat + 10)
  else none

/-- A number in a base, most significant digit first, going on from `acc`. -/
def digitsFrom (base acc : Nat) : List Char → Option Nat
  | [] => some acc
  | c :: cs => (digit c).bind fun d => if d < base then digitsFrom base (base * acc + d) cs else none

/-- A number: decimal, or hexadecimal with `0x` (R99). -/
def number (l : List Char) : Option Nat :=
  match l with
  | [] => none
  | '0' :: 'x' :: [] => none
  | '0' :: 'x' :: h :: hs => digitsFrom 16 0 (h :: hs)
  | d :: ds => digitsFrom 10 0 (d :: ds)

/-- A number below a bound. -/
def below (bound : Nat) (v : Option Nat) : Option Nat := v.filter (· < bound)

/-- A 32-bit operand that may be negative and then stands for its two's complement. R99 names a negative
decimal number; that a negative hexadecimal one is read too is DEDUCED from vector G9 of
spec/95_test_vectors.md, which writes `-0x7FFFFFFF` for the operand word `80000001` (log 27). -/
def signed (l : List Char) : Option Nat :=
  match l with
  | '-' :: ds => ((number ds).filter fun v => v ≤ 2 ^ 31).map fun v => (2 ^ 32 - v) % 2 ^ 32
  | l => below (2 ^ 32) (number l)

/-! ## Symbolic operands (R100) -/

/-- Names of marker kinds. -/
def markNames : List (String × Nat) :=
  [ ("FIRST_MB", 2), ("SLICE_QP_DELTA", 3), ("FIRST_SLICE", 4), ("SLICE_SEGMENT", 5),
    ("SAO_ENABLE", 6), ("LF_ACROSS_SLICES", 7) ]

/-- Names of planes. -/
def planeNames : List (String × Nat) := [ ("Y", 0), ("CB", 1), ("CR", 2) ]

/-- Names of codecs. -/
def codecNames : List (String × Nat) := [ ("H264", 0), ("H265", 1), ("AV1", 2) ]

/-- The parameter names of 43_header_h264.md R191: name, index, number of words. -/
def h264Names : List (String × Nat × Nat) :=
  [ ("NAL_REF_IDC", 0x0, 1), ("NAL_UNIT_TYPE", 0x1, 1), ("SLICE_TYPE", 0x2, 1),
    ("PPS_ID", 0x3, 1), ("LOG2_MAX_FRAME_NUM_MINUS4", 0x4, 1), ("FRAME_NUM", 0x5, 1),
    ("IDR_PIC_ID", 0x6, 1), ("POC_TYPE", 0x7, 1), ("LOG2_MAX_POC_LSB_MINUS4", 0x8, 1),
    ("POC_LSB", 0x9, 1), ("BOTTOM_FIELD_POC_PRESENT", 0xA, 1), ("DELTA_POC_BOTTOM", 0xB, 1),
    ("DELTA_POC_ALWAYS_ZERO", 0xC, 1), ("DELTA_POC0", 0xD, 1), ("DELTA_POC1", 0xE, 1),
    ("REDUNDANT_PIC_CNT_PRESENT", 0xF, 1), ("REDUNDANT_PIC_CNT", 0x10, 1),
    ("DIRECT_SPATIAL_MV_PRED", 0x11, 1), ("NUM_REF_IDX_OVERRIDE", 0x12, 1),
    ("L0_MINUS1", 0x13, 1) ] ++
  [ ("L1_MINUS1", 0x14, 1), ("RPLM_FLAG_L0", 0x15, 1), ("RPLM_FLAG_L1", 0x16, 1),
    ("NO_OUTPUT_OF_PRIOR_PICS", 0x17, 1), ("LONG_TERM_REFERENCE_FLAG", 0x18, 1),
    ("ADAPTIVE_REF_PIC_MARKING", 0x19, 1), ("ENTROPY_CODING_MODE", 0x1A, 1),
    ("CABAC_INIT_IDC", 0x1B, 1), ("DEBLOCK_CTRL_PRESENT", 0x1C, 1),
    ("DISABLE_DEBLOCK_IDC", 0x1D, 1), ("ALPHA_C0_OFFSET_DIV2", 0x1E, 1),
    ("BETA_OFFSET_DIV2", 0x1F, 1), ("FRAME_MBS_ONLY", 0x20, 1),
    ("SEPARATE_COLOUR_PLANE", 0x21, 1), ("WEIGHTED_PRED_FLAG", 0x22, 1),
    ("WEIGHTED_BIPRED_IDC", 0x23, 1), ("NUM_SLICE_GROUPS_MINUS1", 0x24, 1),
    ("RPLM_L0", 0x40, 64), ("RPLM_L1", 0x80, 64), ("MMCO", 0xC0, 63) ]

/-- The parameter names of 44_header_h265.md R221: name, index, number of words. -/
def h265Names : List (String × Nat × Nat) :=
  [ ("NAL_UNIT_TYPE", 0x100, 1), ("NUH_LAYER_ID", 0x101, 1), ("TEMPORAL_ID_PLUS1", 0x102, 1),
    ("NO_OUTPUT_OF_PRIOR_PICS", 0x103, 1), ("PPS_ID", 0x104, 1), ("SLICE_TYPE", 0x105, 1),
    ("OUTPUT_FLAG_PRESENT", 0x106, 1), ("PIC_OUTPUT_FLAG", 0x107, 1),
    ("LOG2_MAX_POC_LSB_MINUS4", 0x108, 1), ("POC_LSB", 0x109, 1), ("ST_RPS_SPS_FLAG", 0x10A, 1),
    ("NUM_ST_RPS", 0x10B, 1), ("ST_RPS_IDX", 0x10C, 1), ("NUM_NEGATIVE_PICS", 0x10D, 1),
    ("NUM_POSITIVE_PICS", 0x10E, 1), ("SPS_TEMPORAL_MVP_ENABLED", 0x10F, 1),
    ("SLICE_TEMPORAL_MVP_ENABLED", 0x110, 1), ("SAO_ENABLED", 0x111, 1),
    ("NUM_REF_IDX_OVERRIDE", 0x112, 1), ("L0_MINUS1", 0x113, 1) ] ++
  [ ("L1_MINUS1", 0x114, 1), ("LISTS_MODIFICATION_PRESENT", 0x115, 1),
    ("NUM_PIC_TOTAL_CURR", 0x116, 1), ("RPLM_FLAG_L0", 0x117, 1), ("RPLM_FLAG_L1", 0x118, 1),
    ("MVD_L1_ZERO", 0x119, 1), ("CABAC_INIT_PRESENT", 0x11A, 1), ("CABAC_INIT_FLAG", 0x11B, 1),
    ("COLLOCATED_FROM_L0", 0x11C, 1), ("COLLOCATED_REF_IDX", 0x11D, 1),
    ("FIVE_MINUS_MAX_NUM_MERGE_CAND", 0x11E, 1), ("CHROMA_QP_OFFSETS_PRESENT", 0x11F, 1),
    ("SLICE_CB_QP_OFFSET", 0x120, 1), ("SLICE_CR_QP_OFFSET", 0x121, 1),
    ("DEBLOCK_OVERRIDE_ENABLED", 0x122, 1), ("DEBLOCK_OVERRIDE_FLAG", 0x123, 1),
    ("SLICE_DEBLOCK_DISABLED", 0x124, 1), ("BETA_OFFSET_DIV2", 0x125, 1),
    ("TC_OFFSET_DIV2", 0x126, 1), ("PPS_LF_ACROSS_SLICES_ENABLED", 0x127, 1) ] ++
  [ ("PPS_DEBLOCK_DISABLED", 0x128, 1), ("DEPENDENT_SLICE_SEGMENTS_ENABLED", 0x130, 1),
    ("NUM_EXTRA_SLICE_HEADER_BITS", 0x131, 1), ("SEPARATE_COLOUR_PLANE", 0x132, 1),
    ("LONG_TERM_REF_PICS_PRESENT", 0x133, 1), ("WEIGHTED_PRED_FLAG", 0x134, 1),
    ("WEIGHTED_BIPRED_FLAG", 0x135, 1), ("TILES_ENABLED", 0x136, 1),
    ("ENTROPY_CODING_SYNC_ENABLED", 0x137, 1), ("SLICE_HEADER_EXTENSION_PRESENT", 0x138, 1),
    ("CHROMA_QP_OFFSET_LIST_ENABLED", 0x139, 1), ("INTER_RPS_PRED", 0x13A, 1), ("S0", 0x180, 32),
    ("S1", 0x1A0, 32), ("LIST_ENTRY_L0", 0x1C0, 16), ("LIST_ENTRY_L1", 0x1D0, 16) ]

/-- A name, or a number. -/
def symbol (names : List (String × Nat)) (l : List Char) : Option Nat :=
  match names.find? fun x => x.1.toList == l with
  | some x => some x.2
  | none => number l

/-- A parameter name without its prefix, for a list with `+k` after it. `k` counts words of SP from the
first word of the list, not entries of the list: `RPLM_L0+1` is index `0x41`, the second word of entry 0.
R100 does not say what `k` counts where an entry has several words (DESIGN CHOICE, log 26). -/
def paramIndex (names : List (String × Nat × Nat)) (l : List Char) : Option Nat :=
  match splitOn '+' l with
  | [n] => (names.find? fun x => x.1.toList == trim n).map fun x => x.2.1
  | [n, k] =>
    (names.find? fun x => x.1.toList == trim n).bind fun x =>
      ((number (trim k)).filter fun v => 1 < x.2.2 && v < x.2.2).map fun v => x.2.1 + v
  | _ => none

/-- The index of `he.setp`: a number, or a prefixed parameter name. -/
def setpIndex (l : List Char) : Option Nat :=
  if l.take 5 = "H264.".toList then paramIndex h264Names (l.drop 5)
  else if l.take 5 = "H265.".toList then paramIndex h265Names (l.drop 5)
  else number l

/-! ## Lines -/

/-- The operands of a line that has none. -/
def noOperand (i : Instr) : List (List Char) → Option (List Instr)
  | [] => some [i]
  | _ => none

/-- One operand. -/
def oneOperand (p : List Char → Option Nat) (w : Nat) (f : Nat → Instr) :
    List (List Char) → Option (List Instr)
  | [x] => (below (2 ^ w) (p x)).map fun v => [f v]
  | _ => none

/-- Two operands. -/
def twoOperands (p : List Char → Option Nat) (w : Nat) (q : List Char → Option Nat) (w' : Nat)
    (f : Nat → Nat → Instr) : List (List Char) → Option (List Instr)
  | [x, y] => (below (2 ^ w) (p x)).bind fun v => (below (2 ^ w') (q y)).map fun u => [f v u]
  | _ => none

/-- `bw.bytes` (R101). -/
def bytesOperands (l : List (List Char)) : Option (List Instr) :=
  if l = [] then none
  else l.mapM fun x =>
    (below (2 ^ 32) (number x)).map fun v => Instr.bwPut 8 (BitVec.ofNat 32 v)

/-- The syntax table of R99 and the pseudo-commands of R101. -/
def lineTable : List (String × (List (List Char) → Option (List Instr))) :=
  [ ("end", noOperand .endRun),
    ("bw.reset", noOperand .bwReset),
    ("bw.setep", oneOperand number 8 fun a => .bwSetep (BitVec.ofNat 8 a)),
    ("bw.put", twoOperands number 8 number 32 fun a v => .bwPut (BitVec.ofNat 8 a) (BitVec.ofNat 32 v)),
    ("bw.ue", oneOperand number 32 fun v => .bwUe (BitVec.ofNat 32 v)),
    ("bw.se", oneOperand signed 32 fun v => .bwSe (BitVec.ofNat 32 v)),
    ("bw.align", noOperand .bwAlign),
    ("bw.flush", noOperand .bwFlush),
    ("he.copy", noOperand .heCopy),
    ("he.mark", oneOperand (symbol markNames) 8 fun a => .heMark (BitVec.ofNat 8 a)),
    ("he.end", noOperand .heEnd),
    ("he.setp", twoOperands setpIndex 16 signed 32 fun a v =>
      .heSetp (BitVec.ofNat 16 a) (BitVec.ofNat 32 v)),
    ("he.clrp", noOperand .heClrp),
    ("he.h264", noOperand .heH264Slice),
    ("he.h265", noOperand .heH265Slice) ] ++
  [ ("fg.seed", twoOperands (symbol planeNames) 8 number 16 fun a v =>
      .fgSeed (BitVec.ofNat 8 a) (BitVec.ofNat 16 v)),
    ("fg.rand", oneOperand number 8 fun a => .fgRand (BitVec.ofNat 8 a)),
    ("cdf.mode", oneOperand number 8 fun a => .cdfInitMode (BitVec.ofNat 8 a)),
    ("cdf.mv", oneOperand number 8 fun a => .cdfInitMv (BitVec.ofNat 8 a)),
    ("cdf.coef", twoOperands number 8 number 8 fun a b =>
      .cdfInitCoef (BitVec.ofNat 8 a) (BitVec.ofNat 8 b)),
    ("cdf.seedall", noOperand .cdfSeedAll),
    ("dpb.session", twoOperands (symbol codecNames) 8 number 8 fun a b =>
      .dpbSession (BitVec.ofNat 8 a) (BitVec.ofNat 8 b)),
    ("dpb.begin", oneOperand number 64 fun x => .dpbBegin (BitVec.ofNat 64 x)),
    ("dpb.ref", twoOperands number 8 number 64 fun a x =>
      .dpbRef (BitVec.ofNat 8 a) (BitVec.ofNat 64 x)),
    ("dpb.commit", noOperand .dpbCommit),
    ("dpb.lookup", oneOperand number 8 fun a => .dpbLookup (BitVec.ofNat 8 a)),
    ("bw.bit", oneOperand number 32 fun v => .bwPut 1 (BitVec.ofNat 32 v)),
    ("bw.byte", oneOperand number 32 fun v => .bwPut 8 (BitVec.ofNat 32 v)),
    ("bw.bytes", bytesOperands) ]

/-- The operands of a line, separated by commas. -/
def operands (l : List Char) : List (List Char) :=
  if trim l = [] then [] else (splitOn ',' l).map trim

/-- The commands of one line; a line with nothing but a comment has none. -/
def assembleLine (line : List Char) : Option (List Instr) :=
  match trim (line.takeWhile (· ≠ ';')) with
  | [] => some []
  | l =>
    match lineTable.find? fun x => x.1.toList == l.takeWhile (· ≠ ' ') with
    | some x => x.2 (operands (l.dropWhile (· ≠ ' ')))
    | none => none

/-- The commands of a text, one command per line. -/
def assemble (text : String) : Option (List Instr) :=
  ((splitOn '\n' text.toList).mapM assembleLine).map List.flatten

/-- The command stream of a text. -/
def assembleWords (text : String) : Option (List Word) :=
  (assemble text).map fun is => is.flatMap encode

end Sys2Proof.Assembler
end

