-- ==== Sys2Proof/Tests/Slice0.lean ====
section
/-! SUPPORT. Tests of the model. Expected values come from the examples of the rules of spec/ and from
spec/95_test_vectors.md, never from the model. The `witness_` theorems show that the hypotheses of the
statements in `Obligations.lean` can be met together. -/

namespace Sys2Proof.Tests

open Sys2Proof.Machine Sys2Proof.Safety

set_option Elab.async false

/-! ## WellFormed: each check refuses an ill-formed term (30_encoding.md R97) -/

theorem test_ill_formed_bwSetep : Instr.wellFormed 16 (.bwSetep 2) = false := by decide
theorem test_ill_formed_bwPut : Instr.wellFormed 16 (.bwPut 33 0) = false := by decide
theorem test_ill_formed_heMark_low : Instr.wellFormed 16 (.heMark 1) = false := by decide
theorem test_ill_formed_heMark_high : Instr.wellFormed 16 (.heMark 8) = false := by decide
theorem test_ill_formed_fgSeed : Instr.wellFormed 16 (.fgSeed 3 0) = false := by decide
theorem test_ill_formed_fgRand_low : Instr.wellFormed 16 (.fgRand 0) = false := by decide
theorem test_ill_formed_fgRand_high : Instr.wellFormed 16 (.fgRand 17) = false := by decide
theorem test_ill_formed_cdfInitMode : Instr.wellFormed 16 (.cdfInitMode 4) = false := by decide
theorem test_ill_formed_cdfInitMv : Instr.wellFormed 16 (.cdfInitMv 4) = false := by decide
theorem test_ill_formed_cdfInitCoef_slot : Instr.wellFormed 16 (.cdfInitCoef 4 0) = false := by decide
theorem test_ill_formed_cdfInitCoef_index : Instr.wellFormed 16 (.cdfInitCoef 0 4) = false := by decide
theorem test_ill_formed_dpbSession_codec : Instr.wellFormed 16 (.dpbSession 3 0) = false := by decide
theorem test_ill_formed_dpbSession_refs : Instr.wellFormed 16 (.dpbSession 0 16) = false := by decide

/-! ## Decoding: one hand-written word per command (30_encoding.md R95, R99) -/

theorem test_decode_endRun : decode [0x01000000] = .ok .endRun := by decide
theorem test_decode_bwReset : decode [0x10000000] = .ok .bwReset := by decide
theorem test_decode_bwSetep : decode [0x11010000] = .ok (.bwSetep 1) := by decide
theorem test_decode_bwPut : decode [0x12200000, 0xDEADBEEF] = .ok (.bwPut 32 0xDEADBEEF) := by decide
theorem test_decode_bwUe : decode [0x13000000, 7] = .ok (.bwUe 7) := by decide
theorem test_decode_bwSe : decode [0x14000000, 0xFFFFFFFD] = .ok (.bwSe 0xFFFFFFFD) := by decide
theorem test_decode_bwAlign : decode [0x15000000] = .ok .bwAlign := by decide
theorem test_decode_bwFlush : decode [0x16000000] = .ok .bwFlush := by decide
theorem test_decode_heCopy : decode [0x20000000] = .ok .heCopy := by decide
theorem test_decode_heMark : decode [0x21020000] = .ok (.heMark 2) := by decide
theorem test_decode_heEnd : decode [0x22000000] = .ok .heEnd := by decide
theorem test_decode_heSetp : decode [0x23000001, 5] = .ok (.heSetp 1 5) := by decide
theorem test_decode_heClrp : decode [0x24000000] = .ok .heClrp := by decide
theorem test_decode_heH264Slice : decode [0x28000000] = .ok .heH264Slice := by decide
theorem test_decode_heH265Slice : decode [0x29000000] = .ok .heH265Slice := by decide
theorem test_decode_fgSeed : decode [0x30011234] = .ok (.fgSeed 1 0x1234) := by decide
theorem test_decode_fgRand : decode [0x310B0000] = .ok (.fgRand 11) := by decide
theorem test_decode_cdfInitMode : decode [0x38020000] = .ok (.cdfInitMode 2) := by decide
theorem test_decode_cdfInitMv : decode [0x39020000] = .ok (.cdfInitMv 2) := by decide
theorem test_decode_cdfInitCoef : decode [0x3A020100] = .ok (.cdfInitCoef 2 1) := by decide
theorem test_decode_cdfSeedAll : decode [0x3B000000] = .ok .cdfSeedAll := by decide
theorem test_decode_dpbSession : decode [0x40000400] = .ok (.dpbSession 0 4) := by decide
theorem test_decode_dpbBegin : decode [0x41000000, 0x23450000, 0x00000001] = .ok (.dpbBegin 0x0000000123450000) := by decide
theorem test_decode_dpbRef : decode [0x42010000, 0x23460000, 0x00000001] = .ok (.dpbRef 1 0x0000000123460000) := by decide
theorem test_decode_dpbCommit : decode [0x43000000] = .ok .dpbCommit := by decide
theorem test_decode_dpbLookup : decode [0x44010000] = .ok (.dpbLookup 1) := by decide

theorem test_decode_all_zero : decode [0] = .error (.illegal 0) := by decide
theorem test_decode_mbz : decode [0x11010001] = .error (.illegal 0x11010001) := by decide
theorem test_decode_order : decode [0x12280000] = .error .noOperand := by decide
theorem test_table_word : decodeTableWord 96 0x000000012346000042010000 =
    some (.dpbRef 1 0x0000000123460000) := by decide

/-! ## The textual form (R99 to R101): lines of programs P1 and P2 -/

theorem test_assemble_p1 :
    Assembler.assembleWords "bw.byte 0x67   ; NAL header byte\nbw.se -1\nbw.bit 1\nend" =
      some [0x12080000, 0x67, 0x14000000, 0xFFFFFFFF, 0x12010000, 1, 0x01000000] := by decide +kernel

theorem test_assemble_p2 :
    Assembler.assembleWords "he.setp H264.FRAME_NUM, 0\nhe.mark FIRST_MB\nfg.seed CB, 0x1234" =
      some [0x23000005, 0, 0x21020000, 0x30011234] := by decide +kernel

/-- Vector G9: a negative hexadecimal operand. -/
theorem test_assemble_g9 :
    Assembler.assembleWords "bw.se -0x7FFFFFFF" = some [0x14000000, 0x80000001] := by decide +kernel

/-! ## A small machine: the toy parameters of 95_test_vectors.md section 6 -/

/-- The toy layout. -/
def toyLayout : CdfLayout :=
  { slotBytes := 16, modeOff := 0, mvOff := 4, coefOff := 8, coefLen := 4,
    romMode := [0x10, 0x11, 0x12, 0x13], romMv := [0x20, 0x21, 0x22, 0x23],
    romCoef0 := [0x31, 0x32, 0x33, 0x34], romCoef1 := [0x41, 0x42, 0x43, 0x44],
    romCoef2 := [0x51, 0x52, 0x53, 0x54], romCoef3 := [0x61, 0x62, 0x63, 0x64] }

/-- Parameters with `HW_GEN = 3` and `DYN_T2_MIN_GEN = 5`, as in the examples of R292. -/
def toyParams : Params :=
  { ilMax := 16, dpbSlots := 16, hwGen := 3, dynT2MinGen := 5, cdfLayout := 0,
    layout0 := toyLayout, layout1 := CdfLayout.empty }

/-- A run of a command stream that has just been started after reset. -/
def started (cmd : List Word) (cap : Nat) : State :=
  { State.resetWith cmd cap toyParams with run := .running }

/-- The next state, if the machine goes on. -/
def after (o : Host.Outcome State Fault Refusal) : Option State :=
  match o with
  | .next t => some t
  | .fault _ => none
  | .refused _ => none

/-- SP with a list of written words. -/
def spWith (l : List (Nat × Word)) : Memory SpCell :=
  l.foldl (fun m x => Memory.write m x.1 ⟨x.2, true⟩) []

/-! ## One step per command -/

theorem test_end : (after (step (started [0x01000000] 64))).map (fun t => (t.run, t.cp)) =
    some (.done, 1) := by decide +kernel

theorem test_run_off_the_end : (after (step { started [0x10000000] 64 with cp := 1 })).map
    (fun t => (t.run, t.faultCode, t.faultCp, t.faultInfo)) = some (.faulted, 0x01, 1, 1) := by
  decide +kernel

theorem test_fetch_word_runs : (after (step ((started [] 64).withFetchWord 64 0x6512080000))).map
    (fun t => (t.cp, t.enc.out)) = some (2, [(0, 0x65000000)]) := by decide +kernel

/-- An encoder in the state of the example of R132: after `bw.put 3, 5`. -/
def held3 : Encoder := { Encoder.reset with shifter := 0xA0000000, nbits := 3 }

theorem test_bw_reset : (after (exec .bwReset { started [] 64 with enc := held3 })).map
    (fun t => t.enc) = some Encoder.reset := by decide +kernel

theorem test_bw_setep_same_keeps_nz :
    (after (exec (.bwSetep 1) { started [] 64 with enc := { held3 with ep := true, nz := 2 } })).map
      (fun t => (t.enc.ep, t.enc.nz)) = some (true, 2) := by decide +kernel

theorem test_bw_setep_change_clears_nz :
    (after (exec (.bwSetep 0) { started [] 64 with enc := { held3 with ep := true, nz := 2 } })).map
      (fun t => (t.enc.ep, t.enc.nz)) = some (false, 0) := by decide +kernel

theorem test_bw_put : (after (exec (.bwPut 8 0x65) (started [] 64))).map
    (fun t => (t.enc.out, t.enc.outWi, t.enc.outBi, t.enc.bitsOut)) =
    some ([(0, 0x65000000)], 0, 1, 8) := by decide +kernel

/-- Vector E5: four zero bytes with emulation prevention. -/
theorem test_bw_put_stuffs :
    (after (exec (.bwPut 32 0) { started [] 64 with enc := { Encoder.reset with ep := true } })).map
      (fun t => (t.enc.out, t.enc.nz, t.enc.bitsOut)) =
    some ([(0, 0x00000300), (1, 0)], 2, 40) := by decide +kernel

theorem test_bw_ue : (after (exec (.bwUe 7) (started [] 64))).map
    (fun t => (t.enc.shifter, t.enc.nbits, t.enc.bitsOut, t.enc.out)) =
    some (0x10000000, 7, 0, []) := by decide +kernel

theorem test_bw_se : (after (exec (.bwSe 0xFFFFFFFD) (started [] 64))).map
    (fun t => (t.enc.shifter, t.enc.nbits)) = some (0x38000000, 5) := by decide +kernel

theorem test_bw_se_refused : (after (exec (.bwSe 0x80000000) (started [] 64))).map
    (fun t => (t.run, t.faultCode, t.faultInfo)) = some (.faulted, 0x12, 0x80000000) := by
  decide +kernel

/-- Vector B4: the example of R144. -/
theorem test_bw_align :
    (after (exec .bwAlign { started [] 64 with
      enc := { Encoder.reset with
        shifter := 0xF0000000, nbits := 4, outBi := 1, bitsOut := 8, out := [(0, 0xBF000000)] } })).map
      (fun t => (t.enc.out, t.enc.nbits, t.enc.outBi, t.enc.bitsOut)) =
    some ([(0, 0xBFF00000)], 0, 2, 16) := by decide +kernel

/-- The example of R147. -/
theorem test_bw_flush :
    (after (exec .bwFlush { started [] 64 with
      enc := { Encoder.reset with
        shifter := 0x80000000, nbits := 1, outWi := 1, bitsOut := 32, out := [(0, 0xEF56DF77)] } })).map
      (fun t => (t.enc.out, t.enc.outWi, t.enc.outBi, t.enc.bitsOut)) =
    some ([(0, 0xEF56DF77), (1, 0x80000000)], 2, 0, 33) := by decide +kernel

/-- The encoder of the example of R173: one byte put from reset. -/
def oneByte : Encoder :=
  { Encoder.reset with outBi := 1, bitsOut := 8, out := [(0, 0x65000000)] }

/-- The encoder after the `COPY` of that example. -/
def copied : Encoder :=
  { Encoder.reset with
    outWi := 1, bitsOut := 8, out := [(0, 0x65000000)], il := [(0, ⟨.copy, 8⟩)], ilCount := 1,
    bitsCopied := 8 }

theorem test_he_copy : (after (exec .heCopy { started [] 64 with enc := oneByte })).map
    (fun t => t.enc) = some copied := by decide +kernel

theorem test_he_mark : (after (exec (.heMark 2) { started [] 64 with enc := copied })).map
    (fun t => (t.enc.il, t.enc.ilCount)) = some ([(0, ⟨.copy, 8⟩), (1, ⟨.firstMb, 0⟩)], 2) := by
  decide +kernel

theorem test_he_mark_order : (after (exec (.heMark 2) { started [] 64 with enc := oneByte })).map
    (fun t => (t.faultCode, t.faultInfo)) = some (0x22, 8) := by decide +kernel

theorem test_he_end : (after (exec .heEnd { started [] 64 with enc := copied })).map
    (fun t => (t.enc.il, t.enc.tmplDone)) = some ([(0, ⟨.copy, 8⟩), (1, ⟨.endList, 0⟩)], true) := by
  decide +kernel

theorem test_he_setp : (after (exec (.heSetp 1 5) (started [] 64))).map (fun t => t.sp) =
    some [(1, ⟨5, true⟩)] := by decide +kernel

theorem test_he_clrp : (after (exec .heClrp { started [] 64 with sp := spWith [(1, 5)] })).map
    (fun t => spWritten t.sp 1) = some false := by decide +kernel

/-- The parameters of the worked example R195. -/
def sp264 : Memory SpCell :=
  spWith [(0x00, 3), (0x01, 5), (0x02, 7), (0x03, 0), (0x04, 4), (0x05, 0), (0x06, 0), (0x07, 0),
    (0x08, 4), (0x09, 0), (0x0A, 0), (0x0F, 0), (0x17, 0), (0x18, 0), (0x1A, 1), (0x1C, 1), (0x1D, 0),
    (0x1E, 0), (0x1F, 0), (0x20, 1), (0x21, 0), (0x24, 0)]

theorem test_h264 : (after (exec .heH264Slice { started [] 64 with sp := sp264 })).map
    (fun t => (t.enc.out, t.enc.il.map Prod.snd, t.enc.bitsOut, t.enc.outWi)) =
    some ([(0, 0x65000000), (1, 0x11008000), (2, 0xE0000000)],
      [⟨.copy, 8⟩, ⟨.firstMb, 0⟩, ⟨.copy, 27⟩, ⟨.sliceQpDelta, 0⟩, ⟨.copy, 3⟩, ⟨.endList, 0⟩], 38, 3) := by
  decide +kernel

theorem test_h264_unwritten : (after (exec .heH264Slice (started [] 64))).map
    (fun t => (t.faultCode, t.faultInfo)) = some (0x24, 0x20) := by decide +kernel

/-- The parameters of the worked example R225. -/
def sp265 : Memory SpCell :=
  spWith [(0x100, 19), (0x101, 0), (0x102, 1), (0x103, 0), (0x104, 0), (0x105, 2), (0x106, 0),
    (0x111, 1), (0x11F, 0), (0x122, 0), (0x127, 1), (0x128, 0), (0x130, 0), (0x131, 0), (0x132, 0),
    (0x133, 0), (0x136, 0), (0x137, 0), (0x138, 0), (0x139, 0)]

theorem test_h265 : (after (exec .heH265Slice { started [] 64 with sp := sp265 })).map
    (fun t => (t.enc.out, t.enc.il.map Prod.snd, t.enc.bitsOut)) =
    some ([(0, 0x26010000), (1, 0x40000000), (2, 0x60000000)],
      [⟨.copy, 16⟩, ⟨.firstSlice, 0⟩, ⟨.copy, 2⟩, ⟨.sliceSegment, 0⟩, ⟨.copy, 3⟩, ⟨.saoEnable, 0⟩,
       ⟨.copy, 0⟩, ⟨.sliceQpDelta, 0⟩, ⟨.copy, 0⟩, ⟨.lfAcrossSlices, 0⟩, ⟨.copy, 0⟩, ⟨.endList, 0⟩],
      21) := by
  decide +kernel

theorem test_fg_seed : (after (exec (.fgSeed 1 0x1234) (started [] 64))).map
    (fun t => (t.lfsr, t.fgSeeded)) = some (0xA710, true) := by decide +kernel

theorem test_fg_rand :
    (after (exec (.fgRand 11) { started [] 64 with lfsr := 0x1234, fgSeeded := true })).map
      (fun t => (t.lfsr, t.res, t.resValid)) = some (0x891A, 0x448, true) := by decide +kernel

theorem test_cdf_mode : (after (exec (.cdfInitMode 2) (started [] 64))).map
    (fun t => (t.cdf[2].mem, cdfStat t.cdf)) =
    some ([(0, 0x10), (1, 0x11), (2, 0x12), (3, 0x13)], 0x00010000) := by decide +kernel

theorem test_cdf_mv : (after (exec (.cdfInitMv 2) (started [] 64))).map
    (fun t => (t.cdf[2].mem, cdfStat t.cdf)) =
    some ([(4, 0x20), (5, 0x21), (6, 0x22), (7, 0x23)], 0x00020000) := by decide +kernel

theorem test_cdf_coef : (after (exec (.cdfInitCoef 2 1) (started [] 64))).map
    (fun t => (t.cdf[2].mem, cdfStat t.cdf)) =
    some ([(8, 0x41), (9, 0x42), (10, 0x43), (11, 0x44)], 0x00140000) := by decide +kernel

theorem test_cdf_seed_all : (after (exec .cdfSeedAll (started [] 64))).map
    (fun t => cdfStat t.cdf) = some 0x37271707 := by decide +kernel

theorem test_dpb_session_fixed : (after (exec (.dpbSession 0 4) (started [] 64))).map
    (fun t => (t.dpb.mode, t.dpb.m)) = some (.fixed, 4) := by decide +kernel

theorem test_dpb_session_av1 : (after (exec (.dpbSession 2 7) (started [] 64))).map
    (fun t => (t.dpb.mode, t.dpb.m)) = some (.dynamicT2, 7) := by decide +kernel

/-- An AV1 session with `dpb_m = 3`, as in the examples of R293 to R297. -/
def av1Session : Dpb := { Dpb.reset with mode := .dynamicT2, codec := .av1, m := 3 }

/-- The mapper after the example of R293. -/
def begun : Dpb :=
  { av1Session with
    isOpen := true, cur := 0x123450000
    table := [(0, 0x123450000), (1, 0x123450000), (2, 0x123450000), (3, 0x123450000)] }

/-- The mapper after the example of R294. -/
def referred : Dpb :=
  { begun with
    used := 2
    table := [(0, 0x123450000), (1, 0x123460000), (2, 0x123450000), (3, 0x123450000)] }

/-- The mapper after the example of R296. -/
def committed : Dpb := { referred with isOpen := false, valid := true }

theorem test_dpb_begin :
    (after (exec (.dpbBegin 0x123450000) { started [] 64 with dpb := av1Session })).map
      (fun t => t.dpb) = some begun := by decide +kernel

theorem test_dpb_ref :
    (after (exec (.dpbRef 1 0x123460000) { started [] 64 with dpb := begun })).map
      (fun t => t.dpb) = some referred := by decide +kernel

theorem test_dpb_commit : (after (exec .dpbCommit { started [] 64 with dpb := referred })).map
    (fun t => t.dpb) = some committed := by decide +kernel

theorem test_dpb_lookup : (after (exec (.dpbLookup 1) { started [] 64 with dpb := committed })).map
    (fun t => (t.res, t.resValid)) = some (0x123460000, true) := by decide +kernel

theorem test_dpb_lookup_missing :
    (after (exec (.dpbLookup 2) { started [] 64 with dpb := committed })).map
      (fun t => (t.faultCode, t.faultInfo)) = some (0x44, 2) := by decide +kernel

/-! ## Witnesses: sequencer and encoding -/

/-- An encoder in the middle of a byte and of a word, with emulation prevention and two zero bytes. -/
def midway : Encoder :=
  { Encoder.reset with
    shifter := 0xA0000000, nbits := 3, ep := true, nz := 2, bitsOut := 24, outBi := 3
    out := [(0, 0x41000000)], il := [(0, ⟨.copy, 0⟩)], ilCount := 1 }

theorem midway_inv : EncInv 16 midway := by constructor <;> decide +kernel

theorem reset_slots_inv : CdfInv toyLayout (Vector.replicate 4 CdfSlot.reset) := by
  intro i; fin_cases i <;> constructor <;> first | decide +kernel | (intro h; cases h)

/-- Slot 2 with its mode table. -/
def modeSlot : CdfSlot :=
  { CdfSlot.reset with mem := [(0, 0x10), (1, 0x11), (2, 0x12), (3, 0x13)], modeOk := true }

theorem modeSlot_inv : SlotInv toyLayout modeSlot := by
  constructor <;> first | (unfold holdsTable; decide +kernel) | decide +kernel

theorem committed_inv : DpbInv toyParams committed := by constructor <;> decide +kernel

theorem begun_inv : DpbInv toyParams begun := by constructor <;> decide +kernel

/-- A running machine at its last command, an `END`, with every unit in use; one lane of OUT is left. -/
def busy : State :=
  { started [0x24000000, 0x01000000] 1 with
    cp := 1, enc := midway, sp := sp264, lfsr := 0x1234, fgSeeded := true, dpb := committed }

theorem busy_inv : Inv busy where
  seq := by
    constructor <;> first | decide +kernel | (intro h; cases h)
  enc := midway_inv
  sp := by constructor <;> decide +kernel
  cdf := reset_slots_inv
  dpb := committed_inv

theorem busy_writable : Writable busy := ⟨midway_inv, by decide +kernel⟩

theorem witness_decodedWords :
    decode [0x12200000, 0xFFFFFFFF, 0] = .ok (.bwPut 32 0xFFFFFFFF) := by decide

theorem witness_illegalHeader : (started [0x11000001] 1).run = .running ∧
    (started [0x11000001] 1).cmd.drop (started [0x11000001] 1).cp.toNat = [0x11000001] ∧
    ¬legal 0x11000001 ∧ legal 0x11FF0000 := by
  unfold legal; decide +kernel

theorem witness_stepRunsDecoded : busy.run = .running ∧
    decode (busy.cmd.drop busy.cp.toNat) = .ok .endRun := by decide +kernel

/-- A machine that has run off the end of its stream. -/
def ranOff : State := { started [0x10000000] 1 with cp := 1 }

theorem witness_fetchFaults_header : ranOff.run = .running ∧
    ranOff.cmd.length ≤ ranOff.cp.toNat := by decide +kernel

theorem witness_fetchFaults_operand : (started [0x42030000, 5] 1).run = .running ∧ 0 < 2 ∧
    2 < instrLength (.dpbRef 3 5) ∧
    (started [0x42030000, 5] 1).cmd.drop (started [0x42030000, 5] 1).cp.toNat =
      (encode (.dpbRef 3 5)).take 2 ∧
    1 < instrLength (.bwUe 9) ∧
    (started [0x13000000] 1).cmd.drop (started [0x13000000] 1).cp.toNat =
      (encode (.bwUe 9)).take 1 := by decide +kernel

theorem witness_badFields : Instr.wellFormed busy.params.dpbSlots (.bwPut 33 0) = false ∧
    Instr.wellFormed busy.params.dpbSlots (.bwPut 32 0) = true ∧
    Instr.wellFormed busy.params.dpbSlots (.dpbSession 2 16) = false ∧
    Instr.wellFormed busy.params.dpbSlots (.dpbSession 2 15) = true ∧ busy.run = .running := by
  decide +kernel

theorem witness_commandEnds : busy.run = .running ∧
    (∃ t, exec .endRun busy = .next t) ∧ (∃ t, exec (.bwPut 33 0) busy = .next t) :=
  ⟨rfl, ⟨_, rfl⟩, ⟨_, rfl⟩⟩

theorem witness_unitFrames : (∃ t, exec (.fgRand 16) busy = .next t) ∧
    Part.dpb ∉ writes (.fgRand 16) ∧ Part.lfsr ∈ writes (.fgRand 16) :=
  ⟨⟨_, rfl⟩, by decide, by decide⟩

theorem witness_onlyRunning : (State.resetWith [] 1 toyParams).run ≠ .running ∧
    { busy with run := .done }.run ≠ .running ∧ { busy with run := .faulted }.run ≠ .running := by
  decide +kernel

theorem witness_runArgumentsKept : ∃ t, step busy = .next t := ⟨_, rfl⟩

theorem witness_stepKeepsInvariant_runEnds : Inv busy ∧ busy.run = .running ∧ busy.cmd.length - busy.cp.toNat + 1 = 2 :=
  ⟨busy_inv, by decide +kernel⟩

theorem witness_resetValues : ∃ t, hostMove .hwReset busy = some t := ⟨_, rfl⟩

theorem witness_loadAndStart : (State.resetWith [] 1 toyParams).run = .idle ∧
    { busy with run := .done }.run = .done ∧ busy.run = .running ∧
    { busy with run := .faulted }.run = .faulted ∧
    ([] : List Word).length ≤ 2 ^ 32 - 1 ∧ 1 ≤ (1 : Nat) ∧ (2 ^ 26 : Nat) ≤ 2 ^ 26 := by
  decide +kernel

theorem witness_hostReads : busy.run = .running ∧
    ({ busy with run := .done, resValid := true }.run ≠ .running ∧
      { busy with run := .done, resValid := true }.resValid = true) ∧
    ({ busy with run := .faulted }.run ≠ .running ∧ { busy with run := .faulted }.resValid = false) ∧
    0x31 ∉ ([0x00, 0x01, 0x02, 0x03, 0x04, 0x05, 0x06, 0x07, 0x08, 0x09, 0x0A, 0x0B, 0x0C, 0x0D, 0x0E,
      0x10, 0x18, 0x20, 0x21, 0x22, 0x23, 0x30] : List Nat) ∧
    Memory.read busy.enc.il 0 = some ⟨.copy, 0⟩ ∧ Memory.read busy.enc.il 1 = none := by decide +kernel

/-- The packed words of R42 on the busy machine, computed by hand from its fields. -/
theorem test_csr_words :
    (csrRead 0x09 { busy with run := .done }, csrRead 0x20 { busy with run := .done },
      csrRead 0x05 { busy with run := .done }, csrRead 0x31 { busy with run := .done },
      csrRead 0x09 busy, csrRead 0x00 busy) =
    (some 0x00020103, some 0x00020322, none, some 0, none, some 1) := by decide +kernel

theorem witness_faultedStays :
    (recorded 0x10 1 busy).run = .faulted ∧ ∃ t, hostMove .hwReset (recorded 0x10 1 busy) = some t :=
  ⟨rfl, _, rfl⟩

theorem witness_hostKeepsInvariant : Inv busy ∧ ∃ t, hostMove .hwReset busy = some t :=
  ⟨busy_inv, _, rfl⟩

theorem witness_encoderInvariantKept : EncInv busy.params.ilMax busy.enc ∧
    busy.outCapWords ≤ outCapLimit ∧ busy.params.ilMax ≤ 255 ∧ pos busy.enc ≤ 4 * busy.outCapWords ∧
    ∃ t, exec .bwAlign busy = .next t :=
  ⟨midway_inv, by decide +kernel, by decide +kernel, by decide +kernel, _, rfl⟩

theorem witness_slotInvariantKept : busy.params.layout.wf = true ∧
    CdfInv busy.params.layout busy.cdf ∧ SlotInv busy.params.layout modeSlot ∧
    ∃ t, exec (.cdfInitCoef 3 3) busy = .next t :=
  ⟨by decide +kernel, reset_slots_inv, modeSlot_inv, _, rfl⟩

theorem witness_mapperInvariantKept : busy.params.dpbSlots ≤ 32 ∧ DpbInv busy.params busy.dpb ∧
    DpbInv busy.params begun ∧ ∃ t, exec .dpbCommit { busy with dpb := begun } = .next t :=
  ⟨by decide +kernel, committed_inv, begun_inv, _, rfl⟩

/-! ## Witnesses: unit BW -/

/-- One byte fits into the last lane of OUT, and so does nothing more. -/
theorem witness_bwPut : Writable busy ∧ (5 : Byte).toNat ≤ 32 ∧ (32 : Byte).toNat ≤ 32 ∧ roomFor busy.outCapWords busy.enc (bitsOf 0x1F 5) ∧
    roomFor busy.outCapWords busy.enc (bitsOf 0 0) ∧ roomFor busy.outCapWords busy.enc (bitsOf 0 12) ∧
    ¬roomFor busy.outCapWords busy.enc (bitsOf 0 13) ∧ roomFor 3 busy.enc (bitsOf 0 32) :=
  ⟨busy_writable, by unfold roomFor fits; decide +kernel⟩

/-- A position beyond OUT, after a `load` of a smaller capacity: putting bits that complete no byte has
room, anything more has not. -/
theorem witness_bwPut_beyond : EncInv 16 midway ∧ 4 * 0 < pos midway ∧
    roomFor 0 midway (bitsOf 1 4) ∧ ¬roomFor 0 midway (bitsOf 1 5) :=
  ⟨midway_inv, by unfold roomFor fits; decide +kernel⟩

theorem witness_bwUe : Writable busy ∧ (0 : Word) ≠ 0xFFFFFFFF ∧
    roomFor busy.outCapWords busy.enc (ueBits (0 : Word).toNat) ∧
    (0xFFFFFFFE : Word) ≠ 0xFFFFFFFF ∧ roomFor 3 busy.enc (ueBits 0xFFFFFFFE) ∧
    ¬roomFor busy.outCapWords busy.enc (ueBits 0xFFFFFFFE) :=
  ⟨busy_writable, by unfold roomFor fits; decide +kernel⟩

theorem witness_bwSe : Writable busy ∧ (0xFFFFFFFD : Word) ≠ 0x80000000 ∧
    ((6 : Nat) : Int) = (if 0 < (0xFFFFFFFD : Word).toInt then 2 * (0xFFFFFFFD : Word).toInt - 1
      else -2 * (0xFFFFFFFD : Word).toInt) ∧
    ((4294967293 : Nat) : Int) = 2 * (0x7FFFFFFF : Word).toInt - 1 ∧
    ((4294967294 : Nat) : Int) = -2 * (0x80000001 : Word).toInt ∧
    roomFor busy.outCapWords busy.enc (ueBits 6) ∧ roomFor 3 busy.enc (ueBits 4294967294) ∧
    ¬roomFor busy.outCapWords busy.enc (ueBits (seMap (0x80000001 : Word).toInt)) :=
  ⟨busy_writable, by unfold roomFor fits; decide +kernel⟩

/-- The same machine with OUT full. -/
def full : State := { busy with enc := { midway with outWi := 1, outBi := 0, bitsOut := 32 } }

theorem full_writable : Writable full := ⟨by constructor <;> decide +kernel, by decide +kernel⟩

theorem witness_bwAlign : Writable busy ∧
    roomFor busy.outCapWords busy.enc (List.replicate ((8 - busy.enc.nbits.toNat) % 8) false) ∧
    Writable full ∧
    ¬roomFor full.outCapWords full.enc (List.replicate ((8 - full.enc.nbits.toNat) % 8) false) :=
  ⟨busy_writable, by unfold roomFor fits; decide +kernel, full_writable,
    by unfold roomFor fits; decide +kernel⟩

theorem witness_bwFlush : Writable busy ∧ roomForFlush busy.outCapWords busy.enc ∧ Writable full ∧
    ¬roomForFlush full.outCapWords full.enc :=
  ⟨busy_writable, by unfold roomForFlush fits; decide +kernel, full_writable,
    by unfold roomForFlush fits; decide +kernel⟩

theorem witness_alignFlushTwice : busy.run = .running ∧ busy.enc.nbits.toNat ≤ 7 ∧
    (after (exec .bwAlign busy)).any (fun t => t.run == .running) ∧
    (after (exec .bwFlush busy)).any (fun t => t.run == .running) := by decide +kernel

theorem witness_serialForm : (32 : Nat) ≤ 32 ∧ midway.nbits.toNat ≤ 7 ∧
    midway.shifter <<< midway.nbits.toNat = 0 := by decide +kernel

theorem witness_concatenation : 7 + 25 ≤ 32 ∧ midway.nbits.toNat ≤ 7 ∧
    midway.shifter <<< midway.nbits.toNat = 0 ∧
    ([.ue 7, .bits 3 2] : Script).all (fun x => isPut x && codes x) ∧
    ([.bits 0 3, .bits 35 6] : Script).all (fun x => isPut x && codes x) ∧
    scriptBits [.ue 7, .bits 3 2] = scriptBits [.bits 0 3, .bits 35 6] := by decide +kernel

/-- The start of an EP window behind three held bits and a byte put before it. -/
def windowStart : State :=
  { started [] 8 with
    enc := { Encoder.reset with
      shifter := 0xA0000000, nbits := 3, ep := true, bitsOut := 8, outBi := 1
      out := [(0, 0x41000000)] } }

theorem windowStart_inv : EncInv 16 windowStart.enc := by constructor <;> decide +kernel

/-- Four commands, a flush among them, drain seven data bytes into eight lanes: the last zero bytes before
the flush count behind it. -/
theorem witness_emulationPrevention : Writable windowStart ∧ windowStart.run = .running ∧
    windowStart.enc.ep = true ∧ windowStart.enc.nz = 0 ∧
    (windowOf [.bwAlign, .bwPut 16 0, .bwFlush, .bwPut 32 0x01FF0000] windowStart).map
      (fun w => (w.data, w.lanes)) =
      some ([0xA0, 0, 0, 0x01, 0xFF, 0, 0], [1, 2, 3, 4, 5, 6, 7, 8]) ∧
    windowOf [.bwReset] windowStart = none :=
  ⟨⟨windowStart_inv, by decide +kernel⟩, rfl, rfl, rfl, by decide +kernel, rfl⟩

theorem witness_drainStores : EncInv 16 midway ∧ 2 ≤ outCapLimit ∧
    fits 2 midway (emitted midway [1, 0, 0]) ∧ (emitted midway [1, 0, 0]).length = 4 :=
  ⟨midway_inv, by unfold fits; decide +kernel⟩

/-! ## Witnesses: unit HE -/

theorem copied_inv : EncInv 16 copied := by constructor <;> decide +kernel

theorem oneByte_inv : EncInv 16 oneByte := by constructor <;> decide +kernel

theorem witness_heCopy : Writable busy ∧ busy.enc.tmplDone = false ∧
    roomForFlush busy.outCapWords busy.enc ∧ busy.enc.ilCount.toNat < busy.params.ilMax :=
  ⟨busy_writable, rfl, by unfold roomForFlush fits; decide +kernel, by decide +kernel⟩

theorem witness_heMarkEnd : copied.tmplDone = false ∧ copied.nbits = 0 ∧
    copied.bitsOut = copied.bitsCopied ∧ copied.ilCount.toNat < toyParams.ilMax ∧
    ((7 : Byte), IlKind.lfAcrossSlices) ∈
      ([(2, .firstMb), (3, .sliceQpDelta), (4, .firstSlice), (5, .sliceSegment), (6, .saoEnable),
        (7, .lfAcrossSlices)] : List (Byte × IlKind)) := by decide +kernel

theorem witness_templateFaults :
    { copied with tmplDone := true }.tmplDone = true ∧
    (oneByte.tmplDone = false ∧ oneByte.bitsOut ≠ oneByte.bitsCopied) ∧
    (copied.tmplDone = false ∧ copied.nbits = 0 ∧ copied.bitsOut = copied.bitsCopied ∧
      { toyParams with ilMax := 1 }.ilMax ≤ copied.ilCount.toNat) ∧
    (full.enc.tmplDone = false ∧ Writable full ∧ ¬roomForFlush full.outCapWords full.enc) ∧
    (EncInv 1 midway ∧ midway.tmplDone = false ∧ roomForFlush 1 midway ∧
      1 ≤ midway.ilCount.toNat) :=
  ⟨rfl, by decide +kernel, by decide +kernel,
    ⟨rfl, full_writable, by unfold roomForFlush fits; decide +kernel⟩,
    ⟨by constructor <;> decide +kernel, rfl, by unfold roomForFlush fits; decide +kernel,
      by decide +kernel⟩⟩

theorem witness_heSetp : (511 : Half).toNat ≤ 511 ∧ 511 < (512 : Half).toNat := by decide

/-- The machine with the parameters of R195 and a template of an earlier header in it. -/
def slice264 : State := { busy with outCapWords := 7, sp := sp264 }

theorem witness_h264 :
    h264Script slice264.sp = templateScript
      [⟨[.bits 0 1, .bits 3 2, .bits 5 5], .firstMb⟩,
       ⟨[.ue 7, .ue 0, .bits 0 8, .ue 0, .bits 0 8, .bits 0 1, .bits 0 1], .sliceQpDelta⟩]
      [.ue 0, .se 0, .se 0] ∧
    Room slice264
      [⟨[.bits 0 1, .bits 3 2, .bits 5 5], .firstMb⟩,
       ⟨[.ue 7, .ue 0, .bits 0 8, .ue 0, .bits 0 8, .bits 0 1, .bits 0 1], .sliceQpDelta⟩]
      [.ue 0, .se 0, .se 0] :=
  ⟨by decide +kernel, by constructor <;> decide +kernel⟩

/-- The machine with the parameters of R225. -/
def slice265 : State := { busy with outCapWords := 3, sp := sp265 }

theorem witness_h265 :
    h265Script slice265.sp = templateScript
      [⟨[.bits 0 1, .bits 19 6, .bits 0 6, .bits 1 3], .firstSlice⟩,
       ⟨[.bits 0 1, .ue 0], .sliceSegment⟩, ⟨[.ue 2], .saoEnable⟩, ⟨[], .sliceQpDelta⟩,
       ⟨[], .lfAcrossSlices⟩] [] ∧
    Room slice265
      [⟨[.bits 0 1, .bits 19 6, .bits 0 6, .bits 1 3], .firstSlice⟩,
       ⟨[.bits 0 1, .ue 0], .sliceSegment⟩, ⟨[.ue 2], .saoEnable⟩, ⟨[], .sliceQpDelta⟩,
       ⟨[], .lfAcrossSlices⟩] [] :=
  ⟨by decide +kernel, by constructor <;> decide +kernel⟩

theorem witness_h264Idr :
    (∀ x ∈ ([(0x00, 3), (0x01, 5), (0x02, 7), (0x03, 0), (0x04, 4), (0x05, 0), (0x06, 0), (0x07, 0),
      (0x08, 4), (0x09, 0), (0x0A, 0), (0x0F, 0), (0x17, 0), (0x18, 0), (0x1A, 1), (0x1C, 1), (0x1D, 0),
      (0x1E, 0), (0x1F, 0), (0x20, 1), (0x21, 0), (0x24, 0)] : List (Nat × Word)),
      holds slice264.sp x.1 x.2) ∧
    (1 ≤ (3 : Word).toNat ∧ (3 : Word).toNat ≤ 3) ∧ ((7 : Word) = 2 ∨ (7 : Word) = 7) ∧
    (4 : Word).toNat ≤ 12 ∧ (0 : Word).toNat < 2 ^ ((4 : Word).toNat + 4) ∧
    (0 : Word).toNat ≤ 1 ∧ (-6 ≤ (0 : Word).toInt ∧ (0 : Word).toInt ≤ 6) ∧
    7 ≤ slice264.outCapWords ∧ slice264.outCapWords ≤ outCapLimit ∧
    6 ≤ slice264.params.ilMax ∧ slice264.params.ilMax ≤ 255 := by
  unfold holds; decide +kernel

/-- A B slice with most optional fields, many of them at the end of their range. -/
def headerB : Header264 :=
  { nri := 3, nut := 1, st := 6, biPred := 2, pps := 255, log2FrameNum := 12, frameNum := 65535,
    idrPicId := 0, poc := .deltas 0x7FFFFFFF (some 0x80000001), redundant := some 127, direct := 1,
    counts := some (31, 31), list0 := some (List.replicate 31 (2, 0xFFFFFFFE)), list1 := some [],
    noOutput := 0, longTerm := 0,
    mmco := some [(1, 0, 0), (2, 5, 0), (3, 0xFFFFFFFE, 7), (4, 1, 0), (5, 0, 0), (6, 2, 0)],
    entropy := 1, cabacInit := 2, deblock := some (2, 0xFFFFFFFA, 6) }

theorem headerB_ok : headerB.Ok := by constructor <;> decide +kernel

/-- The IDR header of R195. -/
def headerIdr : Header264 :=
  { headerB with
    nut := 5, st := 7, pps := 0, log2FrameNum := 4, frameNum := 0, poc := .lsb 4 0 none,
    redundant := none, deblock := some (0, 0, 0) }

theorem headerIdr_ok : headerIdr.Ok := by constructor <;> decide +kernel

/-- The machine with the parameters of the B slice and no more room in OUT than its template takes. -/
def sliceB : State := { busy with outCapWords := 77, sp := spWith headerB.reads }

theorem witness_h264Slices : headerB.Ok ∧ (∀ x ∈ headerB.reads, holds sliceB.sp x.1 x.2) ∧
    templateWords (bodies headerB.ranges headerB.last) = sliceB.outCapWords ∧
    sliceB.outCapWords ≤ outCapLimit ∧ 6 ≤ sliceB.params.ilMax ∧ sliceB.params.ilMax ≤ 255 ∧
    headerIdr.Ok ∧ (∀ x ∈ headerIdr.reads, holds slice264.sp x.1 x.2) :=
  ⟨headerB_ok, by unfold holds; decide +kernel, by decide +kernel, by decide +kernel,
    by decide +kernel, by decide +kernel, headerIdr_ok, by unfold holds; decide +kernel⟩

theorem witness_h265Idr :
    (∀ x ∈ ([(0x100, 19), (0x101, 0), (0x102, 1), (0x103, 0), (0x104, 0), (0x105, 2), (0x106, 0),
      (0x111, 1), (0x11F, 0), (0x122, 0), (0x127, 1), (0x128, 0), (0x130, 0), (0x131, 0), (0x132, 0),
      (0x133, 0), (0x136, 0), (0x137, 0), (0x138, 0), (0x139, 0)] : List (Nat × Word)),
      holds slice265.sp x.1 x.2) ∧
    ((19 : Word) = 19 ∨ (19 : Word) = 20) ∧ (0 : Word).toNat ≤ 63 ∧
    (1 ≤ (1 : Word).toNat ∧ (1 : Word).toNat ≤ 7) ∧ (1 : Word).toNat ≤ 1 ∧
    3 ≤ slice265.outCapWords ∧ slice265.outCapWords ≤ outCapLimit ∧
    12 ≤ slice265.params.ilMax ∧ slice265.params.ilMax ≤ 255 := by
  unfold holds; decide +kernel

/-- The header of the P slice of R228. -/
def header228 : Header265 :=
  { nut := 1, lid := 0, tid := 1, st := 1, noOutput := 0, pps := 0, picOutput := none,
    log2PocLsb := 4, pocLsb := 5, numSets := 0, refSet := .coded [(0, 1)] [], tmvp := some 1,
    sao := 0, override := 0, l0 := 0, l1 := 0, lists := none, mvdL1Zero := 0, cabacInit := some 0,
    fromL0 := 0, collocated := 0, merge := 0, chroma := some (0xFFFFFFFE, 3), ppsDisabled := 0,
    deblock := some (some (0, 0xFFFFFFFF, 2)), acrossSlices := 0 }

/-- Its template is the one R228 gives. -/
theorem test_header_r228 : (bodies header228.ranges header228.last).map
    (fun b => (bytesOf (scriptBits b ++ List.replicate 7 false), (scriptBits b).length)) =
    [([0x02, 0x01], 16), ([0x80], 1), ([0x40, 0xA5, 0xE4], 22), ([0x29, 0xA6, 0x40], 20)] := by
  decide +kernel

/-- A B slice with every list, many fields at the end of their range. -/
def header265B : Header265 :=
  { header228 with
    nut := 9, lid := 63, tid := 7, st := 0, pps := 63, picOutput := some 1, log2PocLsb := 12,
    pocLsb := 65535, numSets := 64, refSet := .ofSps 63 6, sao := 1, override := 1, l0 := 14, l1 := 0,
    lists := some (16, 4, some (List.replicate 15 15), some [0]), fromL0 := 1, collocated := 14,
    merge := 4, chroma := some (0xFFFFFFF4, 12), deblock := some none, acrossSlices := 1 }

theorem header228_ok : header228.Ok := by constructor <;> decide +kernel

theorem header265B_ok : header265B.Ok := by constructor <;> decide +kernel

/-- The machines with these parameters and no more room than the templates take. -/
def slice228 : State := { busy with outCapWords := 4, sp := spWith header228.reads }

/-- The same for the B slice. -/
def slice265B : State := { busy with outCapWords := 7, sp := spWith header265B.reads }

theorem witness_h265Slices : header228.Ok ∧ (∀ x ∈ header228.reads, holds slice228.sp x.1 x.2) ∧
    templateWords (bodies header228.ranges header228.last) = slice228.outCapWords ∧
    slice228.outCapWords ≤ outCapLimit ∧ 12 ≤ slice228.params.ilMax ∧
    slice228.params.ilMax ≤ 255 ∧ header265B.Ok ∧
    (∀ x ∈ header265B.reads, holds slice265B.sp x.1 x.2) ∧
    templateWords (bodies header265B.ranges header265B.last) = slice265B.outCapWords :=
  ⟨header228_ok, by unfold holds; decide +kernel, by decide +kernel, by decide +kernel,
    by decide +kernel, by decide +kernel, header265B_ok, by unfold holds; decide +kernel,
    by decide +kernel⟩

/-- A header's parameters with some words written anew. -/
def spBut (sp : Memory SpCell) (l : List (Nat × Word)) : Memory SpCell :=
  l.foldl (fun m x => Memory.write m x.1 ⟨x.2, true⟩) sp

/-- What refuses H.264 parameters. -/
def refused264 (sp : Memory SpCell) : Option (Byte × Nat) := firstRefusal sp (checks264 sp)

/-- What refuses H.265 parameters. -/
def refused265 (sp : Memory SpCell) : Option (Byte × Nat) := firstRefusal sp (checks265 sp)

theorem witness_refusals_h264 :
    [refused264 [], refused264 (spBut sp264 [(0x20, 0)]), refused264 (spBut sp264 [(0x21, 1)]),
      refused264 (spBut sp264 [(0x24, 1)]), refused264 (spBut sp264 [(0x01, 20)]),
      refused264 (spBut sp264 [(0x00, 4)]), refused264 (spBut sp264 [(0x00, 0)]),
      refused264 (spBut sp264 [(0x02, 10)]), refused264 (spBut sp264 [(0x02, 9)]),
      refused264 (spBut sp264 [(0x02, 5)]), refused264 (spBut sp264 [(0x01, 1), (0x02, 5)]),
      refused264 (spBut sp264 [(0x01, 1), (0x02, 5), (0x22, 1)]),
      refused264 (spBut sp264 [(0x01, 1), (0x02, 6), (0x23, 1)]),
      refused264 (spBut sp264 [(0x01, 1), (0x02, 6), (0x23, 3)]), refused264 sp264] =
    [some (0x24, 0x20), some (0x26, 0x20), some (0x26, 0x21), some (0x26, 0x24), some (0x26, 0x01),
      some (0x25, 0x00), some (0x25, 0x00), some (0x25, 0x02), some (0x26, 0x02), some (0x25, 0x02),
      some (0x24, 0x22), some (0x26, 0x22), some (0x26, 0x23), some (0x25, 0x23), none] := by
  decide +kernel

theorem witness_refusals_h265 :
    [refused265 [], refused265 (spBut sp265 [(0x130, 1)]), refused265 (spBut sp265 [(0x139, 1)]),
      refused265 (spBut sp265 [(0x100, 10)]), refused265 (spBut sp265 [(0x100, 22)]),
      refused265 (spBut sp265 [(0x101, 64)]), refused265 (spBut sp265 [(0x102, 0)]),
      refused265 (spBut sp265 [(0x102, 8)]), refused265 (spBut sp265 [(0x105, 3)]),
      refused265 (spBut sp265 [(0x105, 1)]), refused265 (spBut sp265 [(0x100, 9), (0x105, 1)]),
      refused265 (spBut sp265 [(0x100, 9), (0x105, 0), (0x135, 1)]), refused265 sp265] =
    [some (0x24, 0x130), some (0x26, 0x130), some (0x26, 0x139), some (0x26, 0x100),
      some (0x26, 0x100), some (0x25, 0x101), some (0x25, 0x102), some (0x25, 0x102),
      some (0x25, 0x105), some (0x25, 0x105), some (0x24, 0x134), some (0x26, 0x135), none] := by
  decide +kernel

/-- A P slice whose list holds a value without a code: the calls before it run, and it raises
`UeRange`. -/
theorem witness_sequencerFaults_late :
    let sp := spBut sp264 [(0x01, 1), (0x02, 5), (0x22, 0), (0x12, 0), (0x15, 1), (0x40, 0),
      (0x41, 0xFFFFFFFF)]
    (h264Script sp).getD 13 .reset = .ue 0xFFFFFFFF ∧
    (runScript 7 16 ((h264Script sp).take 13) midway).toOption.isSome = true ∧
    (∃ e, runItem 7 16 (.ue 0xFFFFFFFF) e = .error (.raise .ueRange 0xFFFFFFFF)) := by
  refine ⟨by decide +kernel, by decide +kernel, midway, rfl⟩

/-- OUT one word too small, and IL one entry too small, for the template of R195. -/
theorem witness_sequencerFaults_room :
    h264Script sp264 = templateScript headerIdr.ranges headerIdr.last ∧
    (∀ b ∈ bodies headerIdr.ranges headerIdr.last, b.all codes) ∧
    templateWords (bodies headerIdr.ranges headerIdr.last) = 3 ∧
    (templateEntries headerIdr.ranges headerIdr.last).length = 6 := by decide +kernel

theorem witness_sequencerFaults_pps :
    (refused264 (sp264.filter fun c => c.1 ≠ 3) = none ∧
      unwritten (sp264.filter fun c => c.1 ≠ 3) 0x03) ∧
    (refused264 (spBut sp264 [(0x03, 256)]) = none ∧
      holds (spBut sp264 [(0x03, 256)]) 0x03 256 ∧ 255 < (256 : Word).toNat) ∧
    (refused265 (spBut slice228.sp [(0x104, 64)]) = none ∧
      holds (spBut slice228.sp [(0x104, 64)]) 0x100 1 ∧
      holds (spBut slice228.sp [(0x104, 64)]) 0x104 64 ∧ 63 < (64 : Word).toNat) ∧
    (refused265 (slice228.sp.filter fun c => c.1 ≠ 0x104) = none ∧
      unwritten (slice228.sp.filter fun c => c.1 ≠ 0x104) 0x104) := by
  unfold holds unwritten; decide +kernel

/-- 32 modification entries without a terminator. -/
def endlessList : List (Nat × Word) :=
  (List.range 32).flatMap fun k => [(0x40 + 2 * k, 2), (0x41 + 2 * k, 5)]

/-- 21 memory-management operations without an end code. -/
def endlessMmco : List (Nat × Word) :=
  (List.range 21).flatMap fun k => [(0xC0 + 3 * k, 3), (0xC1 + 3 * k, 5), (0xC2 + 3 * k, 6)]

theorem witness_sequencerFaults_list :
    (∀ x ∈ ([(0x00, 1), (0x01, 1), (0x02, 5), (0x03, 255), (0x04, 12), (0x05, 65535), (0x07, 2),
      (0x0F, 0), (0x12, 1), (0x13, 31), (0x15, 1), (0x20, 1), (0x21, 0), (0x22, 0), (0x24, 0)] ++
      endlessList : List (Nat × Word)),
      holds (spWith ([(0x00, 1), (0x01, 1), (0x02, 5), (0x03, 255), (0x04, 12), (0x05, 65535),
        (0x07, 2), (0x0F, 0), (0x12, 1), (0x13, 31), (0x15, 1), (0x20, 1), (0x21, 0), (0x22, 0),
        (0x24, 0)] ++ endlessList)) x.1 x.2) ∧
    (List.replicate 32 ((2 : Word), (5 : Word))).length = 32 ∧
    ((2 : Word).toNat ≤ 2 ∧ (5 : Word) ≠ 0xFFFFFFFF) ∧
    (65535 : Word).toNat < 2 ^ ((12 : Word).toNat + 4) := by
  unfold holds; decide +kernel

theorem witness_sequencerFaults_mmco :
    (∀ x ∈ ([(0x00, 3), (0x01, 1), (0x02, 2), (0x03, 255), (0x04, 0), (0x05, 15), (0x07, 2),
      (0x0F, 0), (0x19, 1), (0x20, 1), (0x21, 0), (0x24, 0)] ++ endlessMmco : List (Nat × Word)),
      holds (spWith ([(0x00, 3), (0x01, 1), (0x02, 2), (0x03, 255), (0x04, 0), (0x05, 15), (0x07, 2),
        (0x0F, 0), (0x19, 1), (0x20, 1), (0x21, 0), (0x24, 0)] ++ endlessMmco)) x.1 x.2) ∧
    (List.replicate 21 ((3 : Word), (5 : Word), (6 : Word))).length = 21 ∧
    (1 ≤ (3 : Word).toNat ∧ (3 : Word).toNat ≤ 6) ∧
    (15 : Word).toNat < 2 ^ ((0 : Word).toNat + 4) := by
  unfold holds; decide +kernel

/-! ## Witnesses: units FG, CDF and DPB -/

theorem witness_bwSetep : (0 : Byte) = 0 ∧ false = false ∨ (0 : Byte) = 1 ∧ false = true := by decide

theorem witness_fgSeed : ((2 : Byte), (0x49D8 : Half)) ∈
    ([(0, 0), (1, 0xB524), (2, 0x49D8)] : List (Byte × Half)) := by decide

theorem witness_fg : busy.fgSeeded = true ∧ (started [] 1).fgSeeded = false ∧
    1 ≤ (1 : Byte).toNat ∧ (16 : Byte).toNat ≤ 16 := by decide +kernel

theorem witness_cdfSeedAll : busy.params.layout.wf = true ∧
    (∀ k : Fin 4, Memory.wf busy.cdf[k].mem) ∧ twelve.reverse.Perm twelve :=
  ⟨by decide +kernel, by decide +kernel, List.reverse_perm _⟩

theorem witness_dpbSession : ((2 : Byte), Codec.av1) ∈
      ([(0, .h264), (1, .h265), (2, .av1)] : List (Byte × Codec)) ∧ (15 : Byte).toNat < toyParams.dpbSlots := by decide

theorem witness_dpbCall :
    (av1Session.mode = .dynamicT2 ∧ av1Session.isOpen = false ∧ (1 : Addr) ≠ 0) ∧
    (begun.mode = .dynamicT2 ∧ begun.isOpen = true ∧ (3 : Byte).toNat ≤ begun.m.toNat) := by
  decide +kernel

theorem witness_dpbLookup :
    ({ Dpb.reset with mode := .fixed, m := 4 }.mode = .fixed ∧
      (4 : Byte).toNat ≤ { Dpb.reset with mode := .fixed, m := 4 }.m.toNat) ∧
    (committed.mode = .dynamicT2 ∧ committed.valid = true ∧ isUsed committed.used 1 = true ∧
      (1 : Byte).toNat ≤ committed.m.toNat ∧ Memory.read committed.table 1 = some 0x123460000) := by
  decide +kernel

theorem witness_dpbFaults :
    Dpb.reset.mode = .none ∧ { Dpb.reset with mode := .fixed }.mode = .fixed ∧
    (begun.mode = .dynamicT2 ∧ begun.isOpen = true ∧ begun.m.toNat < (4 : Byte).toNat ∧
      (3 : Byte).toNat ≤ begun.m.toNat) ∧
    (committed.mode = .dynamicT2 ∧ committed.isOpen = false ∧ committed.valid = true ∧
      committed.m.toNat < (4 : Byte).toNat ∧ (3 : Byte).toNat ≤ committed.m.toNat ∧
      isUsed committed.used 3 = false) ∧
    (begun.valid = false) := by decide +kernel

end Sys2Proof.Tests
end

section
/-! SUPPORT. Procedures that never stop the model (log 6): the rules by which such a claim, with what
holds of the value, passes through `bind` and `map`. -/

namespace Sys2Proof.StateFamily

open Sys2Proof.Machine Sys2Proof.Safety

variable {α β : Type}

/-- The procedure does not stop the model, and its value has `P` when it completes. A `raise` is no stop
of the model: it is taken as a next state (60_exceptions.md R323). -/
def Safe (P : α → Prop) : Result α → Prop
  | .ok a => P a
  | .error (.raise _ _) => True
  | .error (.halt _) => False

@[simp] theorem safe_ok {P : α → Prop} {a : α} : Safe P (.ok a) ↔ P a := Iff.rfl

@[simp] theorem safe_raise {P : α → Prop} (f : BswFault) (info : Word) :
    Safe P (.error (.raise f info)) := trivial

theorem safe_iff {P : α → Prop} {r : Result α} :
    Safe P r ↔ (∀ a, r = .ok a → P a) ∧ ∀ x, r ≠ .error (.halt x) := by
  rcases r with (_ | _) | _ <;> simp [Safe]

theorem Safe.mono {P Q : α → Prop} {r : Result α} (h : Safe P r) (hPQ : ∀ a, P a → Q a) :
    Safe Q r :=
  safe_iff.2 ⟨fun a ha => hPQ a ((safe_iff.1 h).1 a ha), (safe_iff.1 h).2⟩

theorem Safe.and_ok {P : α → Prop} {r : Result α} (h : Safe P r) :
    Safe (fun a => P a ∧ r = .ok a) r :=
  safe_iff.2 ⟨fun a ha => ⟨(safe_iff.1 h).1 a ha, ha⟩, (safe_iff.1 h).2⟩

theorem Safe.bind {P : α → Prop} {Q : β → Prop} {r : Result α} {f : α → Result β} (h : Safe P r)
    (hf : ∀ a, P a → Safe Q (f a)) : Safe Q (r.bind f) := by
  rcases r with (_ | _) | a
  · trivial
  · exact h
  · exact hf a h

theorem Safe.map {P : α → Prop} {Q : β → Prop} {r : Result α} {f : α → β} (h : Safe P r)
    (hf : ∀ a, P a → Q (f a)) : Safe Q (r.map f) := by
  rcases r with (_ | _) | a
  · trivial
  · exact h
  · exact hf a h

end Sys2Proof.StateFamily
end

section
/-! SUPPORT. The invariant of the instruction list alone (10_state.md R32, R33; 42_header_template.md
R181): it depends on the list, its count, the copied bits and the closing flag, and on nothing that the
bit writer changes. -/

namespace Sys2Proof.StateFamily

open Sys2Proof.Machine Sys2Proof.Safety

/-- The fields of `EncInv` about the template, over the values they depend on. -/
structure ListInv (ilMax : Nat) (il : Memory IlEntry) (count copied : Nat) (closed : Bool) : Prop where
  wf : Memory.wf il
  below : Memory.below ilMax il
  countLe : count ≤ ilMax
  entries : ∀ i < count, (Memory.read il i).isSome
  ended : closed → 0 < count ∧ Memory.read il (count - 1) = some ⟨.endList, 0⟩
  ends : ∀ i < count, (Memory.read il i).all fun (x : IlEntry) =>
    x.kind != .endList || (closed && i + 1 == count)
  copies : copyBits il count = copied

/-- The bits an entry adds to the sum of the `COPY` lengths. -/
def copyLength (x : IlEntry) : Nat := if x.kind = .copy then x.numBits.toNat else 0

/-- The sum of the `COPY` lengths, with the summand named. -/
theorem copyBits_eq_sum (il : Memory IlEntry) (n : Nat) :
    copyBits il n = ((List.range n).map fun i => (Memory.read il i).elim 0 copyLength).sum := by
  unfold copyBits
  congr 2
  funext i
  cases Memory.read il i <;> rfl

/-- The sum over the first `n + 1` entries once entry `n` is written. -/
theorem copyBits_write (il : Memory IlEntry) (n : Nat) (x : IlEntry) :
    copyBits (Memory.write il n x) (n + 1) = copyBits il n + copyLength x := by
  have earlier : ∀ i ∈ List.range n, (Memory.read (Memory.write il n x) i).elim 0 copyLength =
      (Memory.read il i).elim 0 copyLength := fun i hi => by
    rw [Memory.read_write_other il x (Nat.ne_of_lt (List.mem_range.1 hi))]
  rw [copyBits_eq_sum, copyBits_eq_sum, List.range_succ, List.map_append, List.sum_append,
    List.map_congr_left earlier]
  simp

/-- `bw_reset` rewinds the list and keeps its entries. -/
theorem ListInv.rewound {ilMax n c : Nat} {il : Memory IlEntry} {b : Bool} (h : ListInv ilMax il n c b) :
    ListInv ilMax il 0 0 false where
  wf := h.wf
  below := h.below
  countLe := Nat.zero_le _
  entries := by simp
  ended := by simp
  ends := by simp
  copies := by simp [copyBits]

/-- An entry appended to an open list; an entry of kind `END`, with length 0, closes it (R172, R175). -/
theorem ListInv.append {ilMax n c : Nat} {il : Memory IlEntry} (h : ListInv ilMax il n c false)
    (hn : n < ilMax) (x : IlEntry) (hx : x.kind = .endList → x.numBits = 0) :
    ListInv ilMax (Memory.write il n x) (n + 1) (c + copyLength x) (x.kind == .endList) where
  wf := Memory.wf_write h.wf n x
  below := Memory.below_write h.below hn x
  countLe := hn
  entries i hi := by
    rw [Memory.read_write]
    split
    · rfl
    · exact h.entries i (by omega)
  ended hc := by
    obtain ⟨kind, numBits⟩ := x
    simp_all
  ends i hi := by
    rw [Memory.read_write]
    split
    · subst i; by_cases hk : x.kind = .endList <;> simp [hk]
    · have := h.ends i (by omega)
      revert this
      cases Memory.read il i <;> simp
      intro hk; simp [hk]
  copies := by rw [copyBits_write, h.copies]

end Sys2Proof.StateFamily
end

section
/-! SUPPORT. The bit writer keeps its invariant. Inside `put_bits` and `flush` the held bits exceed 7 and
`bits_out` lags behind the position, so the procedures keep `WriterInv`, which speaks of neither the
shifter nor `nbits` and says how many bits in OUT are not counted yet. -/

namespace Sys2Proof.StateFamily

open Sys2Proof.Machine Sys2Proof.Safety

/-- The output port and the template while `owed` bits that stand in OUT are not counted yet and the
position is inside an OUT of `lim` words. -/
structure WriterInv (ilMax lim owed : Nat) (e : Encoder) : Prop where
  zeros : e.nz.toNat ≤ 2
  inside : pos e ≤ 4 * lim
  counted : e.bitsOut.toNat + owed ≤ 8 * pos e
  copied : e.bitsCopied.toNat ≤ e.bitsOut.toNat
  outWf : Memory.wf e.out
  outBelow : Memory.below outCapLimit e.out
  filled : ∀ w < e.outWi.toNat, (Memory.read e.out w).isSome
  partialWord : e.outBi ≠ 0 →
    (Memory.read e.out e.outWi.toNat).any (fun (w : Word) => w <<< (8 * e.outBi.toNat) == 0)
  list : ListInv ilMax e.il e.ilCount.toNat e.bitsCopied.toNat e.tmplDone

/-- The shifter holds `n` bits, and the bits below them are 0 (10_state.md R25, R26). -/
structure Holding (n : Nat) (e : Encoder) : Prop where
  count : e.nbits.toNat = n
  lowZero : e.shifter <<< n = 0

/-- The encoder between commands, with its position inside an OUT of `lim` words. -/
structure Ready (ilMax lim : Nat) (e : Encoder) : Prop where
  writer : WriterInv ilMax lim 0 e
  held : e.nbits.toNat ≤ 7
  lowZero : e.shifter <<< e.nbits.toNat = 0

theorem ready_of_encInv {ilMax lim : Nat} {e : Encoder} (h : EncInv ilMax e) (hp : pos e ≤ 4 * lim) :
    Ready ilMax lim e where
  held := h.held
  lowZero := h.lowZero
  writer :=
    { zeros := h.zeros, inside := hp, counted := h.counted, copied := h.copied, outWf := h.outWf,
      outBelow := h.outBelow, filled := h.filled, partialWord := h.partialWord,
      list := { wf := h.ilWf, below := h.ilBelow, countLe := h.ilCountLe, entries := h.entries,
                ended := h.closed, ends := h.ends, copies := h.copies } }

theorem encInv_of_ready {ilMax lim : Nat} {e : Encoder} (h : Ready ilMax lim e)
    (hlim : lim ≤ outCapLimit) : EncInv ilMax e where
  held := h.held
  lowZero := h.lowZero
  zeros := h.writer.zeros
  inside := h.writer.inside.trans (Nat.mul_le_mul_left 4 hlim)
  counted := h.writer.counted
  copied := h.writer.copied
  outWf := h.writer.outWf
  outBelow := h.writer.outBelow
  filled := h.writer.filled
  partialWord := h.writer.partialWord
  ilWf := h.writer.list.wf
  ilBelow := h.writer.list.below
  ilCountLe := h.writer.list.countLe
  entries := h.writer.list.entries
  closed := h.writer.list.ended
  ends := h.writer.list.ends
  copies := h.writer.list.copies

/-! ## What `WriterInv` does not look at, and counting -/

namespace WriterInv

variable {ilMax lim owed : Nat} {e : Encoder}

theorem setHeld (h : WriterInv ilMax lim owed e) (x : Word) (n : BitVec 6) :
    WriterInv ilMax lim owed { e with shifter := x, nbits := n } :=
  ⟨h.zeros, h.inside, h.counted, h.copied, h.outWf, h.outBelow, h.filled, h.partialWord, h.list⟩

theorem setEpZeros (h : WriterInv ilMax lim owed e) (b : Bool) {z : BitVec 2} (hz : z.toNat ≤ 2) :
    WriterInv ilMax lim owed { e with ep := b, nz := z } :=
  ⟨hz, h.inside, h.counted, h.copied, h.outWf, h.outBelow, h.filled, h.partialWord, h.list⟩

theorem mono (h : WriterInv ilMax lim owed e) {k : Nat} (hk : k ≤ owed) : WriterInv ilMax lim k e :=
  { h with counted := (Nat.add_le_add_left hk _).trans h.counted }

/-- Owed bits are counted; `bits_out` does not wrap, since every counted bit occupies OUT. -/
theorem count (h : WriterInv ilMax lim owed e) (hlim : lim ≤ outCapLimit) {n : Word}
    (hn : n.toNat ≤ owed) : WriterInv ilMax lim (owed - n.toNat) { e with bitsOut := e.bitsOut + n } := by
  have sum : (e.bitsOut + n).toNat = e.bitsOut.toNat + n.toNat := by
    have := h.counted
    have := h.inside
    rw [BitVec.toNat_add, Nat.mod_eq_of_lt]
    simp only [outCapLimit] at hlim
    omega
  refine { h with counted := ?_, copied := ?_ }
  · have := h.counted
    show (e.bitsOut + n).toNat + _ ≤ 8 * pos e
    omega
  · have := h.copied
    show e.bitsCopied.toNat ≤ (e.bitsOut + n).toNat
    omega

end WriterInv

/-! ## The output port (R133) -/

variable {ilMax cap lim owed : Nat} {e : Encoder}

theorem laneByte_shiftLeft (b : Byte) (lane : Nat) :
    laneByte b lane <<< (8 * (lane + 1)) = 0 := by
  rw [laneByte, ← BitVec.shiftLeft_add]
  exact BitVec.shiftLeft_eq_zero (by omega)

/-- The word that `output_byte` stores has a value, which keeps the model from stopping (log 6), and its
lanes after the stored one are 0. -/
theorem mergedWord_of_writerInv (h : WriterInv ilMax lim owed e) (b : Byte) :
    ∃ w, mergedWord b e = some w ∧ w <<< (8 * (e.outBi.toNat + 1)) = 0 := by
  have lane := laneByte_shiftLeft b e.outBi.toNat
  by_cases hbi : e.outBi = 0
  · exact ⟨laneByte b 0, by simp [mergedWord, hbi], by simpa [hbi] using lane⟩
  · obtain ⟨w, hw, hz⟩ := (Option.any_eq_true _ _).1 (h.partialWord hbi)
    refine ⟨w ||| laneByte b e.outBi.toNat, by rw [mergedWord, if_neg hbi, hw]; rfl, ?_⟩
    rw [BitVec.shiftLeft_or_distrib, lane, Nat.mul_add, BitVec.shiftLeft_add, eq_of_beq hz]
    simp

theorem nextLane_last (h : e.outBi = 3) : nextLane e = { e with outBi := 0, outWi := e.outWi + 1 } :=
  if_pos h

theorem nextLane_inner (h : e.outBi ≠ 3) : nextLane e = { e with outBi := e.outBi + 1 } := if_neg h

theorem outWi_succ (h : e.outWi.toNat < outCapLimit) : (e.outWi + 1).toNat = e.outWi.toNat + 1 :=
  BitVec.toNat_add_of_lt (by simp only [outCapLimit] at h; simp; omega)

theorem outBi_succ (h : e.outBi ≠ 3) : (e.outBi + 1).toNat = e.outBi.toNat + 1 := by
  have lane : e.outBi.toNat ≠ 3 := fun hc => h (BitVec.eq_of_toNat_eq hc)
  exact BitVec.toNat_add_of_lt (by simp; omega)

/-- The position after one more lane: the word index does not wrap inside OUT. -/
theorem pos_nextLane (h : e.outWi.toNat < outCapLimit) : pos (nextLane e) = pos e + 1 := by
  by_cases hbi : e.outBi = 3
  · rw [nextLane_last hbi, pos, pos, outWi_succ h, hbi]; simp; omega
  · rw [nextLane_inner hbi, pos, pos, outBi_succ hbi]; rfl

/-- A word stored at the position, whose lanes after the current one are 0, and the position moved on. -/
theorem WriterInv.store (h : WriterInv ilMax lim owed e) (hlim : lim ≤ outCapLimit)
    (hroom : e.outWi.toNat < lim) {w : Word} (hw : w <<< (8 * (e.outBi.toNat + 1)) = 0) :
    WriterInv ilMax lim (owed + 8) (nextLane { e with out := Memory.write e.out e.outWi.toNat w }) := by
  have hwi : e.outWi.toNat < outCapLimit := Nat.lt_of_lt_of_le hroom hlim
  let e₁ : Encoder := { e with out := Memory.write e.out e.outWi.toNat w }
  have hpos : pos (nextLane e₁) = pos e + 1 := pos_nextLane (e := e₁) hwi
  have inside : pos e + 1 ≤ 4 * lim := by unfold pos; omega
  have counted : e₁.bitsOut.toNat + owed ≤ 8 * pos e := h.counted
  have written : ∀ k, k ≤ e.outWi.toNat →
      (Memory.read (Memory.write e.out e.outWi.toNat w) k).isSome := fun k hk => by
    rw [Memory.read_write]
    split
    · rfl
    · exact h.filled k (by omega)
  by_cases hbi : e.outBi = 3
  · rw [nextLane_last (e := e₁) hbi] at hpos ⊢
    exact
      { h with
        inside := by omega
        counted := by simp only; omega
        outWf := Memory.wf_write h.outWf _ _
        outBelow := Memory.below_write h.outBelow hwi w
        filled := fun k hk => written k (by rw [outWi_succ hwi] at hk; omega)
        partialWord := fun hc => absurd rfl hc }
  · rw [nextLane_inner (e := e₁) hbi] at hpos ⊢
    exact
      { h with
        inside := by omega
        counted := by simp only; omega
        outWf := Memory.wf_write h.outWf _ _
        outBelow := Memory.below_write h.outBelow hwi w
        filled := fun k hk => written k (Nat.le_of_lt hk)
        partialWord := fun _ => by
          simp only
          rw [Memory.read_write_same, Option.any_some, outBi_succ hbi, hw, beq_self_eq_true] }

theorem outputByte_safe (h : WriterInv ilMax lim owed e) (hcap : cap ≤ lim) (hlim : lim ≤ outCapLimit)
    (b : Byte) : Safe (WriterInv ilMax lim (owed + 8)) (outputByte cap b e) := by
  obtain ⟨w, hw, hz⟩ := mergedWord_of_writerInv h b
  refine safe_iff.2 ⟨fun e' he => ?_, fun x hx => ?_⟩
  · obtain ⟨hroom, v, hv, rfl⟩ := outputByte_ok he
    obtain rfl : w = v := Option.some.inj (hw.symm.trans hv)
    exact h.store hlim (Nat.lt_of_lt_of_le hroom hcap) hz
  · rcases outputByte_error hx with ⟨-, hx⟩ | ⟨-, hnone, -⟩
    · cases hx
    · rw [hw] at hnone; cases hnone

/-! ## Emulation prevention (R135) -/

/-- The counter stays at most 2: at 2 the next zero byte is stuffed first (R28). -/
theorem countZero_le {nz : BitVec 2} {b : Byte} (hz : nz.toNat ≤ 2) (hs : stuffs nz b = false) :
    (countZero nz b).toNat ≤ 2 := by
  unfold countZero
  split
  · rename_i hb
    have : nz.toNat < 2 := by simpa [stuffs, hb] using hs
    rw [BitVec.toNat_add_of_lt (by simp; omega)]
    simp
    omega
  · simp

theorem drainByte_safe (h : WriterInv ilMax lim owed e) (hcap : cap ≤ lim) (hlim : lim ≤ outCapLimit)
    (b : Byte) : Safe (WriterInv ilMax lim (owed + 8)) (drainByte cap b e) := by
  have stuffed : Safe (fun e' => WriterInv ilMax lim owed e' ∧ stuffs e'.nz b = false)
      (if stuffs e.nz b then stuffByte cap e else .ok e) := by
    split
    · refine (outputByte_safe h hcap hlim 3).map fun e' h' => ⟨?_, by simp [stuffs]⟩
      exact (h'.count hlim (n := 8) (by simp)).setEpZeros e'.ep (z := 0) (by simp)
    · rename_i hs
      exact ⟨h, by simpa using hs⟩
  unfold drainByte
  split
  · exact stuffed.bind fun e' ⟨h', hs⟩ =>
      outputByte_safe (h'.setEpZeros e'.ep (countZero_le h'.zeros hs)) hcap hlim b
  · exact outputByte_safe h hcap hlim b

theorem drainByte_held {b : Byte} {e' : Encoder} (h : drainByte cap b e = .ok e') :
    e'.shifter = e.shifter ∧ e'.nbits = e.nbits := by
  rw [drainByte_frame h]; exact ⟨rfl, rfl⟩

/-! ## Fixed-width coding (R137) -/

/-- `k` whole bytes leave a shifter that holds them, each counted once it is in OUT; `n` bits stay. -/
theorem drainHeld_safe (hcap : cap ≤ lim) (hlim : lim ≤ outCapLimit) {k n : Nat}
    (h : WriterInv ilMax lim 0 e) (hn : Holding (8 * k + n) e) :
    Safe (fun e' => WriterInv ilMax lim 0 e' ∧ Holding n e') (drainHeld cap k e) := by
  induction k generalizing e with
  | zero => exact ⟨h, by simpa using hn⟩
  | succ k ih =>
    have drained := drainByte_safe (h.setHeld (e.shifter <<< 8) e.nbits) hcap hlim
      (e.shifter.extractLsb' 24 8)
    refine drained.and_ok.bind fun e' ⟨h', he⟩ => ih ?_ ⟨?_, ?_⟩
    · exact (h'.count hlim (n := 8) (by simp)).setHeld e'.shifter (e'.nbits - 8)
    · have hle : (8 : BitVec 6) ≤ e'.nbits := by
        rw [(drainByte_held he).2, BitVec.le_def, hn.count]; simp; omega
      have count := hn.count
      simp only
      rw [BitVec.toNat_sub_of_le hle, (drainByte_held he).2]
      simp
      omega
    · simp only
      rw [(drainByte_held he).1, ← BitVec.shiftLeft_add, ← hn.lowZero]
      congr 1
      omega

/-- Bits put below the held ones leave the bits below all of them 0. -/
theorem holdBits_holding (hz : e.shifter <<< e.nbits.toNat = 0) {take : Nat}
    (ht : e.nbits.toNat + take ≤ 32) (chunk : Nat) :
    Holding (e.nbits.toNat + take) (holdBits chunk take e) where
  count := by
    have small : (BitVec.ofNat 6 take).toNat = take := Nat.mod_eq_of_lt (by omega)
    rw [holdBits, BitVec.toNat_add_of_lt (by rw [small]; omega), small]
  lowZero := by
    have below : BitVec.ofNat 32 chunk <<< (32 - e.nbits.toNat - take) <<< (e.nbits.toNat + take) = 0 := by
      rw [← BitVec.shiftLeft_add]; exact BitVec.shiftLeft_eq_zero (by omega)
    rw [holdBits, BitVec.shiftLeft_or_distrib, below, BitVec.shiftLeft_add, hz]
    simp

/-- The procedure keeps the encoder ready for the next command, without stopping the model. -/
abbrev KeepsReady (ilMax lim : Nat) (f : Encoder → Result Encoder) : Prop :=
  ∀ e, Ready ilMax lim e → Safe (Ready ilMax lim) (f e)

theorem putLoop_keepsReady (hcap : cap ≤ lim) (hlim : lim ≤ outCapLimit) (v fuel rem : Nat) :
    KeepsReady ilMax lim (putLoop cap v fuel rem) := by
  induction fuel generalizing rem with
  | zero => exact fun e h => h
  | succ fuel ih =>
    intro e h
    unfold putLoop
    split
    · exact h
    · have room : e.nbits.toNat + min rem (32 - e.nbits.toNat) ≤ 32 := by have := h.held; omega
      generalize min rem (32 - e.nbits.toNat) = take at room ⊢
      have held := holdBits_holding h.lowZero room ((v >>> (rem - take)) % 2 ^ take)
      refine (drainHeld_safe hcap hlim (n := (e.nbits.toNat + take) % 8)
        (h.writer.setHeld _ _) ?_).bind fun e' ⟨h', hn⟩ => ih _ e' ⟨h', ?_, ?_⟩
      · rw [held.count, Nat.div_add_mod]; exact held
      · rw [hn.count]; omega
      · rw [hn.count]; exact hn.lowZero

theorem putBits_keepsReady (hcap : cap ≤ lim) (hlim : lim ≤ outCapLimit) (value : Word) (n : Nat) :
    KeepsReady ilMax lim (putBits cap value n) :=
  putLoop_keepsReady hcap hlim _ _ _

/-! ## Codes, alignment and flush (R139, R141, R144, R146) -/

theorem putUe_keepsReady (hcap : cap ≤ lim) (hlim : lim ≤ outCapLimit) (v : Word) :
    KeepsReady ilMax lim (putUe cap v) := by
  intro e h
  unfold putUe
  split
  · exact safe_raise _ _
  · exact (putBits_keepsReady hcap hlim _ _ e h).bind fun e' => putBits_keepsReady hcap hlim _ _ e'

theorem putSe_keepsReady (hcap : cap ≤ lim) (hlim : lim ≤ outCapLimit) (v : Word) :
    KeepsReady ilMax lim (putSe cap v) := by
  intro e h
  unfold putSe
  split
  · exact safe_raise _ _
  · exact putUe_keepsReady hcap hlim _ e h

theorem byteAlign_keepsReady (hcap : cap ≤ lim) (hlim : lim ≤ outCapLimit) :
    KeepsReady ilMax lim (byteAlign cap) :=
  fun e => putBits_keepsReady hcap hlim _ _ e

/-- After the held bits are drained, nothing is held; the padding bits stay uncounted. -/
theorem flushHeld_safe (h : Ready ilMax lim e) (hcap : cap ≤ lim) (hlim : lim ≤ outCapLimit) :
    Safe (fun e' => Ready ilMax lim e' ∧ e'.nbits = 0) (flushHeld cap e) := by
  unfold flushHeld
  split
  · rename_i hn; exact ⟨h, hn⟩
  · have held : (e.nbits.setWidth 32).toNat = e.nbits.toNat := BitVec.toNat_setWidth_of_le (by omega)
    refine (drainByte_safe h.writer hcap hlim _).map fun e' h' => ⟨⟨?_, by simp, by simp⟩, rfl⟩
    have counted := h'.count hlim (n := e.nbits.setWidth 32) (by have := h.held; omega)
    exact (counted.mono (Nat.zero_le _)).setHeld 0 0

/-- Moving to a word boundary stays inside OUT and leaves only written words behind. -/
theorem alignWord_ready (h : Ready ilMax lim e) (hlim : lim ≤ outCapLimit) :
    Ready ilMax lim (alignWord e) := by
  unfold alignWord
  split
  · exact h
  · rename_i hbi
    have lane : e.outBi.toNat ≠ 0 := fun hc => hbi (BitVec.eq_of_toNat_eq hc)
    have inside := h.writer.inside
    have counted := h.writer.counted
    simp only [pos] at inside counted
    have next : (e.outWi + 1).toNat = e.outWi.toNat + 1 := outWi_succ (by omega)
    refine ⟨{ h.writer with inside := ?_, counted := ?_, filled := ?_, partialWord := ?_ },
      h.held, h.lowZero⟩
    · simp only [pos, next]; simp; omega
    · simp only [pos, next]; omega
    · intro w hw
      simp only [next] at hw
      rcases Nat.lt_succ_iff_lt_or_eq.1 hw with hlt | rfl
      · exact h.writer.filled w hlt
      · obtain ⟨x, hx, -⟩ := (Option.any_eq_true _ _).1 (h.writer.partialWord hbi)
        rw [hx]; rfl
    · exact fun hc => absurd rfl hc

theorem flush_keepsReady (hcap : cap ≤ lim) (hlim : lim ≤ outCapLimit) :
    KeepsReady ilMax lim (flush cap) :=
  fun _ h => (flushHeld_safe h hcap hlim).map fun _ h' => alignWord_ready h'.1 hlim

end Sys2Proof.StateFamily
end

section
/-! SUPPORT. The procedures of the instruction list, and the scripts of the header sequencers, keep the
encoder ready: no script makes a marker of kind `END` or holds a stop of the model. -/

namespace Sys2Proof.StateFamily

open Sys2Proof.Machine Sys2Proof.Safety

variable {ilMax cap lim : Nat} {e : Encoder}

/-! ## `bw_reset` and `BW_SETEP` (R132, R134) -/

theorem bwResetProc_ready (h : Ready ilMax lim e) : Ready ilMax lim (bwResetProc e) where
  held := by simp [bwResetProc]
  lowZero := by simp [bwResetProc]
  writer :=
    { zeros := by simp [bwResetProc], inside := by simp [pos, bwResetProc]
      counted := by simp [pos, bwResetProc], copied := by simp [bwResetProc]
      outWf := h.writer.outWf, outBelow := h.writer.outBelow, filled := by simp [bwResetProc]
      partialWord := by simp [bwResetProc], list := h.writer.list.rewound }

theorem setEp_ready (h : Ready ilMax lim e) (en : Bool) : Ready ilMax lim (setEp en e) := by
  unfold setEp
  split
  · exact h
  · exact ⟨h.writer.setEpZeros en (z := 0) (by simp), h.held, h.lowZero⟩

/-! ## The instruction list (R172 to R175) -/

theorem checkOpen_safe (e : Encoder) : Safe (fun _ => True) (checkOpen e) := by
  unfold checkOpen; split <;> simp

theorem checkCovered_safe (e : Encoder) : Safe (fun _ => True) (checkCovered e) := by
  unfold checkCovered; split <;> simp

theorem ilAppend_safe (ilMax : Nat) (kind : IlKind) (n : Word) (e : Encoder) :
    Safe (fun e' => e.tmplDone = false ∧ e.ilCount.toNat < ilMax ∧
      e' = { e with il := Memory.write e.il e.ilCount.toNat ⟨kind, n⟩, ilCount := e.ilCount + 1 })
      (ilAppend ilMax kind n e) := by
  have goesOn : Safe (fun _ => True) (ilAppend ilMax kind n e) :=
    (checkOpen_safe e).bind fun _ _ => by split <;> simp
  exact goesOn.and_ok.mono fun _ h => ilAppend_ok h.2

/-- An entry appended, with `bits_copied` and the closing flag as the entry asks. -/
theorem Ready.append (h : Ready ilMax lim e) (hmax : ilMax ≤ 255) (hopen : e.tmplDone = false)
    (hroom : e.ilCount.toNat < ilMax) (x : IlEntry) (hx : x.kind = .endList → x.numBits = 0) {c : Word}
    (hc : c.toNat = e.bitsCopied.toNat + copyLength x) (hle : c.toNat ≤ e.bitsOut.toNat)
    {closed : Bool} (hclosed : (x.kind == .endList) = closed) :
    Ready ilMax lim
      { e with il := Memory.write e.il e.ilCount.toNat x, ilCount := e.ilCount + 1, bitsCopied := c,
               tmplDone := closed } := by
  have next : (e.ilCount + 1).toNat = e.ilCount.toNat + 1 :=
    BitVec.toNat_add_of_lt (by simp; omega)
  have list : ListInv ilMax e.il e.ilCount.toNat e.bitsCopied.toNat false := hopen ▸ h.writer.list
  refine ⟨{ h.writer with copied := hle, list := ?_ }, h.held, h.lowZero⟩
  simp only [next, hc, ← hclosed]
  exact list.append hroom x hx

theorem heMarkProc_keepsReady (hmax : ilMax ≤ 255) {kind : IlKind} (hk : kind ≠ .endList) :
    KeepsReady ilMax lim (heMarkProc ilMax kind) := by
  intro e h
  refine (checkOpen_safe e).bind fun _ _ => (checkCovered_safe e).bind fun _ _ =>
    (ilAppend_safe ilMax kind 0 e).mono ?_
  rintro _ ⟨hopen, hroom, rfl⟩
  exact h.append hmax hopen hroom ⟨kind, 0⟩ (fun _ => rfl) (c := e.bitsCopied)
    (by simp [copyLength]) h.writer.copied (by rw [hopen]; exact beq_eq_false_iff_ne.2 hk)

theorem heEndProc_keepsReady (hmax : ilMax ≤ 255) : KeepsReady ilMax lim (heEndProc ilMax) := by
  intro e h
  refine (checkOpen_safe e).bind fun _ _ => (checkCovered_safe e).bind fun _ _ =>
    (ilAppend_safe ilMax .endList 0 e).map ?_
  rintro _ ⟨hopen, hroom, rfl⟩
  exact h.append hmax hopen hroom ⟨.endList, 0⟩ (fun _ => rfl) (c := e.bitsCopied)
    (by simp [copyLength]) h.writer.copied rfl

/-- The length of a `COPY` is exact, since `bits_copied <= bits_out` (R33; log 14). -/
theorem heCopyProc_keepsReady (hcap : cap ≤ lim) (hlim : lim ≤ outCapLimit) (hmax : ilMax ≤ 255) :
    KeepsReady ilMax lim (heCopyProc cap ilMax) := by
  intro e h
  refine (checkOpen_safe e).bind fun _ _ => (flush_keepsReady hcap hlim e h).bind fun e₁ h₁ =>
    (ilAppend_safe ilMax .copy _ e₁).map ?_
  rintro _ ⟨hopen, hroom, rfl⟩
  have copied := h₁.writer.copied
  have length : e₁.bitsOut.toNat =
      e₁.bitsCopied.toNat + copyLength ⟨.copy, e₁.bitsOut - e₁.bitsCopied⟩ := by
    rw [copyLength, if_pos rfl, BitVec.toNat_sub_of_le copied]; omega
  exact h₁.append hmax hopen hroom ⟨.copy, _⟩ (by simp) length le_rfl (by rw [hopen]; rfl)

/-! ## Scripts -/

/-- A call that a header sequencer may make: a marker is not `END`, and the sequence ends early only by a
`raise` of the pseudocode. -/
def proper : Item → Prop
  | .reset => True
  | .bits _ _ => True
  | .ue _ => True
  | .se _ => True
  | .copy => True
  | .mark kind => kind ≠ .endList
  | .close => True
  | .stop (.raise _ _) => True
  | .stop (.halt _) => False

/-- A script of such calls. -/
def Proper (a : Script) : Prop := ∀ i ∈ a, proper i

theorem runItem_keepsReady (hcap : cap ≤ lim) (hlim : lim ≤ outCapLimit) (hmax : ilMax ≤ 255)
    {i : Item} (hi : proper i) : KeepsReady ilMax lim (runItem cap ilMax i) := by
  match i, hi with
  | .reset, _ => exact fun e h => bwResetProc_ready h
  | .bits v n, _ => exact putBits_keepsReady hcap hlim v n
  | .ue v, _ => exact putUe_keepsReady hcap hlim v
  | .se v, _ => exact putSe_keepsReady hcap hlim v
  | .copy, _ => exact heCopyProc_keepsReady hcap hlim hmax
  | .mark kind, hk => exact heMarkProc_keepsReady hmax hk
  | .close, _ => exact heEndProc_keepsReady hmax
  | .stop (.raise f info), _ => exact fun _ _ => safe_raise f info

theorem runScript_keepsReady (hcap : cap ≤ lim) (hlim : lim ≤ outCapLimit) (hmax : ilMax ≤ 255)
    {a : Script} (ha : Proper a) : KeepsReady ilMax lim (runScript cap ilMax a) := by
  induction a with
  | nil => exact fun e h => h
  | cons i is ih =>
    obtain ⟨hi, his⟩ := List.forall_mem_cons.1 ha
    exact fun e h => (runItem_keepsReady hcap hlim hmax hi e h).bind (ih his)

/-! ### How scripts are built -/

@[simp] theorem proper_nil : Proper [] := by simp [Proper]

@[simp] theorem proper_cons {i : Item} {a : Script} : Proper (i :: a) ↔ proper i ∧ Proper a :=
  List.forall_mem_cons

@[simp] theorem proper_append {a b : Script} : Proper (a ++ b) ↔ Proper a ∧ Proper b :=
  List.forall_mem_append

@[simp] theorem proper_ite {c : Prop} [Decidable c] {a b : Script} :
    Proper (if c then a else b) ↔ (c → Proper a) ∧ (¬c → Proper b) := by
  split <;> simp [*]

/-- A read of a parameter does not stop the model. -/
abbrev Reads (r : Result Word) : Prop := Safe (fun _ => True) r

@[simp] theorem param_reads (sp : Memory SpCell) (i : Nat) : Reads (param sp i) := by
  unfold param; split
  · split <;> simp
  · simp

@[simp] theorem ranged_reads (sp : Memory SpCell) (i lo hi : Nat) : Reads (ranged sp i lo hi) :=
  (param_reads sp i).bind fun _ _ => by split <;> simp

@[simp] theorem flagParam_reads (sp : Memory SpCell) (i : Nat) : Reads (flagParam sp i) :=
  (param_reads sp i).bind fun _ _ => by split <;> simp

@[simp] theorem signedRanged_reads (sp : Memory SpCell) (i : Nat) (lo hi : Int) :
    Reads (signedRanged sp i lo hi) :=
  (param_reads sp i).bind fun _ _ => by split <;> simp

@[simp] theorem required_reads (sp : Memory SpCell) (i v : Nat) : Reads (required sp i v) :=
  (param_reads sp i).bind fun _ _ => by split <;> simp

@[simp] theorem zeroParam_reads (sp : Memory SpCell) (i : Nat) : Reads (zeroParam sp i) :=
  required_reads sp i 0

@[simp] theorem proper_need {r : Result Word} (hr : Reads r) {k : Word → Script} :
    Proper (need r k) ↔ ∀ x, r = .ok x → Proper (k x) := by
  rcases r with (_ | _) | _
  · simp [need, proper]
  · exact absurd hr id
  · simp [need]

@[simp] theorem proper_badParam (i : Nat) : Proper (badParam i) := by simp [badParam, proper]

@[simp] theorem proper_unsupported (i : Nat) : Proper (unsupported i) := by simp [unsupported, proper]

@[simp] theorem proper_emitBits {r : Result Word} (hr : Reads r) (n : Nat) : Proper (emitBits r n) := by
  simp [emitBits, hr, proper]

@[simp] theorem proper_emitUe {r : Result Word} (hr : Reads r) : Proper (emitUe r) := by
  simp [emitUe, hr, proper]

@[simp] theorem proper_emitSe {r : Result Word} (hr : Reads r) : Proper (emitSe r) := by
  simp [emitSe, hr, proper]

@[simp] theorem proper_whenSet {r : Result Word} (hr : Reads r) {a : Script} (ha : Proper a) :
    Proper (whenSet r a) := by
  simp [whenSet, hr, ha]

/-! ### The H.264 sequencer (R193) -/

variable (sp : Memory SpCell)

theorem proper_h264RplmFrom (base k i : Nat) : Proper (h264RplmFrom sp base k i) := by
  induction k generalizing i with
  | zero => simp [h264RplmFrom, proper]
  | succ k ih => simp [h264RplmFrom, proper, ih]

theorem proper_h264MmcoFrom (k i : Nat) : Proper (h264MmcoFrom sp k i) := by
  induction k generalizing i with
  | zero => simp [h264MmcoFrom, proper]
  | succ k ih => simp [h264MmcoFrom, h264MmcoOperands, proper, ih]

@[simp] theorem proper_h264RplmFlag (i base : Nat) : Proper (h264RplmFlag sp i base) := by
  simp [h264RplmFlag, h264Rplm, proper, proper_h264RplmFrom]

@[simp] theorem proper_h264Marking (c : H264Steer) : Proper (h264Marking sp c) := by
  simp [h264Marking, h264Mmco, proper, proper_h264MmcoFrom]

@[simp] theorem proper_h264Poc : Proper (h264Poc sp) := by simp [h264Poc]

@[simp] theorem proper_h264NumRefIdx (c : H264Steer) : Proper (h264NumRefIdx sp c) := by
  simp [h264NumRefIdx, proper]

@[simp] theorem proper_h264Fields (c : H264Steer) : Proper (h264Fields sp c) := by
  simp [h264Fields, h264FrameNum, proper]

@[simp] theorem proper_h264Deblock : Proper (h264Deblock sp) := by simp [h264Deblock, proper]

theorem proper_h264Checks {k : H264Steer → Script} (hk : ∀ c, Proper (k c)) :
    Proper (h264Checks sp k) := by
  simp [h264Checks, h264Weighted, hk]

theorem proper_h264Script : Proper (h264Script sp) :=
  proper_h264Checks sp fun c => by simp [h264Nal, proper]

/-! ### The H.265 sequencer (R223) -/

@[simp] theorem proper_h265RpsPairs (k b : Nat) : Proper (h265RpsPairs sp k b) := by
  induction k generalizing b with
  | zero => simp [h265RpsPairs]
  | succ k ih => simp [h265RpsPairs, ih]

@[simp] theorem proper_h265Entries (npc w k b : Nat) : Proper (h265Entries sp npc w k b) := by
  induction k generalizing b with
  | zero => simp [h265Entries]
  | succ k ih => simp [h265Entries, ih]

@[simp] theorem proper_h265Rplm (st : Word) (l0 l1 npc : Nat) : Proper (h265Rplm sp st l0 l1 npc) := by
  simp [h265Rplm, h265RplmList, proper]

@[simp] theorem proper_h265RefSet (n sf : Word) : Proper (h265RefSet sp n sf) := by
  simp [h265RefSet, h265StRps, proper]

@[simp] theorem proper_h265Address (c : H265Steer) : Proper (h265Address sp c) := by
  simp [h265Address, proper]

@[simp] theorem proper_h265Collocated (st : Word) (l0 l1 : Nat) :
    Proper (h265Collocated sp st l0 l1) := by
  simp [h265Collocated, proper]

@[simp] theorem h265L1_reads (st : Word) : Reads (h265L1 sp st) := by
  unfold h265L1; split <;> simp

@[simp] theorem proper_h265Inter (st tmvp : Word) : Proper (h265Inter sp st tmvp) := by
  simp [h265Inter, proper]

@[simp] theorem proper_h265Chroma : Proper (h265Chroma sp) := by simp [h265Chroma]

@[simp] theorem proper_h265Close (sao dis : Word) : Proper (h265Close sp sao dis) := by
  simp [h265Close, proper]

theorem proper_h265Deblock {k : Word → Script} (hk : ∀ x, Proper (k x)) :
    Proper (h265Deblock sp k) := by
  simp [h265Deblock, proper, hk]

theorem proper_h265Poc (c : H265Steer) {k : Word → Script} (hk : ∀ x, Proper (k x)) :
    Proper (h265Poc sp c k) := by
  simp [h265Poc, h265Tmvp, proper, hk]

theorem proper_h265Checks {k : H265Steer → Script} (hk : ∀ c, Proper (k c)) :
    Proper (h265Checks sp k) := by
  simp [h265Checks, h265Weighted, hk]

theorem proper_h265Rest (c : H265Steer) (tmvp : Word) : Proper (h265Rest sp c tmvp) := by
  have tail : ∀ sao, Proper (h265Deblock sp fun dis => h265Close sp sao dis) := fun sao =>
    proper_h265Deblock sp fun dis => proper_h265Close sp sao dis
  simp [h265Rest, proper, tail]

theorem proper_h265Script : Proper (h265Script sp) := by
  refine proper_h265Checks sp fun c => ?_
  have fields := proper_h265Poc sp c fun tmvp => proper_h265Rest sp c tmvp
  simp [h265Nal, proper, fields]

end Sys2Proof.StateFamily
end

section
/-! SUPPORT. Every operation on a CDF slot keeps the invariant of the slots (45_av1_prng_cdf.md R275). -/

namespace Sys2Proof.StateFamily

open Sys2Proof.Machine Sys2Proof.Safety

/-! ## Regions -/

theorem regionsApart_iff {o₁ n₁ o₂ n₂ : Nat} : regionsApart o₁ n₁ o₂ n₂ = true ↔
    o₁ + n₁ ≤ o₂ ∨ o₂ + n₂ ≤ o₁ ∨ n₁ = 0 ∨ n₂ = 0 := by
  simp [regionsApart, or_assoc]

theorem regionsApart_symm {o₁ n₁ o₂ n₂ : Nat} (h : regionsApart o₁ n₁ o₂ n₂ = true) :
    regionsApart o₂ n₂ o₁ n₁ = true := by
  rw [regionsApart_iff] at h ⊢; omega

theorem inRegion_iff {off len a : Nat} : inRegion off len a = true ↔ off ≤ a ∧ a < off + len := by
  simp [inRegion]

/-- What the constraint on a layout (R8, R270) gives the three regions. -/
structure Regions (l : CdfLayout) : Prop where
  modeMv : regionsApart l.modeOff l.romMode.length l.mvOff l.romMv.length = true
  modeCoef : regionsApart l.modeOff l.romMode.length l.coefOff l.coefLen = true
  mvCoef : regionsApart l.mvOff l.romMv.length l.coefOff l.coefLen = true
  coefLength : ∀ i, (romCoef l i).length = l.coefLen

theorem regions_of_wf {l : CdfLayout} (h : l.wf = true) : Regions l := by
  simp only [CdfLayout.wf, Bool.and_eq_true, beq_iff_eq] at h
  obtain ⟨⟨⟨⟨⟨⟨⟨-, modeMv⟩, modeCoef⟩, mvCoef⟩, len0⟩, len1⟩, len2⟩, len3⟩ := h
  refine ⟨modeMv, modeCoef, mvCoef, fun i => ?_⟩
  fin_cases i
  · exact len0
  · exact len1
  · exact len2
  · exact len3

theorem layout_wf_of_wf {p : Params} (h : p.wf = true) : p.layout.wf = true := by
  simp only [Params.wf, Bool.and_eq_true] at h
  obtain ⟨⟨-, wf0⟩, wf1⟩ := h
  unfold Params.layout
  split
  · exact wf0
  · exact wf1

/-! ## Tables -/

theorem holdsTable_writeRange_same (m : Memory Byte) (off : Nat) (rom : List Byte) :
    holdsTable (Memory.writeRange m off rom) off rom := by
  intro k hk
  rw [Memory.read_writeRange, if_pos (by omega), Nat.add_sub_cancel_left]

theorem holdsTable_writeRange_apart {m : Memory Byte} {off off' : Nat} {rom rom' : List Byte}
    (h : holdsTable m off rom) (hd : regionsApart off rom.length off' rom'.length = true) :
    holdsTable (Memory.writeRange m off' rom') off rom := by
  intro k hk
  rw [regionsApart_iff] at hd
  rw [Memory.read_writeRange, if_neg (by omega), h k hk]

theorem inRegion_of_mem_writeRange {m : Memory Byte} {off : Nat} {rom : List Byte} {x : Nat × Byte}
    (hx : x ∈ Memory.writeRange m off rom) : inRegion off rom.length x.1 = true ∨ x ∈ m :=
  (Memory.mem_writeRange hx).imp_left inRegion_iff.2

/-! ## Slots -/

variable {l : CdfLayout} {c : CdfSlot}

theorem initMode_slotInv (hl : Regions l) (h : SlotInv l c) : SlotInv l (initMode l c) where
  wf := Memory.wf_writeRange h.wf _ _
  mode _ := holdsTable_writeRange_same _ _ _
  mv hok := holdsTable_writeRange_apart (h.mv hok) (regionsApart_symm hl.modeMv)
  coef hok := holdsTable_writeRange_apart (h.coef hok)
    (by rw [hl.coefLength]; exact regionsApart_symm hl.modeCoef)
  only x hx := by
    rcases inRegion_of_mem_writeRange hx with hx | hx
    · simp [initMode, hx]
    · have := h.only x hx
      simp only [Bool.or_eq_true, Bool.and_eq_true] at this ⊢
      simp only [initMode]
      tauto

theorem initMv_slotInv (hl : Regions l) (h : SlotInv l c) : SlotInv l (initMv l c) where
  wf := Memory.wf_writeRange h.wf _ _
  mode hok := holdsTable_writeRange_apart (h.mode hok) hl.modeMv
  mv _ := holdsTable_writeRange_same _ _ _
  coef hok := holdsTable_writeRange_apart (h.coef hok)
    (by rw [hl.coefLength]; exact regionsApart_symm hl.mvCoef)
  only x hx := by
    rcases inRegion_of_mem_writeRange hx with hx | hx
    · simp [initMv, hx]
    · have := h.only x hx
      simp only [Bool.or_eq_true, Bool.and_eq_true] at this ⊢
      simp only [initMv]
      tauto

theorem initCoef_slotInv (hl : Regions l) (i : Fin 4) (h : SlotInv l c) :
    SlotInv l (initCoef l i c) where
  wf := Memory.wf_writeRange h.wf _ _
  mode hok := holdsTable_writeRange_apart (h.mode hok) (by rw [hl.coefLength]; exact hl.modeCoef)
  mv hok := holdsTable_writeRange_apart (h.mv hok) (by rw [hl.coefLength]; exact hl.mvCoef)
  coef _ := by
    have index : (BitVec.ofNat 2 i.val).toFin = i := by ext; simp
    simp only [initCoef, index]
    exact holdsTable_writeRange_same _ _ _
  only x hx := by
    rcases inRegion_of_mem_writeRange hx with hx | hx
    · rw [hl.coefLength] at hx
      simp [initCoef, hx]
    · have := h.only x hx
      simp only [Bool.or_eq_true, Bool.and_eq_true] at this ⊢
      simp only [initCoef]
      tauto

theorem onSlot_cdfInv {cdf : Vector CdfSlot 4} {f : CdfSlot → CdfSlot} (h : CdfInv l cdf) (i : Fin 4)
    (hf : ∀ c, SlotInv l c → SlotInv l (f c)) : CdfInv l (onSlot i f cdf) := by
  intro j
  have hj := h j
  simp only [onSlot, Fin.getElem_fin, Vector.getElem_set] at hj ⊢
  split
  · exact hf _ (h i)
  · exact hj

theorem seedSlot_cdfInv {cdf : Vector CdfSlot 4} (hl : Regions l) (h : CdfInv l cdf) (i : Fin 4) :
    CdfInv l (seedSlot l i cdf) :=
  onSlot_cdfInv (onSlot_cdfInv (onSlot_cdfInv h i fun _ => initMode_slotInv hl) i
    fun _ => initMv_slotInv hl) i fun _ => initCoef_slotInv hl i

theorem seedAll_cdfInv {cdf : Vector CdfSlot 4} (hl : Regions l) (h : CdfInv l cdf) :
    CdfInv l (seedAll l cdf) :=
  seedSlot_cdfInv hl (seedSlot_cdfInv hl (seedSlot_cdfInv hl (seedSlot_cdfInv hl h 0) 1) 2) 3

end Sys2Proof.StateFamily
end

section
/-! SUPPORT. Every operation of unit DPB keeps the invariant of the mapper (46_dpb_mapper.md R298), and
none of them stops the model. -/

namespace Sys2Proof.StateFamily

open Sys2Proof.Machine Sys2Proof.Safety

variable {p : Params} {d : Dpb}

@[simp] theorem isUsed_zero (i : Nat) : isUsed 0 i = false := by simp [isUsed]

theorem isUsed_markUsed (used : Word) {slot i : Nat} (hi : i < 32) :
    isUsed (markUsed used slot) i = (isUsed used i || decide (i = slot)) := by
  simp [isUsed, markUsed, hi, eq_comm]

theorem dpbNewSession_dpbInv (hp : p.dpbSlots ≤ 32) (codec : Codec) {refs : Nat}
    (hr : refs < p.dpbSlots) : DpbInv p (dpbNewSession p codec refs) where
  slots := by
    have small : (BitVec.ofNat 5 refs).toNat = refs := Nat.mod_eq_of_lt (by omega)
    simpa [dpbNewSession, small] using hr
  mode _ := rfl
  quiet _ := ⟨rfl, rfl, rfl⟩
  phases := by simp [dpbNewSession]
  table := by simp [dpbNewSession]
  tableWf := Memory.wf_nil
  tableBelow := by simp [dpbNewSession]
  used _ _ _ := isUsed_zero _

theorem fillTable_read (n : Nat) (cur : Addr) (t : Memory Addr) {i : Nat} (hi : i < n) :
    Memory.read (fillTable n cur t) i = some cur := by
  rw [fillTable, Memory.read_writeRange, if_pos (by simp; omega)]
  simp [hi]

theorem dpbOpenCall_dpbInv (h : DpbInv p d) (hm : d.mode = .dynamicT2) {cur : Addr} (hc : cur ≠ 0) :
    DpbInv p (dpbOpenCall cur d) where
  slots := h.slots
  mode := h.mode
  quiet hq := absurd hm hq
  phases := by simp [dpbOpenCall]
  table _ := ⟨hc, fun i hi => by
    have filled := fillTable_read (d.m.toNat + 1) cur d.table hi
    simpa [dpbOpenCall, filled] using hc⟩
  tableWf := Memory.wf_writeRange h.tableWf _ _
  tableBelow := Memory.below_writeRange h.tableBelow (by simp [dpbOpenCall])
  used _ _ _ := isUsed_zero _

theorem markRef_dpbInv (h : DpbInv p d) (hm : d.mode = .dynamicT2) (ho : d.isOpen = true) {slot : Nat}
    (hs : slot ≤ d.m.toNat) {addr : Addr} (ha : addr ≠ 0) :
    DpbInv p { d with table := Memory.write d.table slot addr, used := markUsed d.used slot } where
  slots := h.slots
  mode := h.mode
  quiet hq := absurd hm hq
  phases := h.phases
  table _ := by
    obtain ⟨hcur, hentries⟩ := h.table (.inl ho)
    refine ⟨hcur, fun i hi => ?_⟩
    have hi32 : i < 32 := Nat.lt_of_lt_of_le hi d.m.isLt
    simp only [Memory.read_write, isUsed_markUsed _ hi32]
    split
    · rename_i he; simpa [he] using ha
    · obtain ⟨x, hx, hp⟩ := (Option.any_eq_true _ _).1 (hentries i hi)
      rw [hx]
      simp_all
  tableWf := Memory.wf_write h.tableWf _ _
  tableBelow := Memory.below_write h.tableBelow (Nat.lt_succ_of_le hs) _
  used i hi hlt := by
    have other : i ≠ slot := Nat.ne_of_gt (Nat.lt_of_le_of_lt hs hlt)
    rw [isUsed_markUsed _ hi, h.used i hi hlt, decide_eq_false other, Bool.or_self]

theorem dpbCommitted_dpbInv (h : DpbInv p d) (hm : d.mode = .dynamicT2) (ho : d.isOpen = true) :
    DpbInv p { d with isOpen := false, valid := true } where
  slots := h.slots
  mode := h.mode
  quiet hq := absurd hm hq
  phases := by simp
  table _ := h.table (.inl ho)
  tableWf := h.tableWf
  tableBelow := h.tableBelow
  used := h.used

/-! ## The procedures -/

theorem dpbDynamic_safe (d : Dpb) : Safe (fun _ => True) (dpbDynamic d) := by
  unfold dpbDynamic; split <;> simp

theorem dpbWantOpen_safe (want : Bool) (d : Dpb) : Safe (fun _ => True) (dpbWantOpen want d) := by
  unfold dpbWantOpen; split <;> simp

theorem dpbSlotCheck_safe (slot : Byte) (d : Dpb) :
    Safe (fun _ => slot.toNat ≤ d.m.toNat) (dpbSlotCheck slot d) := by
  unfold dpbSlotCheck; split
  · simp
  · rename_i hs; exact Nat.le_of_not_lt hs

theorem dpbBeginProc_safe (h : DpbInv p d) (cur : Addr) : Safe (DpbInv p) (dpbBeginProc cur d) := by
  have goesOn : Safe (fun _ => True) (dpbBeginProc cur d) :=
    (dpbDynamic_safe d).bind fun _ _ => (dpbWantOpen_safe false d).bind fun _ _ => by split <;> simp
  refine goesOn.and_ok.mono fun d' h' => ?_
  obtain ⟨hm, -, hc, rfl⟩ := dpbBeginProc_ok h'.2
  exact dpbOpenCall_dpbInv h hm hc

theorem dpbRefProc_safe (h : DpbInv p d) (slot : Byte) (addr : Addr) :
    Safe (DpbInv p) (dpbRefProc slot addr d) := by
  have goesOn : Safe (fun _ => True) (dpbRefProc slot addr d) :=
    (dpbDynamic_safe d).bind fun _ _ => (dpbWantOpen_safe true d).bind fun _ _ =>
      (dpbSlotCheck_safe slot d).bind fun _ _ => by split <;> simp
  refine goesOn.and_ok.mono fun d' h' => ?_
  obtain ⟨hm, ho, hs, ha, rfl⟩ := dpbRefProc_ok h'.2
  exact markRef_dpbInv h hm ho hs ha

theorem dpbCommitProc_safe (h : DpbInv p d) : Safe (DpbInv p) (dpbCommitProc d) := by
  have goesOn : Safe (fun _ => True) (dpbCommitProc d) :=
    (dpbDynamic_safe d).bind fun _ _ => (dpbWantOpen_safe true d).bind fun _ _ => by simp
  refine goesOn.and_ok.mono fun d' h' => ?_
  obtain ⟨hm, ho, rfl⟩ := dpbCommitProc_ok h'.2
  exact dpbCommitted_dpbInv h hm ho

/-- A committed table has a value in every slot up to `dpb_m`, so a lookup does not stop the model. -/
theorem dpbLookupProc_safe (h : DpbInv p d) (slot : Byte) :
    Safe (fun _ => True) (dpbLookupProc slot d) := by
  unfold dpbLookupProc
  split
  · simp
  · exact (dpbSlotCheck_safe slot d).bind fun _ _ => by simp
  · split
    · simp
    · rename_i hv
      refine (dpbSlotCheck_safe slot d).bind fun _ hs => ?_
      obtain ⟨x, hx, -⟩ := (Option.any_eq_true _ _).1
        ((h.table (.inr (by simpa using hv))).2 slot.toNat (Nat.lt_succ_of_le hs))
      rw [hx]
      split <;> simp

end Sys2Proof.StateFamily
end

section
/-! SUPPORT. What a command does, said once for all 26: it ends by `finish` with the effect of one unit on
the state, and that effect keeps the unit's invariant. The claims about steps follow from this. -/

namespace Sys2Proof.StateFamily

open Sys2Proof.Machine Sys2Proof.Safety

/-! ## Ranges of the arguments of a run (R8) -/

theorem ilMax_le_of_wf {p : Params} (h : p.wf = true) : p.ilMax ≤ 255 := by
  simp only [Params.wf, Bool.and_eq_true, decide_eq_true_eq] at h
  obtain ⟨⟨⟨⟨⟨hmax, -⟩, -⟩, -⟩, -⟩, -⟩ := h
  exact hmax

theorem dpbSlots_le_of_wf {p : Params} (h : p.wf = true) : p.dpbSlots ≤ 32 := by
  simp only [Params.wf, Bool.and_eq_true, decide_eq_true_eq] at h
  obtain ⟨⟨⟨⟨-, hslots⟩, -⟩, -⟩, -⟩ := h
  exact hslots

theorem one_le_dpbSlots_of_wf {p : Params} (h : p.wf = true) : 1 ≤ p.dpbSlots := by
  simp only [Params.wf, Bool.and_eq_true, decide_eq_true_eq] at h
  obtain ⟨⟨⟨⟨⟨-, hslots⟩, -⟩, -⟩, -⟩, -⟩ := h
  exact hslots

theorem runArgsWf_iff {cmd : List Word} {cap : Nat} : runArgsWf cmd cap = true ↔
    cmd.length ≤ cmdLenLimit ∧ 1 ≤ cap ∧ cap ≤ outCapLimit := by
  simp [runArgsWf, and_assoc]

/-! ## Effects -/

/-- The procedure keeps the encoder of `s` ready, for every bound of the position from the capacity of OUT
on. -/
abbrev KeepsEncoder (s : State) (f : Encoder → Result Encoder) : Prop :=
  s.params.ilMax ≤ 255 → ∀ lim, s.outCapWords ≤ lim → lim ≤ outCapLimit →
    KeepsReady s.params.ilMax lim f

/-- The effects a command can have on `s`: one per unit, a change of `run` for `END`, or a refusal. -/
inductive Effect (s : State) : Result State → Prop where
  | endRun : Effect s (.ok (setRun .done s))
  | refuse (f : BswFault) (info : Word) : Effect s (.error (.raise f info))
  | encode {f : Encoder → Result Encoder} (hf : KeepsEncoder s f) :
      Effect s ((f s.enc).map fun e => setEnc e s)
  | store {m : Memory SpCell} (hm : SpInv s.sp → SpInv m) : Effect s (.ok (setSp m s))
  | seed (v : Half) : Effect s (.ok (seedLfsr v s))
  | random (v : Half) (x : BitVec 64) : Effect s (.ok (setRes x (setLfsr v s)))
  | slots {c : Vector CdfSlot 4}
      (hc : Regions s.params.layout → CdfInv s.params.layout s.cdf → CdfInv s.params.layout c) :
      Effect s (.ok (setCdf c s))
  | mapper {r : Result Dpb}
      (hr : s.params.dpbSlots ≤ 32 → DpbInv s.params s.dpb → Safe (DpbInv s.params) r) :
      Effect s (r.map fun d => setDpb d s)
  | lookup {r : Result (BitVec 64)} (hr : DpbInv s.params s.dpb → Safe (fun _ => True) r) :
      Effect s (r.map fun v => setRes v s)

/-- An outcome of a command of `len` words that has one of these effects. -/
def HasEffect (len : Nat) (s : State) (o : Host.Outcome State Fault Refusal) : Prop :=
  ∃ r, o = finish len s r ∧ Effect s r

variable {s t u : State} {len : Nat}

theorem hasEffect_raise (f : BswFault) (info : Word) : HasEffect len s (raise f info s) :=
  ⟨.error (.raise f info), rfl, .refuse f info⟩

theorem hasEffect_badField (i : Instr) : HasEffect len s (badField i s) := hasEffect_raise _ _

theorem hasEffect_onEncoder {f : Encoder → Result Encoder} (hf : KeepsEncoder s f) :
    HasEffect len s (onEncoder len f s) :=
  ⟨(f s.enc).map fun e => setEnc e s, rfl, .encode hf⟩

/-- A procedure of the encoder that always completes. -/
theorem hasEffect_complete {f : Encoder → Encoder}
    (hf : ∀ {ilMax lim e}, Ready ilMax lim e → Ready ilMax lim (f e)) :
    HasEffect len s (complete len (setEnc (f s.enc) s)) :=
  hasEffect_onEncoder (f := fun e => .ok (f e)) fun _ _ _ _ _ h => hf h

theorem hasEffect_slots {f : Vector CdfSlot 4 → Vector CdfSlot 4}
    (hf : Regions s.params.layout → CdfInv s.params.layout s.cdf → CdfInv s.params.layout (f s.cdf)) :
    HasEffect len s (complete len (setCdf (f s.cdf) s)) :=
  ⟨.ok (setCdf (f s.cdf) s), rfl, .slots hf⟩

theorem markKind_ne_endList {kind : Byte} {k : IlKind} (h : markKind kind = some k) : k ≠ .endList := by
  rintro rfl
  unfold markKind at h
  split_ifs at h <;> cases h

/-- Every command, with its length, has one of the effects. -/
theorem exec_hasEffect (i : Instr) (s : State) : HasEffect (instrLength i) s (exec i s) := by
  cases i with
  | endRun => exact ⟨.ok (setRun .done s), rfl, .endRun⟩
  | bwReset => exact hasEffect_complete (f := bwResetProc) bwResetProc_ready
  | bwSetep en =>
    show HasEffect 1 s (execBwSetep en s)
    unfold execBwSetep
    split
    · exact hasEffect_badField _
    · exact hasEffect_complete (f := setEp (en == 1)) fun h => setEp_ready h _
  | bwPut n value =>
    show HasEffect 2 s (execBwPut n value s)
    unfold execBwPut
    split
    · exact hasEffect_badField _
    · exact hasEffect_onEncoder fun _ _ hcap hlim => putBits_keepsReady hcap hlim _ _
  | bwUe v => exact hasEffect_onEncoder fun _ _ hcap hlim => putUe_keepsReady hcap hlim v
  | bwSe v => exact hasEffect_onEncoder fun _ _ hcap hlim => putSe_keepsReady hcap hlim v
  | bwAlign => exact hasEffect_onEncoder fun _ _ hcap hlim => byteAlign_keepsReady hcap hlim
  | bwFlush => exact hasEffect_onEncoder fun _ _ hcap hlim => flush_keepsReady hcap hlim
  | heCopy => exact hasEffect_onEncoder fun hmax _ hcap hlim => heCopyProc_keepsReady hcap hlim hmax
  | heMark kind =>
    show HasEffect 1 s (execHeMark kind s)
    unfold execHeMark
    split
    · exact hasEffect_badField _
    · rename_i k hk
      exact hasEffect_onEncoder fun hmax _ _ _ => heMarkProc_keepsReady hmax (markKind_ne_endList hk)
  | heEnd => exact hasEffect_onEncoder fun hmax _ _ _ => heEndProc_keepsReady hmax
  | heSetp idx value =>
    show HasEffect 2 s (execHeSetp idx value s)
    unfold execHeSetp
    split
    · exact hasEffect_raise _ _
    · exact ⟨.ok _, rfl, .store fun h =>
        ⟨Memory.wf_write h.wf _ _, Memory.below_write h.below (by simp only [spWords]; omega) _⟩⟩
  | heClrp =>
    exact ⟨.ok (setSp (clearWritten s.sp) s), rfl, .store fun h =>
      ⟨wf_clearWritten h.wf, below_clearWritten h.below⟩⟩
  | heH264Slice =>
    exact hasEffect_onEncoder fun hmax _ hcap hlim =>
      runScript_keepsReady hcap hlim hmax (proper_h264Script s.sp)
  | heH265Slice =>
    exact hasEffect_onEncoder fun hmax _ hcap hlim =>
      runScript_keepsReady hcap hlim hmax (proper_h265Script s.sp)
  | fgSeed plane seed =>
    show HasEffect 1 s (execFgSeed plane seed s)
    unfold execFgSeed
    split
    · exact hasEffect_badField _
    · exact ⟨.ok _, rfl, .seed _⟩
  | fgRand bits =>
    show HasEffect 1 s (execFgRand bits s)
    unfold execFgRand
    split
    · exact hasEffect_badField _
    · split
      · exact ⟨.ok _, rfl, .random _ _⟩
      · exact hasEffect_raise _ _
  | cdfInitMode slot =>
    show HasEffect 1 s (execCdfInitMode slot s)
    unfold execCdfInitMode
    split
    · exact hasEffect_badField _
    · exact hasEffect_slots fun hl h => onSlot_cdfInv h _ fun _ => initMode_slotInv hl
  | cdfInitMv slot =>
    show HasEffect 1 s (execCdfInitMv slot s)
    unfold execCdfInitMv
    split
    · exact hasEffect_badField _
    · exact hasEffect_slots fun hl h => onSlot_cdfInv h _ fun _ => initMv_slotInv hl
  | cdfInitCoef slot index =>
    show HasEffect 1 s (execCdfInitCoef slot index s)
    unfold execCdfInitCoef
    split
    · exact hasEffect_slots fun hl h => onSlot_cdfInv h _ fun _ => initCoef_slotInv hl _
    · exact hasEffect_badField _
  | cdfSeedAll => exact hasEffect_slots fun hl h => seedAll_cdfInv hl h
  | dpbSession codec maxRefs =>
    show HasEffect 1 s (execDpbSession codec maxRefs s)
    unfold execDpbSession
    split
    · exact hasEffect_badField _
    · split
      · exact hasEffect_badField _
      · rename_i hr
        exact ⟨_, rfl, .mapper (r := .ok _) fun hp _ =>
          dpbNewSession_dpbInv hp _ (Nat.lt_of_not_le hr)⟩
  | dpbBegin cur => exact ⟨_, rfl, .mapper fun _ h => dpbBeginProc_safe h cur⟩
  | dpbRef slot addr => exact ⟨_, rfl, .mapper fun _ h => dpbRefProc_safe h slot addr⟩
  | dpbCommit => exact ⟨_, rfl, .mapper fun _ h => dpbCommitProc_safe h⟩
  | dpbLookup slot => exact ⟨_, rfl, .lookup fun h => dpbLookupProc_safe h slot⟩

/-! ## What every effect keeps -/

/-- The parts of the state that no command writes before it ends: the command pointer, the fault record
and the arguments of the run; `run` may become `DONE`. -/
structure SameRun (s u : State) : Prop where
  run : u.run = s.run ∨ u.run = .done
  cp : u.cp = s.cp
  code : u.faultCode = s.faultCode
  faultCp : u.faultCp = s.faultCp
  info : u.faultInfo = s.faultInfo
  cmd : u.cmd = s.cmd
  cap : u.outCapWords = s.outCapWords
  params : u.params = s.params

theorem Effect.sameRun {r : Result State} (h : Effect s r) (hr : r = .ok u) : SameRun s u := by
  cases h with
  | endRun => cases hr; exact ⟨.inr rfl, rfl, rfl, rfl, rfl, rfl, rfl, rfl⟩
  | refuse => cases hr
  | encode | mapper | lookup =>
    obtain ⟨_, -, rfl⟩ := result_map_ok.1 hr
    exact ⟨.inl rfl, rfl, rfl, rfl, rfl, rfl, rfl, rfl⟩
  | store | seed | random | slots =>
    cases hr; exact ⟨.inl rfl, rfl, rfl, rfl, rfl, rfl, rfl, rfl⟩

theorem Effect.ready {r : Result State} {lim : Nat} (h : Effect s r) (hr : r = .ok u)
    (hmax : s.params.ilMax ≤ 255) (hcap : s.outCapWords ≤ lim) (hlim : lim ≤ outCapLimit)
    (hs : Ready s.params.ilMax lim s.enc) : Ready s.params.ilMax lim u.enc := by
  cases h with
  | encode hf =>
    obtain ⟨e, he, rfl⟩ := result_map_ok.1 hr
    exact (safe_iff.1 (hf hmax lim hcap hlim s.enc hs)).1 e he
  | refuse => cases hr
  | mapper | lookup =>
    obtain ⟨_, -, rfl⟩ := result_map_ok.1 hr
    exact hs
  | endRun | store | seed | random | slots => cases hr; exact hs

/-- The invariant without its part about the sequencer. -/
structure Units (s : State) : Prop where
  enc : EncInv s.params.ilMax s.enc
  sp : SpInv s.sp
  cdf : CdfInv s.params.layout s.cdf
  dpb : DpbInv s.params s.dpb

theorem Effect.units {r : Result State} (h : Effect s r) (hp : s.params.wf = true)
    (hcap : s.outCapWords ≤ outCapLimit) (hs : Units s) : Safe Units r := by
  cases h with
  | endRun => exact ⟨hs.enc, hs.sp, hs.cdf, hs.dpb⟩
  | refuse f info => exact safe_raise f info
  | encode hf =>
    exact (hf (ilMax_le_of_wf hp) outCapLimit hcap le_rfl s.enc
      (ready_of_encInv hs.enc hs.enc.inside)).map
        fun e he => ⟨encInv_of_ready he le_rfl, hs.sp, hs.cdf, hs.dpb⟩
  | store hm => exact ⟨hs.enc, hm hs.sp, hs.cdf, hs.dpb⟩
  | seed => exact ⟨hs.enc, hs.sp, hs.cdf, hs.dpb⟩
  | random => exact ⟨hs.enc, hs.sp, hs.cdf, hs.dpb⟩
  | slots hc => exact ⟨hs.enc, hs.sp, hc (regions_of_wf (layout_wf_of_wf hp)) hs.cdf, hs.dpb⟩
  | mapper hr =>
    exact (hr (dpbSlots_le_of_wf hp) hs.dpb).map fun d hd => ⟨hs.enc, hs.sp, hs.cdf, hd⟩
  | lookup hr => exact (hr hs.dpb).map fun v _ => ⟨hs.enc, hs.sp, hs.cdf, hs.dpb⟩

/-! ## How a command ends -/

/-- A command that answers a next state has completed, with the arguments of the run as before and the
command pointer past it, or has entered a fault. -/
theorem exec_next {i : Instr} (h : exec i s = .next t) :
    (∃ u, t = advance (instrLength i) u ∧ Effect s (.ok u)) ∨ ∃ f info, t = takeFault f info s := by
  obtain ⟨r, hr, he⟩ := exec_hasEffect i s
  rcases finish_next (hr ▸ h) with ⟨u, rfl, ht⟩ | ⟨f, info, -, ht⟩
  · exact .inl ⟨u, ht, he⟩
  · exact .inr ⟨f, info, ht⟩

theorem fetchFault_eq (x : DecodeError) (s : State) :
    ∃ f info, fetchFault x s = .next (takeFault f info s) := by
  cases x
  · exact ⟨_, _, rfl⟩
  · exact ⟨_, _, rfl⟩
  · exact ⟨_, _, rfl⟩

/-! ## The sequencer -/

theorem seqInv_takeFault (h : SeqInv s) (f : BswFault) (info : Word) : SeqInv (takeFault f info s) where
  args := h.args
  params := h.params
  inside hr := by cases hr
  faulted _ := ⟨rfl, f, rfl⟩
  clean hr := absurd rfl hr

theorem seqInv_advance (h : SeqInv s) (hrun : s.run = .running) (hu : SameRun s u)
    (hlen : s.cp.toNat + len ≤ s.cmd.length) : SeqInv (advance len u) where
  args := by simpa [hu.cmd, hu.cap] using h.args
  params := by simpa [hu.params] using h.params
  inside _ := by
    have bound : s.cmd.length ≤ 2 ^ 32 - 1 := (runArgsWf_iff.1 h.args).1
    have small : (BitVec.ofNat 32 len).toNat = len := Nat.mod_eq_of_lt (by omega)
    rw [advance_cp, advance_cmd, hu.cp, hu.cmd, BitVec.toNat_add_of_lt (by rw [small]; omega), small]
    exact hlen
  faulted hr := by
    rw [advance_run] at hr
    rcases hu.run with h' | h' <;> rw [h'] at hr
    · rw [hrun] at hr; cases hr
    · cases hr
  clean _ := by
    have clean := h.clean (by simp [hrun])
    simpa [hu.code, hu.faultCp, hu.info] using clean

end Sys2Proof.StateFamily
end

section
/-! SUPPORT. Steps keep the invariant of the machine. -/

namespace Sys2Proof.StateFamily

open Sys2Proof.Machine Sys2Proof.Safety

/-! ## A decoded command lies inside the stream (R92, R98) -/

theorem instrLength_build : ∀ r ∈ opTable, ∀ w x y, instrLength (r.build w x y) = 1 + r.nops := by
  simp [opTable, instrLength, operandWords]

theorem instrLength_le_of_decode {ws : List Word} {i : Instr} (h : decode ws = .ok i) :
    instrLength i ≤ ws.length := by
  cases ws with
  | nil => cases h
  | cons w ops =>
    simp only [decode] at h
    split at h
    · cases h
    · rename_i r hr
      split at h
      · cases h
      · split at h
        · cases h
        · rename_i hops
          cases h
          rw [instrLength_build r (List.mem_of_find?_eq_some hr), List.length_cons]
          omega

variable {s t : State}

theorem cp_add_length_le (hcp : s.cp.toNat ≤ s.cmd.length) {i : Instr} (h : fetch s = .ok i) :
    s.cp.toNat + instrLength i ≤ s.cmd.length := by
  have inside := instrLength_le_of_decode h
  simp only [stream, List.length_drop] at inside
  have : 1 ≤ instrLength i := Nat.le_add_right 1 _
  omega

/-! ## The invariant -/

theorem inv_takeFault (h : Inv s) (f : BswFault) (info : Word) : Inv (takeFault f info s) :=
  ⟨seqInv_takeFault h.seq f info, h.enc, h.sp, h.cdf, h.dpb⟩

/-- A command that lies inside the stream answers a next state, which meets the invariant. -/
theorem exec_keepsInv (h : Inv s) (hrun : s.run = .running) {i : Instr}
    (hlen : s.cp.toNat + instrLength i ≤ s.cmd.length) : ∃ t, exec i s = .next t ∧ Inv t := by
  obtain ⟨r, hr, he⟩ := exec_hasEffect i s
  have units := he.units h.seq.params (runArgsWf_iff.1 h.seq.args).2.2 ⟨h.enc, h.sp, h.cdf, h.dpb⟩
  rw [hr]
  match r, he, units with
  | .ok u, he, hu =>
    exact ⟨_, rfl, seqInv_advance h.seq hrun (he.sameRun rfl) hlen, hu.enc, hu.sp, hu.cdf, hu.dpb⟩
  | .error (.raise f info), _, _ => exact ⟨_, rfl, inv_takeFault h f info⟩

/-- Settles O19: a fetch that fails enters a fault, and a command that decodes lies inside the stream. -/
theorem stepKeepsInvariant : Obligations.StepKeepsInvariant := by
  intro s h
  by_cases hrun : s.run = .running
  · cases hf : fetch s with
    | ok i =>
      rw [step_running_ok hrun hf]
      exact exec_keepsInv h hrun (cp_add_length_le (h.seq.inside hrun) hf)
    | error x =>
      obtain ⟨f, info, hx⟩ := fetchFault_eq x s
      exact ⟨_, (step_running_error hrun hf).trans hx, inv_takeFault h f info⟩
  · exact ⟨s, step_stopped hrun, h⟩

/-- A command keeps the encoder ready for every bound of the position from the capacity on. -/
theorem exec_ready {i : Instr} {lim : Nat} (h : exec i s = .next t) (hmax : s.params.ilMax ≤ 255)
    (hcap : s.outCapWords ≤ lim) (hlim : lim ≤ outCapLimit) (hs : Ready s.params.ilMax lim s.enc) :
    Ready s.params.ilMax lim t.enc := by
  rcases exec_next h with ⟨u, rfl, he⟩ | ⟨f, info, rfl⟩
  · exact he.ready (u := u) rfl hmax hcap hlim hs
  · exact hs

/-- The arguments of a run are as before after a command (R45). -/
theorem exec_args {i : Instr} (h : exec i s = .next t) :
    t.cmd = s.cmd ∧ t.outCapWords = s.outCapWords ∧ t.params = s.params := by
  rcases exec_next h with ⟨u, rfl, he⟩ | ⟨f, info, rfl⟩
  · have same := he.sameRun rfl
    exact ⟨same.cmd, same.cap, same.params⟩
  · exact ⟨rfl, rfl, rfl⟩

/-- Settles O21: the invariant with the greatest capacity as the bound of the position, then the bound
itself with the machine's own capacity. -/
theorem encoderInvariantKept : Obligations.EncoderInvariantKept := by
  intro i s t h hcap hmax hx
  constructor
  · exact encInv_of_ready (exec_ready hx hmax hcap le_rfl (ready_of_encInv h h.inside)) le_rfl
  · intro hp
    rw [(exec_args hx).2.1]
    exact (exec_ready hx hmax le_rfl hcap (ready_of_encInv h hp)).writer.inside

/-- Settles O11: a command leaves the arguments of the run, and so does fault entry. -/
theorem runArgumentsKept : Obligations.RunArgumentsKept := by
  intro s t h
  by_cases hrun : s.run = .running
  · cases hf : fetch s with
    | ok i => exact exec_args ((step_running_ok hrun hf).symm.trans h)
    | error x =>
      obtain ⟨f, info, hx⟩ := fetchFault_eq x s
      cases hx.symm.trans ((step_running_error hrun hf).symm.trans h)
      exact ⟨rfl, rfl, rfl⟩
  · cases (step_stopped hrun).symm.trans h
    exact ⟨rfl, rfl, rfl⟩

/-- Settles O10. -/
theorem onlyRunningExecutes : Obligations.OnlyRunningExecutes := fun _ => step_stopped

end Sys2Proof.StateFamily
end

section
/-! SUPPORT. The reset state (10_state.md R46). -/

namespace Sys2Proof.StateFamily

open Sys2Proof.Machine Sys2Proof.Safety

/-! ## The invariant at reset -/

theorem encoderReset_encInv (ilMax : Nat) : EncInv ilMax Encoder.reset where
  held := by simp [Encoder.reset]
  lowZero := by simp [Encoder.reset]
  zeros := by simp [Encoder.reset]
  inside := by simp [pos, Encoder.reset]
  counted := by simp [Encoder.reset]
  copied := by simp [Encoder.reset]
  outWf := Memory.wf_nil
  outBelow := by simp [Encoder.reset]
  filled := by simp [Encoder.reset]
  partialWord := by simp [Encoder.reset]
  ilWf := Memory.wf_nil
  ilBelow := by simp [Encoder.reset]
  ilCountLe := by simp [Encoder.reset]
  entries := by simp [Encoder.reset]
  closed := by simp [Encoder.reset]
  ends := by simp [Encoder.reset]
  copies := by simp [copyBits, Encoder.reset]

theorem slotReset_slotInv (l : CdfLayout) : SlotInv l CdfSlot.reset where
  wf := Memory.wf_nil
  mode := by simp [CdfSlot.reset]
  mv := by simp [CdfSlot.reset]
  coef := by simp [CdfSlot.reset]
  only := by simp [CdfSlot.reset]

theorem dpbReset_dpbInv {p : Params} (hp : 1 ≤ p.dpbSlots) : DpbInv p Dpb.reset where
  slots := hp
  mode h := absurd rfl h
  quiet _ := ⟨rfl, rfl, rfl⟩
  phases := by simp [Dpb.reset]
  table := by simp [Dpb.reset]
  tableWf := Memory.wf_nil
  tableBelow := by simp [Dpb.reset]
  used _ _ _ := isUsed_zero _

/-- The reset values meet the invariant for all arguments of a run in the ranges of R8. -/
theorem inv_resetWith {cmd : List Word} {cap : Nat} {p : Params} (hargs : runArgsWf cmd cap = true)
    (hp : p.wf = true) : Inv (State.resetWith cmd cap p) where
  seq :=
    { args := hargs, params := hp, inside := by simp [State.resetWith]
      faulted := by simp [State.resetWith], clean := by simp [State.resetWith] }
  enc := encoderReset_encInv _
  sp := ⟨Memory.wf_nil, by simp [State.resetWith]⟩
  cdf i := by
    simp only [State.resetWith, Fin.getElem_fin, Vector.getElem_replicate]
    exact slotReset_slotInv _
  dpb := dpbReset_dpbInv (one_le_dpbSlots_of_wf hp)

theorem configLayout_wf (l : BitVec 1) : (Config.layout l).wf = true := by
  unfold Config.layout
  split
  · assumption
  · rfl

theorem configParams_wf : Config.params.wf = true := by
  have gen : Config.dynT2MinGen.val ≤ 256 := by omega
  simp [Params.wf, Config.params, configLayout_wf, gen]

theorem configArgs_wf : runArgsWf [] Config.outCapWords = true :=
  runArgsWf_iff.2 ⟨Nat.zero_le _, Nat.le_add_left 1 _, Config.outCapLess1.isLt⟩

/-- Settles O15. -/
theorem resetInvariant : Obligations.ResetInvariant := inv_resetWith configArgs_wf configParams_wf

/-! ## The reset values -/

/-- `State.reset` and the result of `hw_reset` hold the reset values under some arguments of a run. -/
theorem eq_resetWith {s t : State} (h : t = State.reset ∨ hostMove .hwReset s = some t) :
    ∃ cmd cap p, t = State.resetWith cmd cap p := by
  rcases h with rfl | h
  · exact ⟨_, _, _, rfl⟩
  · exact ⟨_, _, _, (Option.some.inj h).symm⟩

/-- Settles O14: both states of the statement hold the values of `State.resetWith`. -/
theorem resetValues : Obligations.ResetValues := by
  intro s t h
  obtain ⟨cmd, cap, p, rfl⟩ := eq_resetWith h
  have slots : ∀ k : Fin 4, (State.resetWith cmd cap p).cdf[k] = CdfSlot.reset := by
    simp [State.resetWith]
  simp only [slots]
  simp [State.resetWith, Encoder.reset, CdfSlot.reset, Dpb.reset, unwritten, spWritten]

end Sys2Proof.StateFamily
end

section
/-! SUPPORT. The fields of CSR words, and what the host reads (10_state.md R42, R43; 20_memory.md R77). -/

namespace Sys2Proof.StateFamily

open Sys2Proof.Machine Sys2Proof.Safety

/-! ## Fields of a word -/

theorem fieldAt_toNat {w : Nat} (v : BitVec w) {pos : Nat} (h : w + pos ≤ 32) :
    (fieldAt v pos).toNat = 2 ^ pos * v.toNat := by
  have bound : 2 ^ pos * v.toNat < 2 ^ 32 := calc
    2 ^ pos * v.toNat < 2 ^ pos * 2 ^ w := Nat.mul_lt_mul_of_pos_left v.isLt (Nat.two_pow_pos pos)
    _ = 2 ^ (w + pos) := by rw [← Nat.pow_add, Nat.add_comm]
    _ ≤ 2 ^ 32 := Nat.pow_le_pow_right (by omega) h
  rw [fieldAt, BitVec.toNat_shiftLeft, BitVec.toNat_setWidth_of_le (by omega), Nat.shiftLeft_eq,
    Nat.mul_comm, Nat.mod_eq_of_lt bound]

theorem flagAt_toNat (b : Bool) {pos : Nat} (h : pos < 32) :
    (flagAt b pos).toNat = 2 ^ pos * b.toNat := by
  cases b
  · simp [flagAt]
  · have bound : 2 ^ pos < 2 ^ 32 := Nat.pow_lt_pow_right (by omega) h
    rw [flagAt, if_pos rfl, BitVec.toNat_twoPow, Nat.mod_eq_of_lt bound, Bool.toNat_true, Nat.mul_one]

theorem fieldAt_zero_toNat {w : Nat} (v : BitVec w) (h : w ≤ 32) : (fieldAt v 0).toNat = v.toNat := by
  rw [fieldAt_toNat v (by omega), Nat.pow_zero, Nat.one_mul]

theorem flagAt_zero_toNat (b : Bool) : (flagAt b 0).toNat = b.toNat := by
  rw [flagAt_toNat b (by omega), Nat.pow_zero, Nat.one_mul]

theorem fieldAt_add {w : Nat} (v : BitVec w) (p q : Nat) : fieldAt v (p + q) = fieldAt v p <<< q :=
  BitVec.shiftLeft_add _ p q

theorem flagAt_add (b : Bool) (p q : Nat) : flagAt b (p + q) = flagAt b p <<< q := by
  cases b
  · simp [flagAt]
  · simp [flagAt, BitVec.twoPow, BitVec.shiftLeft_add]

/-- A part put above the bits of another adds to it. -/
theorem or_toNat {x y : Word} {a n pos : Nat} (hx : x.toNat = a) (ha : a < 2 ^ pos)
    (hy : y.toNat = 2 ^ pos * n) : (x ||| y).toNat = a + 2 ^ pos * n := by
  rw [BitVec.toNat_or, hx, hy, Nat.or_comm, ← Nat.two_pow_add_eq_or_of_lt ha, Nat.add_comm]

/-! ## The packed words -/

theorem bwCtl_toNat (e : Encoder) :
    (bwCtl e).toNat = e.nbits.toNat + 2 ^ 8 * e.ep.toNat + 2 ^ 16 * e.nz.toNat := by
  have hep := e.ep.toNat_le
  have nbits := fieldAt_zero_toNat e.nbits (by omega)
  have ep := or_toNat nbits (pos := 8) (by omega) (flagAt_toNat e.ep (by omega))
  exact or_toNat ep (by omega) (fieldAt_toNat e.nz (by omega))

theorem ilStat_toNat (e : Encoder) :
    (ilStat e).toNat = e.ilCount.toNat + 2 ^ 8 * e.tmplDone.toNat :=
  or_toNat (fieldAt_zero_toNat e.ilCount (by omega)) e.ilCount.isLt (flagAt_toNat _ (by omega))

theorem fgLfsr_toNat (s : State) :
    (fgLfsr s).toNat = s.lfsr.toNat + 2 ^ 16 * s.fgSeeded.toNat :=
  or_toNat (fieldAt_zero_toNat s.lfsr (by omega)) s.lfsr.isLt (flagAt_toNat _ (by omega))

theorem cfgWord_toNat (p : Params) :
    (cfgWord p).toNat = p.hwGen.toNat + 2 ^ 8 * p.cdfLayout.toNat :=
  or_toNat (fieldAt_zero_toNat p.hwGen (by omega)) p.hwGen.isLt (fieldAt_toNat _ (by omega))

/-- The status of a slot as a number of 6 bits. -/
def slotStatus (c : CdfSlot) : Nat :=
  c.modeOk.toNat + 2 * c.mvOk.toNat + 4 * c.coefOk.toNat + 16 * c.coefIdx.toNat

theorem slotStatus_lt (c : CdfSlot) : slotStatus c < 2 ^ 6 := by
  have := c.modeOk.toNat_le
  have := c.mvOk.toNat_le
  have := c.coefOk.toNat_le
  unfold slotStatus
  omega

theorem cdfSlotStat_shift (c : CdfSlot) (i : Nat) :
    cdfSlotStat c i = cdfSlotStat c 0 <<< (8 * i) := by
  simp only [cdfSlotStat, Nat.mul_zero, Nat.zero_add, BitVec.shiftLeft_or_distrib, ← flagAt_add,
    ← fieldAt_add, Nat.add_comm]

theorem cdfSlotStat_zero_toNat (c : CdfSlot) : (cdfSlotStat c 0).toNat = slotStatus c := by
  have hmode := c.modeOk.toNat_le
  have hmv := c.mvOk.toNat_le
  have hcoef := c.coefOk.toNat_le
  have mode := flagAt_zero_toNat c.modeOk
  have mv := or_toNat mode (pos := 1) (by omega) (flagAt_toNat c.mvOk (by omega))
  have coef := or_toNat mv (pos := 2) (by omega) (flagAt_toNat c.coefOk (by omega))
  exact or_toNat coef (pos := 4) (by omega) (fieldAt_toNat c.coefIdx (by omega))

theorem cdfSlotStat_toNat (c : CdfSlot) {i : Nat} (hi : i ≤ 3) :
    (cdfSlotStat c i).toNat = 2 ^ (8 * i) * slotStatus c := by
  have byte : 2 ^ (8 * i) ≤ 2 ^ 24 := Nat.pow_le_pow_right (by omega) (by omega)
  have bound : 2 ^ (8 * i) * slotStatus c < 2 ^ 32 := calc
    2 ^ (8 * i) * slotStatus c ≤ 2 ^ 24 * 2 ^ 6 := Nat.mul_le_mul byte (slotStatus_lt c).le
    _ < 2 ^ 32 := by decide
  rw [cdfSlotStat_shift, BitVec.toNat_shiftLeft, cdfSlotStat_zero_toNat, Nat.shiftLeft_eq, Nat.mul_comm,
    Nat.mod_eq_of_lt bound]

theorem cdfStat_toNat (cdf : Vector CdfSlot 4) : (cdfStat cdf).toNat =
    ((List.finRange 4).map fun k => 2 ^ (8 * k.val) * slotStatus cdf[k]).sum := by
  have h0 := slotStatus_lt cdf[0]
  have h1 := slotStatus_lt cdf[1]
  have h2 := slotStatus_lt cdf[2]
  have s0 : (cdfSlotStat cdf[0] 0).toNat = slotStatus cdf[0] := cdfSlotStat_zero_toNat _
  have s1 := or_toNat s0 (pos := 8) (by omega) (cdfSlotStat_toNat cdf[1] (i := 1) (by omega))
  have s2 := or_toNat s1 (pos := 16) (by omega) (cdfSlotStat_toNat cdf[2] (i := 2) (by omega))
  have s3 := or_toNat s2 (pos := 24) (by omega) (cdfSlotStat_toNat cdf[3] (i := 3) (by omega))
  rw [cdfStat, s3]
  simp [List.finRange_succ, Nat.add_assoc]

theorem modeCode_toNat (m : DpbMode) :
    (modeCode m).toNat = match m with | .none => 0 | .fixed => 1 | .dynamicT2 => 2 := by
  cases m <;> rfl

theorem codecCode_toNat (c : Codec) :
    (codecCode c).toNat = match c with | .h264 => 0 | .h265 => 1 | .av1 => 2 := by
  cases c <;> rfl

theorem dpbCtl_toNat (d : Dpb) : (dpbCtl d).toNat =
    (match d.mode with | .none => 0 | .fixed => 1 | .dynamicT2 => 2) +
      2 ^ 4 * (match d.codec with | .h264 => 0 | .h265 => 1 | .av1 => 2) +
      2 ^ 8 * d.m.toNat + 2 ^ 16 * d.isOpen.toNat + 2 ^ 17 * d.valid.toNat := by
  rw [← modeCode_toNat, ← codecCode_toNat]
  have hopen := d.isOpen.toNat_le
  have mode := fieldAt_zero_toNat (modeCode d.mode) (by omega)
  have codec := or_toNat mode (pos := 4) (by omega) (fieldAt_toNat (codecCode d.codec) (by omega))
  have m := or_toNat codec (pos := 8) (by omega) (fieldAt_toNat d.m (by omega))
  have isOpen := or_toNat m (pos := 16) (by omega) (flagAt_toNat d.isOpen (by omega))
  exact or_toNat isOpen (by omega) (flagAt_toNat d.valid (by omega))

/-- The two words of a 64-bit value (R94). -/
theorem halves_toNat (x : BitVec 64) :
    (x.extractLsb' 0 32).toNat = x.toNat % 2 ^ 32 ∧ (x.extractLsb' 32 32).toNat = x.toNat / 2 ^ 32 := by
  refine ⟨by simp, ?_⟩
  rw [BitVec.extractLsb'_toNat, Nat.shiftRight_eq_div_pow]
  omega

/-! ## Reads -/

theorem status_toNat (s : State) : (csrRead 0 s).map BitVec.toNat =
    some (match s.run with | .idle => 0 | .running => 1 | .done => 2 | .faulted => 3) := by
  have read : csrRead 0 s = some (fieldAt (runCode s.run) 0) := by simp [csrRead, csrWord]
  rw [read]
  cases s.run <;> rfl

/-- A CSR number outside the table reads 0 (R42; log 17). -/
theorem csrWord_reserved {n : Nat} (s : State)
    (h : n ∉ ([0x00, 0x01, 0x02, 0x03, 0x04, 0x05, 0x06, 0x07, 0x08, 0x09, 0x0A, 0x0B, 0x0C, 0x0D,
      0x0E, 0x10, 0x18, 0x20, 0x21, 0x22, 0x23, 0x30] : List Nat)) : csrWord n s = some 0 := by
  unfold csrWord
  split <;> simp_all

theorem csrRead_toNat {s : State} (hrun : s.run ≠ .running) {n v : Nat} {w : Word}
    (hw : csrWord n s = some w) (hv : w.toNat = v) : (csrRead n s).map BitVec.toNat = some v := by
  rw [csrRead_stopped hrun, hw, Option.map_some, hv]

/-- `RES_LO` and `RES_HI` have a value exactly while `res_valid = 1` (R23). -/
theorem csrWord_res_of_valid {s : State} (h : s.resValid = true) :
    csrWord 0x05 s = some (s.res.extractLsb' 0 32) ∧ csrWord 0x06 s = some (s.res.extractLsb' 32 32) :=
  ⟨if_pos h, if_pos h⟩

theorem csrWord_res_of_invalid {s : State} (h : s.resValid = false) :
    csrWord 0x05 s = none ∧ csrWord 0x06 s = none := by
  have invalid : ¬s.resValid = true := by simp [h]
  exact ⟨if_neg invalid, if_neg invalid⟩

theorem hostReadIl_entry {s : State} (hrun : s.run ≠ .running) {i : Nat} {x : IlEntry}
    (hx : Memory.read s.enc.il i = some x) : hostReadIl i s = some (kindCode x.kind, x.numBits) := by
  rw [hostReadIl, whenStopped_stopped hrun, hx, Option.map_some]

theorem kindCode_of_mem : ∀ x ∈ ([(.endList, 0), (.copy, 1), (.firstMb, 2), (.sliceQpDelta, 3),
    (.firstSlice, 4), (.sliceSegment, 5), (.saoEnable, 6), (.lfAcrossSlices, 7)] :
    List (IlKind × Byte)), kindCode x.1 = x.2 := by decide

/-- Settles O17: each CSR by the fields of its word, the memories by the reads while stopped. -/
theorem hostReads : Obligations.HostReads := by
  intro s
  refine ⟨status_toNat s, fun hrun => ⟨fun n hn => csrRead_running hrun hn, fun i => ?running⟩,
    fun hrun => ⟨?table, fun hv => ?valid, fun hv => ?invalid, fun n hn => ?reserved, fun i => ?memories⟩,
    ?dpbOrder⟩
  case running =>
    exact ⟨whenStopped_running hrun _, whenStopped_running hrun _, whenStopped_running hrun _,
      fun _ => whenStopped_running hrun _⟩
  case table =>
    have csr {n v : Nat} {w : Word} := csrRead_toNat hrun (n := n) (v := v) (w := w)
    simp only [List.forall_mem_cons]
    exact ⟨csr rfl rfl, csr rfl (fieldAt_zero_toNat _ (by omega)), csr rfl rfl, csr rfl rfl,
      csr rfl (flagAt_zero_toNat _), csr rfl rfl, csr rfl (bwCtl_toNat _), csr rfl rfl,
      csr rfl (fieldAt_zero_toNat _ (by omega)), csr rfl (fieldAt_zero_toNat _ (by omega)),
      csr rfl (ilStat_toNat _), csr rfl rfl, csr rfl (fgLfsr_toNat s), csr rfl (cdfStat_toNat _),
      csr rfl rfl, csr rfl rfl, csr rfl (halves_toNat _).1, csr rfl (halves_toNat _).2,
      csr rfl (cfgWord_toNat _), by simp⟩
  case valid =>
    obtain ⟨lo, hi⟩ := csrWord_res_of_valid hv
    exact ⟨csrRead_toNat hrun lo (halves_toNat _).1, csrRead_toNat hrun hi (halves_toNat _).2⟩
  case invalid =>
    obtain ⟨lo, hi⟩ := csrWord_res_of_invalid hv
    exact ⟨(csrRead_stopped hrun _).trans lo, (csrRead_stopped hrun _).trans hi⟩
  case reserved => exact (csrRead_stopped hrun n).trans (csrWord_reserved s hn)
  case memories =>
    refine ⟨whenStopped_stopped hrun _, fun hnone => ?_, fun kind code n hcode hx => ?_,
      fun k => whenStopped_stopped hrun _, whenStopped_stopped hrun _⟩
    · rw [hostReadIl, whenStopped_stopped hrun, hnone, Option.map_none]
    · rw [hostReadIl_entry hrun hx, kindCode_of_mem _ hcode]
  case dpbOrder => exact dpbCtl_toNat s.dpb

end Sys2Proof.StateFamily
end

section
/-! SUPPORT. The opcode map read as a table: a row is found by its `op`, and a header is legal when the
must-be-zero bits of its row are clear (spec/30_encoding.md R91, R95, R96). -/

namespace Sys2Proof.EncodingFamily

open Sys2Proof.Machine Sys2Proof.Safety

/-! ## Rows -/

theorem nodup_ops : (opTable.map OpRow.op).Nodup := by decide

/-- The row of an `op` is the one row that carries it: no two rows share an `op`. -/
theorem rowOf_eq_some {op : Byte} {r : OpRow} : rowOf op = some r ↔ r ∈ opTable ∧ r.op = op := by
  constructor
  · intro h
    exact ⟨List.mem_of_find?_eq_some h, by simpa using List.find?_some h⟩
  · rintro ⟨hr, rfl⟩
    cases h : rowOf r.op with
    | none => exact absurd (List.find?_eq_none.1 h r hr) (by simp)
    | some q =>
      have hop : q.op = r.op := by simpa using List.find?_some h
      rw [List.inj_on_of_nodup_map nodup_ops (List.mem_of_find?_eq_some h) hr hop]

/-! ## Headers as fields (R90, R91) -/

/-- `w[7:0]`, the byte that no format uses alone. -/
def fieldC (w : Word) : Byte := w.extractLsb' 0 8

theorem headerWord_fields (w : Word) :
    headerWord (fieldOp w) (fieldA w) (fieldB w) (fieldC w) = w := by
  unfold headerWord fieldOp fieldA fieldB fieldC; ext i h; simp; grind

theorem headerWordImm_fields (w : Word) : headerWordImm (fieldOp w) (fieldA w) (fieldImm w) = w := by
  unfold headerWordImm fieldOp fieldA fieldImm; ext i h; simp; grind

@[simp] theorem fieldC_headerWord (op a b c : Byte) : fieldC (headerWord op a b c) = c := by
  unfold fieldC headerWord; ext i; simp; grind

theorem headerWord_inj {op a b c op' a' b' c' : Byte} :
    headerWord op a b c = headerWord op' a' b' c' ↔ op = op' ∧ a = a' ∧ b = b' ∧ c = c' := by
  constructor
  · intro h
    exact ⟨by simpa using congrArg fieldOp h, by simpa using congrArg fieldA h,
      by simpa using congrArg fieldB h, by simpa using congrArg fieldC h⟩
  · rintro ⟨rfl, rfl, rfl, rfl⟩; rfl

/-- A mask and a pattern, byte by byte. -/
theorem and_headerWord_eq {w : Word} {mop ma mb mc op a b c : Byte} :
    w &&& headerWord mop ma mb mc = headerWord op a b c ↔
      fieldOp w &&& mop = op ∧ fieldA w &&& ma = a ∧ fieldB w &&& mb = b ∧ fieldC w &&& mc = c := by
  rw [← headerWord_inj, ← headerWord_and, headerWord_fields]

theorem headerWord_zero : headerWord 0 0 0 0 = 0 := by decide

/-- The bytes of the must-be-zero bits `a`, `b` and the lowest one; no such bit lies in `op`. -/
def zeroBytes : Format → Byte × Byte × Byte
  | .z => (255, 255, 255)
  | .a => (0, 255, 255)
  | .ab => (0, 0, 255)
  | .ai => (0, 0, 0)
  | .i => (255, 0, 0)

theorem mustBeZero_eq (f : Format) :
    mustBeZero f = headerWord 0 (zeroBytes f).1 (zeroBytes f).2.1 (zeroBytes f).2.2 := by
  cases f <;> decide

theorem and_mustBeZero_eq_zero {w : Word} {f : Format} : w &&& mustBeZero f = 0 ↔
    fieldA w &&& (zeroBytes f).1 = 0 ∧ fieldB w &&& (zeroBytes f).2.1 = 0 ∧
      fieldC w &&& (zeroBytes f).2.2 = 0 := by
  rw [mustBeZero_eq, ← headerWord_zero, and_headerWord_eq]
  simp

theorem byte_and_full (x : Byte) : x &&& 255 = x := BitVec.and_allOnes

/-- The header of a format, from those fields of `w` that the format has. -/
def formatHeader (f : Format) (w : Word) : Word :=
  match f with
  | .z => headerWord (fieldOp w) 0 0 0
  | .a => headerWord (fieldOp w) (fieldA w) 0 0
  | .ab => headerWord (fieldOp w) (fieldA w) (fieldB w) 0
  | .ai => headerWordImm (fieldOp w) (fieldA w) (fieldImm w)
  | .i => headerWordImm (fieldOp w) 0 (fieldImm w)

/-- A header whose must-be-zero bits are clear is made of the fields of its format alone. -/
theorem formatHeader_eq {f : Format} {w : Word} (h : w &&& mustBeZero f = 0) : formatHeader f w = w := by
  obtain ⟨ha, hb, hc⟩ := and_mustBeZero_eq_zero.1 h
  cases f with
  | z | a | ab =>
    simp only [zeroBytes, byte_and_full] at ha hb hc
    simpa only [formatHeader, ha, hb, hc] using headerWord_fields w
  | ai => exact headerWordImm_fields w
  | i =>
    simp only [zeroBytes, byte_and_full] at ha
    simpa only [formatHeader, ha] using headerWordImm_fields w

/-! ## Legal headers (R95, R96) -/

/-- The (match, mask) pair of a row: `op` and the must-be-zero bits are fixed, the other bits free. -/
def headerPair (r : OpRow) : Word × Word :=
  (headerWord r.op 0 0 0,
    headerWord 255 (zeroBytes r.format).1 (zeroBytes r.format).2.1 (zeroBytes r.format).2.2)

theorem legalHeaders_eq : legalHeaders = opTable.map headerPair := by decide

theorem matches_headerPair {w : Word} {r : OpRow} : w &&& (headerPair r).2 = (headerPair r).1 ↔
    r.op = fieldOp w ∧ w &&& mustBeZero r.format = 0 := by
  rw [headerPair, and_headerWord_eq, byte_and_full, and_mustBeZero_eq_zero, eq_comm]

theorem legal_iff {w : Word} :
    legal w ↔ ∃ r, rowOf (fieldOp w) = some r ∧ w &&& mustBeZero r.format = 0 := by
  simp only [legal, legalHeaders_eq, List.mem_map, exists_exists_and_eq_and, matches_headerPair,
    rowOf_eq_some, and_assoc]

/-! ## The decoder (R98) -/

theorem decode_cons_of_row {w : Word} {r : OpRow} (hr : rowOf (fieldOp w) = some r)
    (hz : w &&& mustBeZero r.format = 0) (ops : List Word) :
    decode (w :: ops) = if ops.length < r.nops then .error .noOperand
      else .ok (r.build w (ops.getD 0 0) (ops.getD 1 0)) := by
  simp [decode, hr, hz]

theorem decode_cons_of_illegal {w : Word} (h : ¬legal w) (ops : List Word) :
    decode (w :: ops) = .error (.illegal w) := by
  cases hr : rowOf (fieldOp w) with
  | none => simp [decode, hr]
  | some r =>
    have hz : w &&& mustBeZero r.format ≠ 0 := fun hz => h (legal_iff.2 ⟨r, hr, hz⟩)
    simp only [decode, hr, if_pos hz]

/-- The decoder calls a header illegal exactly when R96 does. -/
theorem decode_eq_illegal {w : Word} {ops : List Word} :
    decode (w :: ops) = .error (.illegal w) ↔ ¬legal w := by
  constructor
  · intro h hl
    obtain ⟨r, hr, hz⟩ := legal_iff.1 hl
    rw [decode_cons_of_row hr hz] at h
    split at h <;> cases h
  · exact fun h => decode_cons_of_illegal h ops

/-- What decodes is a header of the opcode map with as many operand words as its row has. -/
theorem decode_eq_ok {ws : List Word} {i : Instr} (h : decode ws = .ok i) :
    ∃ w ops r, ws = w :: ops ∧ rowOf (fieldOp w) = some r ∧ w &&& mustBeZero r.format = 0 ∧
      r.nops ≤ ops.length ∧ i = r.build w (ops.getD 0 0) (ops.getD 1 0) := by
  cases ws with
  | nil => cases h
  | cons w ops =>
    by_cases hl : legal w
    · obtain ⟨r, hr, hz⟩ := legal_iff.1 hl
      rw [decode_cons_of_row hr hz] at h
      split at h
      · cases h
      · rename_i hn
        exact ⟨w, ops, r, rfl, hr, hz, Nat.le_of_not_lt hn, (Except.ok.inj h).symm⟩
    · rw [decode_cons_of_illegal hl] at h
      cases h

end Sys2Proof.EncodingFamily
end

section
/-! SUPPORT. Decoding and encoding undo each other (spec/30_encoding.md R90 to R95). -/

namespace Sys2Proof.EncodingFamily

open Sys2Proof.Machine Sys2Proof.Safety

/-! ## What a row builds is encoded as it was read -/

theorem encodeHeader_build : ∀ r ∈ opTable, ∀ w x y, r.op = fieldOp w →
    encodeHeader (r.build w x y) = formatHeader r.format w := by
  simp +contextual [opTable, encodeHeader, formatHeader]

theorem operandWords_build : ∀ r ∈ opTable, ∀ w x y,
    operandWords (r.build w x y) = [x, y].take r.nops := by
  simp [opTable, operandWords]

theorem nops_le_two : ∀ r ∈ opTable, r.nops ≤ 2 := by decide

theorem take_getD {n : Nat} {ops : List Word} (h2 : n ≤ 2) (hn : n ≤ ops.length) :
    [ops.getD 0 0, ops.getD 1 0].take n = ops.take n := by
  match n, h2, ops, hn with
  | 0, _, _, _ => rfl
  | 1, _, _ :: _, _ => rfl
  | 2, _, _ :: _ :: _, _ => rfl

/-- Settles O2: the header is rebuilt from its fields, since its must-be-zero bits are clear, and the
operand words are those that the row takes. -/
theorem decodedWordsAreEncoding : Obligations.DecodedWordsAreEncoding := by
  intro ws i h
  obtain ⟨w, ops, r, rfl, hr, hz, hn, rfl⟩ := decode_eq_ok h
  obtain ⟨hmem, hop⟩ := rowOf_eq_some.1 hr
  have header := (encodeHeader_build r hmem w (ops.getD 0 0) (ops.getD 1 0) hop).trans (formatHeader_eq hz)
  have operands := (operandWords_build r hmem w (ops.getD 0 0) (ops.getD 1 0)).trans
    (take_getD (nops_le_two r hmem) hn)
  rw [StateFamily.instrLength_build r hmem, Nat.add_comm, List.take_succ_cons, encode, header, operands]

/-! ## What a command is encoded as is read by its row -/

theorem encodedLegal (i : Instr) : Laws.EncodedLegal.Statement i := by
  cases i with
  | endRun => exact Laws.EncodedLegal.endRun
  | bwReset => exact Laws.EncodedLegal.bwReset
  | bwSetep en => exact Laws.EncodedLegal.bwSetep en
  | bwPut n value => exact Laws.EncodedLegal.bwPut n value
  | bwUe v => exact Laws.EncodedLegal.bwUe v
  | bwSe v => exact Laws.EncodedLegal.bwSe v
  | bwAlign => exact Laws.EncodedLegal.bwAlign
  | bwFlush => exact Laws.EncodedLegal.bwFlush
  | heCopy => exact Laws.EncodedLegal.heCopy
  | heMark kind => exact Laws.EncodedLegal.heMark kind
  | heEnd => exact Laws.EncodedLegal.heEnd
  | heSetp idx value => exact Laws.EncodedLegal.heSetp idx value
  | heClrp => exact Laws.EncodedLegal.heClrp
  | heH264Slice => exact Laws.EncodedLegal.heH264Slice
  | heH265Slice => exact Laws.EncodedLegal.heH265Slice
  | fgSeed plane seed => exact Laws.EncodedLegal.fgSeed plane seed
  | fgRand bits => exact Laws.EncodedLegal.fgRand bits
  | cdfInitMode slot => exact Laws.EncodedLegal.cdfInitMode slot
  | cdfInitMv slot => exact Laws.EncodedLegal.cdfInitMv slot
  | cdfInitCoef slot index => exact Laws.EncodedLegal.cdfInitCoef slot index
  | cdfSeedAll => exact Laws.EncodedLegal.cdfSeedAll
  | dpbSession codec maxRefs => exact Laws.EncodedLegal.dpbSession codec maxRefs
  | dpbBegin cur => exact Laws.EncodedLegal.dpbBegin cur
  | dpbRef slot addr => exact Laws.EncodedLegal.dpbRef slot addr
  | dpbCommit => exact Laws.EncodedLegal.dpbCommit
  | dpbLookup slot => exact Laws.EncodedLegal.dpbLookup slot

/-- The row of a command's header: legal, and with the command's number of operand words. -/
theorem exists_row (i : Instr) : ∃ r, rowOf (fieldOp (encodeHeader i)) = some r ∧
    encodeHeader i &&& mustBeZero r.format = 0 ∧ (operandWords i).length = r.nops := by
  obtain ⟨r, hmem, hop, hz, hn⟩ := encodedLegal i
  exact ⟨r, rowOf_eq_some.2 ⟨hmem, hop⟩, hz, hn⟩

/-- The row of a command's header builds the command back from its own words. The cases are the formats
with their numbers of operand words. -/
theorem build_encode {i : Instr} {r : OpRow} (hr : rowOf (fieldOp (encodeHeader i)) = some r)
    (rest : List Word) : r.build (encodeHeader i) ((operandWords i ++ rest).getD 0 0)
      ((operandWords i ++ rest).getD 1 0) = i := by
  cases i with
  | endRun | bwReset | bwAlign | bwFlush | heCopy | heEnd | heClrp | heH264Slice | heH265Slice
  | cdfSeedAll | dpbCommit => cases hr; rfl
  | bwSetep | heMark | fgRand | cdfInitMode | cdfInitMv | dpbLookup | cdfInitCoef | dpbSession =>
    rw [encodeHeader, fieldOp_headerWord] at hr; cases hr
    simp [encodeHeader]
  | bwUe | bwSe | bwPut | dpbBegin | dpbRef =>
    rw [encodeHeader, fieldOp_headerWord] at hr; cases hr
    simp [encodeHeader, operandWords]
  | heSetp | fgSeed =>
    rw [encodeHeader, fieldOp_headerWordImm] at hr; cases hr
    simp [encodeHeader, operandWords]

/-- Settles O1: the header of the encoding selects its own row, the operand words suffice, and the row
builds the command back. -/
theorem decodeEncode : Obligations.DecodeEncode := by
  intro i rest
  obtain ⟨r, hr, hz, hn⟩ := exists_row i
  have enough : ¬(operandWords i ++ rest).length < r.nops := by simp [hn]
  rw [encode, List.cons_append, decode_cons_of_row hr hz, if_neg enough, build_encode hr]

/-- Settles O4. -/
theorem sampleWordsDecode : Obligations.SampleWordsDecode := by
  unfold Obligations.SampleWordsDecode; decide

end Sys2Proof.EncodingFamily
end

section
/-! SUPPORT. The faults of command fetch (spec/30_encoding.md R96, R98). -/

namespace Sys2Proof.EncodingFamily

open Sys2Proof.Machine Sys2Proof.Safety

variable {s : State}

theorem step_of_noHeader (hrun : s.run = .running) (h : fetch s = .error .noHeader) :
    step s = .next (recorded 0x01 s.cp s) :=
  step_running_error hrun h

theorem step_of_illegal {w : Word} (hrun : s.run = .running) (h : fetch s = .error (.illegal w)) :
    step s = .next (recorded 0x02 w s) :=
  step_running_error hrun h

theorem step_of_noOperand (hrun : s.run = .running) (h : fetch s = .error .noOperand) :
    step s = .next (recorded 0x01 (BitVec.ofNat 32 s.cmd.length) s) :=
  step_running_error hrun h

/-- Settles O3. -/
theorem illegalHeader : Obligations.IllegalHeader := by
  refine ⟨fun _ _ => decode_eq_illegal, fun s w ops hrun hs hw => ?_, ?_, ?_⟩
  · have illegal : fetch s = .error (.illegal w) := by
      rw [fetch, stream, hs]; exact decode_cons_of_illegal hw ops
    exact step_of_illegal hrun illegal
  · unfold legal; decide
  · unfold legal; decide

/-- A command cut off behind its header lacks an operand word. -/
theorem decode_take_encode {i : Instr} {n : Nat} (hpos : 0 < n) (hn : n < instrLength i) :
    decode ((encode i).take n) = .error .noOperand := by
  obtain ⟨r, hr, hz, hops⟩ := exists_row i
  obtain ⟨k, rfl⟩ := Nat.exists_eq_add_of_lt hpos
  have short : ((operandWords i).take k).length < r.nops := by
    rw [List.length_take]; unfold instrLength at hn; omega
  rw [Nat.zero_add, encode, List.take_succ_cons, decode_cons_of_row hr hz, if_pos short]

/-- Settles O6. -/
theorem fetchFaults : Obligations.FetchFaults := by
  refine ⟨fun s hrun hcp => ?_, fun s i n hrun hpos hn hs => ?_⟩
  · have empty : fetch s = .error .noHeader := by
      rw [fetch, stream, List.drop_eq_nil_of_le hcp]; rfl
    exact step_of_noHeader hrun empty
  · have cut : fetch s = .error .noOperand := by
      rw [fetch, stream, hs, decode_take_encode hpos hn]
    exact step_of_noOperand hrun cut

end Sys2Proof.EncodingFamily
end

section
/-! SUPPORT. `BadField` is raised by the field checks of the commands (spec/30_encoding.md R97) and by no
procedure behind them: not by the bit writer, the instruction list, the header sequencers or the mapper. -/

namespace Sys2Proof.EncodingFamily

open Sys2Proof.Machine Sys2Proof.Safety

variable {α β : Type}

/-- The procedure does not raise `BadField`. -/
def NoBadField (r : Result α) : Prop := ∀ info, r ≠ .error (.raise .badField info)

@[simp] theorem noBadField_ok (a : α) : NoBadField (.ok a : Result α) := nofun

@[simp] theorem noBadField_halt (x : Fault) : NoBadField (.error (.halt x) : Result α) := nofun

@[simp] theorem noBadField_raise {f : BswFault} {info : Word} :
    NoBadField (.error (.raise f info) : Result α) ↔ f ≠ .badField := by
  simp [NoBadField]

@[simp] theorem noBadField_map {r : Result α} {f : α → β} : NoBadField (r.map f) ↔ NoBadField r := by
  simp only [NoBadField, ne_eq, result_map_error]

@[simp] theorem noBadField_bind {r : Result α} {f : α → Result β} :
    NoBadField (r.bind f) ↔ NoBadField r ∧ ∀ a, r = .ok a → NoBadField (f a) := by
  cases r <;> simp [NoBadField, Except.bind]

@[simp] theorem noBadField_ite {c : Prop} [Decidable c] {a b : Result α} :
    NoBadField (if c then a else b) ↔ (c → NoBadField a) ∧ (¬c → NoBadField b) := by
  split <;> simp [*]

/-! ## The bit writer (41_bitwriter.md) -/

@[simp] theorem outputByte_noBadField (cap : Nat) (b : Byte) (e : Encoder) :
    NoBadField (outputByte cap b e) := by
  unfold outputByte
  split
  · simp
  · split <;> simp

@[simp] theorem drainByte_noBadField (cap : Nat) (b : Byte) (e : Encoder) :
    NoBadField (drainByte cap b e) := by
  simp [drainByte, stuffByte]

@[simp] theorem drainHeld_noBadField (cap k : Nat) (e : Encoder) : NoBadField (drainHeld cap k e) := by
  induction k generalizing e with
  | zero => simp [drainHeld]
  | succ k ih => simp [drainHeld, ih]

@[simp] theorem putLoop_noBadField (cap v fuel rem : Nat) (e : Encoder) :
    NoBadField (putLoop cap v fuel rem e) := by
  induction fuel generalizing rem e with
  | zero => simp [putLoop]
  | succ fuel ih => simp [putLoop, ih]

@[simp] theorem putBits_noBadField (cap : Nat) (value : Word) (n : Nat) (e : Encoder) :
    NoBadField (putBits cap value n e) :=
  putLoop_noBadField cap _ _ _ e

@[simp] theorem putUe_noBadField (cap : Nat) (v : Word) (e : Encoder) : NoBadField (putUe cap v e) := by
  simp [putUe]

@[simp] theorem putSe_noBadField (cap : Nat) (v : Word) (e : Encoder) : NoBadField (putSe cap v e) := by
  simp [putSe]

theorem byteAlign_noBadField (cap : Nat) (e : Encoder) : NoBadField (byteAlign cap e) :=
  putBits_noBadField cap 0 _ e

@[simp] theorem flush_noBadField (cap : Nat) (e : Encoder) : NoBadField (flush cap e) := by
  simp [flush, flushHeld]

/-! ## The instruction list (42_header_template.md) -/

@[simp] theorem checkOpen_noBadField (e : Encoder) : NoBadField (checkOpen e) := by simp [checkOpen]

@[simp] theorem checkCovered_noBadField (e : Encoder) : NoBadField (checkCovered e) := by
  simp [checkCovered]

@[simp] theorem ilAppend_noBadField (ilMax : Nat) (kind : IlKind) (n : Word) (e : Encoder) :
    NoBadField (ilAppend ilMax kind n e) := by
  simp [ilAppend]

@[simp] theorem heCopyProc_noBadField (cap ilMax : Nat) (e : Encoder) :
    NoBadField (heCopyProc cap ilMax e) := by
  simp [heCopyProc]

@[simp] theorem heMarkProc_noBadField (ilMax : Nat) (kind : IlKind) (e : Encoder) :
    NoBadField (heMarkProc ilMax kind e) := by
  simp [heMarkProc]

@[simp] theorem heEndProc_noBadField (ilMax : Nat) (e : Encoder) : NoBadField (heEndProc ilMax e) := by
  simp [heEndProc]

/-! ## The mapper (46_dpb_mapper.md) -/

@[simp] theorem dpbDynamic_noBadField (d : Dpb) : NoBadField (dpbDynamic d) := by
  unfold dpbDynamic; split <;> simp

@[simp] theorem dpbWantOpen_noBadField (want : Bool) (d : Dpb) : NoBadField (dpbWantOpen want d) := by
  simp [dpbWantOpen]

@[simp] theorem dpbSlotCheck_noBadField (slot : Byte) (d : Dpb) : NoBadField (dpbSlotCheck slot d) := by
  simp [dpbSlotCheck]

theorem dpbBeginProc_noBadField (cur : Addr) (d : Dpb) : NoBadField (dpbBeginProc cur d) := by
  simp [dpbBeginProc]

theorem dpbRefProc_noBadField (slot : Byte) (addr : Addr) (d : Dpb) :
    NoBadField (dpbRefProc slot addr d) := by
  simp [dpbRefProc]

theorem dpbCommitProc_noBadField (d : Dpb) : NoBadField (dpbCommitProc d) := by
  simp [dpbCommitProc]

theorem dpbLookupProc_noBadField (slot : Byte) (d : Dpb) : NoBadField (dpbLookupProc slot d) := by
  unfold dpbLookupProc
  split
  · simp
  · simp
  · cases Memory.read d.table slot.toNat <;> simp

/-! ## Scripts of the header sequencers (43_header_h264.md, 44_header_h265.md) -/

/-- No call of the script is the end of the sequence by `BadField`. -/
def FieldFree (a : Script) : Prop := ∀ info, .stop (.raise .badField info) ∉ a

theorem runItem_noBadField {i : Item} (hi : ∀ info, i ≠ .stop (.raise .badField info))
    (cap ilMax : Nat) (e : Encoder) : NoBadField (runItem cap ilMax i e) := by
  cases i with
  | stop x => exact fun info h => hi info (congrArg Item.stop (Except.error.inj h))
  | reset | bits | ue | se | copy | mark | close => simp [runItem]

theorem runScript_noBadField {a : Script} (ha : FieldFree a) (cap ilMax : Nat) (e : Encoder) :
    NoBadField (runScript cap ilMax a e) := by
  induction a generalizing e with
  | nil => simp
  | cons i is ih =>
    have head : ∀ info, i ≠ .stop (.raise .badField info) := fun info h => ha info (by simp [h])
    have tail : FieldFree is := fun info h => ha info (List.mem_cons_of_mem i h)
    exact noBadField_bind.2 ⟨runItem_noBadField head cap ilMax e, fun e' _ => ih tail e'⟩

@[simp] theorem fieldFree_nil : FieldFree [] := by simp [FieldFree]

@[simp] theorem fieldFree_cons {i : Item} {a : Script} :
    FieldFree (i :: a) ↔ (∀ info, .stop (.raise .badField info) ≠ i) ∧ FieldFree a := by
  simp only [FieldFree, List.mem_cons, not_or, forall_and]

@[simp] theorem fieldFree_append {a b : Script} : FieldFree (a ++ b) ↔ FieldFree a ∧ FieldFree b := by
  simp only [FieldFree, List.mem_append, not_or, forall_and]

@[simp] theorem fieldFree_ite {c : Prop} [Decidable c] {a b : Script} :
    FieldFree (if c then a else b) ↔ (c → FieldFree a) ∧ (¬c → FieldFree b) := by
  split <;> simp [*]

@[simp] theorem fieldFree_need {r : Result Word} {k : Word → Script} :
    FieldFree (need r k) ↔ NoBadField r ∧ ∀ x, r = .ok x → FieldFree (k x) := by
  rcases r with x | x
  · simp [need, FieldFree, NoBadField, eq_comm]
  · simp [need]

@[simp] theorem param_noBadField (sp : Memory SpCell) (i : Nat) : NoBadField (param sp i) := by
  unfold param
  split <;> simp

/-- The checked reads of R179 add only refusals of their own to those of `P(i)`. -/
@[simp] theorem ranged_noBadField (sp : Memory SpCell) (i lo hi : Nat) :
    NoBadField (ranged sp i lo hi) := by
  simp [ranged]

@[simp] theorem flagParam_noBadField (sp : Memory SpCell) (i : Nat) : NoBadField (flagParam sp i) := by
  simp [flagParam]

@[simp] theorem signedRanged_noBadField (sp : Memory SpCell) (i : Nat) (lo hi : Int) :
    NoBadField (signedRanged sp i lo hi) := by
  simp [signedRanged]

@[simp] theorem required_noBadField (sp : Memory SpCell) (i v : Nat) : NoBadField (required sp i v) := by
  simp [required]

@[simp] theorem zeroParam_noBadField (sp : Memory SpCell) (i : Nat) : NoBadField (zeroParam sp i) :=
  required_noBadField sp i 0

variable (sp : Memory SpCell)

@[simp] theorem h265L1_noBadField (st : Word) : NoBadField (h265L1 sp st) := by simp [h265L1]

theorem fieldFree_h264RplmFrom (base k i : Nat) : FieldFree (h264RplmFrom sp base k i) := by
  induction k generalizing i with
  | zero => simp [h264RplmFrom]
  | succ k ih => simp [h264RplmFrom, ih]

theorem fieldFree_h264MmcoFrom (k i : Nat) : FieldFree (h264MmcoFrom sp k i) := by
  induction k generalizing i with
  | zero => simp [h264MmcoFrom]
  | succ k ih => simp [h264MmcoFrom, h264MmcoOperands, emitUe, ih]

theorem fieldFree_h264Fields (c : H264Steer) : FieldFree (h264Fields sp c) := by
  simp [h264Fields, h264FrameNum, h264Poc, h264NumRefIdx, h264RplmFlag, h264Rplm, h264Marking, h264Mmco,
    emitUe, emitSe, emitBits, whenSet, fieldFree_h264RplmFrom, fieldFree_h264MmcoFrom]

theorem fieldFree_h264Script : FieldFree (h264Script sp) := by
  simp [h264Script, h264Checks, h264Weighted, h264Nal, h264Deblock, badParam, unsupported, emitSe, whenSet,
    fieldFree_h264Fields]

@[simp] theorem fieldFree_h265RpsPairs (k b : Nat) : FieldFree (h265RpsPairs sp k b) := by
  induction k generalizing b with
  | zero => simp [h265RpsPairs]
  | succ k ih => simp [h265RpsPairs, emitUe, emitBits, ih]

@[simp] theorem fieldFree_h265Entries (npc w k b : Nat) : FieldFree (h265Entries sp npc w k b) := by
  induction k generalizing b with
  | zero => simp [h265Entries]
  | succ k ih => simp [h265Entries, emitBits, ih]

@[simp] theorem fieldFree_h265RefSet (n sf : Word) : FieldFree (h265RefSet sp n sf) := by
  simp [h265RefSet, h265StRps, badParam, emitBits]

@[simp] theorem fieldFree_h265Inter (st tmvp : Word) : FieldFree (h265Inter sp st tmvp) := by
  simp [h265Inter, h265Rplm, h265RplmList, h265Collocated, emitUe, emitBits, whenSet]

@[simp] theorem fieldFree_h265Rest (c : H265Steer) (tmvp : Word) : FieldFree (h265Rest sp c tmvp) := by
  simp [h265Rest, h265Chroma, h265Deblock, h265Close, emitSe, whenSet]

theorem fieldFree_h265Script : FieldFree (h265Script sp) := by
  simp [h265Script, h265Checks, h265Weighted, h265Nal, h265Address, h265Poc, h265Tmvp, badParam,
    unsupported, emitUe, emitBits, whenSet]

end Sys2Proof.EncodingFamily
end

section
/-! SUPPORT. What every command does, said once for all 26: its field checks decide between `BadField` and
a procedure that never raises it and writes only the units of the command's rule (spec/30_encoding.md R95,
R97). -/

namespace Sys2Proof.EncodingFamily

open Sys2Proof.Machine Sys2Proof.Safety

/-! ## The ranges of the header fields -/

theorem slotField_isSome {slot : Byte} : (slotField slot).isSome = decide (slot.toNat ≤ 3) := by
  unfold slotField
  split <;> simp <;> omega

theorem codecField_isSome {codec : Byte} : (codecField codec).isSome = decide (codec.toNat ≤ 2) := by
  simp only [codecField, ← BitVec.toNat_inj]
  split_ifs <;> simp_all
  omega

theorem wellFormed_heMark (n : Nat) (kind : Byte) :
    Instr.wellFormed n (.heMark kind) = (markKind kind).isSome := by
  simp only [Instr.wellFormed, markKind, ← BitVec.toNat_inj]
  split_ifs <;> simp_all
  omega

theorem wellFormed_fgSeed (n : Nat) (plane : Byte) (seed : Half) :
    Instr.wellFormed n (.fgSeed plane seed) = (planeXor plane).isSome := by
  simp only [Instr.wellFormed, planeXor, ← BitVec.toNat_inj]
  split_ifs <;> simp_all
  omega

theorem wellFormed_cdfInitMode (n : Nat) (slot : Byte) :
    Instr.wellFormed n (.cdfInitMode slot) = (slotField slot).isSome := by
  simp [Instr.wellFormed, slotField_isSome]

theorem wellFormed_cdfInitMv (n : Nat) (slot : Byte) :
    Instr.wellFormed n (.cdfInitMv slot) = (slotField slot).isSome := by
  simp [Instr.wellFormed, slotField_isSome]

theorem wellFormed_cdfInitCoef (n : Nat) (slot index : Byte) :
    Instr.wellFormed n (.cdfInitCoef slot index) =
      ((slotField slot).isSome && (slotField index).isSome) := by
  simp [Instr.wellFormed, slotField_isSome]

theorem wellFormed_dpbSession (n : Nat) (codec maxRefs : Byte) :
    Instr.wellFormed n (.dpbSession codec maxRefs) =
      ((codecField codec).isSome && decide (maxRefs.toNat < n)) := by
  simp [Instr.wellFormed, codecField_isSome]

/-! ## What a command writes -/

variable {s t u : State} {i : Instr} {len : Nat} {o : Host.Outcome State Fault Refusal}

/-- The units outside `ps` are in `u` as in `s`, and `u` is not in `FAULTED` unless `s` is. -/
structure WritesOnly (ps : List Part) (s u : State) : Prop where
  enc : .enc ∉ ps → u.enc = s.enc
  sp : .sp ∉ ps → u.sp = s.sp
  lfsr : .lfsr ∉ ps → u.lfsr = s.lfsr ∧ u.fgSeeded = s.fgSeeded
  res : .res ∉ ps → u.res = s.res ∧ u.resValid = s.resValid
  cdf : .cdf ∉ ps → u.cdf = s.cdf
  dpb : .dpb ∉ ps → u.dpb = s.dpb
  run : u.run = s.run ∨ u.run = .done

theorem writesOnly_setEnc (e : Encoder) : WritesOnly [.enc] s (setEnc e s) := by constructor <;> simp

theorem writesOnly_setSp (m : Memory SpCell) : WritesOnly [.sp] s (setSp m s) := by constructor <;> simp

theorem writesOnly_seedLfsr (v : Half) : WritesOnly [.lfsr] s (seedLfsr v s) := by constructor <;> simp

theorem writesOnly_random (x : BitVec 64) (v : Half) :
    WritesOnly [.lfsr, .res] s (setRes x (setLfsr v s)) := by
  constructor <;> simp

theorem writesOnly_setRes (x : BitVec 64) : WritesOnly [.res] s (setRes x s) := by constructor <;> simp

theorem writesOnly_setCdf (c : Vector CdfSlot 4) : WritesOnly [.cdf] s (setCdf c s) := by
  constructor <;> simp

theorem writesOnly_setDpb (d : Dpb) : WritesOnly [.dpb] s (setDpb d s) := by constructor <;> simp

theorem writesOnly_done : WritesOnly [] s (setRun .done s) := by constructor <;> simp

/-! ## How a command ends -/

/-- The outcome is the end of a procedure that does not raise `BadField` and, if it completes, writes only
what the rule of `i` names. -/
def EndsWithin (i : Instr) (s : State) (o : Host.Outcome State Fault Refusal) : Prop :=
  ∃ len r, o = finish len s r ∧ NoBadField r ∧ ∀ u, r = .ok u → WritesOnly (writes i) s u

theorem endsWithin_complete (h : WritesOnly (writes i) s u) : EndsWithin i s (complete len u) :=
  ⟨len, .ok u, rfl, noBadField_ok u, fun _ hu => Except.ok.inj hu ▸ h⟩

theorem endsWithin_raise {f : BswFault} (hf : f ≠ .badField) (info : Word) :
    EndsWithin i s (raise f info s) :=
  ⟨0, .error (.raise f info), rfl, noBadField_raise.2 hf, fun _ h => by cases h⟩

/-- A procedure of one unit, whose value `f` puts into the state. -/
theorem endsWithin_map {α : Type} {r : Result α} {f : α → State} (hr : NoBadField r)
    (hf : ∀ a, WritesOnly (writes i) s (f a)) : EndsWithin i s (finish len s (r.map f)) := by
  refine ⟨len, r.map f, rfl, noBadField_map.2 hr, fun u hu => ?_⟩
  obtain ⟨a, -, rfl⟩ := result_map_ok.1 hu
  exact hf a

theorem endsWithin_onEncoder {f : Encoder → Result Encoder} (hf : NoBadField (f s.enc))
    (hw : writes i = [.enc]) : EndsWithin i s (onEncoder len f s) :=
  endsWithin_map hf fun e => hw ▸ writesOnly_setEnc e

/-- The outcome of `i` after its field checks (R97, R98 (4)). -/
def Checked (i : Instr) (s : State) (o : Host.Outcome State Fault Refusal) : Prop :=
  if i.wellFormed s.params.dpbSlots then EndsWithin i s o else o = badField i s

theorem checked_badField (h : ¬i.wellFormed s.params.dpbSlots = true) : Checked i s (badField i s) := by
  rw [Checked, if_neg h]

theorem checked_of_wellFormed (h : i.wellFormed s.params.dpbSlots = true) (ho : EndsWithin i s o) :
    Checked i s o := by
  rwa [Checked, if_pos h]

/-- A check by a condition. -/
theorem checked_ite {c : Prop} [Decidable c] (hc : i.wellFormed s.params.dpbSlots = true ↔ ¬c)
    (ho : ¬c → EndsWithin i s o) : Checked i s (if c then badField i s else o) := by
  split
  · rename_i h; exact checked_badField fun hw => hc.1 hw h
  · rename_i h; exact checked_of_wellFormed (hc.2 h) (ho h)

/-- Every command checks its fields, and then ends within its rule. -/
theorem exec_checked (i : Instr) (s : State) : Checked i s (exec i s) := by
  cases i with
  | endRun => exact checked_of_wellFormed rfl (endsWithin_complete writesOnly_done)
  | bwReset => exact checked_of_wellFormed rfl (endsWithin_complete (writesOnly_setEnc _))
  | bwSetep en =>
    exact checked_ite (by simp [Instr.wellFormed]) fun _ => endsWithin_complete (writesOnly_setEnc _)
  | bwPut n value =>
    exact checked_ite (by simp [Instr.wellFormed]) fun _ =>
      endsWithin_onEncoder (putBits_noBadField _ _ _ _) rfl
  | bwUe v => exact checked_of_wellFormed rfl (endsWithin_onEncoder (putUe_noBadField _ _ _) rfl)
  | bwSe v => exact checked_of_wellFormed rfl (endsWithin_onEncoder (putSe_noBadField _ _ _) rfl)
  | bwAlign => exact checked_of_wellFormed rfl (endsWithin_onEncoder (byteAlign_noBadField _ _) rfl)
  | bwFlush => exact checked_of_wellFormed rfl (endsWithin_onEncoder (flush_noBadField _ _) rfl)
  | heCopy => exact checked_of_wellFormed rfl (endsWithin_onEncoder (heCopyProc_noBadField _ _ _) rfl)
  | heMark kind =>
    simp only [exec, execHeMark]
    cases hk : markKind kind with
    | none => exact checked_badField (by simp [wellFormed_heMark, hk])
    | some k =>
      exact checked_of_wellFormed (by simp [wellFormed_heMark, hk])
        (endsWithin_onEncoder (heMarkProc_noBadField _ k _) rfl)
  | heEnd => exact checked_of_wellFormed rfl (endsWithin_onEncoder (heEndProc_noBadField _ _) rfl)
  | heSetp idx value =>
    refine checked_of_wellFormed rfl ?_
    simp only [exec, execHeSetp]
    split
    · exact endsWithin_raise (by decide) _
    · exact endsWithin_complete (writesOnly_setSp _)
  | heClrp => exact checked_of_wellFormed rfl (endsWithin_complete (writesOnly_setSp _))
  | heH264Slice =>
    exact checked_of_wellFormed rfl
      (endsWithin_onEncoder (runScript_noBadField (fieldFree_h264Script s.sp) _ _ _) rfl)
  | heH265Slice =>
    exact checked_of_wellFormed rfl
      (endsWithin_onEncoder (runScript_noBadField (fieldFree_h265Script s.sp) _ _ _) rfl)
  | fgSeed plane seed =>
    simp only [exec, execFgSeed]
    cases hx : planeXor plane with
    | none => exact checked_badField (by simp [wellFormed_fgSeed, hx])
    | some x =>
      exact checked_of_wellFormed (by simp [wellFormed_fgSeed, hx])
        (endsWithin_complete (writesOnly_seedLfsr _))
  | fgRand bits =>
    refine checked_ite (by simp [Instr.wellFormed]; omega) fun _ => ?_
    split
    · exact endsWithin_complete (writesOnly_random _ _)
    · exact endsWithin_raise (by decide) _
  | cdfInitMode slot =>
    simp only [exec, execCdfInitMode]
    cases hk : slotField slot with
    | none => exact checked_badField (by simp [wellFormed_cdfInitMode, hk])
    | some k =>
      exact checked_of_wellFormed (by simp [wellFormed_cdfInitMode, hk])
        (endsWithin_complete (writesOnly_setCdf _))
  | cdfInitMv slot =>
    simp only [exec, execCdfInitMv]
    cases hk : slotField slot with
    | none => exact checked_badField (by simp [wellFormed_cdfInitMv, hk])
    | some k =>
      exact checked_of_wellFormed (by simp [wellFormed_cdfInitMv, hk])
        (endsWithin_complete (writesOnly_setCdf _))
  | cdfInitCoef slot index =>
    simp only [exec, execCdfInitCoef]
    cases hk : slotField slot with
    | none => exact checked_badField (by simp [wellFormed_cdfInitCoef, hk])
    | some k =>
      cases hj : slotField index with
      | none => exact checked_badField (by simp [wellFormed_cdfInitCoef, hj])
      | some j =>
        exact checked_of_wellFormed (by simp [wellFormed_cdfInitCoef, hk, hj])
          (endsWithin_complete (writesOnly_setCdf _))
  | cdfSeedAll => exact checked_of_wellFormed rfl (endsWithin_complete (writesOnly_setCdf _))
  | dpbSession codec maxRefs =>
    simp only [exec, execDpbSession]
    cases hc : codecField codec with
    | none => exact checked_badField (by simp [wellFormed_dpbSession, hc])
    | some c =>
      exact checked_ite (by simp [wellFormed_dpbSession, hc]) fun _ =>
        endsWithin_complete (writesOnly_setDpb _)
  | dpbBegin cur =>
    exact checked_of_wellFormed rfl (endsWithin_map (dpbBeginProc_noBadField _ _) writesOnly_setDpb)
  | dpbRef slot addr =>
    exact checked_of_wellFormed rfl (endsWithin_map (dpbRefProc_noBadField _ _ _) writesOnly_setDpb)
  | dpbCommit =>
    exact checked_of_wellFormed rfl (endsWithin_map (dpbCommitProc_noBadField _) writesOnly_setDpb)
  | dpbLookup slot =>
    exact checked_of_wellFormed rfl (endsWithin_map (dpbLookupProc_noBadField _ _) writesOnly_setRes)

/-! ## The statements -/

theorem exec_of_illFormed (h : i.wellFormed s.params.dpbSlots = false) : exec i s = badField i s := by
  simpa [Checked, h] using exec_checked i s

theorem exec_of_wellFormed (h : i.wellFormed s.params.dpbSlots = true) : EndsWithin i s (exec i s) := by
  simpa [Checked, h] using exec_checked i s

theorem faultCodeOf_eq_badField {f : BswFault} : faultCodeOf f = 0x03 ↔ f = .badField := by
  cases f <;> decide

/-- A well-formed command that ends in `FAULTED` has raised another fault: completion leaves `RUNNING` or
enters `DONE`. -/
theorem exec_ne_badField (h : i.wellFormed s.params.dpbSlots = true) (hrun : s.run = .running)
    (info : Word) : exec i s ≠ .next (recorded 0x03 info s) := by
  intro hx
  obtain ⟨len, r, ho, hr, hw⟩ := exec_of_wellFormed h
  rcases finish_next (ho.symm.trans hx) with ⟨u, hu, ht⟩ | ⟨f, info', hf, ht⟩
  · have frun : u.run = .faulted := (congrArg State.run ht).symm
    rcases (hw u hu).run with h' | h' <;> simp [h', hrun] at frun
  · have code : faultCodeOf f = 0x03 := (congrArg State.faultCode ht).symm
    exact hr info' (faultCodeOf_eq_badField.1 code ▸ hf)

/-- Settles O7. -/
theorem badFields : Obligations.BadFields :=
  ⟨fun _ _ h => exec_of_illFormed h, fun _ _ info h hrun => exec_ne_badField h hrun info⟩

/-- A command that answers a next state has completed within its rule, or has entered a fault. -/
theorem exec_next_writesOnly (h : exec i s = .next t) :
    (∃ len u, t = advance len u ∧ WritesOnly (writes i) s u) ∨ ∃ f info, t = takeFault f info s := by
  cases hwf : i.wellFormed s.params.dpbSlots with
  | false =>
    rw [exec_of_illFormed hwf] at h
    exact .inr ⟨.badField, encodeHeader i, (Host.Outcome.next.inj h).symm⟩
  | true =>
    obtain ⟨len, r, ho, -, hw⟩ := exec_of_wellFormed hwf
    rcases finish_next (ho.symm.trans h) with ⟨u, hu, ht⟩ | ⟨f, info, -, ht⟩
    · exact .inl ⟨len, u, ht, hw u hu⟩
    · exact .inr ⟨f, info, ht⟩

/-- Settles O9: completion moves `cp` and nothing else behind the procedure, and fault entry leaves every
unit as it was. -/
theorem unitFrames : Obligations.UnitFrames := by
  intro i s t h
  rcases exec_next_writesOnly h with ⟨len, u, rfl, hu⟩ | ⟨f, info, rfl⟩
  · exact ⟨hu.enc, hu.sp, hu.lfsr, hu.res, hu.cdf, hu.dpb⟩
  · simp

end Sys2Proof.EncodingFamily
end

section
/-! SUPPORT. The host's operations (spec/40_control.md R120, R121): when each is a move and what it
leaves, and that the invariant survives it. -/

namespace Sys2Proof.ControlFamily

open Sys2Proof.Machine Sys2Proof.Safety Sys2Proof.StateFamily

variable {s t : State}

theorem hostStart_eq_some : hostStart s = some t ↔
    (s.run = .idle ∨ s.run = .done) ∧ t = { s with cp := 0, run := .running } := by
  simp [hostStart, hostMayMove_iff, @eq_comm _ t]

theorem hostLoad_eq_some {cmd : List Word} {cap : Nat} : hostLoad cmd cap s = some t ↔
    (s.run = .idle ∨ s.run = .done) ∧ runArgsWf cmd cap = true ∧
      t = { s with cmd := cmd, outCapWords := cap } := by
  simp [hostLoad, hostMayMove_iff, and_assoc, @eq_comm _ t]

theorem not_idle_or_done (h : s.run = .running ∨ s.run = .faulted) :
    ¬(s.run = .idle ∨ s.run = .done) := by
  rcases h with h | h <;> simp [h]

/-- Settles O16. -/
theorem loadAndStart : Obligations.LoadAndStart := by
  refine fun s => ⟨fun stopped => ⟨?_, fun cmd cap hcmd hpos hcap => ?_⟩,
    fun held => ⟨?_, fun cmd cap => ?_⟩⟩
  · exact hostStart_eq_some.2 ⟨stopped, rfl⟩
  · exact hostLoad_eq_some.2 ⟨stopped, runArgsWf_iff.2 ⟨hcmd, hpos, hcap⟩, rfl⟩
  · exact Option.eq_none_iff_forall_ne_some.2 fun t ht =>
      not_idle_or_done held (hostStart_eq_some.1 ht).1
  · exact Option.eq_none_iff_forall_ne_some.2 fun t ht =>
      not_idle_or_done held (hostLoad_eq_some.1 ht).1

theorem inv_hwReset (h : Inv s) : Inv (hwReset s) := inv_resetWith h.seq.args h.seq.params

/-- A new stream or capacity touches no unit, and no command pointer of a run in progress. -/
theorem inv_loaded (h : Inv s) (hrun : s.run ≠ .running) {cmd : List Word} {cap : Nat}
    (hargs : runArgsWf cmd cap = true) : Inv { s with cmd := cmd, outCapWords := cap } where
  seq :=
    { args := hargs, params := h.seq.params, inside := fun hr => absurd hr hrun
      faulted := h.seq.faulted, clean := h.seq.clean }
  enc := h.enc
  sp := h.sp
  cdf := h.cdf
  dpb := h.dpb

/-- A run starts at the head of the stream, with the fault record clear. -/
theorem inv_started (h : Inv s) (hrun : s.run ≠ .faulted) :
    Inv { s with cp := 0, run := .running } where
  seq :=
    { args := h.seq.args, params := h.seq.params, inside := fun _ => Nat.zero_le _
      faulted := fun hr => by cases hr
      clean := fun _ => h.seq.clean hrun }
  enc := h.enc
  sp := h.sp
  cdf := h.cdf
  dpb := h.dpb

/-- Settles O20. -/
theorem hostKeepsInvariant : Obligations.HostKeepsInvariant := by
  intro op s t h hmove
  cases op with
  | hwReset =>
    cases hmove
    exact inv_hwReset h
  | load cmd cap =>
    obtain ⟨stopped, hargs, rfl⟩ := hostLoad_eq_some.1 hmove
    exact inv_loaded h (fun hr => not_idle_or_done (.inl hr) stopped) hargs
  | start =>
    obtain ⟨stopped, rfl⟩ := hostStart_eq_some.1 hmove
    exact inv_started h fun hr => not_idle_or_done (.inr hr) stopped

end Sys2Proof.ControlFamily
end

section
/-! SUPPORT. The course of a run (spec/40_control.md R122 to R126): each step ends the run or takes at
least one word of the stream. -/

namespace Sys2Proof.ControlFamily

open Sys2Proof.Machine Sys2Proof.Safety Sys2Proof.StateFamily

variable {s t u : State} {k : Nat}

/-- Settles O5. -/
theorem stepRunsDecoded : Obligations.StepRunsDecoded := fun _ _ => step_running_ok

/-- Settles O12. -/
theorem endStopsRun : Obligations.EndStopsRun := fun _ => rfl

/-! ## Progress -/

/-- The words of the stream from the command pointer on. -/
def wordsLeft (s : State) : Nat := s.cmd.length - s.cp.toNat

/-- A command inside the stream moves `cp` without wrapping, since `CMD_LEN` has 32 bits (R8). -/
theorem wordsLeft_advance (h : Inv s) (hu : SameRun s u) {len : Nat}
    (hlen : s.cp.toNat + len ≤ s.cmd.length) : wordsLeft (advance len u) = wordsLeft s - len := by
  have bound : s.cmd.length ≤ 2 ^ 32 - 1 := (runArgsWf_iff.1 h.seq.args).1
  have small : (BitVec.ofNat 32 len).toNat = len := Nat.mod_eq_of_lt (by omega)
  have moved : (s.cp + BitVec.ofNat 32 len).toNat = s.cp.toNat + len := by
    rw [BitVec.toNat_add_of_lt (by rw [small]; omega), small]
  rw [wordsLeft, advance_cp, advance_cmd, hu.cp, hu.cmd, moved, wordsLeft, Nat.sub_sub]

/-- The run has ended (R126). -/
def Ended (s : State) : Prop := s.run = .done ∨ s.run = .faulted

/-- A command that answers a next state has ended the run, or has left fewer words. -/
theorem exec_progress (h : Inv s) (hrun : s.run = .running) {i : Instr}
    (hlen : s.cp.toNat + instrLength i ≤ s.cmd.length) (hx : exec i s = .next t) :
    Ended t ∨ t.run = .running ∧ wordsLeft t < wordsLeft s := by
  rcases exec_next hx with ⟨u, rfl, he⟩ | ⟨f, info, rfl⟩
  · have same := he.sameRun rfl
    rcases same.run with running | done
    · have positive : 1 ≤ instrLength i := Nat.le_add_right 1 _
      have fewer : wordsLeft s - instrLength i < wordsLeft s := by unfold wordsLeft; omega
      exact .inr ⟨running.trans hrun, wordsLeft_advance h same hlen ▸ fewer⟩
    · exact .inl (.inl done)
  · exact .inl (.inr rfl)

/-- The same for a step: a fetch that fails enters a fault. -/
theorem step_progress (h : Inv s) (hrun : s.run = .running) (hx : step s = .next t) :
    Ended t ∨ t.run = .running ∧ wordsLeft t < wordsLeft s := by
  cases hf : fetch s with
  | ok i =>
    exact exec_progress h hrun (cp_add_length_le (h.seq.inside hrun) hf)
      ((step_running_ok hrun hf).symm.trans hx)
  | error x =>
    obtain ⟨f, info, hfault⟩ := fetchFault_eq x s
    cases hfault.symm.trans ((step_running_error hrun hf).symm.trans hx)
    exact .inl (.inr rfl)

/-! ## Runs -/

theorem endsWithin_succ (hx : step s = .next t) (ht : endsWithin k t) : endsWithin (k + 1) s := by
  obtain ⟨u, hu, ended⟩ := ht
  have first : Sys2Proof.core.step s = .next t := hx
  exact ⟨u, by simpa only [Host.Core.run, first] using hu, ended⟩

/-- A run that has ended stays as it is (log 9). -/
theorem Ended.endsWithin (h : Ended s) (k : Nat) : endsWithin k s := by
  induction k with
  | zero => exact ⟨s, rfl, h⟩
  | succ k ih => exact endsWithin_succ (step_stopped (by rcases h with h | h <;> simp [h])) ih

/-- A run ends within any number of steps that exceeds the number of words left. -/
theorem endsWithin_of_wordsLeft_lt (h : Inv s) (hrun : s.run = .running) (hk : wordsLeft s < k) :
    endsWithin k s := by
  induction k generalizing s with
  | zero => exact absurd hk (Nat.not_lt_zero _)
  | succ k ih =>
    obtain ⟨t, hx, ht⟩ := stepKeepsInvariant s h
    refine endsWithin_succ hx ?_
    rcases step_progress h hrun hx with ended | ⟨running, fewer⟩
    · exact ended.endsWithin k
    · exact ih ht running (by omega)

/-- Settles O13. -/
theorem runEnds : Obligations.RunEnds := fun _ h hrun =>
  endsWithin_of_wordsLeft_lt h hrun (Nat.lt_succ_self _)

end Sys2Proof.ControlFamily
end

section
/-! SUPPORT. Bit strings (spec/00_scope.md R9): the bits of a number, the number of a bit string, whole
bytes and the rest, and the shifter that holds a bit string (10_state.md R25). -/

namespace Sys2Proof.BitWriterFamily

open Sys2Proof.Machine Sys2Proof.Safety

/-! ## The bits of a number -/

@[simp] theorem length_bitsOf (v n : Nat) : (bitsOf v n).length = n := by simp [bitsOf]

theorem getD_bitsOf (v n i : Nat) :
    (bitsOf v n).getD i false = (decide (i < n) && v.testBit (n - 1 - i)) := by
  by_cases h : i < n <;> simp [bitsOf, List.getD, h]

@[simp] theorem bitsOf_zero_left (n : Nat) : bitsOf 0 n = List.replicate n false := by
  simp [bitsOf]

/-- The first `m` and the last `n` of `m + n` bits. -/
theorem bitsOf_add (v m n : Nat) : bitsOf v (m + n) = bitsOf (v >>> n) m ++ bitsOf v n := by
  simp only [bitsOf, List.range_add, List.map_append, List.map_map]
  congr 1 <;> refine List.map_congr_left fun i hi => ?_
  · have index : m + n - 1 - i = n + (m - 1 - i) := by have := List.mem_range.1 hi; omega
    rw [Nat.testBit_shiftRight, index]
  · have index : m + n - 1 - (m + i) = n - 1 - i := by omega
    rw [Function.comp_apply, index]

/-- The bits depend on the number modulo `2 ^ n`. -/
theorem bitsOf_mod (v n : Nat) : bitsOf (v % 2 ^ n) n = bitsOf v n := by
  refine List.map_congr_left fun i hi => ?_
  have inside : n - 1 - i < n := by have := List.mem_range.1 hi; omega
  simp [Nat.testBit_mod_two_pow, inside]

/-- The bits of two numbers side by side. -/
theorem bitsOf_sideBySide (a b m n : Nat) :
    bitsOf ((a % 2 ^ m) * 2 ^ n + b % 2 ^ n) (m + n) = bitsOf a m ++ bitsOf b n := by
  have low : b % 2 ^ n < 2 ^ n := Nat.mod_lt _ (Nat.two_pow_pos n)
  have high : ((a % 2 ^ m) * 2 ^ n + b % 2 ^ n) >>> n = a % 2 ^ m := by
    rw [Nat.shiftRight_eq_div_pow, Nat.add_comm, Nat.add_mul_div_right _ _ (Nat.two_pow_pos n),
      Nat.div_eq_of_lt low, Nat.zero_add]
  rw [bitsOf_add, high, bitsOf_mod, ← bitsOf_mod _ n, Nat.mul_add_mod_self_right, Nat.mod_mod,
    bitsOf_mod]

/-! ## The number of a bit string -/

theorem natOf_concat (bs : List Bool) (b : Bool) : natOf (bs ++ [b]) = Nat.bit b (natOf bs) := by
  simp [natOf, List.foldl_append, Nat.bit_val]

theorem testBit_natOf (bs : List Bool) (i : Nat) : (natOf bs).testBit i = bs.reverse.getD i false := by
  induction bs using List.reverseRecOn generalizing i with
  | nil => simp [natOf]
  | append_singleton bs b ih =>
    rw [natOf_concat, List.reverse_concat]
    cases i with
    | zero => simp
    | succ i => rw [Nat.testBit_bit_succ, ih]; simp

theorem natOf_bitsOf (v n : Nat) : natOf (bitsOf v n) = v % 2 ^ n := by
  refine Nat.eq_of_testBit_eq fun i => ?_
  rw [testBit_natOf, Nat.testBit_mod_two_pow]
  by_cases h : i < n
  · have back : n - 1 - (n - 1 - i) = i := by omega
    simp [List.getD, bitsOf, h, back]
  · simp [List.getD, h]

/-! ## Whole bytes and the rest -/

theorem bytesOf_short {bs : List Bool} (h : bs.length < 8) : bytesOf bs = [] := by
  unfold bytesOf
  split
  · simp only [List.length_cons] at h; omega
  · rfl

theorem restBits_short {bs : List Bool} (h : bs.length < 8) : restBits bs = bs := by
  unfold restBits
  split
  · simp only [List.length_cons] at h; omega
  · rfl

/-- A string of at least 8 bits begins with a whole byte. -/
theorem exists_eight {bs : List Bool} (h : 8 ≤ bs.length) :
    ∃ a b c d e f g k r, bs = a :: b :: c :: d :: e :: f :: g :: k :: r := by
  match bs, h with
  | a :: b :: c :: d :: e :: f :: g :: k :: r, _ => exact ⟨a, b, c, d, e, f, g, k, r, rfl⟩

theorem bytesOf_long {bs : List Bool} (h : 8 ≤ bs.length) :
    bytesOf bs = BitVec.ofNat 8 (natOf (bs.take 8)) :: bytesOf (bs.drop 8) := by
  obtain ⟨a, b, c, d, e, f, g, k, r, rfl⟩ := exists_eight h
  rfl

theorem restBits_long {bs : List Bool} (h : 8 ≤ bs.length) : restBits bs = restBits (bs.drop 8) := by
  obtain ⟨a, b, c, d, e, f, g, k, r, rfl⟩ := exists_eight h
  rfl

/-- Induction on a bit string, byte by byte. -/
theorem byteInduction {P : List Bool → Prop} (short : ∀ bs, bs.length < 8 → P bs)
    (long : ∀ bs, 8 ≤ bs.length → P (bs.drop 8) → P bs) (bs : List Bool) : P bs := by
  induction h : bs.length using Nat.strong_induction_on generalizing bs with
  | _ n ih =>
    by_cases h8 : bs.length < 8
    · exact short bs h8
    · exact long bs (by omega) (ih _ (by rw [List.length_drop]; omega) _ rfl)

theorem length_restBits (bs : List Bool) : (restBits bs).length = bs.length % 8 := by
  induction bs using byteInduction with
  | short bs h => rw [restBits_short h, Nat.mod_eq_of_lt h]
  | long bs h ih => rw [restBits_long h, ih, List.length_drop]; omega

theorem length_restBits_lt (bs : List Bool) : (restBits bs).length < 8 :=
  length_restBits bs ▸ Nat.mod_lt _ (by decide)

/-- The bits left over by a first part stand before the second part. -/
theorem bytesOf_append (xs ys : List Bool) :
    bytesOf (xs ++ ys) = bytesOf xs ++ bytesOf (restBits xs ++ ys) := by
  induction xs using byteInduction with
  | short xs h => rw [bytesOf_short h, restBits_short h, List.nil_append]
  | long xs h ih =>
    rw [bytesOf_long (bs := xs ++ ys) (by rw [List.length_append]; omega), bytesOf_long h,
      restBits_long h, List.take_append_of_le_length h, List.drop_append_of_le_length h, ih]
    rfl

theorem restBits_append (xs ys : List Bool) : restBits (xs ++ ys) = restBits (restBits xs ++ ys) := by
  induction xs using byteInduction with
  | short xs h => rw [restBits_short h]
  | long xs h ih =>
    rw [restBits_long (bs := xs ++ ys) (by rw [List.length_append]; omega), restBits_long h,
      List.drop_append_of_le_length h, ih]

/-! ## The shifter -/

/-- The shifter that holds a bit string of at most 32 bits, earliest at bit 31, with zeros below (R25). -/
def wordOf (bs : List Bool) : Word := (BitVec.ofBoolListBE bs).setWidth 32 <<< (32 - bs.length)

theorem getMsbD_wordOf {bs : List Bool} (h : bs.length ≤ 32) (i : Nat) :
    (wordOf bs).getMsbD i = bs.getD i false := by
  have index : i + (32 - bs.length) + bs.length - 32 = i := by omega
  rw [wordOf, BitVec.getMsbD_shiftLeft, BitVec.getMsbD_setWidth, index, BitVec.getMsbD_ofBoolListBE]
  simp

/-- A word whose bits, from bit 31 down, are those of a bit string. -/
theorem eq_wordOf {bs : List Bool} (h : bs.length ≤ 32) {w : Word}
    (hw : ∀ i < 32, w.getMsbD i = bs.getD i false) : w = wordOf bs :=
  BitVec.eq_of_getMsbD_eq fun i hi => (hw i hi).trans (getMsbD_wordOf h i).symm

@[simp] theorem wordOf_nil : wordOf [] = 0 := rfl

theorem wordOf_shiftLeft {bs : List Bool} (h : bs.length ≤ 32) (n : Nat) :
    wordOf bs <<< n = wordOf (bs.drop n) := by
  refine eq_wordOf (by rw [List.length_drop]; omega) fun i _ => ?_
  rw [BitVec.getMsbD_shiftLeft, getMsbD_wordOf h]
  simp [List.getD, List.getElem?_drop, Nat.add_comm]

theorem wordOf_shiftLeft_length {bs : List Bool} (h : bs.length ≤ 32) :
    wordOf bs <<< bs.length = 0 := by
  rw [wordOf_shiftLeft h, List.drop_length, wordOf_nil]

/-- The byte that leaves the shifter first. -/
theorem firstByte_wordOf {bs : List Bool} (h8 : 8 ≤ bs.length) (h : bs.length ≤ 32) :
    (wordOf bs).extractLsb' 24 8 = BitVec.ofNat 8 (natOf (bs.take 8)) := by
  refine BitVec.eq_of_getLsbD_eq fun i hi => ?_
  have msb : (wordOf bs).getLsbD (24 + i) = (wordOf bs).getMsbD (7 - i) := by
    have : 32 - 1 - (7 - i) = 24 + i := by omega
    simp [BitVec.getMsbD_eq_getLsbD, this]; omega
  rw [BitVec.getLsbD_extractLsb', msb, getMsbD_wordOf h, BitVec.getLsbD_ofNat, testBit_natOf]
  have short : (bs.take 8).length = 8 := by simp [h8]
  have index : 8 - 1 - i = 7 - i := by omega
  have inside : 7 - i < bs.length := by omega
  simp [List.getD, h8, hi, inside]

end Sys2Proof.BitWriterFamily
end

section
/-! SUPPORT. The output port (spec/41_bitwriter.md R133): bytes stored one after the other, when they find
room, and what they leave in OUT. The port looks at OUT and the position alone, so it commutes with every
update of the other registers. -/

namespace Sys2Proof.BitWriterFamily

open Sys2Proof.Machine Sys2Proof.Safety Sys2Proof.StateFamily

/-! ## Bytes stored one after the other -/

/-- `output_byte` of each byte of a list (R133). -/
def storeAll (cap : Nat) : List Byte → Encoder → Result Encoder
  | [], e => .ok e
  | b :: bs, e => (outputByte cap b e).bind (storeAll cap bs)

theorem storeAll_append (cap : Nat) (a b : List Byte) (e : Encoder) :
    storeAll cap (a ++ b) e = (storeAll cap a e).bind (storeAll cap b) := by
  induction a generalizing e with
  | nil => rfl
  | cons x a ih =>
    simp only [List.cons_append, storeAll]
    cases outputByte cap x e with
    | error z => rfl
    | ok e' => exact ih e'

theorem storeAll_singleton (cap : Nat) (b : Byte) (e : Encoder) :
    storeAll cap [b] e = outputByte cap b e := by
  unfold storeAll
  cases outputByte cap b e <;> rfl

/-- The frame of the output port. -/
theorem storeAll_frame {cap : Nat} {o : List Byte} {e e' : Encoder} (h : storeAll cap o e = .ok e') :
    e' = { e with out := e'.out, outWi := e'.outWi, outBi := e'.outBi } := by
  induction o generalizing e with
  | nil => cases h; rfl
  | cons b o ih =>
    obtain ⟨e₁, h₁, h₂⟩ := result_bind_ok.1 h
    rw [ih h₂, outputByte_frame h₁]

/-! ## Updates that the port does not look at -/

/-- The update neither reads nor writes OUT or the position. -/
def PortBlind (g : Encoder → Encoder) : Prop :=
  ∀ e m w l, g { e with out := m, outWi := w, outBi := l } = { g e with out := m, outWi := w, outBi := l }

theorem PortBlind.fields {g : Encoder → Encoder} (hg : PortBlind g) (e : Encoder) :
    (g e).out = e.out ∧ (g e).outWi = e.outWi ∧ (g e).outBi = e.outBi := by
  have same : g e = { g e with out := e.out, outWi := e.outWi, outBi := e.outBi } :=
    hg e e.out e.outWi e.outBi
  rw [same]
  exact ⟨rfl, rfl, rfl⟩

theorem nextLane_blind {g : Encoder → Encoder} (hg : PortBlind g) (e : Encoder) :
    nextLane (g e) = g (nextLane e) := by
  obtain ⟨hout, hwi, hbi⟩ := hg.fields e
  unfold nextLane
  rw [hbi]
  split
  · simpa only [hout, hwi] using (hg e e.out (e.outWi + 1) 0).symm
  · simpa only [hout, hwi] using (hg e e.out e.outWi (e.outBi + 1)).symm

theorem outputByte_blind {g : Encoder → Encoder} (hg : PortBlind g) (cap : Nat) (b : Byte)
    (e : Encoder) : outputByte cap b (g e) = (outputByte cap b e).map g := by
  obtain ⟨hout, hwi, hbi⟩ := hg.fields e
  have merged : mergedWord b (g e) = mergedWord b e := by rw [mergedWord, hout, hwi, hbi, mergedWord]
  have written : ∀ m, { g e with out := m, outWi := e.outWi } = g { e with out := m } := fun m => by
    simpa only [hbi] using (hg e m e.outWi e.outBi).symm
  unfold outputByte
  rw [merged, hout, hwi]
  split
  · rfl
  · cases mergedWord b e with
    | none => rfl
    | some w => exact congrArg Except.ok ((congrArg nextLane (written _)).trans (nextLane_blind hg _))

theorem storeAll_blind {g : Encoder → Encoder} (hg : PortBlind g) (cap : Nat) (o : List Byte)
    (e : Encoder) : storeAll cap o (g e) = (storeAll cap o e).map g := by
  induction o generalizing e with
  | nil => rfl
  | cons b o ih =>
    simp only [storeAll, outputByte_blind hg]
    cases outputByte cap b e with
    | error z => rfl
    | ok e' => exact ih e'

/-! ## The lanes of a stored word -/

theorem laneAt_write_same (m : Memory Word) (w : Word) (q : Nat) :
    laneAt (Memory.write m (q / 4) w) q = some (w.extractLsb' (24 - 8 * (q % 4)) 8) := by
  rw [laneAt, Memory.read_write_same]; rfl

theorem laneAt_write_other (m : Memory Word) (w : Word) {k q : Nat} (h : q / 4 ≠ k) :
    laneAt (Memory.write m k w) q = laneAt m q := by
  rw [laneAt, Memory.read_write_other m w h, laneAt]

/-- A byte in a lane stands there and leaves the other lanes 0 (20_memory.md R63). -/
theorem lane_laneByte (b : Byte) {l k : Nat} (hl : l < 4) (hk : k < 4) :
    (laneByte b l).extractLsb' (24 - 8 * k) 8 = if k = l then b else 0 := by
  refine BitVec.eq_of_getLsbD_eq fun i hi => ?_
  have inside : 24 - 8 * k + i < 32 := by omega
  rw [BitVec.getLsbD_extractLsb', laneByte, BitVec.getLsbD_shiftLeft, BitVec.getLsbD_setWidth]
  split
  · subst k
    have index : 24 - 8 * l + i - (24 - 8 * l) = i := by omega
    simp [hi, inside, index]; omega
  · by_cases before : k < l
    · have : b.getLsbD (24 - 8 * k + i - (24 - 8 * l)) = false :=
        BitVec.getLsbD_of_ge _ _ (by omega)
      simp [this]
    · have : 24 - 8 * k + i < 24 - 8 * l := by omega
      simp [this]

theorem lane_or (v w : Word) (k : Nat) :
    (v ||| w).extractLsb' (24 - 8 * k) 8 =
      v.extractLsb' (24 - 8 * k) 8 ||| w.extractLsb' (24 - 8 * k) 8 :=
  BitVec.extractLsb'_or

/-- The lanes that a shift by whole lanes keeps are 0 when the result is. -/
theorem lane_of_shiftLeft {w : Word} {l k : Nat} (h : w <<< (8 * l) = 0) (hl : l ≤ k) (hk : k < 4) :
    w.extractLsb' (24 - 8 * k) 8 = 0 := by
  refine BitVec.eq_of_getLsbD_eq fun i hi => ?_
  have index : 24 - 8 * k + i + 8 * l - 8 * l = 24 - 8 * k + i := by omega
  have inside : 24 - 8 * k + i + 8 * l < 32 := by omega
  have bit := congrArg (fun x : Word => x.getLsbD (24 - 8 * k + i + 8 * l)) h
  rw [BitVec.getLsbD_extractLsb']
  simpa [BitVec.getLsbD_shiftLeft, inside, index, hi, -BitVec.getLsbD_eq_getElem] using bit

/-! ## What stored bytes leave in OUT -/

theorem appended_nil (m : Memory Word) (p : Nat) : Appended m m p [] where
  stored := rfl
  earlier _ _ := rfl
  padded q _ hq := by
    rw [List.length_nil] at hq
    rw [if_neg (by omega)]
  later _ _ := rfl

/-- One byte stored, and then a list of bytes behind it. -/
theorem appended_cons {m₀ m₁ m₂ : Memory Word} {p : Nat} {b : Byte} {o : List Byte}
    (h₁ : Appended m₀ m₁ p [b]) (h₂ : Appended m₁ m₂ (p + 1) o) :
    Appended m₀ m₂ p (b :: o) where
  stored := by
    have first : laneAt m₁ p = some b := by simpa [lanesFrom] using h₁.stored
    have tail : (List.range o.length).map (fun k => laneAt m₂ (p + (k + 1))) = o.map some :=
      (List.map_congr_left fun k _ => by rw [Nat.add_assoc, Nat.add_comm 1 k]).trans h₂.stored
    rw [lanesFrom, List.length_cons, List.range_succ_eq_map, List.map_cons, List.map_map,
      List.map_cons, Nat.add_zero, h₂.earlier p (Nat.lt_succ_self p), first]
    exact congrArg _ tail
  earlier q hq := (h₂.earlier q (Nat.lt_succ_of_lt hq)).trans (h₁.earlier q hq)
  padded q hq hw := by
    rw [List.length_cons] at hq hw
    rw [h₂.padded q (by omega) (by omega)]
    by_cases opened : p + 1 ≤ 4 * (q / 4)
    · rw [if_pos opened, if_pos (by omega)]
    · rw [if_neg opened, h₁.padded q (by simp only [List.length_singleton]; omega)
        (by simp only [List.length_singleton]; omega)]
  later w hw := by
    rw [List.length_cons] at hw
    rw [h₂.later w (by omega), h₁.later w (by simp only [List.length_singleton]; omega)]

variable {ilMax cap lim owed : Nat} {e e' : Encoder}

/-- The lanes of the word that `output_byte` stores: the byte in its lane, the lanes before it as they
were, the lanes after it 0 in a word it opens and as they were in one it fills. -/
theorem lane_mergedWord (h : WriterInv ilMax lim owed e) {b : Byte} {w : Word}
    (hw : mergedWord b e = some w) {q : Nat} (hq : q / 4 = e.outWi.toNat) :
    some (w.extractLsb' (24 - 8 * (q % 4)) 8) =
      if q % 4 = e.outBi.toNat then some b else if e.outBi = 0 then some 0 else laneAt e.out q := by
  have hl : q % 4 < 4 := Nat.mod_lt _ (by decide)
  have byte := lane_laneByte b e.outBi.isLt hl
  by_cases hbi : e.outBi = 0
  · obtain rfl : laneByte b 0 = w := by simpa [mergedWord, hbi] using hw
    have zero : e.outBi.toNat = 0 := by simp [hbi]
    rw [zero] at byte ⊢
    rw [byte, if_pos hbi]
    split <;> rfl
  · obtain ⟨v, hv, hz⟩ := (Option.any_eq_true _ _).1 (h.partialWord hbi)
    obtain rfl : v ||| laneByte b e.outBi.toNat = w := by
      rw [mergedWord, if_neg hbi, hv] at hw
      exact Option.some.inj hw
    rw [lane_or, byte, if_neg hbi, laneAt, hq, hv]
    split
    · rename_i lane
      rw [lane_of_shiftLeft (eq_of_beq hz) (Nat.le_of_eq lane.symm) hl]
      simp
    · simp

theorem appended_mergedWord (h : WriterInv ilMax lim owed e) {b : Byte} {w : Word}
    (hw : mergedWord b e = some w) :
    Appended e.out (Memory.write e.out e.outWi.toNat w) (pos e) [b] := by
  have lane : e.outBi.toNat < 4 := e.outBi.isLt
  have word : pos e / 4 = e.outWi.toNat := by unfold pos; omega
  have place : pos e % 4 = e.outBi.toNat := by unfold pos; omega
  have opens : e.outBi = 0 ↔ e.outBi.toNat = 0 := by rw [← BitVec.toNat_inj]; rfl
  have same : ∀ q, q / 4 = e.outWi.toNat → laneAt (Memory.write e.out e.outWi.toNat w) q =
      if q % 4 = e.outBi.toNat then some b else if e.outBi = 0 then some 0 else laneAt e.out q :=
    fun q hq => by rw [← lane_mergedWord h hw hq, ← hq, laneAt_write_same]
  refine ⟨?_, fun q hq => ?_, fun q hq hlast => ?_, fun k hk => ?_⟩
  · simp [lanesFrom, same (pos e) word, place]
  · by_cases hqw : q / 4 = e.outWi.toNat
    · rw [same q hqw, if_neg (by omega), if_neg (by rw [opens]; omega)]
    · exact laneAt_write_other _ _ hqw
  · rw [List.length_singleton] at hq hlast
    have hqw : q / 4 = e.outWi.toNat := by omega
    rw [same q hqw, if_neg (by omega)]
    by_cases hbi : e.outBi = 0
    · rw [if_pos hbi, if_pos (by rw [opens] at hbi; omega)]
    · rw [if_neg hbi, if_neg (by rw [opens] at hbi; omega)]
  · rw [List.length_singleton] at hk
    exact Memory.read_write_other _ _ (by omega)

/-! ## The port without the instruction list -/

/-- The template registers and IL at their reset values: the port does not look at them, and the claims
about it need no invariant of the list. -/
def withoutList (e : Encoder) : Encoder :=
  { e with il := [], ilCount := 0, bitsCopied := 0, tmplDone := false }

theorem portBlind_withoutList : PortBlind withoutList := fun _ _ _ _ => rfl

/-- The output port between commands, or while `owed` bits that stand in OUT are not counted yet. -/
abbrev Port (owed : Nat) (e : Encoder) : Prop := WriterInv 0 outCapLimit owed (withoutList e)

theorem port_of_writerInv (h : WriterInv ilMax outCapLimit owed e) : Port owed e :=
  { h with
    copied := Nat.zero_le _
    list :=
      { wf := Memory.wf_nil, below := by simp [withoutList], countLe := Nat.zero_le _
        entries := by simp [withoutList], ended := by simp [withoutList]
        ends := by simp [withoutList], copies := by simp [withoutList, copyBits] } }

/-- `e'` is `e` after the bytes `o` were stored at its position. -/
structure Stored (owed : Nat) (e e' : Encoder) (o : List Byte) : Prop where
  out : Appended e.out e'.out (pos e) o
  position : pos e' = pos e + o.length
  frame : e' = { e with out := e'.out, outWi := e'.outWi, outBi := e'.outBi }
  port : Port (owed + 8 * o.length) e'

theorem outWi_lt_iff {n : Nat} : e.outWi.toNat < n ↔ pos e + 1 ≤ 4 * n := by
  have := e.outBi.isLt
  unfold pos
  omega

/-- One byte that finds room. -/
theorem outputByte_stored (h : Port owed e) (hcap : cap ≤ outCapLimit) (hroom : e.outWi.toNat < cap)
    (b : Byte) : ∃ e', outputByte cap b e = .ok e' ∧ Stored owed e e' [b] := by
  obtain ⟨w, hw, -⟩ := mergedWord_of_writerInv h b
  have done : outputByte cap b e = .ok (nextLane { e with out := Memory.write e.out e.outWi.toNat w }) := by
    rw [outputByte, if_neg (Nat.not_le_of_lt hroom), show mergedWord b e = some w from hw]
  refine ⟨_, done, ?_, ?_, outputByte_frame done, ?_⟩
  · rw [nextLane_frame]; exact appended_mergedWord h hw
  · exact pos_nextLane (e := { e with out := _ }) (Nat.lt_of_lt_of_le hroom hcap)
  · refine (safe_iff.1 (outputByte_safe h hcap le_rfl b)).1 _ ?_
    rw [outputByte_blind portBlind_withoutList, done]; rfl

/-- Bytes that find room are stored. -/
theorem storeAll_stored {o : List Byte} (h : Port owed e) (hcap : cap ≤ outCapLimit)
    (hroom : fits cap e o) : ∃ e', storeAll cap o e = .ok e' ∧ Stored owed e e' o := by
  induction o generalizing owed e with
  | nil => exact ⟨e, rfl, appended_nil _ _, rfl, rfl, h⟩
  | cons b o ih =>
    have room : pos e + (o.length + 1) ≤ 4 * cap := by simpa [fits] using hroom
    obtain ⟨e₁, h₁, s₁⟩ := outputByte_stored h hcap (outWi_lt_iff.2 (by omega)) b
    have position : pos e₁ = pos e + 1 := s₁.position
    obtain ⟨e₂, h₂, s₂⟩ := ih s₁.port (.inr (by omega))
    refine ⟨e₂, by rw [storeAll, h₁]; exact h₂, appended_cons s₁.out (position ▸ s₂.out), ?_, ?_, ?_⟩
    · rw [s₂.position, position, List.length_cons]; omega
    · rw [s₂.frame, s₁.frame]
    · exact s₂.port.mono (by simp only [List.length_cons, List.length_nil]; omega)

/-- The information of `OutOverflow`: the word index at the failing byte (R133). -/
def overflow (cap : Nat) (e : Encoder) : Stop :=
  .raise .outOverflow (BitVec.ofNat 32 (max cap e.outWi.toNat))

/-- Bytes that find no room raise `OutOverflow`. -/
theorem storeAll_overflow {o : List Byte} (h : Port owed e) (hcap : cap ≤ outCapLimit)
    (hroom : ¬fits cap e o) : storeAll cap o e = .error (overflow cap e) := by
  induction o generalizing owed e with
  | nil => exact absurd (.inl rfl) hroom
  | cons b o ih =>
    by_cases hfull : cap ≤ e.outWi.toNat
    · have info : BitVec.setWidth 32 e.outWi = BitVec.ofNat 32 (max cap e.outWi.toNat) := by
        rw [Nat.max_eq_right hfull, BitVec.ofNat_toNat]
      rw [storeAll, outputByte, if_pos hfull, info]; rfl
    · have hlt : e.outWi.toNat < cap := Nat.lt_of_not_le hfull
      obtain ⟨e₁, h₁, s₁⟩ := outputByte_stored h hcap hlt b
      have position : pos e₁ = pos e + 1 := s₁.position
      have tooLong : 4 * cap < pos e + (o.length + 1) := by simpa [fits] using hroom
      have inside : e₁.outWi.toNat ≤ cap := by
        have first := outWi_lt_iff.1 hlt
        unfold pos at position first
        have := e₁.outBi.isLt
        omega
      have same : overflow cap e₁ = overflow cap e := by
        rw [overflow, overflow, Nat.max_eq_left inside, Nat.max_eq_left (Nat.le_of_lt hlt)]
      have rest : ¬fits cap e₁ o := by
        rintro (rfl | hfit)
        · have := outWi_lt_iff.1 hlt
          simp only [List.length_nil] at tooLong
          omega
        · omega
      rw [storeAll, h₁, ← same]
      exact ih s₁.port rest

end Sys2Proof.BitWriterFamily
end

section
/-! SUPPORT. Emulation prevention on a list of data bytes (spec/41_bitwriter.md R135, R136, R152). -/

namespace Sys2Proof.BitWriterFamily

open Sys2Proof.Machine Sys2Proof.Safety

/-! ## One data byte after the other -/

theorem epMarked_append (z : Nat) (a b : List Byte) :
    epMarked z (a ++ b) = epMarked z a ++ epMarked (epCount z a) b := by
  induction a generalizing z with
  | nil => rfl
  | cons x a ih =>
    by_cases hs : 2 ≤ z ∧ x.toNat ≤ 3
    · simp [epMarked, epCount, hs, ih]
    · by_cases hx : x = 0
      · have hz : ¬2 ≤ z := fun hz => hs ⟨hz, by simp [hx]⟩
        simp [epMarked, epCount, hx, hz, ih]
      · simp only [List.cons_append, epMarked, epCount, if_neg hs, if_neg hx, ih]

theorem epCount_append (z : Nat) (a b : List Byte) :
    epCount z (a ++ b) = epCount (epCount z a) b := by
  induction a generalizing z with
  | nil => rfl
  | cons x a ih => exact ih _

theorem epCount_le {z m : Nat} (hm : 2 ≤ m) (hz : z ≤ m) (data : List Byte) : epCount z data ≤ m := by
  induction data generalizing z with
  | nil => exact hz
  | cons b data ih => exact ih (by split_ifs <;> omega)

/-- Emulation prevention only adds bytes. -/
theorem length_le_epMarked (z : Nat) (data : List Byte) : data.length ≤ (epMarked z data).length := by
  induction data generalizing z with
  | nil => exact Nat.le_refl _
  | cons b data ih =>
    unfold epMarked
    split
    · have rest := ih (if b = 0 then 1 else 0)
      simp only [List.length_cons]
      omega
    · exact Nat.succ_le_succ (ih _)

/-! ## The properties of R136 -/

/-- Without the stuffing bytes the bytes are the data bytes (R136 (c)). -/
theorem unmarked_epMarked (z : Nat) (data : List Byte) :
    ((epMarked z data).filter fun x => !x.2).map Prod.fst = data := by
  induction data generalizing z with
  | nil => rfl
  | cons b data ih =>
    unfold epMarked
    split <;> simp [ih]

/-- The reader that deletes each 3 after two zero bytes finds the data bytes (R136 (c)). -/
theorem unstuff_epMarked (z : Nat) (data : List Byte) :
    unstuff z ((epMarked z data).map Prod.fst) = data := by
  induction data generalizing z with
  | nil => rfl
  | cons b data ih =>
    unfold epMarked
    split
    · rename_i hs
      simp [unstuff, hs.1, ih]
    · rename_i hs
      have kept : ¬(2 ≤ z ∧ b = 3) := fun ⟨hz, hb⟩ => hs ⟨hz, by simp [hb]⟩
      rw [List.map_cons, unstuff, if_neg kept, ih]

/-- A stuffing byte needs two zero bytes, which count once only (R152). -/
theorem two_mul_stuffed_le (z : Nat) (data : List Byte) :
    2 * ((epMarked z data).filter fun x => x.2).length ≤ data.length + z := by
  induction data generalizing z with
  | nil => simp [epMarked]
  | cons b data ih =>
    unfold epMarked
    split
    · have rest := ih (if b = 0 then 1 else 0)
      simp only [List.filter_cons, List.length_cons, if_true, Bool.false_eq_true, if_false]
      split_ifs at rest ⊢ <;> omega
    · have rest := ih (if b = 0 then z + 1 else 0)
      simp only [List.filter_cons, List.length_cons, Bool.false_eq_true, if_false]
      split_ifs at rest ⊢ <;> omega

/-- Behind `z` zero bytes, every byte that follows two zero bytes is at least 3, and a 3 there is a
stuffing byte (R136 (a), (b)). -/
def Guarded : Nat → List (Byte × Bool) → Prop
  | _, [] => True
  | z, (b, stuffing) :: l =>
    (2 ≤ z → 3 ≤ b.toNat ∧ (b = 3 → stuffing = true)) ∧ Guarded (if b = 0 then z + 1 else 0) l

theorem guarded_epMarked (z : Nat) (data : List Byte) : Guarded z (epMarked z data) := by
  induction data generalizing z with
  | nil => trivial
  | cons b data ih =>
    unfold epMarked
    split
    · exact ⟨fun _ => ⟨by decide, fun _ => rfl⟩, fun h => absurd h (Nat.not_succ_le_zero 1), ih _⟩
    · rename_i hs
      have large : 2 ≤ z → 3 < b.toNat := fun hz => Nat.lt_of_not_le fun hb => hs ⟨hz, hb⟩
      refine ⟨fun hz => ⟨Nat.le_of_lt (large hz), ?_⟩, ih _⟩
      rintro rfl
      exact absurd (large hz) (by decide)

/-- What `Guarded` says of three bytes in a row. -/
theorem Guarded.after_zeros {z : Nat} {l : List (Byte × Bool)} (h : Guarded z l) {k : Nat} {b : Byte}
    (h₀ : (l.map Prod.fst)[k]? = some 0) (h₁ : (l.map Prod.fst)[k + 1]? = some 0)
    (h₂ : (l.map Prod.fst)[k + 2]? = some b) :
    3 ≤ b.toNat ∧ (b = 3 → l[k + 2]? = some (3, true)) := by
  induction k generalizing z l with
  | zero =>
    match l, h with
    | [], _ => cases h₀
    | [_], _ => cases h₁
    | [_, _], _ => cases h₂
    | (x, _) :: (y, _) :: (c, stuffing) :: l, ⟨_, _, hc, _⟩ =>
      obtain rfl : x = 0 := by simpa using h₀
      obtain rfl : y = 0 := by simpa using h₁
      obtain rfl : c = b := by simpa using h₂
      have guarded := hc (by simp)
      exact ⟨guarded.1, fun h3 => by simp [h3, guarded.2 h3]⟩
  | succ k ih =>
    match l, h with
    | [], _ => cases h₀
    | _ :: l, ⟨_, hl⟩ =>
      simpa using ih hl (by simpa using h₀) (by simpa using h₁) (by simpa using h₂)

/-! ## The bytes that reach OUT -/

@[simp] theorem emitted_nil (e : Encoder) : emitted e [] = [] := by simp [emitted, epMarked]

@[simp] theorem nzAfter_nil (e : Encoder) : nzAfter e [] = e.nz.toNat := by simp [nzAfter, epCount]

theorem length_le_emitted (e : Encoder) (data : List Byte) :
    data.length ≤ (emitted e data).length := by
  unfold emitted
  split
  · simpa using length_le_epMarked e.nz.toNat data
  · exact Nat.le_refl _

theorem nzAfter_le {e : Encoder} {m : Nat} (hm : 2 ≤ m) (hz : e.nz.toNat ≤ m) (data : List Byte) :
    nzAfter e data ≤ m := by
  unfold nzAfter
  split
  · exact epCount_le hm hz data
  · exact hz

theorem nzAfter_lt (e : Encoder) (data : List Byte) : nzAfter e data < 4 :=
  Nat.lt_succ_of_le (nzAfter_le (by decide) (Nat.le_of_lt_succ e.nz.isLt) data)

/-- The bytes depend on the flag and the counter alone. -/
theorem emitted_congr {e e' : Encoder} (hep : e'.ep = e.ep) (hnz : e'.nz = e.nz) (data : List Byte) :
    emitted e' data = emitted e data := by
  rw [emitted, hep, hnz, emitted]

/-- A first part of the data leaves its counter to the second. -/
theorem emitted_append {e e' : Encoder} {a : List Byte} (hep : e'.ep = e.ep)
    (hnz : e'.nz.toNat = nzAfter e a) (b : List Byte) :
    emitted e (a ++ b) = emitted e a ++ emitted e' b := by
  unfold emitted nzAfter at *
  rw [hep, hnz]
  split
  · rw [epMarked_append, List.map_append]
  · rfl

theorem nzAfter_append {e e' : Encoder} {a : List Byte} (hep : e'.ep = e.ep)
    (hnz : e'.nz.toNat = nzAfter e a) (b : List Byte) :
    nzAfter e (a ++ b) = nzAfter e' b := by
  unfold nzAfter at *
  rw [hep, hnz]
  split
  · exact epCount_append _ _ _
  · rfl

end Sys2Proof.BitWriterFamily
end

section
/-! SUPPORT. Draining (spec/41_bitwriter.md R135): data bytes drained one after the other are the bytes of
`emitted` stored one after the other, and then two counters. -/

namespace Sys2Proof.BitWriterFamily

open Sys2Proof.Machine Sys2Proof.Safety Sys2Proof.StateFamily

variable {cap owed : Nat} {e e' : Encoder}

/-! ## Updates of the registers of the bit writer -/

/-- The zero counter set, and `k` bits counted. -/
def setCounters (z : BitVec 2) (k : Word) (e : Encoder) : Encoder :=
  { e with nz := z, bitsOut := e.bitsOut + k }

theorem portBlind_setCounters (z : BitVec 2) (k : Word) : PortBlind (setCounters z k) :=
  fun _ _ _ _ => rfl

theorem setCounters_setCounters (y z : BitVec 2) (j k : Word) (e : Encoder) :
    setCounters z k (setCounters y j e) = setCounters z (j + k) e := by
  simp only [setCounters, BitVec.add_assoc]

theorem setCounters_zero (z : BitVec 2) (e : Encoder) : setCounters z 0 e = { e with nz := z } := by
  simp [setCounters]

/-- The shifter and its count set, and `k` bits counted. -/
def setShifter (x : Word) (n : BitVec 6) (k : Word) (e : Encoder) : Encoder :=
  { e with shifter := x, nbits := n, bitsOut := e.bitsOut + k }

theorem portBlind_setShifter (x : Word) (n : BitVec 6) (k : Word) : PortBlind (setShifter x n k) :=
  fun _ _ _ _ => rfl

theorem setShifter_setShifter (x y : Word) (m n : BitVec 6) (j k : Word) (e : Encoder) :
    setShifter y n k (setShifter x m j e) = setShifter y n (j + k) e := by
  simp only [setShifter, BitVec.add_assoc]

/-- The two updates commute. -/
theorem setCounters_setShifter (z : BitVec 2) (k : Word) (x : Word) (n : BitVec 6) (j : Word)
    (e : Encoder) : setCounters z k (setShifter x n j e) = setShifter x n j (setCounters z k e) := by
  simp only [setCounters, setShifter, BitVec.add_assoc, BitVec.add_comm j k]

/-! ## Draining is storing -/

/-- The counters once the data bytes are drained from `e`: the zero counter of R135, and 8 bits counted
for each stuffing byte. -/
def drainCounters (e : Encoder) (data : List Byte) : Encoder → Encoder :=
  setCounters (BitVec.ofNat 2 (nzAfter e data))
    (BitVec.ofNat 32 (8 * ((emitted e data).length - data.length)))

@[simp] theorem drainCounters_nz (e : Encoder) (data : List Byte) (e' : Encoder) :
    (drainCounters e data e').nz.toNat = nzAfter e data :=
  Nat.mod_eq_of_lt (nzAfter_lt e data)

/-- The counters of a first part and then of the second are those of both parts. -/
theorem drainCounters_append {e₁ : Encoder} (a b : List Byte) (hep : e₁.ep = e.ep)
    (hnz : e₁.nz.toNat = nzAfter e a) (e' : Encoder) :
    drainCounters e₁ b (drainCounters e a e') = drainCounters e (a ++ b) e' := by
  have sum : 8 * ((emitted e a).length - a.length) + 8 * ((emitted e₁ b).length - b.length) =
      8 * ((emitted e (a ++ b)).length - (a ++ b).length) := by
    have ha := length_le_emitted e a
    have hb := length_le_emitted e₁ b
    rw [emitted_append hep hnz, List.length_append, List.length_append]
    omega
  rw [drainCounters, drainCounters, drainCounters, setCounters_setCounters, ← BitVec.ofNat_add, sum,
    nzAfter_append hep hnz]

/-- The zero counter after one data byte. -/
theorem ofNat_epCount_singleton (nz : BitVec 2) (b : Byte) :
    BitVec.ofNat 2 (epCount nz.toNat [b]) = countZero (if stuffs nz b then 0 else nz) b := by
  unfold countZero
  by_cases hb : b = 0
  · by_cases hz : 2 ≤ nz.toNat <;> simp [epCount, stuffs, hb, hz, BitVec.ofNat_add]
  · simp only [epCount, if_neg hb]; rfl

theorem drainByte_eq (cap : Nat) (b : Byte) (e : Encoder) :
    drainByte cap b e = (storeAll cap (emitted e [b]) e).map (drainCounters e [b]) := by
  unfold drainByte
  split
  · rename_i hep
    have zeros : BitVec.ofNat 2 (nzAfter e [b]) = countZero (if stuffs e.nz b then 0 else e.nz) b := by
      rw [nzAfter, if_pos hep, ofNat_epCount_singleton]
    by_cases hs : stuffs e.nz b
    · have stuffed : 2 ≤ e.nz.toNat ∧ b.toNat ≤ 3 := by simpa [stuffs] using hs
      have bytes : emitted e [b] = [3] ++ [b] := by simp [emitted, epMarked, hep, stuffed]
      have counters : drainCounters e [b] = setCounters (countZero 0 b) 8 := by
        rw [drainCounters, zeros, if_pos hs, bytes]; rfl
      rw [if_pos hs, counters, bytes, storeAll_append, storeAll_singleton, stuffByte]
      cases outputByte cap 3 e with
      | error z => rfl
      | ok e₁ =>
        show outputByte cap b (setCounters (countZero 0 b) 8 e₁) = (storeAll cap [b] e₁).map _
        rw [outputByte_blind (portBlind_setCounters _ _), storeAll_singleton]
    · have unstuffed : ¬(2 ≤ e.nz.toNat ∧ b.toNat ≤ 3) := by simpa [stuffs] using hs
      have bytes : emitted e [b] = [b] := by simp [emitted, epMarked, hep, unstuffed]
      have counters : drainCounters e [b] = setCounters (countZero e.nz b) 0 := by
        rw [drainCounters, zeros, if_neg hs, bytes]; rfl
      rw [if_neg hs, counters, bytes, storeAll_singleton,
        ← outputByte_blind (portBlind_setCounters _ _), setCounters_zero]
      rfl
  · rename_i hep
    have bytes : emitted e [b] = [b] := by simp [emitted, hep]
    have counters : drainCounters e [b] = setCounters e.nz 0 := by
      rw [drainCounters, bytes]; simp [nzAfter, hep]
    rw [counters, bytes, storeAll_singleton, ← outputByte_blind (portBlind_setCounters _ _),
      setCounters_zero]

theorem drainAll_eq (cap : Nat) (data : List Byte) (e : Encoder) :
    drainAll cap data e = (storeAll cap (emitted e data) e).map (drainCounters e data) := by
  induction data generalizing e with
  | nil =>
    have counters : drainCounters e [] e = e := by simp [drainCounters, setCounters]
    rw [emitted_nil]
    exact congrArg Except.ok counters.symm
  | cons b data ih =>
    have next : (drainCounters e [b] e).nz.toNat = nzAfter e [b] := drainCounters_nz e [b] e
    have bytes := emitted_append (e := e) (e' := drainCounters e [b] e) rfl next data
    rw [show b :: data = [b] ++ data from rfl, bytes, storeAll_append, List.singleton_append, drainAll,
      drainByte_eq]
    cases h : storeAll cap (emitted e [b]) e with
    | error z => rfl
    | ok e₁ =>
      have hep : (drainCounters e [b] e₁).ep = e.ep := by rw [storeAll_frame h]; rfl
      have hnz := drainCounters_nz e [b] e₁
      show drainAll cap data (drainCounters e [b] e₁) = (storeAll cap _ e₁).map _
      have same : emitted (drainCounters e [b] e₁) data = emitted (drainCounters e [b] e) data :=
        emitted_congr (e := drainCounters e [b] e) hep rfl data
      rw [ih, same, storeAll_blind (g := drainCounters e [b]) (portBlind_setCounters _ _)]
      cases storeAll cap (emitted (drainCounters e [b] e) data) e₁ with
      | error z => rfl
      | ok e₂ => exact congrArg Except.ok (drainCounters_append [b] data hep hnz e₂)

theorem drainAll_append (cap : Nat) (a b : List Byte) (e : Encoder) :
    drainAll cap (a ++ b) e = (drainAll cap a e).bind (drainAll cap b) := by
  induction a generalizing e with
  | nil => rfl
  | cons x a ih =>
    simp only [List.cons_append, drainAll]
    cases drainByte cap x e with
    | error z => rfl
    | ok e' => exact ih e'

theorem drainAll_singleton (cap : Nat) (b : Byte) (e : Encoder) :
    drainAll cap [b] e = drainByte cap b e := by
  unfold drainAll
  cases drainByte cap b e <;> rfl

/-- Draining does not look at the shifter, nor at the bits counted. -/
theorem drainAll_setShifter (cap : Nat) (data : List Byte) (x : Word) (n : BitVec 6) (k : Word)
    (e : Encoder) :
    drainAll cap data (setShifter x n k e) = (drainAll cap data e).map (setShifter x n k) := by
  have bytes : emitted (setShifter x n k e) data = emitted e data := emitted_congr rfl rfl data
  rw [drainAll_eq, drainAll_eq, bytes, storeAll_blind (portBlind_setShifter x n k)]
  cases storeAll cap (emitted e data) e with
  | error z => rfl
  | ok e' => exact congrArg Except.ok (setCounters_setShifter _ _ _ _ _ _)

theorem drainByte_setShifter (cap : Nat) (b : Byte) (x : Word) (n : BitVec 6) (k : Word) (e : Encoder) :
    drainByte cap b (setShifter x n k e) = (drainByte cap b e).map (setShifter x n k) := by
  simpa only [drainAll_singleton] using drainAll_setShifter cap [b] x n k e

/-! ## What drained bytes leave -/

/-- `e'` is `e` after data bytes were drained. -/
structure Drained (owed : Nat) (e e' : Encoder) (data : List Byte) : Prop where
  out : Appended e.out e'.out (pos e) (emitted e data)
  position : pos e' = pos e + (emitted e data).length
  zeros : e'.nz.toNat = nzAfter e data
  total : e'.bitsOut = e.bitsOut + BitVec.ofNat 32 (8 * ((emitted e data).length - data.length))
  frame : e' = { e with nz := e'.nz, bitsOut := e'.bitsOut, outWi := e'.outWi, outBi := e'.outBi,
                        out := e'.out }
  port : Port (owed + 8 * data.length) e'

/-- Data bytes whose output finds room are drained. -/
theorem drainAll_drained {data : List Byte} (h : Port owed e) (hcap : cap ≤ outCapLimit)
    (hroom : fits cap e (emitted e data)) :
    ∃ e', drainAll cap data e = .ok e' ∧ Drained owed e e' data := by
  obtain ⟨e₁, h₁, s⟩ := storeAll_stored h hcap hroom
  have bits : e₁.bitsOut = e.bitsOut := by rw [s.frame]
  have longer := length_le_emitted e data
  refine ⟨drainCounters e data e₁, by rw [drainAll_eq, h₁]; rfl, s.out, s.position,
    drainCounters_nz _ _ _, ?_, ?_, ?_⟩
  · exact congrArg (· + _) bits
  · rw [s.frame]; rfl
  · have stuffing : (BitVec.ofNat 32 (8 * ((emitted e data).length - data.length))).toNat ≤
        owed + 8 * (emitted e data).length :=
      (Nat.mod_le _ _).trans (by omega)
    have zeros : (BitVec.ofNat 2 (nzAfter e data)).toNat ≤ 2 :=
      (Nat.mod_le _ _).trans (nzAfter_le le_rfl h.zeros data)
    refine WriterInv.mono ((s.port.count le_rfl stuffing).setEpZeros e₁.ep zeros) ?_
    have : (BitVec.ofNat 32 (8 * ((emitted e data).length - data.length))).toNat ≤
        8 * ((emitted e data).length - data.length) := Nat.mod_le _ _
    omega

/-- Data bytes whose output finds no room raise `OutOverflow`. -/
theorem drainAll_overflow {data : List Byte} (h : Port owed e) (hcap : cap ≤ outCapLimit)
    (hroom : ¬fits cap e (emitted e data)) : drainAll cap data e = .error (overflow cap e) := by
  rw [drainAll_eq, storeAll_overflow h hcap hroom]; rfl

theorem port_of_encInv {ilMax : Nat} (h : EncInv ilMax e) : Port 0 e :=
  port_of_writerInv (ready_of_encInv h h.inside).writer

/-- Settles O37. -/
theorem drainStores : Obligations.DrainStores := by
  intro ilMax cap data e h hcap hroom
  obtain ⟨e', hx, d⟩ := drainAll_drained (port_of_encInv h) hcap hroom
  exact ⟨e', hx, d.out, d.position, d.zeros, d.total, d.frame⟩

end Sys2Proof.BitWriterFamily
end

section
/-! SUPPORT. Fixed-width coding (spec/41_bitwriter.md R137, R148, R149): `put_bits` and the bit-serial form
both feed a bit string, and a bit string can be fed in parts. -/

namespace Sys2Proof.BitWriterFamily

open Sys2Proof.Machine Sys2Proof.Safety

variable {cap : Nat} {e : Encoder}

/-! ## Held bits -/

/-- The bits `bs` held, and `k` bits counted. -/
def holding (bs : List Bool) (k : Nat) : Encoder → Encoder :=
  setShifter (wordOf bs) (BitVec.ofNat 6 bs.length) (BitVec.ofNat 32 k)

@[simp] theorem holding_shifter (bs : List Bool) (k : Nat) (e : Encoder) :
    (holding bs k e).shifter = wordOf bs := rfl

theorem holding_nbits {bs : List Bool} (h : bs.length ≤ 32) (k : Nat) (e : Encoder) :
    (holding bs k e).nbits.toNat = bs.length :=
  Nat.mod_eq_of_lt (by omega)

theorem holding_holding (a b : List Bool) (j k : Nat) (e : Encoder) :
    holding b k (holding a j e) = holding b (j + k) e := by
  rw [holding, holding, holding, setShifter_setShifter, ← BitVec.ofNat_add]

theorem length_heldBits (e : Encoder) : (heldBits e).length = e.nbits.toNat := by simp [heldBits]

theorem heldBits_holding {bs : List Bool} (h : bs.length ≤ 32) (k : Nat) (e : Encoder) :
    heldBits (holding bs k e) = bs := by
  refine List.ext_getElem (by rw [length_heldBits, holding_nbits h]) fun i _ hi => ?_
  have bit := getMsbD_wordOf h i
  have inside : i < 32 := by omega
  rw [BitVec.getMsbD_eq_getLsbD, decide_eq_true inside, Bool.true_and] at bit
  simpa [heldBits, List.getD, hi] using bit

/-- The encoder between commands, as far as its shifter goes (10_state.md R25, R26). -/
structure Partial (e : Encoder) : Prop where
  held : e.nbits.toNat ≤ 7
  lowZero : e.shifter <<< e.nbits.toNat = 0

/-- Such an encoder is determined by the bits it holds. -/
theorem Partial.eq_holding (h : Partial e) : holding (heldBits e) 0 e = e := by
  have length : (heldBits e).length = e.nbits.toNat := length_heldBits e
  have held := h.held
  have shifter : e.shifter = wordOf (heldBits e) := by
    refine eq_wordOf (by omega) fun i hi => ?_
    by_cases hin : i < e.nbits.toNat
    · simp [List.getD, heldBits, hin, BitVec.getMsbD_eq_getLsbD, hi]
    · have bit : (e.shifter <<< e.nbits.toNat).getMsbD (i - e.nbits.toNat) = false := by
        rw [h.lowZero]; simp
      have index : i - e.nbits.toNat + e.nbits.toNat = i := by omega
      rw [BitVec.getMsbD_shiftLeft, index] at bit
      simp [bit, List.getD, heldBits, hin]
  have count : e.nbits = BitVec.ofNat 6 (heldBits e).length := by rw [length]; simp
  simp only [holding, setShifter, ← shifter, ← count]
  simp

theorem partial_holding {bs : List Bool} (h : bs.length ≤ 7) (k : Nat) (e : Encoder) :
    Partial (holding bs k e) where
  held := by rw [holding_nbits (by omega)]; exact h
  lowZero := by rw [holding_nbits (by omega), holding_shifter, wordOf_shiftLeft_length (by omega)]

/-! ## Feeding a bit string -/

/-- The whole bytes of a bit string drained, each counted, and the rest held. -/
def feed (cap : Nat) (bs : List Bool) (e : Encoder) : Result Encoder :=
  (drainAll cap (bytesOf bs) e).map (holding (restBits bs) (8 * (bytesOf bs).length))

/-- What the shifter held before does not matter, and earlier counts add up. -/
theorem feed_holding (a bs : List Bool) (k : Nat) (e : Encoder) :
    feed cap bs (holding a k e) =
      (drainAll cap (bytesOf bs) e).map (holding (restBits bs) (k + 8 * (bytesOf bs).length)) := by
  show Except.map _ (drainAll cap (bytesOf bs) (setShifter _ _ _ e)) = _
  rw [drainAll_setShifter]
  cases drainAll cap (bytesOf bs) e with
  | error z => rfl
  | ok e' => exact congrArg Except.ok (holding_holding _ _ _ _ _)

theorem feed_held (a bs : List Bool) (e : Encoder) : feed cap bs (holding a 0 e) = feed cap bs e := by
  rw [feed_holding, Nat.zero_add, feed]

/-- Bits that complete no byte are held. -/
theorem feed_short {bs : List Bool} (h : bs.length < 8) (e : Encoder) :
    feed cap bs e = .ok (holding bs 0 e) := by
  rw [feed, bytesOf_short h, restBits_short h]; rfl

/-- A bit string fed in two parts: the bits left over by the first stand before the second. -/
theorem feed_append (cap : Nat) (xs ys : List Bool) (e : Encoder) :
    (feed cap xs e).bind (fun e' => feed cap (restBits xs ++ ys) e') = feed cap (xs ++ ys) e := by
  rw [feed, feed, bytesOf_append, restBits_append, drainAll_append]
  cases drainAll cap (bytesOf xs) e with
  | error z => rfl
  | ok e₁ =>
    show feed cap (restBits xs ++ ys) (holding _ _ e₁) = _
    rw [feed_holding, List.length_append, Nat.mul_add]
    rfl

/-- The state after a bit string was fed is one between commands, which holds the rest. -/
theorem feed_ok {bs : List Bool} {e' : Encoder} (h : feed cap bs e = .ok e') :
    Partial e' ∧ heldBits e' = restBits bs := by
  have short := length_restBits_lt bs
  obtain ⟨e₁, -, rfl⟩ := result_map_ok.1 h
  exact ⟨partial_holding (by omega) _ _, heldBits_holding (by omega) _ _⟩

/-! ## Procedures that put bits -/

/-- Between commands, the procedure feeds the bits `bs` behind the held ones. -/
def Puts (cap : Nat) (bs : List Bool) (f : Encoder → Result Encoder) : Prop :=
  ∀ e, Partial e → f e = feed cap (heldBits e ++ bs) e

theorem puts_nil : Puts cap [] .ok := fun e h => by
  have short : (heldBits e).length < 8 := by have := h.held; rw [length_heldBits]; omega
  rw [List.append_nil, feed_short short, h.eq_holding]

/-- A procedure that puts bits, after a bit string was fed. -/
theorem Puts.after_feed {ys : List Bool} {g : Encoder → Result Encoder} (hg : Puts cap ys g)
    (xs : List Bool) (e : Encoder) : (feed cap xs e).bind g = feed cap (xs ++ ys) e := by
  rw [← feed_append]
  cases hx : feed cap xs e with
  | error z => rfl
  | ok e' =>
    obtain ⟨hp, held⟩ := feed_ok hx
    exact (hg e' hp).trans (by rw [held]; rfl)

/-- Two procedures, one after the other. -/
theorem Puts.bind {xs ys : List Bool} {f g : Encoder → Result Encoder} (hf : Puts cap xs f)
    (hg : Puts cap ys g) : Puts cap (xs ++ ys) fun e => (f e).bind g := fun e h => by
  show (f e).bind g = _
  rw [hf e h, hg.after_feed, List.append_assoc]

/-! ## The loops of `put_bits` (R137) -/

/-- The inner loop drains the whole bytes held. -/
theorem drainHeld_holding {bs : List Bool} (h : bs.length ≤ 32) (j : Nat) (e : Encoder) :
    drainHeld cap (bs.length / 8) (holding bs j e) = feed cap bs (holding bs j e) := by
  generalize hk : bs.length / 8 = k
  induction k generalizing bs j e with
  | zero =>
    have short : bs.length < 8 := by omega
    rw [feed_short short, holding_holding]; rfl
  | succ k ih =>
    have long : 8 ≤ bs.length := by omega
    have drop : (bs.drop 8).length = bs.length - 8 := List.length_drop
    have count : BitVec.ofNat 6 bs.length - 8 = BitVec.ofNat 6 (bs.drop 8).length := by
      refine BitVec.eq_of_toNat_eq ?_
      rw [drop, BitVec.toNat_sub, BitVec.toNat_ofNat, BitVec.toNat_ofNat]
      simp
      omega
    have shifted : { holding bs j e with shifter := (holding bs j e).shifter <<< 8 } =
        setShifter (wordOf (bs.drop 8)) (BitVec.ofNat 6 bs.length) (BitVec.ofNat 32 j) e := by
      rw [holding_shifter, wordOf_shiftLeft h]; rfl
    have counted : ∀ e₁, holding (bs.drop 8) (j + 8) e₁ =
        { setShifter (wordOf (bs.drop 8)) (BitVec.ofNat 6 bs.length) (BitVec.ofNat 32 j) e₁ with
          nbits := BitVec.ofNat 6 bs.length - 8
          bitsOut := e₁.bitsOut + BitVec.ofNat 32 j + 8 } := fun e₁ => by
      rw [count, BitVec.add_assoc]
      simp only [holding, BitVec.ofNat_add]
      rfl
    rw [drainHeld, shifted, holding_shifter, firstByte_wordOf long h, drainByte_setShifter, feed_holding,
      bytesOf_long long, restBits_long long, drainAll]
    cases drainByte cap (BitVec.ofNat 8 (natOf (bs.take 8))) e with
    | error z => rfl
    | ok e₁ =>
      refine (congrArg (drainHeld cap k) (counted e₁).symm).trans ?_
      rw [ih (by omega) _ _ (by omega), feed_holding, List.length_cons]
      refine congrArg (fun n => Except.map (holding _ n) (drainAll cap (bytesOf (bs.drop 8)) e₁)) ?_
      omega

/-- Bits put below the held ones. -/
theorem holdBits_append {bs : List Bool} {take : Nat} (h : bs.length + take ≤ 32) (v j : Nat)
    (e : Encoder) :
    holdBits (v % 2 ^ take) take (holding bs j e) = holding (bs ++ bitsOf v take) j e := by
  have nbits : (holding bs j e).nbits.toNat = bs.length := holding_nbits (by omega) j e
  have shifter : wordOf bs ||| (BitVec.ofNat 32 (v % 2 ^ take) <<< (32 - bs.length - take)) =
      wordOf (bs ++ bitsOf v take) := by
    refine eq_wordOf (by simpa using h) fun i hi => ?_
    rw [BitVec.getMsbD_or, getMsbD_wordOf (by omega), BitVec.getMsbD_shiftLeft,
      BitVec.getMsbD_eq_getLsbD, BitVec.getLsbD_ofNat, Nat.testBit_mod_two_pow]
    by_cases before : i < bs.length
    · have high : ¬32 - 1 - (i + (32 - bs.length - take)) < take := by omega
      simp [List.getD, List.getElem?_append, before, high]
    · have split : (bs ++ bitsOf v take).getD i false = (bitsOf v take).getD (i - bs.length) false := by
        simp [List.getD, List.getElem?_append, before]
      rw [split, getD_bitsOf]
      by_cases inside : i - bs.length < take
      · have index : 32 - 1 - (i + (32 - bs.length - take)) = take - 1 - (i - bs.length) := by omega
        have low : i + (32 - bs.length - take) < 32 := by omega
        have small : take - 1 - (i - bs.length) < 32 := by omega
        have last : take - 1 - (i - bs.length) < take := by omega
        rw [index]
        simp [List.getD, before, inside, low, small, last]
      · have out : ¬i + (32 - bs.length - take) < 32 := by omega
        simp [List.getD, before, inside, out]
  have count : BitVec.ofNat 6 bs.length + BitVec.ofNat 6 take =
      BitVec.ofNat 6 (bs ++ bitsOf v take).length := by
    rw [List.length_append, length_bitsOf, BitVec.ofNat_add]
  rw [holdBits, nbits, holding_shifter, shifter]
  simp only [holding, setShifter, count]

/-- The outer loop puts the bits left. -/
theorem putLoop_puts {v fuel rem : Nat} (hfuel : rem < fuel) :
    Puts cap (bitsOf v rem) (putLoop cap v fuel rem) := by
  induction fuel generalizing rem with
  | zero => exact absurd hfuel (Nat.not_lt_zero _)
  | succ fuel ih =>
    intro e h
    unfold putLoop
    split
    · rename_i hrem
      rw [hrem]
      exact puts_nil e h
    · rename_i hrem
      have held := h.held
      have count : (heldBits e).length = e.nbits.toNat := length_heldBits e
      obtain ⟨take, htake⟩ : ∃ take, take = min rem (32 - e.nbits.toNat) := ⟨_, rfl⟩
      have room : (heldBits e).length + take ≤ 32 := by omega
      have parts : bitsOf v rem = bitsOf (v >>> (rem - take)) take ++ bitsOf v (rem - take) := by
        rw [← bitsOf_add]; congr 1; omega
      have total : (heldBits e ++ bitsOf (v >>> (rem - take)) take).length ≤ 32 := by simpa using room
      have put := holdBits_append room (v >>> (rem - take)) 0 e
      rw [h.eq_holding] at put
      simp only [← htake]
      rw [put, holding_nbits total, drainHeld_holding total, feed_held,
        Puts.after_feed (ih (rem := rem - take) (by omega)), parts, List.append_assoc]

/-- `put_bits` feeds the low `n` bits of its value (R137). -/
theorem putBits_puts (cap : Nat) (value : Word) (n : Nat) :
    Puts cap (bitsOf value.toNat n) (putBits cap value n) := fun e h => by
  rw [putBits, putLoop_puts (Nat.lt_succ_self n) e h, bitsOf_mod]

/-- One bit of the bit-serial form (R149) is put below the held ones as `put_bits` puts it. -/
theorem putBit_eq (cap : Nat) (b : Bool) (e : Encoder) : putBit cap b e =
    if (holdBits b.toNat 1 e).nbits = 8 then
      (drainByte cap ((holdBits b.toNat 1 e).shifter.extractLsb' 24 8)
        { holdBits b.toNat 1 e with shifter := 0, nbits := 0 }).map fun e₂ =>
          { e₂ with bitsOut := e₂.bitsOut + 8 }
    else .ok (holdBits b.toNat 1 e) := by
  have bit : { e with
      shifter := e.shifter ||| (if b then BitVec.twoPow 32 (31 - e.nbits.toNat) else 0)
      nbits := e.nbits + 1 } = holdBits b.toNat 1 e := by
    have index : 32 - e.nbits.toNat - 1 = 31 - e.nbits.toNat := by omega
    cases b <;> simp [holdBits, index, BitVec.twoPow]
  rw [← bit]; rfl

theorem putBit_puts (cap : Nat) (b : Bool) : Puts cap [b] (putBit cap b) := fun e h => by
  have count : (heldBits e).length = e.nbits.toNat := length_heldBits e
  have held := h.held
  have next : holdBits b.toNat 1 e = holding (heldBits e ++ [b]) 0 e := by
    have put := holdBits_append (bs := heldBits e) (take := 1) (by omega) b.toNat 0 e
    have small : b.toNat % 2 ^ 1 = b.toNat := by cases b <;> rfl
    have one : bitsOf b.toNat 1 = [b] := by cases b <;> rfl
    rwa [h.eq_holding, one, small] at put
  have length : (heldBits e ++ [b]).length = e.nbits.toNat + 1 := by simp [count]
  have nbits : (holding (heldBits e ++ [b]) 0 e).nbits.toNat = e.nbits.toNat + 1 := by
    rw [holding_nbits (by omega), length]
  rw [putBit_eq, next]
  split
  · rename_i full
    have eight : (heldBits e ++ [b]).length = 8 := by rw [length, ← nbits, full]; rfl
    have rest : (heldBits e ++ [b]).drop 8 = [] := List.drop_of_length_le (by omega)
    rw [holding_shifter, firstByte_wordOf (by omega) (by omega), feed, bytesOf_long (by omega),
      restBits_long (by omega), rest]
    show Except.map _ (drainByte cap _ (setShifter 0 0 0 e)) = Except.map _ (drainAll cap [_] e)
    rw [drainByte_setShifter, drainAll_singleton]
    cases drainByte cap (BitVec.ofNat 8 (natOf ((heldBits e ++ [b]).take 8))) e with
    | error z => rfl
    | ok e₁ => exact congrArg Except.ok (by simp [holding, setShifter, bytesOf, restBits])
  · rename_i hfull
    have notFull : (holding (heldBits e ++ [b]) 0 e).nbits.toNat ≠ 8 := fun h8 =>
      hfull (BitVec.eq_of_toNat_eq h8)
    exact (feed_short (by omega) e).symm

theorem putSerial_puts (cap : Nat) (bs : List Bool) : Puts cap bs (putSerial cap bs) := by
  induction bs with
  | nil => exact puts_nil
  | cons b bs ih => exact (putBit_puts cap b).bind ih

/-- Settles O33: both feed the same bits. -/
theorem serialForm : Obligations.SerialForm := fun cap n value e _ held lowZero =>
  (putBits_puts cap value n e ⟨held, lowZero⟩).trans
    (putSerial_puts cap (bitsOf value.toNat n) e ⟨held, lowZero⟩).symm

end Sys2Proof.BitWriterFamily
end

section
/-! SUPPORT. The calls that put bits (spec/41_bitwriter.md R137, R139, R141, R144): each feeds a bit
string, so sequences of calls with the same bits have the same outcome (R148). -/

namespace Sys2Proof.BitWriterFamily

open Sys2Proof.Machine Sys2Proof.Safety

variable {cap ilMax : Nat} {e : Encoder} {v : Word}

/-! ## Exp-Golomb codes (R139, R141, R150) -/

/-- The significant bits of a number begin with 1. -/
theorem bitsOf_significant {c : Nat} (hc : c ≠ 0) :
    bitsOf c (Nat.log2 c + 1) = true :: bitsOf c (Nat.log2 c) := by
  have leading : c >>> Nat.log2 c = 1 := by
    rw [Nat.shiftRight_eq_div_pow]
    have low := Nat.log2_self_le hc
    have high : c < 2 ^ (Nat.log2 c + 1) := Nat.lt_log2_self
    rw [Nat.pow_succ] at high
    exact Nat.div_eq_of_lt_le (by omega) (by omega)
  rw [Nat.add_comm, bitsOf_add, leading]
  rfl

/-- The reader counts leading zeros. -/
theorem readUeFrom_replicate (z k : Nat) (bs : List Bool) :
    readUeFrom z (List.replicate k false ++ bs) = readUeFrom (z + k) bs := by
  induction k generalizing z with
  | zero => rfl
  | succ k ih => rw [List.replicate_succ, List.cons_append, readUeFrom, ih]; congr 1; omega

/-- The code of `v` is read back, in terms of the number of its leading zeros (R150). -/
theorem readUe_code {v k : Nat} (low : 2 ^ k ≤ v + 1) (high : v + 1 < 2 ^ (k + 1)) (rest : List Bool) :
    readUe (List.replicate k false ++ (true :: bitsOf (v + 1) k) ++ rest) = some (v, rest) := by
  have long : ¬(bitsOf (v + 1) k ++ rest).length < k := by simp
  have value : 2 ^ k - 1 + (v + 1) % 2 ^ k = v := by
    rw [Nat.pow_succ] at high
    rw [Nat.mod_eq_sub_mod low, Nat.mod_eq_of_lt (by omega)]
    omega
  rw [readUe, List.append_assoc, readUeFrom_replicate, Nat.zero_add, List.cons_append, readUeFrom,
    if_neg long, List.take_left' (length_bitsOf _ _), List.drop_left' (length_bitsOf _ _), natOf_bitsOf,
    value]

/-- Settles O35. -/
theorem golombRoundTrip : Obligations.GolombRoundTrip := fun v rest => by
  rw [ueBits, bitsOf_significant (Nat.succ_ne_zero v)]
  exact readUe_code (Nat.log2_self_le (Nat.succ_ne_zero v)) Nat.lt_log2_self rest

theorem putUe_puts (h : v.toNat ≠ 2 ^ 32 - 1) : Puts cap (ueBits v.toNat) (putUe cap v) := by
  have small : v.toNat + 1 < 2 ^ 32 := by omega
  have value : (BitVec.ofNat 32 (v.toNat + 1)).toNat = v.toNat + 1 := Nat.mod_eq_of_lt small
  have zeros := putBits_puts cap 0 (Nat.log2 (v.toNat + 1))
  have bits := putBits_puts cap (BitVec.ofNat 32 (v.toNat + 1)) (Nat.log2 (v.toNat + 1) + 1)
  rw [value] at bits
  have both := zeros.bind bits
  rw [show (0 : Word).toNat = 0 from rfl, bitsOf_zero_left] at both
  intro e he
  rw [putUe, if_neg h]
  exact both e he

/-- The mapped value of an operand other than `-2^31` has a code (R142). -/
theorem seMap_lt (h : v.toInt ≠ -2 ^ 31) : seMap v.toInt < 2 ^ 32 - 1 := by
  have low := BitVec.le_toInt v
  have high := BitVec.toInt_lt (x := v)
  unfold seMap
  split <;> omega

theorem putSe_puts (h : v.toInt ≠ -2 ^ 31) : Puts cap (ueBits (seMap v.toInt)) (putSe cap v) := by
  have small := seMap_lt h
  have value : (BitVec.ofNat 32 (seMap v.toInt)).toNat = seMap v.toInt := Nat.mod_eq_of_lt (by omega)
  have code := putUe_puts (cap := cap) (v := BitVec.ofNat 32 (seMap v.toInt)) (by omega)
  rw [value] at code
  intro e he
  rw [putSe, if_neg h]
  exact code e he

/-! ## Alignment (R144, R145) -/

/-- `byte_align` puts the zero bits that complete a byte. -/
theorem byteAlign_eq (h : Partial e) : byteAlign cap e =
    feed cap (heldBits e ++ List.replicate ((8 - e.nbits.toNat) % 8) false) e := by
  have held := h.held
  have count : (8 - e.nbits.toNat % 8) % 8 = (8 - e.nbits.toNat) % 8 := by omega
  rw [byteAlign, count, putBits_puts cap 0 _ e h, show (0 : Word).toNat = 0 from rfl, bitsOf_zero_left]

/-! ## Sequences of calls (R148) -/

theorem runItem_puts {x : Item} (h : (isPut x && codes x) = true) :
    Puts cap (itemBits x) (runItem cap ilMax x) := by
  match x, h with
  | .bits v n, _ => exact putBits_puts cap v n
  | .ue v, h => exact putUe_puts (by simpa [isPut, codes] using h)
  | .se v, h => exact putSe_puts (by simpa [isPut, codes] using h)

theorem runScript_puts {xs : Script} (h : xs.all (fun x => isPut x && codes x) = true) :
    Puts cap (scriptBits xs) (runScript cap ilMax xs) := by
  induction xs with
  | nil => exact puts_nil
  | cons x xs ih =>
    rw [List.all_cons, Bool.and_eq_true] at h
    exact (runItem_puts h.1).bind (ih h.2)

/-- Settles O34: both sides feed the same bits. -/
theorem concatenation : Obligations.Concatenation := by
  constructor
  · intro cap n₁ n₂ a b e hn held lowZero
    have small : (a.toNat % 2 ^ n₁) * 2 ^ n₂ + b.toNat % 2 ^ n₂ < 2 ^ 32 := by
      have ha : a.toNat % 2 ^ n₁ < 2 ^ n₁ := Nat.mod_lt _ (Nat.two_pow_pos n₁)
      have hb : b.toNat % 2 ^ n₂ < 2 ^ n₂ := Nat.mod_lt _ (Nat.two_pow_pos n₂)
      calc (a.toNat % 2 ^ n₁) * 2 ^ n₂ + b.toNat % 2 ^ n₂
          < (a.toNat % 2 ^ n₁) * 2 ^ n₂ + 2 ^ n₂ := Nat.add_lt_add_left hb _
        _ = (a.toNat % 2 ^ n₁ + 1) * 2 ^ n₂ := by rw [Nat.add_mul, Nat.one_mul]
        _ ≤ 2 ^ n₁ * 2 ^ n₂ := Nat.mul_le_mul_right _ ha
        _ = 2 ^ (n₁ + n₂) := (Nat.pow_add 2 n₁ n₂).symm
        _ ≤ 2 ^ 32 := Nat.pow_le_pow_right (by decide) hn
    have whole := putBits_puts cap
      (BitVec.ofNat 32 ((a.toNat % 2 ^ n₁) * 2 ^ n₂ + b.toNat % 2 ^ n₂)) (n₁ + n₂)
    rw [BitVec.toNat_ofNat, Nat.mod_eq_of_lt small, bitsOf_sideBySide] at whole
    have parts := (putBits_puts cap a n₁).bind (putBits_puts cap b n₂)
    exact (parts e ⟨held, lowZero⟩).trans (whole e ⟨held, lowZero⟩).symm
  · intro cap ilMax xs ys e hxs hys same held lowZero
    rw [runScript_puts hxs e ⟨held, lowZero⟩, runScript_puts hys e ⟨held, lowZero⟩, same]

/-! ## Flush (R146) -/

theorem nbits_eq_zero_iff : e.nbits = 0 ↔ e.nbits.toNat = 0 := by rw [← BitVec.toNat_inj]; rfl

/-- The held bits are drained as one byte, and the real bits are counted. -/
theorem flushHeld_eq (h : Partial e) : flushHeld cap e =
    (drainAll cap (flushBytes e) e).map (setShifter 0 0 (e.nbits.setWidth 32)) := by
  unfold flushHeld flushBytes
  split
  · rename_i hn
    have shifter : e.shifter = 0 := by
      have low := h.lowZero
      rwa [hn, show (0 : BitVec 6).toNat = 0 from rfl, BitVec.shiftLeft_zero] at low
    have same : setShifter 0 0 (e.nbits.setWidth 32) e = e := by
      have count : e.bitsOut + e.nbits.setWidth 32 = e.bitsOut := by rw [hn]; simp
      rw [setShifter, count, ← shifter, ← hn]
    exact congrArg Except.ok same.symm
  · rw [drainAll_singleton]; rfl

/-- An encoder that holds no bit and stands at a word boundary. -/
theorem flush_settled (hn : e.nbits = 0) (hbi : e.outBi = 0) : flush cap e = .ok e := by
  rw [flush, flushHeld, if_pos hn]
  exact congrArg Except.ok (if_pos hbi)

theorem alignWord_outBi (e : Encoder) : (alignWord e).outBi = 0 := by
  unfold alignWord; split <;> [assumption; rfl]

theorem alignWord_nbits (e : Encoder) : (alignWord e).nbits = e.nbits := by
  unfold alignWord; split <;> rfl

theorem flush_twice {e' : Encoder} (h : flush cap e = .ok e') : flush cap e' = .ok e' := by
  obtain ⟨e₁, h₁, rfl⟩ := flush_ok h
  refine flush_settled ?_ (alignWord_outBi e₁)
  rw [alignWord_nbits]
  rcases flushHeld_ok h₁ with ⟨hn, rfl⟩ | ⟨-, e₂, -, rfl⟩
  · exact hn
  · rfl

end Sys2Proof.BitWriterFamily
end

section
/-! SUPPORT. The commands of unit BW that put bits (spec/41_bitwriter.md R137 to R144): what they leave when
OUT has room, and their fault when it has not; and `BW_RESET` and `BW_SETEP` (R132, R134). -/

namespace Sys2Proof.BitWriterFamily

open Sys2Proof.Machine Sys2Proof.Safety Sys2Proof.StateFamily

variable {cap len : Nat} {e e' : Encoder} {s t : State}

/-! ## What a fed bit string leaves -/

/-- The encoder between commands, as far as the bit writer goes. -/
structure Settled (e : Encoder) : Prop where
  port : Port 0 e
  shifter : Partial e

theorem settled_of_encInv {ilMax : Nat} (h : EncInv ilMax e) : Settled e :=
  ⟨port_of_encInv h, h.held, h.lowZero⟩

/-- Bits that occupy OUT are counted without wrapping. -/
theorem toNat_bitsOut_add (h : Port 0 e) {n : Nat} (hn : pos e + n ≤ 4 * outCapLimit) {k : Nat}
    (hk : k ≤ 8 * n) : (e.bitsOut + BitVec.ofNat 32 k).toNat = e.bitsOut.toNat + k := by
  have counted : e.bitsOut.toNat + 0 ≤ 8 * pos e := h.counted
  simp only [outCapLimit] at hn
  have small : (BitVec.ofNat 32 k).toNat = k := Nat.mod_eq_of_lt (by omega)
  rw [BitVec.toNat_add_of_lt (by rw [small]; omega), small]

/-- The data bytes drained are counted, so that 8 bits are counted for each byte in OUT. -/
theorem toNat_bitsOut_holding {data : List Byte} (h : Port 0 e) (d : Drained 0 e e' data)
    (rest : List Bool) : (holding rest (8 * data.length) e').bitsOut.toNat =
      e.bitsOut.toNat + 8 * (emitted e data).length := by
  have longer := length_le_emitted e data
  have inside : pos e + (emitted e data).length ≤ 4 * outCapLimit := d.position ▸ d.port.inside
  have sum : 8 * ((emitted e data).length - data.length) + 8 * data.length =
      8 * (emitted e data).length := by omega
  have bits : (holding rest (8 * data.length) e').bitsOut =
      e.bitsOut + BitVec.ofNat 32 (8 * (emitted e data).length) := by
    rw [← sum, BitVec.ofNat_add, ← BitVec.add_assoc, ← d.total]; rfl
  rw [bits, toNat_bitsOut_add h inside le_rfl]

theorem settled_holding {data : List Byte} (d : Drained 0 e e' data) {rest : List Bool}
    (hrest : rest.length ≤ 7) : Settled (holding rest (8 * data.length) e') := by
  have count : (BitVec.ofNat 32 (8 * data.length)).toNat ≤ 0 + 8 * data.length := by
    rw [Nat.zero_add]; exact Nat.mod_le _ _
  exact ⟨WriterInv.mono ((d.port.count le_rfl count).setHeld _ _) (Nat.zero_le _),
    partial_holding hrest _ _⟩

/-- A bit string whose bytes find room is fed. -/
theorem feed_fed {bs : List Bool} (h : Settled e) (hcap : cap ≤ outCapLimit) (hroom : roomFor cap e bs) :
    ∃ e', feed cap (heldBits e ++ bs) e = .ok e' ∧ Fed e e' bs ∧ Settled e' := by
  obtain ⟨e₁, h₁, d⟩ := drainAll_drained h.port hcap hroom
  have short : (restBits (heldBits e ++ bs)).length ≤ 7 := Nat.le_of_lt_succ (length_restBits_lt _)
  have settled := settled_holding d short
  refine ⟨_, by rw [feed, h₁]; rfl, ?_, settled⟩
  exact
    { held := heldBits_holding (by omega) _ _
      count := holding_nbits (by omega) _ _
      lowZero := settled.shifter.lowZero
      zeros := d.zeros
      total := toNat_bitsOut_holding h.port d _
      position := d.position
      out := d.out
      rest := by rw [d.frame]; rfl }

theorem feed_overflow {bs : List Bool} (h : Settled e) (hcap : cap ≤ outCapLimit)
    (hroom : ¬roomFor cap e bs) : feed cap (heldBits e ++ bs) e = .error (overflow cap e) := by
  rw [feed, drainAll_overflow h.port hcap hroom]; rfl

/-! ## Commands that feed a bit string -/

theorem onEncoder_fed {f : Encoder → Result Encoder} {bs : List Bool} (hs : Writable s)
    (hf : f s.enc = feed s.outCapWords (heldBits s.enc ++ bs) s.enc)
    (hroom : roomFor s.outCapWords s.enc bs) :
    ∃ e, onEncoder len f s = .next (advance len (setEnc e s)) ∧ Fed s.enc e bs := by
  obtain ⟨e, he, fed, -⟩ := feed_fed (settled_of_encInv hs.enc) hs.cap hroom
  exact ⟨e, onEncoder_of_ok (hf.trans he), fed⟩

theorem onEncoder_overflow {f : Encoder → Result Encoder} {bs : List Bool} (hs : Writable s)
    (hf : f s.enc = feed s.outCapWords (heldBits s.enc ++ bs) s.enc)
    (hroom : ¬roomFor s.outCapWords s.enc bs) :
    onEncoder len f s =
      .next (recorded 0x10 (BitVec.ofNat 32 (max s.outCapWords s.enc.outWi.toNat)) s) :=
  onEncoder_of_raise (hf.trans (feed_overflow (settled_of_encInv hs.enc) hs.cap hroom))

theorem exec_bwPut {n : Byte} {value : Word} (hn : n.toNat ≤ 32) :
    exec (.bwPut n value) s = onEncoder 2 (putBits s.outCapWords value n.toNat) s :=
  if_neg (Nat.not_lt_of_le hn)

theorem toNat_ne_of_ne {v : Word} (h : v ≠ 0xFFFFFFFF) : v.toNat ≠ 2 ^ 32 - 1 :=
  fun hc => h (BitVec.eq_of_toNat_eq hc)

theorem toInt_ne_of_ne {v : Word} (h : v ≠ 0x80000000) : v.toInt ≠ -2 ^ 31 :=
  fun hc => h (BitVec.eq_of_toInt_eq hc)

theorem partial_of_writable (hs : Writable s) : Partial s.enc := ⟨hs.enc.held, hs.enc.lowZero⟩

/-- Settles O26. -/
theorem bwPutFeeds : Obligations.BwPutFeeds := by
  intro n value s hn hs hroom
  rw [exec_bwPut hn]
  exact onEncoder_fed hs (putBits_puts _ _ _ _ (partial_of_writable hs)) hroom

/-- Settles O27. -/
theorem bwUeFeeds : Obligations.BwUeFeeds := fun _ _ hv hs hroom =>
  onEncoder_fed hs (putUe_puts (toNat_ne_of_ne hv) _ (partial_of_writable hs)) hroom

/-- The mapped value is that of R141, over the integers. -/
theorem seMap_eq {v : Int} {u : Nat} (h : (u : Int) = if 0 < v then 2 * v - 1 else -2 * v) :
    seMap v = u := by
  unfold seMap
  split at h <;> simp only [*, if_true, if_false] <;> omega

/-- Settles O28. -/
theorem bwSeFeeds : Obligations.BwSeFeeds := by
  intro v u s hv hu hs hroom
  obtain rfl := seMap_eq hu
  exact onEncoder_fed hs (putSe_puts (toInt_ne_of_ne hv) _ (partial_of_writable hs)) hroom

/-- Settles O29: the padding completes the byte, so that no bit is left over. -/
theorem bwAlignPads : Obligations.BwAlignPads := by
  intro s hs hroom
  obtain ⟨e, he, fed⟩ := onEncoder_fed hs (byteAlign_eq (partial_of_writable hs)) hroom
  refine ⟨e, he, fed, nbits_eq_zero_iff.2 ?_⟩
  have held := hs.enc.held
  rw [fed.count, length_restBits, List.length_append, length_heldBits, List.length_replicate]
  omega

/-! ## Reset and the flag (R132, R134) -/

/-- Settles O24. -/
theorem bwResetClears : Obligations.BwResetClears := fun s =>
  ⟨bwResetProc s.enc, rfl, rfl, rfl, rfl, rfl, rfl, rfl, rfl, rfl, rfl, rfl, rfl, rfl⟩

/-- Settles O25. -/
theorem bwSetepSets : Obligations.BwSetepSets := by
  intro en b s h
  have set : exec (.bwSetep en) s = complete 1 (setEnc (setEp b s.enc) s) := by
    rcases h with ⟨rfl, rfl⟩ | ⟨rfl, rfl⟩ <;> rfl
  rw [set, setEp]
  by_cases same : b = s.enc.ep
  · rw [if_pos same, if_pos same.symm]; rfl
  · rw [if_neg same, if_neg (Ne.symm same)]; rfl

end Sys2Proof.BitWriterFamily
end

section
/-! SUPPORT. Flush (spec/41_bitwriter.md R146, R147), the faults of unit BW (R133, R140, R142), and what a
second alignment or flush does (R145). -/

namespace Sys2Proof.BitWriterFamily

open Sys2Proof.Machine Sys2Proof.Safety Sys2Proof.StateFamily

variable {cap len : Nat} {e e' : Encoder} {s t : State}

/-! ## Flush (R146, R147) -/

theorem alignWord_frame (e : Encoder) :
    alignWord e = { e with outWi := (alignWord e).outWi, outBi := (alignWord e).outBi } := by
  unfold alignWord; split <;> rfl

theorem alignWord_withoutList (e : Encoder) : alignWord (withoutList e) = withoutList (alignWord e) := by
  show (if e.outBi = 0 then _ else _) = withoutList (if e.outBi = 0 then _ else _)
  split <;> rfl

theorem alignWord_settled (h : Settled e) : Settled (alignWord e) := by
  have ready : Ready 0 outCapLimit (alignWord (withoutList e)) :=
    alignWord_ready ⟨h.port, h.shifter.held, h.shifter.lowZero⟩ le_rfl
  rw [alignWord_withoutList] at ready
  exact ⟨ready.writer, ready.held, ready.lowZero⟩

/-- The next word boundary. -/
theorem alignWord_outWi (h : pos e ≤ 4 * outCapLimit) :
    (alignWord e).outWi.toNat = (pos e + 3) / 4 := by
  have lane := e.outBi.isLt
  have zero : e.outBi = 0 ↔ e.outBi.toNat = 0 := by rw [← BitVec.toNat_inj]; rfl
  unfold alignWord
  unfold pos at *
  split
  · rename_i hbi
    rw [zero] at hbi
    omega
  · rename_i hbi
    rw [zero] at hbi
    rw [outWi_succ (by omega)]
    omega

theorem nbits_le_flushBytes (h : e.nbits.toNat ≤ 7) : e.nbits.toNat ≤ 8 * (flushBytes e).length := by
  unfold flushBytes
  split
  · rename_i hn; simp [hn]
  · simp only [List.length_singleton]; omega

/-- The shifter emptied, once its `n` held bits were drained and are counted (R146). -/
def emptied (n : BitVec 6) : Encoder → Encoder := setShifter 0 0 (n.setWidth 32)

theorem toNat_setWidth_nbits (n : BitVec 6) : (n.setWidth 32).toNat = n.toNat :=
  BitVec.toNat_setWidth_of_le (by omega)

theorem settled_emptied (d : Drained 0 e e' (flushBytes e)) (held : e.nbits.toNat ≤ 7) :
    Settled (emptied e.nbits e') := by
  have real := nbits_le_flushBytes held
  have counted := d.port.count le_rfl (n := e.nbits.setWidth 32) (by rw [toNat_setWidth_nbits]; omega)
  exact ⟨WriterInv.mono (counted.setHeld 0 0) (Nat.zero_le _), by simp [emptied, setShifter],
    by simp [emptied, setShifter]⟩

/-- The real bits and the stuffing bytes are counted. -/
theorem toNat_bitsOut_emptied (h : Settled e) (d : Drained 0 e e' (flushBytes e)) :
    (emptied e.nbits e').bitsOut.toNat = e.bitsOut.toNat + e.nbits.toNat +
      8 * ((emitted e (flushBytes e)).length - (flushBytes e).length) := by
  have longer := length_le_emitted e (flushBytes e)
  have real := nbits_le_flushBytes h.shifter.held
  have inside : pos e + (emitted e (flushBytes e)).length ≤ 4 * outCapLimit :=
    d.position ▸ d.port.inside
  have bits : (emptied e.nbits e').bitsOut = e.bitsOut + BitVec.ofNat 32
      (8 * ((emitted e (flushBytes e)).length - (flushBytes e).length) + e.nbits.toNat) := by
    rw [BitVec.ofNat_add, ← BitVec.add_assoc, ← d.total, BitVec.ofNat_toNat]; rfl
  rw [bits, toNat_bitsOut_add h.port inside (by omega)]
  omega

/-- A flush whose byte finds room. -/
theorem flush_flushed (h : Settled e) (hcap : cap ≤ outCapLimit) (hroom : roomForFlush cap e) :
    ∃ e', flush cap e = .ok e' ∧ Flushed e e' ∧ Settled e' := by
  obtain ⟨e₁, h₁, d⟩ := drainAll_drained h.port hcap hroom
  have settled := settled_emptied d h.shifter.held
  have inside : pos (emptied e.nbits e₁) ≤ 4 * outCapLimit := settled.port.inside
  have position : pos (emptied e.nbits e₁) = pos e + (emitted e (flushBytes e)).length := d.position
  have frame := alignWord_frame (emptied e.nbits e₁)
  refine ⟨alignWord (emptied e.nbits e₁), by rw [flush, flushHeld_eq h.shifter, h₁]; rfl, ?_,
    alignWord_settled settled⟩
  exact
    { shifter := by rw [frame]; rfl
      nbits := by rw [frame]; rfl
      lane := alignWord_outBi _
      word := by rw [alignWord_outWi inside, position]
      zeros := by rw [frame]; exact d.zeros
      total := by rw [frame]; exact toNat_bitsOut_emptied h d
      out := by rw [frame]; exact d.out
      rest := by rw [frame, d.frame]; rfl }

theorem flush_overflow (h : Settled e) (hcap : cap ≤ outCapLimit) (hroom : ¬roomForFlush cap e) :
    flush cap e = .error (overflow cap e) := by
  rw [flush, flushHeld_eq h.shifter, drainAll_overflow h.port hcap hroom]; rfl

/-- Settles O30. -/
theorem bwFlushEmpties : Obligations.BwFlushEmpties := by
  intro s hs hroom
  obtain ⟨e, he, flushed, -⟩ := flush_flushed (settled_of_encInv hs.enc) hs.cap hroom
  exact ⟨e, onEncoder_of_ok he, flushed⟩

/-! ## Faults (R133, R140, R142) -/

/-- The two values without a code. -/
theorem putUe_ueRange (cap : Nat) (e : Encoder) :
    putUe cap 0xFFFFFFFF e = .error (.raise .ueRange 0xFFFFFFFF) := if_pos rfl

theorem putSe_seRange (cap : Nat) (e : Encoder) :
    putSe cap 0x80000000 e = .error (.raise .seRange 0x80000000) := if_pos rfl

/-- Settles O31. -/
theorem bwFaults : Obligations.BwFaults := by
  refine ⟨fun s hs => ⟨fun n value hn hroom => ?_, fun v hv hroom => ?_, fun v hv hroom => ?_,
    fun hroom => ?_, fun hroom => ?_⟩, fun s => ?_, fun s => ?_⟩
  · rw [exec_bwPut hn]
    exact onEncoder_overflow hs (putBits_puts _ _ _ _ (partial_of_writable hs)) hroom
  · exact onEncoder_overflow hs (putUe_puts (toNat_ne_of_ne hv) _ (partial_of_writable hs)) hroom
  · exact onEncoder_overflow hs (putSe_puts (toInt_ne_of_ne hv) _ (partial_of_writable hs)) hroom
  · exact onEncoder_overflow hs (byteAlign_eq (partial_of_writable hs)) hroom
  · exact onEncoder_of_raise (flush_overflow (settled_of_encInv hs.enc) hs.cap hroom)
  · exact onEncoder_of_raise (len := 2) (putUe_ueRange s.outCapWords s.enc)
  · exact onEncoder_of_raise (len := 2) (putSe_seRange s.outCapWords s.enc)

/-! ## Twice in a row (R145, R147) -/

/-- A command that leaves the machine running has completed. -/
theorem onEncoder_running {f : Encoder → Result Encoder} (h : onEncoder len f s = .next t)
    (hrun : t.run = .running) : ∃ e, f s.enc = .ok e ∧ t = advance len (setEnc e s) := by
  rcases onEncoder_next h with done | ⟨x, info, -, rfl⟩
  · exact done
  · cases hrun

theorem drainHeld_nbits {k : Nat} (h : drainHeld cap k e = .ok e') (hk : 8 * k ≤ e.nbits.toNat) :
    e'.nbits.toNat = e.nbits.toNat - 8 * k := by
  induction k generalizing e with
  | zero => cases h; rfl
  | succ k ih =>
    obtain ⟨e₁, h₁, h₂⟩ := result_bind_ok.1 h
    have same : e₁.nbits = e.nbits := (drainByte_held h₁).2
    have eight : (e₁.nbits - 8).toNat = e.nbits.toNat - 8 := by
      rw [same, BitVec.toNat_sub_of_le (by rw [BitVec.le_def]; simp; omega)]; simp
    rw [ih h₂ (by simp only [eight]; omega)]
    simp only [eight]
    omega

/-- How many bits are held after `rem` bits were put, whatever lies below the held ones. -/
theorem putLoop_nbits {v fuel rem : Nat} (hfuel : rem < fuel) (held : e.nbits.toNat ≤ 7)
    (h : putLoop cap v fuel rem e = .ok e') : e'.nbits.toNat = (e.nbits.toNat + rem) % 8 := by
  induction fuel generalizing rem e with
  | zero => exact absurd hfuel (Nat.not_lt_zero _)
  | succ fuel ih =>
    unfold putLoop at h
    split at h
    · cases h; omega
    · obtain ⟨e₁, h₁, h₂⟩ := result_bind_ok.1 h
      obtain ⟨take, htake⟩ : ∃ take, take = min rem (32 - e.nbits.toNat) := ⟨_, rfl⟩
      rw [← htake] at h₁ h₂
      have small : (BitVec.ofNat 6 take).toNat = take := Nat.mod_eq_of_lt (by omega)
      have put : (holdBits ((v >>> (rem - take)) % 2 ^ take) take e).nbits.toNat =
          e.nbits.toNat + take := by
        rw [holdBits, BitVec.toNat_add_of_lt (by rw [small]; omega), small]
      have left := drainHeld_nbits h₁ (by omega)
      rw [put] at left
      rw [ih (by omega) (by omega) h₂]
      omega

theorem byteAlign_nbits (held : e.nbits.toNat ≤ 7) (h : byteAlign cap e = .ok e') : e'.nbits = 0 := by
  have count := putLoop_nbits (Nat.lt_succ_self _) held h
  exact nbits_eq_zero_iff.2 (by omega)

theorem byteAlign_aligned (h : e.nbits = 0) : byteAlign cap e = .ok e := by
  rw [byteAlign, h]; rfl

/-- Settles O32. -/
theorem alignFlushTwice : Obligations.AlignFlushTwice := by
  constructor
  · intro s t _ held hx hrun
    obtain ⟨e, he, rfl⟩ := onEncoder_running hx hrun
    exact onEncoder_of_ok (byteAlign_aligned (byteAlign_nbits held he))
  · intro s t _ hx hrun
    obtain ⟨e, he, rfl⟩ := onEncoder_running hx hrun
    exact onEncoder_of_ok (flush_twice he)

end Sys2Proof.BitWriterFamily
end

section
/-! SUPPORT. EP windows (spec/41_bitwriter.md R131, R136): what a command adds to the bytes in OUT, and the
bytes that the commands of one window leave there together. -/

namespace Sys2Proof.BitWriterFamily

open Sys2Proof.Machine Sys2Proof.Safety Sys2Proof.StateFamily Sys2Proof.EncodingFamily

variable {len : Nat} {e e₁ e' : Encoder} {s t : State} {data : List Byte}

/-! ## What a command adds -/

/-- Data bytes were drained between `e` and `e'`: the bytes that R135 makes of them stand in OUT from the
old position on, the new position is behind them, and the flag is as before. -/
structure Extends (e e' : Encoder) (data : List Byte) : Prop where
  out : Appended e.out e'.out (pos e) (emitted e data)
  position : pos e + (emitted e data).length ≤ pos e'
  zeros : e'.nz.toNat = nzAfter e data
  flag : e'.ep = e.ep
  settled : Settled e'

theorem extends_refl (h : Settled e) : Extends e e [] where
  out := by rw [emitted_nil]; exact appended_nil _ _
  position := by simp
  zeros := by simp
  flag := rfl
  settled := h

/-- The instruction list does not matter. -/
theorem Extends.congr (h : Extends e e₁ data) (he : withoutList e' = withoutList e₁) :
    Extends e e' data := by
  have out : e'.out = e₁.out := congrArg (·.out) he
  have word : e'.outWi = e₁.outWi := congrArg (·.outWi) he
  have lane : e'.outBi = e₁.outBi := congrArg (·.outBi) he
  have nz : e'.nz = e₁.nz := congrArg (·.nz) he
  have ep : e'.ep = e₁.ep := congrArg (·.ep) he
  have shifter : e'.shifter = e₁.shifter := congrArg (·.shifter) he
  have nbits : e'.nbits = e₁.nbits := congrArg (·.nbits) he
  have position : pos e' = pos e₁ := by rw [pos, word, lane, pos]
  refine ⟨out ▸ h.out, position ▸ h.position, nz ▸ h.zeros, ep.trans h.flag, ⟨?_, ?_, ?_⟩⟩
  · exact (congrArg (WriterInv 0 outCapLimit 0) he).mpr h.settled.port
  · rw [nbits]; exact h.settled.shifter.held
  · rw [shifter, nbits]; exact h.settled.shifter.lowZero

theorem Extends.of_fed {bs : List Bool} (h : Fed e e' bs) (hs : Settled e') :
    Extends e e' (bytesOf (heldBits e ++ bs)) where
  out := h.out
  position := Nat.le_of_eq h.position.symm
  zeros := h.zeros
  flag := by rw [h.rest]
  settled := hs

theorem Extends.of_flushed (h : Flushed e e') (hs : Settled e') : Extends e e' (flushBytes e) where
  out := h.out
  position := by
    have word := h.word
    unfold pos at *
    omega
  zeros := h.zeros
  flag := by rw [h.rest]
  settled := hs

theorem feed_extends {cap : Nat} {bs : List Bool} (h : Settled e) (hcap : cap ≤ outCapLimit)
    (hx : feed cap (heldBits e ++ bs) e = .ok e') : Extends e e' (bytesOf (heldBits e ++ bs)) := by
  by_cases hroom : roomFor cap e bs
  · obtain ⟨e₁, h₁, fed, settled⟩ := feed_fed h hcap hroom
    cases h₁.symm.trans hx
    exact .of_fed fed settled
  · cases (feed_overflow h hcap hroom).symm.trans hx

theorem flush_extends {cap : Nat} (h : Settled e) (hcap : cap ≤ outCapLimit)
    (hx : flush cap e = .ok e') : Extends e e' (flushBytes e) := by
  by_cases hroom : roomForFlush cap e
  · obtain ⟨e₁, h₁, flushed, settled⟩ := flush_flushed h hcap hroom
    cases h₁.symm.trans hx
    exact .of_flushed flushed settled
  · cases (flush_overflow h hcap hroom).symm.trans hx

theorem ilAppend_withoutList {ilMax : Nat} {kind : IlKind} {n : Word}
    (h : ilAppend ilMax kind n e = .ok e') : withoutList e' = withoutList e := by
  obtain ⟨-, -, rfl⟩ := ilAppend_ok h
  rfl

theorem heCopyProc_extends {cap ilMax : Nat} (h : Settled e) (hcap : cap ≤ outCapLimit)
    (hx : heCopyProc cap ilMax e = .ok e') : Extends e e' (flushBytes e) := by
  obtain ⟨-, e₁, e₂, h₁, h₂, rfl⟩ := heCopyProc_ok hx
  have same : withoutList e₂ = withoutList e₁ := ilAppend_withoutList h₂
  exact (flush_extends h hcap h₁).congr same

theorem heMarkProc_extends {ilMax : Nat} {kind : IlKind} (h : Settled e)
    (hx : heMarkProc ilMax kind e = .ok e') : Extends e e' [] := by
  obtain ⟨-, -, -, happend⟩ := heMarkProc_ok hx
  exact (extends_refl h).congr (ilAppend_withoutList happend)

theorem heEndProc_extends {ilMax : Nat} (h : Settled e) (hx : heEndProc ilMax e = .ok e') :
    Extends e e' [] := by
  obtain ⟨-, -, -, e₁, happend, rfl⟩ := heEndProc_ok hx
  have same : withoutList e₁ = withoutList e := ilAppend_withoutList happend
  exact (extends_refl h).congr same

/-! ## Commands of an EP window -/

/-- A command that runs a procedure of the encoder, with what the procedure adds. -/
theorem onEncoder_extends {f : Encoder → Result Encoder} (hx : onEncoder len f s = .next t)
    (hrun : t.run = .running) (hf : ∀ e, f s.enc = .ok e → Extends s.enc e data) :
    Extends s.enc t.enc data := by
  obtain ⟨e, he, rfl⟩ := onEncoder_running hx hrun
  exact hf e he

/-- A command that leaves units BW and HE's template alone. -/
theorem unchanged_extends {i : Instr} (h : Settled s.enc) (hx : exec i s = .next t)
    (hi : .enc ∉ writes i) : Extends s.enc t.enc [] := by
  rw [(unitFrames i s t hx).1 hi]
  exact extends_refl h

/-- A refused command does not leave the machine running. -/
theorem exec_wellFormed {i : Instr} (hx : exec i s = .next t) (hrun : t.run = .running) :
    i.wellFormed s.params.dpbSlots = true := by
  by_contra hw
  rw [exec_of_illFormed (by simpa using hw)] at hx
  cases Host.Outcome.next.inj hx
  cases hrun

theorem bwSetep_extends {en : Byte} (h : Settled s.enc) (hx : exec (.bwSetep en) s = .next t)
    (hrun : t.run = .running) (hsame : (en == 1) = s.enc.ep) : Extends s.enc t.enc [] := by
  have hen : en.toNat ≤ 1 := by simpa [Instr.wellFormed] using exec_wellFormed hx hrun
  have done : exec (.bwSetep en) s = complete 1 (setEnc (setEp (en == 1) s.enc) s) :=
    if_neg (Nat.not_lt_of_le hen)
  rw [done, setEp, if_pos hsame] at hx
  cases Host.Outcome.next.inj hx
  exact extends_refl h

/-- What a command adds to an EP window. -/
theorem exec_extends {i : Instr} (h : Settled s.enc) (hcap : s.outCapWords ≤ outCapLimit)
    (hd : drained s.enc i = some data) (hx : exec i s = .next t) (hrun : t.run = .running) :
    Extends s.enc t.enc data := by
  cases i with
  | bwReset => cases hd
  | bwSetep en =>
    simp only [drained] at hd
    split at hd
    · rename_i hsame; cases hd; exact bwSetep_extends h hx hrun hsame
    · cases hd
  | bwPut n value =>
    cases hd
    have hn : n.toNat ≤ 32 := by simpa [Instr.wellFormed] using exec_wellFormed hx hrun
    rw [exec_bwPut hn] at hx
    exact onEncoder_extends hx hrun fun e he =>
      feed_extends h hcap ((putBits_puts _ _ _ _ h.shifter).symm.trans he)
  | bwUe v =>
    cases hd
    exact onEncoder_extends hx hrun fun e he =>
      feed_extends h hcap ((putUe_puts (putUe_ok he).1 _ h.shifter).symm.trans he)
  | bwSe v =>
    cases hd
    exact onEncoder_extends hx hrun fun e he =>
      feed_extends h hcap ((putSe_puts (putSe_ok he).1 _ h.shifter).symm.trans he)
  | bwAlign =>
    cases hd
    exact onEncoder_extends hx hrun fun e he =>
      feed_extends h hcap ((byteAlign_eq h.shifter).symm.trans he)
  | bwFlush => cases hd; exact onEncoder_extends hx hrun fun e he => flush_extends h hcap he
  | heCopy => cases hd; exact onEncoder_extends hx hrun fun e he => heCopyProc_extends h hcap he
  | heMark kind =>
    cases hd
    simp only [exec, execHeMark] at hx
    split at hx
    · cases Host.Outcome.next.inj hx; cases hrun
    · exact onEncoder_extends hx hrun fun e he => heMarkProc_extends h he
  | heEnd => cases hd; exact onEncoder_extends hx hrun fun e he => heEndProc_extends h he
  | heH264Slice => cases hd
  | heH265Slice => cases hd
  | endRun | heSetp | heClrp | fgSeed | fgRand | cdfInitMode | cdfInitMv | cdfInitCoef | cdfSeedAll
  | dpbSession | dpbBegin | dpbRef | dpbCommit | dpbLookup =>
    cases hd; exact unchanged_extends h hx (by simp [writes])

/-! ## The window -/

/-- The lanes that the commands of a window filled hold the bytes of R135, and the lanes before the first
of them keep their bytes. -/
theorem windowOf_lanes {is : List Instr} {w : Window} (h : Settled s.enc)
    (hcap : s.outCapWords ≤ outCapLimit) (hep : s.enc.ep = true) (hw : windowOf is s = some w) :
    w.lanes.map (laneAt w.final.enc.out) =
        (epMarked s.enc.nz.toNat w.data).map (fun x => some x.1) ∧
      ∀ q < pos s.enc, laneAt w.final.enc.out q = laneAt s.enc.out q := by
  induction is generalizing s w with
  | nil => cases hw; exact ⟨rfl, fun _ _ => rfl⟩
  | cons i is ih =>
    obtain ⟨data, t, u, hd, hx, hrun, hu, hdata, hlanes, hfinal⟩ := windowOf_cons hw
    have ext := exec_extends h hcap hd hx hrun
    obtain ⟨rest, kept⟩ := ih ext.settled ((exec_args hx).2.1 ▸ hcap) (ext.flag.trans hep) hu
    have bytes : emitted s.enc data = (epMarked s.enc.nz.toNat data).map Prod.fst := if_pos hep
    have zeros : t.enc.nz.toNat = epCount s.enc.nz.toNat data := ext.zeros.trans (if_pos hep)
    have position := ext.position
    have filled : ((List.range (emitted s.enc data).length).map (pos s.enc + ·)).map
        (laneAt u.final.enc.out) = (epMarked s.enc.nz.toNat data).map fun x => some x.1 := by
      calc _ = lanesFrom t.enc.out (pos s.enc) (emitted s.enc data).length := by
            rw [List.map_map]
            refine List.map_congr_left fun k hk => kept _ ?_
            have := List.mem_range.1 hk
            show pos s.enc + k < pos t.enc
            omega
        _ = (emitted s.enc data).map some := ext.out.stored
        _ = _ := by rw [bytes, List.map_map]; rfl
    constructor
    · rw [hlanes, hdata, hfinal, List.map_append, filled, rest, zeros, epMarked_append, List.map_append]
    · intro q hq
      rw [hfinal, kept q (by omega), ext.out.earlier q hq]

/-- Settles O36. -/
theorem emulationPrevention : Obligations.EmulationPrevention := by
  constructor
  · intro is s w hs _ hep hnz hw
    have lanes := (windowOf_lanes (settled_of_encInv hs.enc) hs.cap hep hw).1
    rwa [hnz] at lanes
  · intro data
    exact ⟨fun k b => (guarded_epMarked 0 data).after_zeros, unmarked_epMarked 0 data,
      unstuff_epMarked 0 data, two_mul_stuffed_le 0 data⟩

end Sys2Proof.BitWriterFamily
end

section
/-! SUPPORT. The instruction list (spec/42_header_template.md R172 to R175): which check of a list procedure
refuses it, and what it appends when none does. -/

namespace Sys2Proof.TemplateFamily

open Sys2Proof.Machine Sys2Proof.Safety Sys2Proof.BitWriterFamily

variable {cap ilMax : Nat} {kind : IlKind} {n : Word} {e e' : Encoder} {s : State}

/-! ## The checks, and `il_append` (R172) -/

theorem checkOpen_closed (h : e.tmplDone = true) :
    checkOpen e = .error (.raise .templateClosed (e.ilCount.setWidth 32)) := if_pos h

theorem checkOpen_open (h : e.tmplDone = false) : checkOpen e = .ok () := checkOpen_ok.2 h

theorem checkCovered_covered (hheld : e.nbits = 0) (hcopied : e.bitsOut = e.bitsCopied) :
    checkCovered e = .ok () := checkCovered_ok.2 ⟨hheld, hcopied⟩

theorem checkCovered_uncovered (h : e.nbits ≠ 0 ∨ e.bitsOut ≠ e.bitsCopied) :
    checkCovered e = .error (.raise .markerOrder (uncovered e)) := if_pos h

theorem ilAppend_full (hopen : e.tmplDone = false) (hfull : ilMax ≤ e.ilCount.toNat) :
    ilAppend ilMax kind n e = .error (.raise .ilOverflow (e.ilCount.setWidth 32)) := by
  rw [ilAppend, checkOpen_open hopen]; exact if_pos hfull

/-- `e` with the entry `x` behind its list. -/
def withEntry (x : IlEntry) (e : Encoder) : Encoder :=
  { e with il := Memory.write e.il e.ilCount.toNat x, ilCount := e.ilCount + 1 }

theorem ilAppend_room (hopen : e.tmplDone = false) (hroom : e.ilCount.toNat < ilMax) :
    ilAppend ilMax kind n e = .ok (withEntry ⟨kind, n⟩ e) := by
  rw [ilAppend, checkOpen_open hopen]; exact if_neg (Nat.not_le_of_lt hroom)

/-! ## Markers and the end (R174, R175) -/

/-- What `he_mark` and `he_end` have in common: after both checks an entry without bits is appended, and
`f` is done to the list. -/
def markerProc (ilMax : Nat) (kind : IlKind) (f : Encoder → Encoder) (e : Encoder) : Result Encoder :=
  (checkOpen e).bind fun _ => (checkCovered e).bind fun _ => (ilAppend ilMax kind 0 e).map f

/-- `tmpl_done <- 1`. -/
def closeList (e : Encoder) : Encoder := { e with tmplDone := true }

theorem heMarkProc_eq (ilMax : Nat) (kind : IlKind) :
    heMarkProc ilMax kind = markerProc ilMax kind id := by
  funext e
  rw [markerProc, Except.map_id]; rfl

theorem heEndProc_eq (ilMax : Nat) : heEndProc ilMax = markerProc ilMax .endList closeList := rfl

section
variable {f : Encoder → Encoder}

theorem markerProc_closed (h : e.tmplDone = true) :
    markerProc ilMax kind f e = .error (.raise .templateClosed (e.ilCount.setWidth 32)) := by
  rw [markerProc, checkOpen_closed h]; rfl

theorem markerProc_uncovered (hopen : e.tmplDone = false)
    (h : e.nbits ≠ 0 ∨ e.bitsOut ≠ e.bitsCopied) :
    markerProc ilMax kind f e = .error (.raise .markerOrder (uncovered e)) := by
  rw [markerProc, checkOpen_open hopen, checkCovered_uncovered h]; rfl

theorem markerProc_covered (hopen : e.tmplDone = false) (hheld : e.nbits = 0)
    (hcopied : e.bitsOut = e.bitsCopied) :
    markerProc ilMax kind f e = (ilAppend ilMax kind 0 e).map f := by
  rw [markerProc, checkOpen_open hopen, checkCovered_covered hheld hcopied]; rfl

theorem markerProc_full (hopen : e.tmplDone = false) (hheld : e.nbits = 0)
    (hcopied : e.bitsOut = e.bitsCopied) (hfull : ilMax ≤ e.ilCount.toNat) :
    markerProc ilMax kind f e = .error (.raise .ilOverflow (e.ilCount.setWidth 32)) := by
  rw [markerProc_covered hopen hheld hcopied, ilAppend_full hopen hfull]; rfl

theorem markerProc_room (hopen : e.tmplDone = false) (hheld : e.nbits = 0)
    (hcopied : e.bitsOut = e.bitsCopied) (hroom : e.ilCount.toNat < ilMax) :
    markerProc ilMax kind f e = .ok (f (withEntry ⟨kind, 0⟩ e)) := by
  rw [markerProc_covered hopen hheld hcopied, ilAppend_room hopen hroom]; rfl

end

/-! ## The commands that append a marker or the end -/

/-- The codes of the markers that `HE_MARK` admits (R171). -/
def markerCodes : List (Byte × IlKind) :=
  [(2, .firstMb), (3, .sliceQpDelta), (4, .firstSlice), (5, .sliceSegment), (6, .saoEnable),
    (7, .lfAcrossSlices)]

theorem markKind_of_mem {x : Byte × IlKind} (h : x ∈ markerCodes) : markKind x.1 = some x.2 :=
  (by decide : ∀ x ∈ markerCodes, markKind x.1 = some x.2) x h

theorem exec_heMark {code : Byte} (h : (code, kind) ∈ markerCodes) (s : State) :
    exec (.heMark code) s = onEncoder 1 (markerProc s.params.ilMax kind id) s := by
  rw [← heMarkProc_eq, exec, execHeMark, markKind_of_mem h]

theorem exec_heEnd (s : State) :
    exec .heEnd s = onEncoder 1 (markerProc s.params.ilMax .endList closeList) s := rfl

/-- The commands that append an entry without bits. -/
def markerCommands : List Instr := .heEnd :: markerCodes.map fun x => .heMark x.1

theorem exec_marker {i : Instr} (hi : i ∈ markerCommands) (s : State) :
    ∃ kind f, exec i s = onEncoder 1 (markerProc s.params.ilMax kind f) s := by
  rcases List.mem_cons.1 hi with rfl | hi
  · exact ⟨_, _, exec_heEnd s⟩
  · obtain ⟨⟨code, kind⟩, hx, rfl⟩ := List.mem_map.1 hi
    exact ⟨_, _, exec_heMark hx s⟩

/-- A fault that both procedures enter. -/
theorem exec_marker_raise {i : Instr} (hi : i ∈ markerCommands) {x : BswFault} {info : Word}
    (h : ∀ kind f, markerProc s.params.ilMax kind f s.enc = .error (.raise x info)) :
    exec i s = .next (takeFault x info s) := by
  obtain ⟨kind, f, hx⟩ := exec_marker hi s
  rw [hx, onEncoder_of_raise (h kind f)]

/-- Settles O39. -/
theorem heMarkEndAppend : Obligations.HeMarkEndAppend := by
  intro s hopen hheld hcopied hroom
  constructor
  · intro code kind hcode
    refine ⟨_, (Memory.read_write s.enc.il _ · _), ?_⟩
    rw [exec_heMark hcode, onEncoder_of_ok (markerProc_room hopen hheld hcopied hroom)]
    rfl
  · refine ⟨_, (Memory.read_write s.enc.il _ · _), ?_⟩
    rw [exec_heEnd, onEncoder_of_ok (markerProc_room hopen hheld hcopied hroom)]
    rfl

/-! ## `he_copy` (R173) -/

/-- A flush leaves the list alone. -/
theorem flushed_list (h : Flushed e e') : e'.il = e.il ∧ e'.ilCount = e.ilCount ∧
    e'.bitsCopied = e.bitsCopied ∧ e'.tmplDone = e.tmplDone :=
  ⟨by rw [h.rest], by rw [h.rest], by rw [h.rest], by rw [h.rest]⟩

theorem heCopyProc_closed (h : e.tmplDone = true) :
    heCopyProc cap ilMax e = .error (.raise .templateClosed (e.ilCount.setWidth 32)) := by
  rw [heCopyProc, checkOpen_closed h]; rfl

theorem heCopyProc_flush_error {x : Stop} (hopen : e.tmplDone = false) (h : flush cap e = .error x) :
    heCopyProc cap ilMax e = .error x := by
  rw [heCopyProc, checkOpen_open hopen, h]; rfl

theorem heCopyProc_flushed (hopen : e.tmplDone = false) (h : flush cap e = .ok e') :
    heCopyProc cap ilMax e = (ilAppend ilMax .copy (e'.bitsOut - e'.bitsCopied) e').map
      fun x => { x with bitsCopied := x.bitsOut } := by
  rw [heCopyProc, checkOpen_open hopen, h]; rfl

theorem heCopyProc_full (hopen : e.tmplDone = false) (h : flush cap e = .ok e') (hf : Flushed e e')
    (hfull : ilMax ≤ e.ilCount.toNat) :
    heCopyProc cap ilMax e = .error (.raise .ilOverflow (e.ilCount.setWidth 32)) := by
  obtain ⟨-, count, -, done⟩ := flushed_list hf
  rw [← count] at hfull ⊢
  rw [heCopyProc_flushed hopen h, ilAppend_full (done.trans hopen) hfull]; rfl

theorem heCopyProc_room (hopen : e.tmplDone = false) (h : flush cap e = .ok e') (hf : Flushed e e')
    (hroom : e.ilCount.toNat < ilMax) :
    heCopyProc cap ilMax e = .ok
      { e' with il := Memory.write e.il e.ilCount.toNat ⟨.copy, e'.bitsOut - e.bitsCopied⟩
                ilCount := e.ilCount + 1
                bitsCopied := e'.bitsOut } := by
  obtain ⟨list, count, copied, done⟩ := flushed_list hf
  rw [← count] at hroom
  rw [heCopyProc_flushed hopen h, ilAppend_room (done.trans hopen) hroom, ← list, ← count, ← copied]
  rfl

/-- Settles O38. -/
theorem heCopyAppends : Obligations.HeCopyAppends := by
  intro s hs hopen hflush hroom
  obtain ⟨e, he, flushed, -⟩ := flush_flushed (settled_of_encInv hs.enc) hs.cap hflush
  exact ⟨e, _, flushed, (Memory.read_write s.enc.il _ · _),
    onEncoder_of_ok (heCopyProc_room hopen he flushed hroom)⟩

/-- Settles O40. -/
theorem templateFaults : Obligations.TemplateFaults := by
  intro s
  refine ⟨fun hclosed i hi => ?closed, fun hopen huncovered i hi => ?uncovered,
    fun hopen hheld hcopied hfull i hi => ?full, fun hopen hs hflush => ?noFlush,
    fun hopen hs hflush hfull => ?copyFull⟩
  case closed =>
    rcases List.mem_cons.1 hi with rfl | hi
    · exact onEncoder_of_raise (heCopyProc_closed hclosed)
    · exact exec_marker_raise hi fun _ _ => markerProc_closed hclosed
  case uncovered => exact exec_marker_raise hi fun _ _ => markerProc_uncovered hopen huncovered
  case full => exact exec_marker_raise hi fun _ _ => markerProc_full hopen hheld hcopied hfull
  case noFlush =>
    exact onEncoder_of_raise (heCopyProc_flush_error hopen
      (flush_overflow (settled_of_encInv hs.enc) hs.cap hflush))
  case copyFull =>
    obtain ⟨e, he, flushed, -⟩ := flush_flushed (settled_of_encInv hs.enc) hs.cap hflush
    exact onEncoder_of_raise (heCopyProc_full hopen he flushed hfull)

/-! ## The slice-parameter RAM (R176, R177) -/

theorem exec_heSetp_inside {idx : Half} (h : idx.toNat ≤ 511) (value : Word) (s : State) :
    exec (.heSetp idx value) s =
      complete 2 (setSp (Memory.write s.sp idx.toNat ⟨value, true⟩) s) :=
  if_neg (Nat.not_lt_of_le h)

theorem exec_heSetp_outside {idx : Half} (h : 511 < idx.toNat) (value : Word) (s : State) :
    exec (.heSetp idx value) s = raise .spIndex (idx.setWidth 32) s := if_pos h

theorem unwritten_clearWritten (sp : Memory SpCell) (i : Nat) : unwritten (clearWritten sp) i := by
  rw [unwritten, spWritten, read_clearWritten]
  cases Memory.read sp i <;> rfl

theorem word_clearWritten (sp : Memory SpCell) (i : Nat) :
    (Memory.read (clearWritten sp) i).map SpCell.word = (Memory.read sp i).map SpCell.word := by
  rw [read_clearWritten, Option.map_map]; rfl

/-- Settles O41. -/
theorem heSetpClrp : Obligations.HeSetpClrp := by
  refine ⟨fun idx value s => ⟨fun hidx => ?inside, fun hidx => ?outside⟩, fun s => ?clear⟩
  case inside =>
    exact ⟨_, (Memory.read_write s.sp _ · _), exec_heSetp_inside hidx value s⟩
  case outside =>
    rw [exec_heSetp_outside hidx, BitVec.ofNat_toNat]; rfl
  case clear =>
    exact ⟨_, fun a => ⟨unwritten_clearWritten s.sp a, word_clearWritten s.sp a⟩, rfl⟩

end Sys2Proof.TemplateFamily
end

section
/-! SUPPORT. What a range of a template leaves in OUT (spec/42_header_template.md R180): its bits from bit 31
of a word on, the rest of its last word 0. OUT is looked at word by word, so that nothing is assumed of what it
held before: `bw_reset` leaves stale contents behind (log 21). -/

namespace Sys2Proof.TemplateFamily

open Sys2Proof.Machine Sys2Proof.Safety Sys2Proof.StateFamily Sys2Proof.BitWriterFamily

variable {cap : Nat} {e e' : Encoder} {m m' : Memory Word} {w : Nat} {xs bs : List Bool}

/-! ## A bit string in OUT -/

/-- The 32 bits of a bit string that stand in its word `j`; fewer at its end. -/
def chunk (bs : List Bool) (j : Nat) : List Bool := (bs.drop (32 * j)).take 32

/-- The words that a bit string takes (R180). -/
def wordCount (bs : List Bool) : Nat := (bs.length + 31) / 32

/-- `after` is OUT `before` with the bit string `bs` from bit 31 of word `w` on, its last word filled up with
zeros, and nothing else changed. -/
structure Filled (before after : Memory Word) (w : Nat) (bs : List Bool) : Prop where
  words : ∀ j < wordCount bs, Memory.read after (w + j) = some (wordOf (chunk bs j))
  others : ∀ k, (k < w ∨ w + wordCount bs ≤ k) → Memory.read after k = Memory.read before k

theorem chunk_length_le (bs : List Bool) (j : Nat) : (chunk bs j).length ≤ 32 := by simp [chunk]

theorem getD_chunk (bs : List Bool) (j : Nat) {i : Nat} (hi : i < 32) :
    (chunk bs j).getD i false = bs.getD (32 * j + i) false := by
  simp [chunk, List.getD, hi]

/-- A whole word of a bit string does not see what stands behind it. -/
theorem chunk_append_of_le {j : Nat} (h : 32 * (j + 1) ≤ xs.length) (ys : List Bool) :
    chunk (xs ++ ys) j = chunk xs j := by
  rw [chunk, List.drop_append_of_le_length (by omega),
    List.take_append_of_le_length (by rw [List.length_drop]; omega), chunk]

/-- The last word of a bit string. -/
theorem chunk_last {j : Nat} (h : xs.length ≤ 32 * (j + 1)) : chunk xs j = xs.drop (32 * j) :=
  List.take_of_length_le (by rw [List.length_drop]; omega)

/-- A bit of OUT where a bit string stands. -/
theorem Filled.bitAt (h : Filled m m' w bs) {i : Nat} (hi : i < 32 * wordCount bs) :
    bitAt m' (32 * w + i) = some (bs.getD i false) := by
  have word : (32 * w + i) / 32 = w + i / 32 := by omega
  have place : (32 * w + i) % 32 = i % 32 := by omega
  have inside : i % 32 < 32 := Nat.mod_lt _ (by decide)
  have bit := getMsbD_wordOf (chunk_length_le bs (i / 32)) (i % 32)
  rw [getD_chunk bs _ inside, Nat.div_add_mod, BitVec.getMsbD_eq_getLsbD, decide_eq_true inside,
    Bool.true_and] at bit
  rw [Safety.bitAt, word, place, h.words _ (by omega), Option.map_some, ← bit]

/-- A bit of OUT in a word where the bit string does not stand. -/
theorem Filled.bitAt_other (h : Filled m m' w bs) {q : Nat} (hq : q < 32 * w) :
    Safety.bitAt m' q = Safety.bitAt m q := by
  rw [Safety.bitAt, h.others _ (.inl (by omega)), Safety.bitAt]

/-! ## One byte more -/

theorem getMsbD_byte {c : List Bool} (hc : c.length = 8) (j : Nat) :
    (BitVec.ofNat 8 (natOf c)).getMsbD j = c.getD j false := by
  rw [BitVec.getMsbD_eq_getLsbD, BitVec.getLsbD_ofNat, testBit_natOf]
  by_cases hj : j < 8
  · have back : c.length - 1 - (8 - 1 - j) = j := by omega
    have inside : 8 - 1 - j < c.length := by omega
    simp [List.getD, hj, List.getElem?_reverse inside, back]
    omega
  · simp [List.getD, hj, hc]

/-- A byte put below the held bits of a word. -/
theorem wordOf_or_laneByte {c : List Bool} (hc : c.length = 8) {k : Nat} (hx : xs.length = 8 * k)
    (hk : k < 4) :
    wordOf xs ||| laneByte (BitVec.ofNat 8 (natOf c)) k = wordOf (xs ++ c) := by
  refine eq_wordOf (by rw [List.length_append]; omega) fun i hi => ?_
  have lane : (laneByte (BitVec.ofNat 8 (natOf c)) k).getMsbD i =
      (decide (8 * k ≤ i) && c.getD (i - 8 * k) false) := by
    have index : i + (24 - 8 * k) + 8 - 32 = i - 8 * k := by omega
    have bound : 32 - 8 ≤ i + (24 - 8 * k) ↔ 8 * k ≤ i := by omega
    rw [laneByte, BitVec.getMsbD_shiftLeft, BitVec.getMsbD_setWidth, index, getMsbD_byte hc,
      decide_eq_decide.2 bound]
  rw [BitVec.getMsbD_or, getMsbD_wordOf (by omega), lane]
  by_cases hl : i < 8 * k
  · have before : ¬8 * k ≤ i := by omega
    rw [List.getD_append _ _ _ _ (by omega)]
    simp [before]
  · have behind : 8 * k ≤ i := by omega
    rw [List.getD_append_right _ _ _ _ (by omega), hx, List.getD_eq_default _ _ (by omega)]
    simp [behind]

/-- Whole bytes of a bit string `xs` stand in OUT from word `w` on, and the position is behind them. -/
structure Placed (before : Memory Word) (w : Nat) (xs : List Bool) (e : Encoder) : Prop where
  out : Filled before e.out w xs
  whole : xs.length % 8 = 0
  position : pos e = 4 * w + xs.length / 8

theorem Placed.mergedWord (h : Placed m w xs e) (b : Byte) : mergedWord b e =
    some (wordOf (xs.drop (32 * (xs.length / 32))) ||| laneByte b e.outBi.toNat) := by
  have position := h.position
  have whole := h.whole
  have lane := e.outBi.isLt
  unfold pos at position
  unfold Machine.mergedWord
  split
  · rename_i hbi
    have zero : e.outBi.toNat = 0 := by rw [hbi]; rfl
    rw [List.drop_eq_nil_of_le (by omega), zero]
    simp
  · rename_i hbi
    have nonzero : e.outBi.toNat ≠ 0 := fun hc => hbi (BitVec.eq_of_toNat_eq hc)
    have word : e.outWi.toNat = w + xs.length / 32 := by omega
    rw [word, h.out.words _ (by unfold wordCount; omega), chunk_last (by omega)]
    rfl

theorem Placed.byte (h : Placed m w xs e) {c : List Bool} (hc : c.length = 8) (hcap : cap ≤ outCapLimit)
    (hroom : e.outWi.toNat < cap) : ∃ e', outputByte cap (BitVec.ofNat 8 (natOf c)) e = .ok e' ∧
      e' = { e with out := e'.out, outWi := e'.outWi, outBi := e'.outBi } ∧ Placed m w (xs ++ c) e' := by
  have position := h.position
  have whole := h.whole
  have lane := e.outBi.isLt
  have unfolded := h.position
  unfold pos at unfolded
  have word : e.outWi.toNat = w + xs.length / 32 := by omega
  have merged : Machine.mergedWord (BitVec.ofNat 8 (natOf c)) e =
      some (wordOf (chunk (xs ++ c) (xs.length / 32))) := by
    rw [h.mergedWord, wordOf_or_laneByte hc (by rw [List.length_drop]; omega) lane,
      chunk_last (by rw [List.length_append]; omega), List.drop_append_of_le_length (by omega)]
  have done : outputByte cap (BitVec.ofNat 8 (natOf c)) e = .ok (nextLane { e with
      out := Memory.write e.out e.outWi.toNat (wordOf (chunk (xs ++ c) (xs.length / 32))) }) := by
    rw [outputByte, if_neg (Nat.not_le_of_lt hroom), merged]
  refine ⟨_, done, outputByte_frame done, ?_, ?_, ?_⟩
  · rw [nextLane_frame]
    refine ⟨fun j hj => ?_, fun k hk => ?_⟩
    · rw [wordCount, List.length_append] at hj
      simp only [word]
      rw [Memory.read_write]
      split
      · rename_i same
        rw [Nat.add_left_cancel same]
      · rw [h.out.words j (by unfold wordCount; omega), chunk_append_of_le (by omega)]
    · rw [wordCount, List.length_append] at hk
      simp only
      rw [Memory.read_write_other _ _ (by omega), h.out.others k (by unfold wordCount; omega)]
  · rw [List.length_append]; omega
  · rw [pos_nextLane (by exact Nat.lt_of_lt_of_le hroom hcap), List.length_append]
    show pos e + 1 = _
    omega

/-- Whole bytes stored one after the other. -/
theorem Placed.bytes (h : Placed m w xs e) (hcap : cap ≤ outCapLimit) (hbs : bs.length % 8 = 0)
    (hroom : w + wordCount (xs ++ bs) ≤ cap) : ∃ e', storeAll cap (bytesOf bs) e = .ok e' ∧
      e' = { e with out := e'.out, outWi := e'.outWi, outBi := e'.outBi } ∧
      Placed m w (xs ++ bs) e' := by
  induction bs using byteInduction generalizing xs e with
  | short bs hlt =>
    obtain rfl : bs = [] := List.eq_nil_of_length_eq_zero (by omega)
    exact ⟨e, rfl, rfl, by rwa [List.append_nil]⟩
  | long bs hle ih =>
    have split : (xs ++ bs.take 8) ++ bs.drop 8 = xs ++ bs := by
      rw [List.append_assoc, List.take_append_drop]
    have position := h.position
    have room : e.outWi.toNat < cap := by
      rw [wordCount, List.length_append] at hroom
      exact outWi_lt_iff.2 (by omega)
    obtain ⟨e₁, h₁, frame₁, placed₁⟩ := h.byte (c := bs.take 8) (by simp [hle]) hcap room
    obtain ⟨e₂, h₂, frame₂, placed₂⟩ :=
      ih placed₁ (by rw [List.length_drop]; omega) (by rw [split]; exact hroom)
    refine ⟨e₂, ?_, by rw [frame₂, frame₁], split ▸ placed₂⟩
    rw [bytesOf_long hle, storeAll, h₁]
    exact h₂

end Sys2Proof.TemplateFamily
end

section
/-! SUPPORT. A range of a template: the calls that put its bits, and the flush of its `COPY`, store the bytes
of its bits filled up to a whole byte (spec/41_bitwriter.md R137, R146; 42_header_template.md R173). -/

namespace Sys2Proof.TemplateFamily

open Sys2Proof.Machine Sys2Proof.Safety Sys2Proof.StateFamily Sys2Proof.BitWriterFamily

variable {cap ilMax : Nat} {e e' : Encoder} {m : Memory Word} {bs : List Bool} {b : Script}

/-- The bit writer between two ranges, without emulation prevention. -/
structure Rested (e : Encoder) : Prop where
  shifter : e.shifter = 0
  nbits : e.nbits = 0
  lane : e.outBi = 0
  ep : e.ep = false

theorem Rested.isPartial (h : Rested e) : Partial e := ⟨by simp [h.nbits], by simp [h.shifter]⟩

theorem Rested.heldBits (h : Rested e) : heldBits e = [] :=
  List.eq_nil_of_length_eq_zero (by rw [length_heldBits, h.nbits]; rfl)

theorem Rested.position (h : Rested e) : pos e = 4 * e.outWi.toNat := by simp [pos, h.lane]

/-- The zero bits that fill up the last byte of `n` bits. -/
def padding (n : Nat) : List Bool := List.replicate ((8 - n % 8) % 8) false

/-- The zeros are what stands behind the end of a bit string anyway. -/
theorem getD_append_padding (bs : List Bool) (n i : Nat) :
    (bs ++ padding n).getD i false = bs.getD i false := by
  by_cases hi : i < bs.length
  · rw [List.getD_append _ _ _ _ hi]
  · rw [List.getD_append_right _ _ _ _ (by omega), List.getD_eq_default bs _ (by omega)]
    exact List.getElem?_getD_replicate_default_eq _ _ _

theorem wordOf_append_padding (h : bs.length ≤ 8) : wordOf (bs ++ padding bs.length) = wordOf bs :=
  eq_wordOf (by omega) fun i _ => by
    rw [getMsbD_wordOf (by simp [padding]; omega), getD_append_padding]

theorem wordCount_append_padding (bs : List Bool) :
    wordCount (bs ++ padding bs.length) = wordCount bs := by
  simp only [wordCount, padding, List.length_append, List.length_replicate]
  omega

theorem Filled.of_append_padding {before after : Memory Word} {w : Nat}
    (h : Filled before after w (bs ++ padding bs.length)) : Filled before after w bs where
  words j hj := by
    rw [h.words j (by rwa [wordCount_append_padding])]
    refine congrArg some (eq_wordOf (chunk_length_le bs j) fun i hi => ?_)
    rw [getMsbD_wordOf (chunk_length_le _ j), getD_chunk _ _ hi, getD_chunk _ _ hi, getD_append_padding]
  others k hk := h.others k (by rwa [wordCount_append_padding])

theorem length_bytesOf (bs : List Bool) : (bytesOf bs).length = bs.length / 8 := by
  induction bs using byteInduction with
  | short bs h => rw [bytesOf_short h, Nat.div_eq_of_lt h, List.length_nil]
  | long bs h ih => rw [bytesOf_long h, List.length_cons, ih, List.length_drop]; omega

/-- What a flush drains while `bs` is held: its bits filled up to a byte. -/
theorem flushBytes_holding (h : bs.length < 8) (k : Nat) (e : Encoder) :
    flushBytes (holding bs k e) = bytesOf (bs ++ padding bs.length) := by
  have count := holding_nbits (bs := bs) (by omega) k e
  unfold flushBytes
  split
  · rename_i hn
    obtain rfl : bs = [] := List.eq_nil_of_length_eq_zero (by rw [← count, hn]; rfl)
    rfl
  · rename_i hn
    have held : bs.length ≠ 0 := fun hc => hn (nbits_eq_zero_iff.2 (count.trans hc))
    have full : (bs ++ padding bs.length).length = 8 := by simp [padding]; omega
    rw [holding_shifter, ← wordOf_append_padding (by omega), firstByte_wordOf (by omega) (by omega),
      bytesOf_long (by omega), bytesOf_short (by simp [full])]

theorem bytesOf_append_padding (bs : List Bool) : bytesOf (bs ++ padding bs.length) =
    bytesOf bs ++ bytesOf (restBits bs ++ padding (restBits bs).length) := by
  rw [bytesOf_append, length_restBits, padding, padding, Nat.mod_mod]

/-- Without emulation prevention data bytes are stored as they are (R135). -/
theorem drainAll_plain (h : e.ep = false) (data : List Byte) : drainAll cap data e = storeAll cap data e := by
  have bytes : emitted e data = data := by simp [emitted, h]
  have zeros : nzAfter e data = e.nz.toNat := by simp [nzAfter, h]
  rw [drainAll_eq, bytes]
  cases hx : storeAll cap data e with
  | error z => rfl
  | ok e₁ =>
    rw [storeAll_frame hx]
    simp [Except.map, drainCounters, setCounters, bytes, zeros]

/-- A bit string fed and then flushed, without emulation prevention. -/
theorem feed_flush (h : Rested e) (bs : List Bool) : (feed cap bs e).bind (flush cap) =
    (storeAll cap (bytesOf (bs ++ padding bs.length)) e).map
      fun x => alignWord (setShifter 0 0 (BitVec.ofNat 32 bs.length) x) := by
  have short := length_restBits_lt bs
  rw [bytesOf_append_padding, storeAll_append, feed, drainAll_plain h.ep]
  cases hx : storeAll cap (bytesOf bs) e with
  | error z => rfl
  | ok e₁ =>
    have ep : e₁.ep = false := by rw [storeAll_frame hx]; exact h.ep
    show flush cap (holding _ _ e₁) = (storeAll cap _ e₁).map _
    rw [flush, flushHeld_eq (partial_holding (by omega) _ _), flushBytes_holding short, holding,
      drainAll_setShifter, drainAll_plain ep]
    cases storeAll cap (bytesOf (restBits bs ++ padding (restBits bs).length)) e₁ with
    | error z => rfl
    | ok e₂ =>
      have count : BitVec.ofNat 32 (8 * (bytesOf bs).length) +
          (BitVec.ofNat 6 (restBits bs).length).setWidth 32 = BitVec.ofNat 32 bs.length := by
        refine BitVec.eq_of_toNat_eq ?_
        simp only [BitVec.toNat_add, BitVec.toNat_setWidth, BitVec.toNat_ofNat, length_bytesOf,
          length_restBits]
        omega
      show Except.ok (alignWord (setShifter _ _ _ (setShifter _ _ _ e₂))) = _
      rw [setShifter_setShifter, ← count]
      rfl

theorem all_puts (h : b.all codes = true) : b.all (fun x => isPut x && codes x) = true := by
  refine List.all_eq_true.2 fun x hx => ?_
  have code := List.all_eq_true.1 h x hx
  cases x <;> simp_all [isPut, codes]

/-- The calls of a range, and the flush of its `COPY`. -/
theorem range_flush (h : Rested e) (hb : b.all codes = true) (hcap : cap ≤ outCapLimit)
    (hroom : e.outWi.toNat + rangeWords b ≤ cap) :
    ∃ e', (runScript cap ilMax b e).bind (flush cap) = .ok e' ∧ Rested e' ∧
      Filled e.out e'.out e.outWi.toNat (scriptBits b) ∧
      e'.outWi.toNat = e.outWi.toNat + rangeWords b ∧
      e' = { e with out := e'.out, outWi := e'.outWi,
                    bitsOut := e.bitsOut + BitVec.ofNat 32 (scriptBits b).length } := by
  have start : Placed e.out e.outWi.toNat [] e :=
    ⟨⟨fun j hj => absurd hj (Nat.not_lt_zero j), fun _ _ => rfl⟩, rfl, h.position⟩
  have length : (scriptBits b ++ padding (scriptBits b).length).length =
      8 * (((scriptBits b).length + 7) / 8) := by simp [padding]; omega
  obtain ⟨e₁, h₁, frame, placed⟩ := start.bytes hcap
    (bs := scriptBits b ++ padding (scriptBits b).length) (by omega)
    (by rw [List.nil_append, wordCount_append_padding]; exact hroom)
  rw [List.nil_append] at placed
  let x := setShifter 0 0 (BitVec.ofNat 32 (scriptBits b).length) e₁
  have position : pos x = 4 * e.outWi.toNat + (scriptBits b ++ padding (scriptBits b).length).length / 8 :=
    placed.position
  have aligned := alignWord_frame x
  have word : (alignWord x).outWi.toNat = e.outWi.toNat + rangeWords b := by
    unfold rangeWords at *
    rw [alignWord_outWi (by omega)]
    omega
  refine ⟨alignWord x, ?_, ⟨by rw [aligned]; rfl, by rw [aligned]; rfl, alignWord_outBi x, ?_⟩, ?_, word, ?_⟩
  · rw [runScript_puts (all_puts hb) e h.isPartial, h.heldBits, List.nil_append, feed_flush h, h₁]; rfl
  · rw [aligned, ← h.ep]; exact congrArg (·.ep) frame
  · rw [aligned]; exact placed.out.of_append_padding
  · have lane : (alignWord x).outBi = e.outBi := (alignWord_outBi x).trans h.lane.symm
    rw [aligned, lane]
    simp only [x]
    rw [frame]
    simp only [setShifter, h.shifter, h.nbits]

end Sys2Proof.TemplateFamily
end

section
/-! SUPPORT. A whole template (spec/42_header_template.md R180, 43_header_h264.md R194): what stands in OUT and
in IL after each range, and after the end, whichever sequencer makes the calls. -/

namespace Sys2Proof.TemplateFamily

open Sys2Proof.Machine Sys2Proof.Safety Sys2Proof.StateFamily Sys2Proof.BitWriterFamily

variable {cap ilMax : Nat} {e₀ e : Encoder} {m m' : Memory Word} {done : List Script} {b : Script}
  {entries : List IlEntry} {closed : Bool} {rs : List Range} {last : Script} {s : State}

/-! ## The words and bits of ranges -/

@[simp] theorem templateWords_append (done : List Script) (b : Script) :
    templateWords (done ++ [b]) = templateWords done + rangeWords b := by simp [templateWords]

@[simp] theorem templateBits_append (done : List Script) (b : Script) :
    templateBits (done ++ [b]) = templateBits done + (scriptBits b).length := by simp [templateBits]

theorem templateWords_append_le (done more : List Script) :
    templateWords done ≤ templateWords (done ++ more) := by simp [templateWords]

theorem templateBits_le (done : List Script) : templateBits done ≤ 32 * templateWords done := by
  induction done using List.reverseRecOn with
  | nil => exact Nat.le_refl 0
  | append_singleton done b ih =>
    rw [templateBits_append, templateWords_append, rangeWords]
    omega

/-- The words of a range lie before the end of its template. -/
theorem rangeStart_add_le {j : Nat} (hj : j < done.length) :
    rangeStart done j + rangeWords (done.getD j []) ≤ templateWords done := by
  have next : done.take (j + 1) = done.take j ++ [done.getD j []] := by
    rw [List.take_succ_eq_append_getElem hj, List.getD_eq_getElem _ _ hj]
  calc rangeStart done j + rangeWords (done.getD j [])
      = templateWords (done.take (j + 1)) := by rw [next, templateWords_append]; rfl
    _ ≤ templateWords (done.take (j + 1) ++ done.drop (j + 1)) := templateWords_append_le _ _
    _ = templateWords done := by rw [List.take_append_drop]

/-- One more range behind the template. -/
theorem liesAt_append (h : liesAt m done) (hb : Filled m m' (templateWords done) (scriptBits b)) :
    liesAt m' (done ++ [b]) := by
  intro j hj i hi
  rw [List.length_append, List.length_singleton] at hj
  by_cases before : j < done.length
  · have start : rangeStart (done ++ [b]) j = rangeStart done j := by
      rw [rangeStart, List.take_append_of_le_length (Nat.le_of_lt before), rangeStart]
    have bound := rangeStart_add_le before
    rw [List.getD_append _ _ _ _ before] at hi ⊢
    rw [start, hb.bitAt_other (by omega)]
    exact h j before i hi
  · obtain rfl : j = done.length := by omega
    have start : rangeStart (done ++ [b]) done.length = templateWords done := by
      rw [rangeStart, List.take_left, templateWords]
    have body : (done ++ [b]).getD done.length [] = b := by simp
    rw [body] at hi ⊢
    rw [start]
    exact hb.bitAt hi

/-! ## A template under construction -/

/-- `e` is `e₀` after a reset, the ranges `done` and the list entries `entries`; `closed` says whether the list
is closed. -/
structure Building (e₀ e : Encoder) (done : List Script) (entries : List IlEntry) (closed : Bool) :
    Prop where
  rested : Rested e
  zeros : e.nz = 0
  word : e.outWi.toNat = templateWords done
  total : e.bitsOut = BitVec.ofNat 32 (templateBits done)
  copied : e.bitsCopied = e.bitsOut
  closed : e.tmplDone = closed
  count : e.ilCount.toNat = entries.length
  list : ∀ i, Memory.read e.il i = entries[i]?.or (Memory.read e₀.il i)
  out : liesAt e.out done
  later : ∀ w, templateWords done ≤ w → Memory.read e.out w = Memory.read e₀.out w

theorem building_reset (e : Encoder) : Building e (bwResetProc e) [] [] false where
  rested := ⟨rfl, rfl, rfl, rfl⟩
  zeros := rfl
  word := rfl
  total := rfl
  copied := rfl
  closed := rfl
  count := rfl
  list _ := rfl
  out j hj := absurd hj (Nat.not_lt_zero j)
  later _ _ := rfl

/-- One more entry in the list. -/
theorem Building.entry (h : Building e₀ e done entries closed) (hlen : entries.length < 255) (x : IlEntry) :
    Building e₀ (withEntry x e) done (entries ++ [x]) closed :=
  { h with
    rested := ⟨h.rested.shifter, h.rested.nbits, h.rested.lane, h.rested.ep⟩
    count := by
      have count := h.count
      rw [List.length_append, List.length_singleton, ← count]
      exact BitVec.toNat_add_of_lt (by simp; omega)
    list := fun i => by
      show Memory.read (Memory.write e.il e.ilCount.toNat x) i = _
      rw [Memory.read_write, h.count, h.list i]
      split
      · rename_i same
        simp [same]
      · rename_i other
        by_cases before : i < entries.length
        · rw [List.getElem?_append_left before]
        · rw [List.getElem?_eq_none (by omega), List.getElem?_eq_none (by simp; omega)] }

theorem Building.mark (h : Building e₀ e done entries false) (hil : entries.length < ilMax)
    (kind : IlKind) : runItem cap ilMax (.mark kind) e = .ok (withEntry ⟨kind, 0⟩ e) := by
  show heMarkProc ilMax kind e = _
  rw [heMarkProc_eq]
  exact markerProc_room h.closed h.rested.nbits h.copied.symm (h.count ▸ hil)

theorem Building.close (h : Building e₀ e done entries false) (hil : entries.length < ilMax) :
    runItem cap ilMax .close e = .ok (closeList (withEntry ⟨.endList, 0⟩ e)) := by
  show heEndProc ilMax e = _
  rw [heEndProc_eq]
  exact markerProc_room h.closed h.rested.nbits h.copied.symm (h.count ▸ hil)

theorem Building.closeList (h : Building e₀ e done entries false) :
    Building e₀ (closeList e) done entries true :=
  { h with
    rested := ⟨h.rested.shifter, h.rested.nbits, h.rested.lane, h.rested.ep⟩
    closed := rfl }

theorem flush_tmplDone {e' : Encoder} (h : flush cap e = .ok e') : e'.tmplDone = e.tmplDone := by
  obtain ⟨e₁, h₁, rfl⟩ := flush_ok h
  rw [alignWord_frame]
  rcases flushHeld_ok h₁ with ⟨-, rfl⟩ | ⟨-, e₂, h₂, rfl⟩
  · rfl
  · exact congrArg (·.tmplDone) (drainByte_frame h₂)

/-- One more range, with its `COPY`. -/
theorem Building.copy (h : Building e₀ e done entries false) (hb : b.all codes = true)
    (hcap : cap ≤ outCapLimit) (hroom : templateWords (done ++ [b]) ≤ cap)
    (hmax : ilMax ≤ 255) (hil : entries.length < ilMax) :
    ∃ e', runScript cap ilMax (b ++ [.copy]) e = .ok e' ∧ Building e₀ e' (done ++ [b])
      (entries ++ [⟨.copy, BitVec.ofNat 32 (scriptBits b).length⟩]) false := by
  rw [templateWords_append, ← h.word] at hroom
  obtain ⟨e₁, h₁, rested, filled, word, frame⟩ := range_flush (ilMax := ilMax) h.rested hb hcap hroom
  obtain ⟨x, hx, hflush⟩ := result_bind_ok.1 h₁
  have isOpen : e₁.tmplDone = false := (congrArg (·.tmplDone) frame).trans h.closed
  have count : e₁.ilCount = e.ilCount := congrArg (·.ilCount) frame
  have total : e₁.bitsOut = e.bitsOut + BitVec.ofNat 32 (scriptBits b).length :=
    congrArg (·.bitsOut) frame
  have length : e₁.bitsOut - e₁.bitsCopied = BitVec.ofNat 32 (scriptBits b).length := by
    have copied : e₁.bitsCopied = e.bitsOut := (congrArg (·.bitsCopied) frame).trans h.copied
    rw [total, copied]
    exact add_sub_cancel_left _ _
  have copied : runScript cap ilMax (b ++ [.copy]) e = .ok (withEntry
      ⟨.copy, BitVec.ofNat 32 (scriptBits b).length⟩ { e₁ with bitsCopied := e₁.bitsOut }) := by
    rw [runScript_append, hx]
    show (heCopyProc cap ilMax x).bind Except.ok = _
    rw [heCopyProc_flushed ((flush_tmplDone hflush).symm.trans isOpen) hflush,
      ilAppend_room isOpen (by rw [count, h.count]; exact hil), length]
    rfl
  have range : Building e₀ { e₁ with bitsCopied := e₁.bitsOut } (done ++ [b]) entries false :=
    { rested := ⟨rested.shifter, rested.nbits, rested.lane, rested.ep⟩
      zeros := (congrArg (·.nz) frame).trans h.zeros
      word := by rw [templateWords_append, ← h.word]; exact word
      total := by rw [templateBits_append, BitVec.ofNat_add, ← h.total]; exact total
      copied := rfl
      closed := isOpen
      count := by rw [← h.count]; exact congrArg BitVec.toNat count
      list := fun i => by rw [← h.list i]; exact congrArg (Memory.read · i) (congrArg (·.il) frame)
      out := liesAt_append h.out (h.word ▸ filled)
      later := fun k hk => by
        rw [templateWords_append] at hk
        rw [← h.later k (by omega)]
        exact filled.others k (.inr (by rw [h.word]; exact hk)) }
  exact ⟨_, copied, range.entry (by omega) _⟩

/-- The calls of a template behind its reset: each range with its `COPY` and its marker, and the end. -/
def templateCalls : List Range → Script → Script
  | [], last => (last ++ [Item.copy]) ++ [Item.close]
  | r :: rs, last => (r.body ++ [Item.copy]) ++ Item.mark r.mark :: templateCalls rs last

theorem templateScript_eq (rs : List Range) (last : Script) :
    templateScript rs last = .reset :: templateCalls rs last := by
  induction rs with
  | nil => simp [templateScript, templateCalls]
  | cons r rs ih =>
    simp only [templateScript, List.cons_append, List.cons.injEq, true_and] at ih ⊢
    rw [List.flatMap_cons, List.append_assoc, ih]
    simp [templateCalls]

/-- The calls of a template, from any point of its construction on: the remaining ranges and the end. -/
theorem Building.template (h : Building e₀ e done entries false) (hcap : cap ≤ outCapLimit)
    (hmax : ilMax ≤ 255) (hcodes : ∀ b ∈ bodies rs last, b.all codes = true)
    (hout : templateWords (done ++ bodies rs last) ≤ cap)
    (hil : (entries ++ templateEntries rs last).length ≤ ilMax) :
    ∃ e', runScript cap ilMax (templateCalls rs last) e = .ok e' ∧
      Building e₀ e' (done ++ bodies rs last) (entries ++ templateEntries rs last) true := by
  induction rs generalizing e done entries with
  | nil =>
    have list : entries ++ templateEntries [] last =
        (entries ++ [⟨.copy, BitVec.ofNat 32 (scriptBits last).length⟩]) ++ [⟨.endList, 0⟩] := by
      simp [templateEntries]
    rw [list] at hil ⊢
    simp only [List.length_append, List.length_singleton] at hil
    obtain ⟨e₁, h₁, copied⟩ := h.copy (hcodes last (List.mem_singleton_self last)) hcap hout hmax (by omega)
    have ended := copied.close (cap := cap) (ilMax := ilMax) (by simp; omega)
    refine ⟨_, ?_, (copied.entry (by simp; omega) ⟨.endList, 0⟩).closeList⟩
    rw [templateCalls, runScript_append, h₁]
    show (runItem cap ilMax .close e₁).bind _ = _
    rw [ended]
    rfl
  | cons r rs ih =>
    have split : done ++ bodies (r :: rs) last = (done ++ [r.body]) ++ bodies rs last := by simp [bodies]
    have list : entries ++ templateEntries (r :: rs) last =
        (entries ++ [⟨.copy, BitVec.ofNat 32 (scriptBits r.body).length⟩] ++ [⟨r.mark, 0⟩]) ++
          templateEntries rs last := by simp [templateEntries]
    rw [split] at hout ⊢
    rw [list] at hil ⊢
    have room := (templateWords_append_le _ _).trans hout
    have length := hil
    simp only [List.length_append, List.length_singleton] at length
    obtain ⟨hbody, hrest⟩ := (List.forall_mem_cons (l := bodies rs last)).1 hcodes
    obtain ⟨e₁, h₁, copied⟩ := h.copy hbody hcap room hmax (by omega)
    have marked := copied.mark (cap := cap) (ilMax := ilMax) (by simp; omega) r.mark
    obtain ⟨e₂, h₂, built⟩ := ih (copied.entry (by simp; omega) ⟨r.mark, 0⟩) hrest hout hil
    refine ⟨e₂, ?_, built⟩
    rw [templateCalls, runScript_append, h₁]
    show (runItem cap ilMax (.mark r.mark) e₁).bind _ = _
    rw [marked]
    exact h₂

theorem Building.templated (h : Building e₀ e (bodies rs last) (templateEntries rs last) true)
    (hlim : templateWords (bodies rs last) ≤ outCapLimit) : Templated e₀ e rs last where
  entries i hi := by rw [h.list, List.getElem?_eq_getElem hi]; rfl
  count := h.count
  otherEntries i hi := by rw [h.list, List.getElem?_eq_none hi]; rfl
  total := by
    have bits := templateBits_le (bodies rs last)
    simp only [outCapLimit] at hlim
    rw [h.total, BitVec.toNat_ofNat, Nat.mod_eq_of_lt (by omega)]
  copied := h.copied
  done := h.closed
  empty := ⟨h.rested.nbits, h.rested.shifter, h.rested.lane, h.rested.ep, h.zeros⟩
  words := h.word
  out := h.out
  otherWords w hw := h.later w (h.word ▸ hw)

/-- A template that has room is left in OUT and IL. -/
theorem runScript_templateScript (h : Room s rs last) :
    ∃ e, runScript s.outCapWords s.params.ilMax (templateScript rs last) s.enc = .ok e ∧
      Templated s.enc e rs last := by
  obtain ⟨e, he, built⟩ := (building_reset s.enc).template h.cap h.ilMax h.codes h.out h.il
  exact ⟨e, by rw [templateScript_eq]; exact he, built.templated (h.out.trans h.cap)⟩

end Sys2Proof.TemplateFamily
end

section
/-! SUPPORT. The shape of the H.264 sequence (spec/43_header_h264.md R190, R193, R194): the opening checks lead
to a raise or to the calls of a template, whose fields put bits or raise. -/

namespace Sys2Proof.H264Family

open Sys2Proof.Machine Sys2Proof.Safety Sys2Proof.TemplateFamily

variable {sp : Memory SpCell} {a b : Script} {r : Result Word} {k : Word → Script}

/-- Settles O42. -/
theorem h264Completes : Obligations.H264Completes := by
  intro rs last s hscript hroom
  obtain ⟨e, he, templated⟩ := runScript_templateScript hroom
  have run : runScript s.outCapWords s.params.ilMax (h264Script s.sp) s.enc = .ok e := by
    rw [hscript, he]
  exact ⟨e, onEncoder_of_ok run, templated⟩

/-! ## Sequences that only put bits or raise -/

/-- Every call puts bits or is a raise. -/
def Plain (a : Script) : Prop := ∀ x ∈ a, isPut x = true ∨ isStop x = true

@[simp] theorem plain_nil : Plain [] := by simp [Plain]

@[simp] theorem plain_cons {x : Item} : Plain (x :: a) ↔ (isPut x = true ∨ isStop x = true) ∧ Plain a :=
  List.forall_mem_cons

@[simp] theorem plain_append : Plain (a ++ b) ↔ Plain a ∧ Plain b := List.forall_mem_append

@[simp] theorem plain_ite {c : Prop} [Decidable c] :
    Plain (if c then a else b) ↔ (c → Plain a) ∧ (¬c → Plain b) := by
  split <;> simp [*]

@[simp] theorem plain_need : Plain (need r k) ↔ ∀ x, r = .ok x → Plain (k x) := by
  cases r <;> simp [isPut, isStop]

@[simp] theorem plain_emitBits (n : Nat) : Plain (emitBits r n) := by simp [emitBits, isPut]

@[simp] theorem plain_emitUe : Plain (emitUe r) := by simp [emitUe, isPut]

@[simp] theorem plain_emitSe : Plain (emitSe r) := by simp [emitSe, isPut]

@[simp] theorem plain_whenSet : Plain (whenSet r a) ↔ (r = .ok 1 → Plain a) := by
  rw [whenSet, plain_need]
  exact ⟨fun h hr => by simpa using h 1 hr, fun h x hr => by split <;> simp_all⟩

/-- Such a sequence without a raise puts bits only. -/
theorem Plain.all_isPut (h : Plain a) (hstop : ¬a.any isStop = true) : a.all isPut = true := by
  refine List.all_eq_true.2 fun x hx => (h x hx).resolve_right fun hs => hstop ?_
  exact List.any_eq_true.2 ⟨x, hx, hs⟩

/-! ## The fields (R193 (3), (5), R197, R198) -/

theorem plain_h264RplmFrom (sp : Memory SpCell) (base k i : Nat) : Plain (h264RplmFrom sp base k i) := by
  induction k generalizing i with
  | zero => simp [h264RplmFrom, isStop]
  | succ k ih => simp [h264RplmFrom, isPut, ih]

theorem plain_h264MmcoFrom (sp : Memory SpCell) (k i : Nat) : Plain (h264MmcoFrom sp k i) := by
  induction k generalizing i with
  | zero => simp [h264MmcoFrom, isStop]
  | succ k ih => simp [h264MmcoFrom, h264MmcoOperands, isPut, ih]

@[simp] theorem plain_h264Poc (sp : Memory SpCell) : Plain (h264Poc sp) := by simp [h264Poc]

@[simp] theorem plain_h264NumRefIdx (sp : Memory SpCell) (c : H264Steer) :
    Plain (h264NumRefIdx sp c) := by
  simp [h264NumRefIdx, isPut]

@[simp] theorem plain_h264RplmFlag (sp : Memory SpCell) (i base : Nat) :
    Plain (h264RplmFlag sp i base) := by
  simp [h264RplmFlag, h264Rplm, isPut, plain_h264RplmFrom]

@[simp] theorem plain_h264Marking (sp : Memory SpCell) (c : H264Steer) : Plain (h264Marking sp c) := by
  simp [h264Marking, h264Mmco, isPut, plain_h264MmcoFrom]

theorem plain_h264Fields (sp : Memory SpCell) (c : H264Steer) : Plain (h264Fields sp c) := by
  simp [h264Fields, h264FrameNum, isPut]

theorem plain_h264Deblock (sp : Memory SpCell) : Plain (h264Deblock sp) := by simp [h264Deblock, isPut]

/-! ## The opening checks (R193 (1)) -/

/-- The sequence meets a raise or has `P`. -/
def Leads (P : Script → Prop) (a : Script) : Prop := a.any isStop = true ∨ P a

variable {P : Script → Prop}

theorem leads_need (h : ∀ x, Leads P (k x)) : Leads P (need r k) := by
  cases r with
  | error z => exact .inl rfl
  | ok x => exact h x

theorem leads_unless {c : Prop} [Decidable c] {x : Stop} (h : Leads P a) :
    Leads P (if c then [.stop x] else a) := by
  split
  · exact .inl rfl
  · exact h

theorem leads_h264Weighted {c : H264Steer} (h : Leads P a) : Leads P (h264Weighted sp c a) := by
  unfold h264Weighted
  split
  · exact leads_need fun _ => h
  · split
    · exact leads_need fun _ => leads_unless h
    · exact h

/-- The checks lead to a raise or to the rest of the sequence. -/
theorem leads_h264Checks {k : H264Steer → Script} (h : ∀ c, Leads P (k c)) : Leads P (h264Checks sp k) :=
  leads_need fun _ => leads_need fun _ => leads_need fun _ => leads_need fun _ => leads_unless <|
    leads_need fun _ => leads_unless <| leads_need fun _ => leads_unless <| leads_unless <|
      leads_h264Weighted (h _)

/-- The rest of the sequence is a template, if its fields put bits only (R190). -/
theorem h264_calls_eq (c : H264Steer) (fields deblock : Script) :
    h264Nal c ++ fields ++ [Item.copy, Item.mark .sliceQpDelta] ++ deblock ++ [Item.copy, Item.close] =
      templateScript [⟨[.bits 0 1, .bits c.nri 2, .bits c.nut 5], .firstMb⟩, ⟨fields, .sliceQpDelta⟩]
        deblock := by
  simp [templateScript, h264Nal]

/-- A template whose ranges are those of R190. -/
def IsTemplate (a : Script) : Prop :=
  ∃ nri nut fields deblock, a =
    templateScript [⟨[.bits 0 1, .bits nri 2, .bits nut 5], .firstMb⟩, ⟨fields, .sliceQpDelta⟩] deblock ∧
    fields.all isPut = true ∧ deblock.all isPut = true

/-- Settles O44. -/
theorem h264Shape : Obligations.H264Shape := by
  intro sp
  show Leads IsTemplate (h264Script sp)
  refine leads_h264Checks fun c => ?_
  rw [h264_calls_eq]
  by_cases hstop : (h264Fields sp c ++ h264Deblock sp).any isStop = true
  · left
    simp only [List.any_append, Bool.or_eq_true] at hstop
    rcases hstop with hs | hs <;> simp [templateScript, hs]
  · right
    have puts := (plain_append.2 ⟨plain_h264Fields sp c, plain_h264Deblock sp⟩).all_isPut hstop
    rw [List.all_append, Bool.and_eq_true] at puts
    exact ⟨c.nri, c.nut, h264Fields sp c, h264Deblock sp, rfl, puts⟩

end Sys2Proof.H264Family
end

section
/-! SUPPORT. Slice headers as data: when a stretch of a sequence makes the calls of a piece, and how pieces are
put together (spec/42_header_template.md R178, R179). -/

namespace Sys2Proof.TemplateFamily

open Sys2Proof.Machine Sys2Proof.Safety Sys2Proof.BitWriterFamily

variable {sp : Memory SpCell} {a b : Script} {p : Piece} {l l₁ l₂ : List Piece} {i n : Nat} {v : Word}
  {r : Result Word} {k : Word → Script} {α : Type} {x : Option α} {f : α → Piece}

/-- Where SP holds what the piece reads, the sequence makes the calls of the piece, and they raise no fault of
their own. -/
def Emits (sp : Memory SpCell) (a : Script) (p : Piece) : Prop :=
  (∀ x ∈ p.reads, holds sp x.1 x.2) → a = p.puts ∧ p.puts.all codes = true

/-- The read of `SP[i]` gives the word it holds. -/
def Gives (sp : Memory SpCell) (i : Nat) (r : Result Word) (v : Word) : Prop := holds sp i v → r = .ok v

theorem gives_param : Gives sp i (param sp i) v := param_ok.2

theorem gives_ranged {lo hi : Nat} (hlo : lo ≤ v.toNat) (hhi : v.toNat ≤ hi) :
    Gives sp i (ranged sp i lo hi) v := fun h => ranged_of_holds h hlo hhi

theorem gives_flagParam (hv : v.toNat ≤ 1) : Gives sp i (flagParam sp i) v :=
  fun h => flagParam_of_holds h hv

theorem gives_signedRanged {c : Int} (hv : within c v = true) :
    Gives sp i (signedRanged sp i (-c) c) v := by
  simp only [within, Bool.and_eq_true, decide_eq_true_eq] at hv
  exact fun h => signedRanged_of_holds h hv.1 hv.2

/-! ## Sequences of pieces -/

theorem emits_none : Emits sp [] Piece.none := fun _ => ⟨rfl, rfl⟩

theorem emits_append (ha : Emits sp a (Piece.join l₁)) (hb : Emits sp b (Piece.join l₂)) :
    Emits sp (a ++ b) (Piece.join (l₁ ++ l₂)) := by
  intro h
  have reads : (Piece.join (l₁ ++ l₂)).reads = (Piece.join l₁).reads ++ (Piece.join l₂).reads := by
    simp [Piece.join]
  have puts : (Piece.join (l₁ ++ l₂)).puts = (Piece.join l₁).puts ++ (Piece.join l₂).puts := by
    simp [Piece.join]
  rw [reads, List.forall_mem_append] at h
  obtain ⟨rfl, codesA⟩ := ha h.1
  obtain ⟨rfl, codesB⟩ := hb h.2
  rw [puts, List.all_append, codesA, codesB]
  exact ⟨rfl, rfl⟩

theorem emits_join_singleton : Emits sp a (Piece.join [p]) ↔ Emits sp a p := by
  simp [Emits]

theorem emits_cons (ha : Emits sp a p) (hb : Emits sp b (Piece.join l)) :
    Emits sp (a ++ b) (Piece.join (p :: l)) :=
  emits_append (emits_join_singleton.2 ha) hb

/-- A call that reads nothing. -/
theorem emits_call {x : Item} (hx : codes x = true) : Emits sp [x] ⟨[], [x]⟩ :=
  fun _ => ⟨rfl, by simp [hx]⟩

/-- A parameter that is read and not put. -/
theorem emits_read (hr : Gives sp i r v) (h : Emits sp (k v) (Piece.join l)) :
    Emits sp (need r k) (Piece.join (readOnly i v :: l)) := by
  intro hreads
  rw [join_cons_reads, List.forall_mem_append] at hreads
  rw [hr (hreads.1 (i, v) (List.mem_singleton_self _))]
  exact h hreads.2

/-- A parameter that is put, with what follows it. -/
theorem emits_need {x : Word → Item} (hx : codes (x v) = true) (hr : Gives sp i r v)
    (h : Emits sp (k v) (Piece.join l)) :
    Emits sp (need r fun y => x y :: k y) (Piece.join (⟨[(i, v)], [x v]⟩ :: l)) := by
  intro hreads
  rw [join_cons_reads, List.forall_mem_append] at hreads
  rw [hr (hreads.1 (i, v) (List.mem_singleton_self _)), need_ok, join_cons_puts, List.all_append,
    (h hreads.2).2, ← (h hreads.2).1]
  exact ⟨rfl, by simp [hx]⟩

theorem codes_bits (hn : n ≤ 32) : codes (.bits v n) = true := decide_eq_true hn

theorem codes_ue (hv : v.toNat ≠ 2 ^ 32 - 1) : codes (.ue v) = true := decide_eq_true hv

theorem codes_se (hv : v.toInt ≠ -2 ^ 31) : codes (.se v) = true := decide_eq_true hv

theorem emits_emitBits (hn : n ≤ 32) (hr : Gives sp i r v) :
    Emits sp (emitBits r n) (bitsOfParam i v n) :=
  emits_join_singleton.1 (emits_need (codes_bits hn) hr emits_none)

theorem emits_emitUe (hv : v.toNat ≠ 2 ^ 32 - 1) (hr : Gives sp i r v) :
    Emits sp (emitUe r) (ueOfParam i v) :=
  emits_join_singleton.1 (emits_need (codes_ue hv) hr emits_none)

theorem emits_emitSe (hv : v.toInt ≠ -2 ^ 31) (hr : Gives sp i r v) :
    Emits sp (emitSe r) (seOfParam i v) :=
  emits_join_singleton.1 (emits_need (codes_se hv) hr emits_none)

/-- A code for a value in a range below the values without a code. -/
theorem emits_ranged {hi : Nat} (hv : v.toNat ≤ hi) (hhi : hi < 2 ^ 32 - 1) :
    Emits sp (emitUe (ranged sp i 0 hi)) (ueOfParam i v) :=
  emits_emitUe (by omega) (gives_ranged (Nat.zero_le _) hv)

/-! ## Conditions -/

theorem emits_onlyIf {c d : Prop} [Decidable c] [Decidable d] (hcd : d ↔ c) (h : c → Emits sp a p) :
    Emits sp (if d then a else []) (onlyIf c p) := by
  by_cases hc : c
  · rw [if_pos (hcd.2 hc), onlyIf_pos hc]; exact h hc
  · rw [if_neg (mt hcd.1 hc), onlyIf_neg hc]; exact emits_none

theorem emits_present (h : ∀ y, x = some y → Emits sp a (f y)) :
    Emits sp (whenSet (flagParam sp i) a) (present i x f) := by
  cases x with
  | none => exact emits_join_singleton.1 (emits_read (gives_flagParam (by decide)) emits_none)
  | some y =>
    exact emits_read (gives_flagParam (by decide)) (emits_join_singleton.2 (h y rfl))

theorem emits_flagged (h : ∀ y, x = some y → Emits sp a (f y)) :
    Emits sp (need (flagParam sp i) fun o => .bits o 1 :: if o = 1 then a else []) (flagged i x f) := by
  cases x with
  | none =>
    exact emits_join_singleton.1 (emits_need (x := (.bits · 1)) rfl (gives_flagParam (by decide)) emits_none)
  | some y =>
    exact emits_need (x := (.bits · 1)) rfl (gives_flagParam (by decide)) (emits_join_singleton.2 (h y rfl))

end Sys2Proof.TemplateFamily
end

section
/-! SUPPORT. The elements of an H.264 header (spec/43_header_h264.md R191, R193, R197, R198): each stretch of the
sequence makes the calls of its piece of the header. -/

namespace Sys2Proof.H264Family

open Sys2Proof.Machine Sys2Proof.Safety Sys2Proof.BitWriterFamily Sys2Proof.TemplateFamily Header264

variable {sp : Memory SpCell} {h : Header264} {c : H264Steer}

/-! ## The two loops (R197, R198) -/

theorem emits_h264RplmFrom {l : List (Word × Word)} {base k i : Nat} (hlen : l.length < k)
    (hl : ∀ x ∈ l, x.1.toNat ≤ 2 ∧ x.2 ≠ 0xFFFFFFFF) :
    Emits sp (h264RplmFrom sp base k i) (rplmFrom (base + 2 * i) l) := by
  induction l generalizing k i with
  | nil =>
    obtain ⟨k, rfl⟩ := Nat.exists_eq_add_one.2 hlen
    exact emits_join_singleton.1 (emits_need (x := .ue) (codes_ue (by decide))
      (gives_ranged (by decide) (by decide)) emits_none)
  | cons x l ih =>
    obtain ⟨k, rfl⟩ := Nat.exists_eq_add_one.2 (Nat.zero_lt_of_lt hlen)
    obtain ⟨⟨hidc, hval⟩, hl⟩ := List.forall_mem_cons.1 hl
    have more : x.1 ≠ 3 := fun hc => by rw [hc] at hidc; revert hidc; decide
    refine emits_need (x := .ue) (codes_ue (by omega)) (gives_ranged (Nat.zero_le _) (by omega)) ?_
    rw [if_neg more]
    exact emits_need (x := .ue) (codes_ue (toNat_ne_of_ne hval)) gives_param
      (emits_join_singleton.2 (ih (i := i + 1) (Nat.lt_of_succ_lt_succ hlen) hl))

/-- The operands of one memory-management operation: operation 5 has none, operation 3 has two, every other
one has one. -/
theorem emits_h264MmcoOperands {op a₁ a₂ : Word} {b : Nat} (hop : 1 ≤ op.toNat ∧ op.toNat ≤ 6)
    (h₁ : a₁ ≠ 0xFFFFFFFF) (h₂ : a₂ ≠ 0xFFFFFFFF) :
    Emits sp (h264MmcoOperands sp b op)
      (Piece.join [onlyIf (op ≠ 5) (ueOfParam (b + 1) a₁), onlyIf (op = 3) (ueOfParam (b + 2) a₂)]) := by
  have first : Emits sp (emitUe (param sp (b + 1))) (ueOfParam (b + 1) a₁) :=
    emits_emitUe (toNat_ne_of_ne h₁) gives_param
  have second : Emits sp (emitUe (param sp (b + 2))) (ueOfParam (b + 2) a₂) :=
    emits_emitUe (toNat_ne_of_ne h₂) gives_param
  have operands : h264MmcoOperands sp b op = (if op ≠ 5 then emitUe (param sp (b + 1)) else []) ++
      ((if op = 3 then emitUe (param sp (b + 2)) else []) ++ []) := by
    have cases : op = 1 ∨ op = 2 ∨ op = 3 ∨ op = 4 ∨ op = 5 ∨ op = 6 := by
      bv_omega
    rcases cases with rfl | rfl | rfl | rfl | rfl | rfl <;> simp [h264MmcoOperands]
  rw [operands]
  exact emits_cons (emits_onlyIf Iff.rfl fun _ => first)
    (emits_cons (emits_onlyIf Iff.rfl fun _ => second) emits_none)

theorem emits_h264MmcoFrom {l : List (Word × Word × Word)} {k i : Nat} (hlen : l.length < k)
    (hl : ∀ x ∈ l, (1 ≤ x.1.toNat ∧ x.1.toNat ≤ 6) ∧ x.2.1 ≠ 0xFFFFFFFF ∧ x.2.2 ≠ 0xFFFFFFFF) :
    Emits sp (h264MmcoFrom sp k i) (mmcoFrom (0xC0 + 3 * i) l) := by
  induction l generalizing k i with
  | nil =>
    obtain ⟨k, rfl⟩ := Nat.exists_eq_add_one.2 hlen
    exact emits_join_singleton.1 (emits_need (x := .ue) (codes_ue (by decide))
      (gives_ranged (by decide) (by decide)) emits_none)
  | cons x l ih =>
    obtain ⟨k, rfl⟩ := Nat.exists_eq_add_one.2 (Nat.zero_lt_of_lt hlen)
    obtain ⟨⟨hop, h₁, h₂⟩, hl⟩ := List.forall_mem_cons.1 hl
    have more : x.1 ≠ 0 := fun hc => by rw [hc] at hop; revert hop; decide
    refine emits_need (x := .ue) (codes_ue (by omega)) (gives_ranged (Nat.zero_le _) hop.2) ?_
    rw [if_neg more]
    exact emits_append (emits_h264MmcoOperands hop h₁ h₂)
      (emits_join_singleton.2 (ih (i := i + 1) (Nat.lt_of_succ_lt_succ hlen) hl))

theorem emits_h264Rplm {l : List (Word × Word)} (hl : rplmOk l = true) (base : Nat) :
    Emits sp (h264Rplm sp base) (rplmFrom base l) := by
  simp only [rplmOk, Bool.and_eq_true, decide_eq_true_eq, List.all_eq_true, bne_iff_ne] at hl
  exact emits_h264RplmFrom (i := 0) (by omega) hl.2

theorem emits_h264Mmco {l : List (Word × Word × Word)} (hl : mmcoOk l = true) :
    Emits sp (h264Mmco sp) (mmcoFrom 0xC0 l) := by
  simp only [mmcoOk, Bool.and_eq_true, decide_eq_true_eq, List.all_eq_true, bne_iff_ne, and_assoc] at hl
  exact emits_h264MmcoFrom (i := 0) (by omega) fun x hx => and_assoc.2 (hl.2 x hx)

/-! ## The fields (R193 (3), (5)) -/

/-- The steering values of a header. -/
def steer (h : Header264) : H264Steer := ⟨h.nut, h.nri, h.st⟩

theorem h264Type_steer (h : Header264) : h264Type (steer h) = h.kind := rfl

theorem h264Idr_steer (h : Header264) : h264Idr (steer h) = true ↔ h.nut = 5 := beq_iff_eq

theorem emits_h264FrameNum (ok : h.Ok) : Emits sp (h264FrameNum sp) (Piece.join
    [readOnly 0x04 h.log2FrameNum, bitsOfParam 0x05 h.frameNum (h.log2FrameNum.toNat + 4)]) := by
  obtain ⟨hl, hv⟩ := ok.frameNum
  exact emits_read (gives_ranged (Nat.zero_le _) hl) (emits_join_singleton.2
    (emits_emitBits (by omega) (gives_ranged (Nat.zero_le _) (Nat.le_sub_one_of_lt hv))))

theorem emits_h264Poc {poc : Poc264} (ok : pocOk poc = true) : Emits sp (h264Poc sp) (pocPiece poc) := by
  unfold h264Poc
  cases poc with
  | lsb l v bottom =>
    simp only [pocOk, Bool.and_eq_true, decide_eq_true_eq, bne_iff_ne] at ok
    obtain ⟨⟨hl, hv⟩, hb⟩ := ok
    refine emits_read (gives_ranged (by decide) (by decide)) ?_
    refine emits_read (gives_ranged (Nat.zero_le _) hl) ?_
    refine emits_cons (emits_emitBits (by omega) (gives_ranged (Nat.zero_le _) (Nat.le_sub_one_of_lt hv))) ?_
    refine emits_join_singleton.2 (emits_present fun d hd => ?_)
    exact emits_emitSe (toInt_ne_of_ne fun hc => hb (hd.trans (congrArg some hc))) gives_param
  | deltas d₀ d₁ =>
    simp only [pocOk, Bool.and_eq_true, bne_iff_ne] at ok
    obtain ⟨h₀, h₁⟩ := ok
    refine emits_read (gives_ranged (by decide) (by decide)) ?_
    refine emits_read (gives_flagParam (by decide)) ?_
    refine emits_cons (emits_emitSe (toInt_ne_of_ne h₀) gives_param) ?_
    refine emits_join_singleton.2 (emits_present fun d hd => ?_)
    exact emits_emitSe (toInt_ne_of_ne fun hc => h₁ (hd.trans (congrArg some hc))) gives_param
  | allZero =>
    exact emits_read (gives_ranged (by decide) (by decide))
      (emits_read (gives_flagParam (by decide)) emits_none)
  | inferred =>
    exact emits_join_singleton.1 (emits_read (gives_ranged (by decide) (by decide)) emits_none)

theorem all_some {α : Type} {x : Option α} {P : α → Bool} (h : x.all P = true) {y : α} (hy : x = some y) :
    P y = true := by
  rw [hy] at h; exact h

theorem emits_h264NumRefIdx (ok : h.Ok) : Emits sp (h264NumRefIdx sp (steer h))
    (onlyIf (h.kind ≠ 2) (flagged 0x12 h.counts fun c =>
      Piece.join [ueOfParam 0x13 c.1, onlyIf (h.kind = 1) (ueOfParam 0x14 c.2)])) := by
  have inter : h264Type (steer h) = 0 ∨ h264Type (steer h) = 1 ↔ h.kind ≠ 2 := by
    have := ok.st.2
    rw [h264Type_steer]; omega
  refine emits_onlyIf inter fun _ => emits_flagged fun counts hcounts => ?_
  have range := all_some ok.counts hcounts
  simp only [Bool.and_eq_true, decide_eq_true_eq] at range
  exact emits_cons (emits_ranged range.1 (by decide)) (emits_join_singleton.2
    (emits_onlyIf Iff.rfl fun _ => emits_ranged range.2 (by decide)))

theorem emits_h264RplmFlag {list : Option (List (Word × Word))} (hl : list.all rplmOk = true)
    (i base : Nat) : Emits sp (h264RplmFlag sp i base) (flagged i list (rplmFrom base)) :=
  emits_flagged fun _ hlist => emits_h264Rplm (all_some hl hlist) base

theorem emits_h264Marking (ok : h.Ok) :
    Emits sp (h264Marking sp (steer h)) (onlyIf (h.nri ≠ 0) h.marking) := by
  refine emits_onlyIf Iff.rfl fun _ => ?_
  unfold marking
  by_cases idr : h.nut = 5
  · rw [if_pos ((h264Idr_steer h).2 idr), if_pos idr]
    exact emits_cons (emits_emitBits (by decide) (gives_flagParam ok.flags.1))
      (emits_join_singleton.2 (emits_emitBits (by decide) (gives_flagParam ok.flags.2)))
  · rw [if_neg (mt (h264Idr_steer h).1 idr), if_neg idr]
    exact emits_flagged fun _ hl => emits_h264Mmco (all_some ok.mmco hl)

theorem emits_h264Fields (ok : h.Ok) : Emits sp (h264Fields sp (steer h)) h.fields := by
  unfold h264Fields
  simp only [List.append_assoc]
  refine emits_cons (emits_call (codes_ue (by have := ok.st.1; simp only [steer]; omega))) ?_
  refine emits_cons (emits_ranged ok.pps (by decide)) ?_
  refine emits_append (emits_h264FrameNum ok) ?_
  refine emits_cons (emits_onlyIf (h264Idr_steer h) fun _ => emits_ranged ok.idrPicId (by decide)) ?_
  refine emits_cons (emits_h264Poc ok.poc) ?_
  refine emits_cons (emits_present fun v hv => emits_ranged (hi := 127)
    (of_decide_eq_true (all_some ok.redundant hv)) (by decide)) ?_
  refine emits_cons (emits_onlyIf Iff.rfl fun _ => emits_emitBits (by decide) (gives_flagParam ok.direct)) ?_
  refine emits_cons (emits_h264NumRefIdx ok) ?_
  refine emits_cons (emits_onlyIf Iff.rfl fun _ => emits_h264RplmFlag ok.list0 _ _) ?_
  refine emits_cons (emits_onlyIf Iff.rfl fun _ => emits_h264RplmFlag ok.list1 _ _) ?_
  refine emits_cons (emits_h264Marking ok) ?_
  refine emits_read (gives_flagParam ok.entropy) ?_
  exact emits_join_singleton.2 (emits_onlyIf Iff.rfl fun _ => emits_ranged ok.cabacInit (by decide))

theorem within_ne {c : Int} {v : Word} (hc : c < 2 ^ 31) (h : within c v = true) : v.toInt ≠ -2 ^ 31 := by
  simp only [within, Bool.and_eq_true, decide_eq_true_eq] at h
  omega

theorem emits_h264Deblock (ok : h.Ok) : Emits sp (h264Deblock sp) h.deblocking := by
  refine emits_present fun d hd => ?_
  have range := all_some ok.deblock hd
  simp only [Bool.and_eq_true, decide_eq_true_eq] at range
  obtain ⟨⟨hidc, halpha⟩, hbeta⟩ := range
  refine emits_need (x := .ue) (codes_ue (by omega)) (gives_ranged (Nat.zero_le _) hidc) ?_
  refine emits_join_singleton.2 (emits_onlyIf Iff.rfl fun _ => ?_)
  exact emits_cons (emits_emitSe (within_ne (by decide) halpha) (gives_signedRanged halpha))
    (emits_join_singleton.2 (emits_emitSe (within_ne (by decide) hbeta) (gives_signedRanged hbeta)))

end Sys2Proof.H264Family
end

section
/-! SUPPORT. A header of the admitted subset makes its template (spec/43_header_h264.md R192, R193), and the IDR
header is one of them. -/

namespace Sys2Proof.H264Family

open Sys2Proof.Machine Sys2Proof.Safety Sys2Proof.BitWriterFamily Sys2Proof.TemplateFamily Header264

variable {sp : Memory SpCell} {h : Header264}

/-! ## Every header (R191, R193) -/

theorem zeroParam_of_holds {i : Nat} (hz : holds sp i 0) : zeroParam sp i = .ok 0 :=
  required_of_holds hz rfl

theorem h264Weighted_eq (ok : h.Ok) (hP : h.kind = 0 → holds sp 0x22 0)
    (hB : h.kind = 1 → holds sp 0x23 h.biPred) (k : Script) : h264Weighted sp (steer h) k = k := by
  unfold h264Weighted
  rw [h264Type_steer]
  split
  · rename_i hk
    rw [zeroParam_of_holds (hP hk), need_ok]
  · split
    · rename_i hk
      have range : h.biPred.toNat ≤ 2 ∧ h.biPred ≠ 1 := by rcases ok.biPred with hb | hb <;> simp [hb]
      rw [ranged_of_holds (hB hk) (Nat.zero_le _) range.1, need_ok, if_neg range.2]
    · rfl

/-- The opening checks pass a header of the admitted subset. -/
theorem h264Checks_eq (ok : h.Ok) (hr : ∀ x ∈ h.steering.reads, holds sp x.1 x.2)
    (k : H264Steer → Script) : h264Checks sp k = k (steer h) := by
  simp only [steering, join_cons_reads, List.forall_mem_append, readOnly, List.forall_mem_singleton] at hr
  obtain ⟨h20, h21, h24, h01, h00, h02, hP, hB, -⟩ := hr
  have nut : ¬(h.nut ≠ 1 ∧ h.nut ≠ 5) := by have := ok.nut; tauto
  have idrRef : ¬(h.nut = 5 ∧ h.nri = 0) := by
    rcases ok.nut with hn | ⟨-, hn, -⟩
    · simp [hn]
    · exact fun hc => hn hc.2
  have idrKind : ¬(h.nut = 5 ∧ h.st.toNat % 5 ≠ 2) := by
    rcases ok.nut with hn | ⟨-, -, hn⟩
    · simp [hn]
    · exact fun hc => hc.2 hn
  have kind : ¬2 < h.st.toNat % 5 := Nat.not_lt_of_le ok.st.2
  have weighted := h264Weighted_eq (sp := sp) ok
    (fun hk => by simpa [onlyIf_pos hk, readOnly] using hP)
    (fun hk => by simpa [onlyIf_pos hk, readOnly] using hB)
  rw [h264Checks, required_of_holds (v := 1) h20 rfl, need_ok, zeroParam_of_holds h21, need_ok,
    zeroParam_of_holds h24, need_ok, param_ok.2 h01, need_ok, if_neg nut,
    ranged_of_holds h00 (Nat.zero_le _) ok.nri, need_ok, if_neg idrRef,
    ranged_of_holds h02 (Nat.zero_le _) ok.st.1, need_ok, if_neg kind, if_neg idrKind]
  exact weighted _

/-- The sequence of a header is its template, and no call of it raises a fault of its own. -/
theorem h264Script_eq (ok : h.Ok) (hr : ∀ x ∈ h.reads, holds sp x.1 x.2) :
    h264Script sp = templateScript h.ranges h.last ∧
      ∀ b ∈ bodies h.ranges h.last, b.all codes = true := by
  simp only [reads, join_cons_reads, List.forall_mem_append] at hr
  obtain ⟨steering, fields, deblocking, -⟩ := hr
  obtain ⟨fieldsEq, fieldsCodes⟩ := emits_h264Fields ok fields
  obtain ⟨deblockEq, deblockCodes⟩ := emits_h264Deblock ok deblocking
  constructor
  · rw [h264Script, h264Checks_eq ok steering, h264_calls_eq, fieldsEq, deblockEq]
    rfl
  · simp only [bodies, ranges, last, List.map_cons, List.map_nil, List.cons_append, List.nil_append,
      List.forall_mem_cons]
    exact ⟨rfl, fieldsCodes, deblockCodes, by simp⟩

/-- Settles O47. -/
theorem h264Slices : Obligations.H264Slices := by
  intro h s ok hr hout hcap hil hmax
  obtain ⟨script, codes⟩ := h264Script_eq ok hr
  exact h264Completes h.ranges h.last s script ⟨codes, hout, hcap, hil, hmax⟩

/-! ## The IDR header -/

theorem length_ueBits (v : Nat) : (ueBits v).length = 2 * Nat.log2 (v + 1) + 1 := by
  simp [ueBits]; omega

/-- A value below `2 ^ k - 1` has a code shorter than `2 * k` bits. -/
theorem length_ueBits_lt {v k : Nat} (hv : v + 1 < 2 ^ k) : (ueBits v).length < 2 * k := by
  have : Nat.log2 (v + 1) < k := (Nat.log2_lt (Nat.succ_ne_zero v)).2 hv
  rw [length_ueBits]; omega

theorem length_seBits_lt {v : Word} (hv : within 6 v = true) : (ueBits (seMap v.toInt)).length < 8 := by
  simp only [within, Bool.and_eq_true, decide_eq_true_eq] at hv
  exact length_ueBits_lt (k := 4) (by unfold seMap; split <;> omega)

/-- An IDR header with picture-order-count type 0 and deblocking control, without a bottom delta and a
redundant picture count. -/
structure IsIdr (h : Header264) (lp lsb dis alpha beta : Word) : Prop where
  nut : h.nut = 5
  poc : h.poc = .lsb lp lsb none
  redundant : h.redundant = none
  deblock : h.deblock = some (dis, alpha, beta)

variable {lp lsb dis alpha beta : Word}

/-- An IDR picture is a reference picture of I slices (R191). -/
theorem IsIdr.intra (hi : IsIdr h lp lsb dis alpha beta) (ok : h.Ok) : h.nri ≠ 0 ∧ h.kind = 2 := by
  rcases ok.nut with hn | ⟨-, hn⟩
  · rw [hi.nut] at hn; exact absurd hn (by decide)
  · exact hn

theorem IsIdr.fields (hi : IsIdr h lp lsb dis alpha beta) (ok : h.Ok) :
    h.fields.puts = [.ue h.st, .ue h.pps, .bits h.frameNum (h.log2FrameNum.toNat + 4), .ue h.idrPicId,
      .bits lsb (lp.toNat + 4), .bits h.noOutput 1, .bits h.longTerm 1] ∧
    h.fields.reads = [(0x03, h.pps), (0x04, h.log2FrameNum), (0x05, h.frameNum), (0x06, h.idrPicId),
      (0x07, 0), (0x08, lp), (0x09, lsb), (0x0A, 0), (0x0F, 0), (0x17, h.noOutput), (0x18, h.longTerm),
      (0x1A, h.entropy)] := by
  obtain ⟨reference, kind⟩ := hi.intra ok
  rw [Header264.fields, onlyIf_pos reference]
  simp [marking, pocPiece, hi.nut, kind, hi.poc, hi.redundant, readOnly, ueOfParam, bitsOfParam]

theorem IsIdr.steering (hi : IsIdr h lp lsb dis alpha beta) (ok : h.Ok) : h.steering.reads =
    [(0x20, 1), (0x21, 0), (0x24, 0), (0x01, 5), (0x00, h.nri), (0x02, h.st)] := by
  simp [Header264.steering, (hi.intra ok).2, hi.nut, readOnly]

theorem IsIdr.deblocking (hi : IsIdr h lp lsb dis alpha beta) :
    h.last = (if dis = 1 then [.ue dis] else [.ue dis, .se alpha, .se beta]) ∧
    h.deblocking.reads ⊆ [(0x1C, 1), (0x1D, dis), (0x1E, alpha), (0x1F, beta)] := by
  rw [last, Header264.deblocking, hi.deblock, present_some]
  by_cases hidc : dis = 1
  · rw [if_pos hidc, onlyIf_neg (not_not.2 hidc)]
    simp [readOnly, ueOfParam]
  · rw [if_neg hidc, onlyIf_pos hidc]
    simp [readOnly, ueOfParam, seOfParam]

theorem IsIdr.ranges (hi : IsIdr h lp lsb dis alpha beta) (ok : h.Ok) : h.ranges =
    [⟨[.bits 0 1, .bits h.nri 2, .bits 5 5], .firstMb⟩, ⟨[.ue h.st, .ue h.pps,
      .bits h.frameNum (h.log2FrameNum.toNat + 4), .ue h.idrPicId, .bits lsb (lp.toNat + 4),
      .bits h.noOutput 1, .bits h.longTerm 1], .sliceQpDelta⟩] := by
  rw [Header264.ranges, (hi.fields ok).1, nal, hi.nut]

/-- The words that are read, in the order of R191. -/
theorem IsIdr.reads_subset (hi : IsIdr h lp lsb dis alpha beta) (ok : h.Ok) : h.reads ⊆
    [(0x00, h.nri), (0x01, 5), (0x02, h.st), (0x03, h.pps), (0x04, h.log2FrameNum), (0x05, h.frameNum),
      (0x06, h.idrPicId), (0x07, 0), (0x08, lp), (0x09, lsb), (0x0A, 0), (0x0F, 0), (0x17, h.noOutput),
      (0x18, h.longTerm), (0x1A, h.entropy), (0x1C, 1), (0x1D, dis), (0x1E, alpha), (0x1F, beta), (0x20, 1),
      (0x21, 0), (0x24, 0)] := by
  simp only [reads, join_cons_reads, hi.steering ok, (hi.fields ok).2, List.append_subset]
  simp only [List.subset_def]
  exact ⟨by simp, by simp, fun hx => List.mem_of_mem_drop (i := 15)
    (List.mem_of_mem_take (i := 4) (hi.deblocking.2 hx)), by simp⟩

/-- The ranges take one word, at most three words, and one word. -/
theorem IsIdr.words (hi : IsIdr h lp lsb dis alpha beta) (ok : h.Ok) :
    templateWords (bodies h.ranges h.last) ≤ 5 := by
  have poc := ok.poc
  have deblock := ok.deblock
  simp only [hi.poc, hi.deblock, pocOk, Option.all_some, Bool.and_eq_true, decide_eq_true_eq] at poc deblock
  obtain ⟨⟨hdis, halpha⟩, hbeta⟩ := deblock
  have frameNum := ok.frameNum.1
  have st := length_ueBits_lt (v := h.st.toNat) (k := 4) (by have := ok.st.1; omega)
  have pps := length_ueBits_lt (v := h.pps.toNat) (k := 9) (by have := ok.pps; omega)
  have idr := length_ueBits_lt (v := h.idrPicId.toNat) (k := 17) (by have := ok.idrPicId; omega)
  have dis := length_ueBits_lt (v := dis.toNat) (k := 2) (by omega)
  have alpha := length_seBits_lt halpha
  have beta := length_seBits_lt hbeta
  have last : (scriptBits h.last).length ≤ 32 := by
    rw [hi.deblocking.1]
    split <;> simp [scriptBits, itemBits] <;> omega
  rw [hi.ranges ok]
  simp only [bodies, templateWords, rangeWords, scriptBits, itemBits, List.map_cons, List.map_nil,
    List.flatMap_cons, List.flatMap_nil, List.length_append, length_bitsOf, List.cons_append, List.nil_append,
    List.sum_cons, List.sum_nil, List.length_nil] at last ⊢
  omega

/-- Settles O46: the header is one of those of O47. -/
theorem h264IdrSlice : Obligations.H264IdrSlice := by
  intro s nri st pps l fn idr lp lsb noOut longTerm ent dis alpha beta hnri hst hpps hl hfn hidr hlp hlsb hno
    hlt hent hdis halpha hbeta hr hout hcap hil hmax
  let h : Header264 :=
    { nri := nri, nut := 5, st := st, biPred := 0, pps := pps, log2FrameNum := l, frameNum := fn
      idrPicId := idr, poc := .lsb lp lsb none, redundant := none, direct := 0, counts := none
      list0 := none, list1 := none, noOutput := noOut, longTerm := longTerm, mmco := none
      entropy := ent, cabacInit := 0, deblock := some (dis, alpha, beta) }
  have reference : nri ≠ 0 := fun hc => by simp [hc] at hnri
  have kind : st.toNat ≤ 9 ∧ st.toNat % 5 = 2 := by rcases hst with rfl | rfl <;> decide
  have ok : h.Ok :=
    { nri := hnri.2, nut := .inr ⟨rfl, reference, kind.2⟩, st := ⟨kind.1, kind.2.le⟩, biPred := .inl rfl
      pps := hpps, frameNum := ⟨hl, hfn⟩, idrPicId := hidr, poc := by simp [h, pocOk, hlp, hlsb]
      redundant := rfl, direct := Nat.zero_le _, counts := rfl, list0 := rfl, list1 := rfl
      flags := ⟨hno, hlt⟩, mmco := rfl, entropy := hent, cabacInit := Nat.zero_le _
      deblock := by simp [h, within, hdis, halpha, hbeta] }
  have isIdr : IsIdr h lp lsb dis alpha beta := ⟨rfl, rfl, rfl, rfl⟩
  rw [← isIdr.deblocking.1, ← isIdr.ranges ok]
  exact h264Slices h s ok (fun x hx => hr x (isIdr.reads_subset ok hx)) ((isIdr.words ok).trans (by omega))
    hcap hil hmax

end Sys2Proof.H264Family
end

section
/-! SUPPORT. The checks that open a header sequence (spec/43_header_h264.md R193 (1), 44_header_h265.md R223 (1)):
a sequence that follows a list of checks raises the fault of the first one that refuses, and goes on to its
`bw_reset` where none does. -/

namespace Sys2Proof.TemplateFamily

open Sys2Proof.Machine Sys2Proof.Safety

variable {sp : Memory SpCell} {c : Check} {cs : List Check} {a : Script} {r : Result Word} {k : Word → Script}
  {v : Word} {n : Nat}

/-- The sequence makes the checks `cs` and then begins. -/
structure Follows (sp : Memory SpCell) (cs : List Check) (a : Script) : Prop where
  refused : ∀ code i, firstRefusal sp cs = some (code, i) →
    ∃ f, faultCodeOf f = code ∧ a = [.stop (.raise f (BitVec.ofNat 32 i))]
  passed : firstRefusal sp cs = none → ∃ rest, a = .reset :: rest

theorem follows_nil (a : Script) : Follows sp [] (.reset :: a) := ⟨nofun, fun _ => ⟨a, rfl⟩⟩

/-- A check of a written word: refused, or passed on to the next ones. -/
theorem follows_cons (hv : holds sp c.index v)
    (hrefuse : ∀ code, c.refuses v = some code →
      ∃ f, faultCodeOf f = code ∧ a = [.stop (.raise f (BitVec.ofNat 32 c.index))])
    (hpass : c.refuses v = none → Follows sp cs a) : Follows sp (c :: cs) a := by
  cases hr : c.refuses v with
  | none =>
    have next := firstRefusal_passed (cs := cs) hv hr
    exact ⟨fun code i h => (hpass hr).refused code i (next ▸ h), fun h => (hpass hr).passed (next ▸ h)⟩
  | some code =>
    have first := firstRefusal_refused (cs := cs) hv hr
    refine ⟨fun code' i h => ?_, fun h => ?_⟩
    · cases Option.some.inj (first.symm.trans h)
      exact hrefuse code hr
    · cases first.symm.trans h

/-- What a read answers agrees with a check: unwritten, refused, or the word. -/
structure Checked (sp : Memory SpCell) (c : Check) (r : Result Word) : Prop where
  unwritten : unwritten sp c.index → r = .error (.raise .spUnwritten (BitVec.ofNat 32 c.index))
  refused : ∀ v code, holds sp c.index v → c.refuses v = some code →
    ∃ f, faultCodeOf f = code ∧ r = .error (.raise f (BitVec.ofNat 32 c.index))
  passed : ∀ v, holds sp c.index v → c.refuses v = none → r = .ok v

theorem written_or (sp : Memory SpCell) (i : Nat) : unwritten sp i ∨ ∃ v, holds sp i v := by
  cases h : written sp i with
  | none => exact .inl (written_eq_none.1 h)
  | some v => exact .inr ⟨v, written_eq_some.1 h⟩

/-- A read with its check. -/
theorem follows_need (hr : Checked sp c r)
    (hk : ∀ v, holds sp c.index v → c.refuses v = none → Follows sp cs (k v)) :
    Follows sp (c :: cs) (need r k) := by
  rcases written_or sp c.index with hu | ⟨v, hv⟩
  · have first := firstRefusal_unwritten (cs := cs) hu
    rw [hr.unwritten hu, need_error]
    refine ⟨fun code i h => ?_, fun h => ?_⟩
    · cases Option.some.inj (first.symm.trans h)
      exact ⟨.spUnwritten, rfl, rfl⟩
    · cases first.symm.trans h
  · refine follows_cons hv (fun code hcode => ?_) (fun hpass => ?_)
    · obtain ⟨f, hf, rfl⟩ := hr.refused v code hv hcode
      exact ⟨f, hf, rfl⟩
    · rw [hr.passed v hv hpass, need_ok]
      exact hk v hv hpass

/-- A condition on a word already read, with its check. -/
theorem follows_unless {p : Prop} [Decidable p] {f : BswFault} (hv : holds sp c.index v)
    (hc : c.refuses v = if p then some (faultCodeOf f) else none) (h : ¬p → Follows sp cs a) :
    Follows sp (c :: cs) (if p then [.stop (.raise f (BitVec.ofNat 32 c.index))] else a) := by
  by_cases hp : p
  · rw [if_pos hp] at hc ⊢
    refine follows_cons hv (fun code hcode => ⟨f, ?_, rfl⟩) (fun hpass => ?_)
    · exact Option.some.inj (hc.symm.trans hcode)
    · cases hc.symm.trans hpass
  · rw [if_neg hp] at hc ⊢
    exact follows_cons hv (fun code hcode => nomatch hc.symm.trans hcode) fun _ => h hp

/-! ## The reads (R178, R179) -/

/-- A read that refuses by a condition on the word. -/
theorem checked_bind {p : Word → Prop} [DecidablePred p] {f : BswFault}
    (hc : ∀ v, c.refuses v = if p v then some (faultCodeOf f) else none) :
    Checked sp c ((param sp c.index).bind fun x =>
      if p x then .error (.raise f (BitVec.ofNat 32 c.index)) else .ok x) where
  unwritten hu := by rw [param_of_unwritten hu]; rfl
  refused v code hv hcode := by
    rw [hc] at hcode
    rw [param_ok.2 hv]
    by_cases hp : p v
    · exact ⟨f, Option.some.inj ((if_pos hp).symm.trans hcode), if_pos hp⟩
    · cases (if_neg hp).symm.trans hcode
  passed v hv hpass := by
    rw [hc] at hpass
    rw [param_ok.2 hv]
    by_cases hp : p v
    · cases (if_pos hp).symm.trans hpass
    · exact if_neg hp

theorem ite_none_swap {p q : Prop} [Decidable p] [Decidable q] (h : q ↔ ¬p) (code : Byte) :
    (if p then none else some code) = if q then some code else none := by
  by_cases hp : p
  · rw [if_pos hp, if_neg fun hq => h.1 hq hp]
  · rw [if_neg hp, if_pos (h.2 hp)]

theorem checked_required (hc : ∀ v, c.refuses v = if v.toNat = n then none else some 0x26) :
    Checked sp c (required sp c.index n) :=
  checked_bind (f := .heUnsupported) fun v => (hc v).trans (ite_none_swap Iff.rfl _)

/-- A read without a condition, and then a condition on the word, are one check. -/
theorem follows_need_unless {p : Word → Prop} [DecidablePred p] {f : BswFault}
    (hc : ∀ v, c.refuses v = if p v then some (faultCodeOf f) else none)
    (hk : ∀ v, holds sp c.index v → Follows sp cs (k v)) :
    Follows sp (c :: cs) (need (param sp c.index) fun x =>
      if p x then [.stop (.raise f (BitVec.ofNat 32 c.index))] else k x) := by
  have merged : (need (param sp c.index) fun x =>
      if p x then [.stop (.raise f (BitVec.ofNat 32 c.index))] else k x) =
      need ((param sp c.index).bind fun x =>
        if p x then .error (.raise f (BitVec.ofNat 32 c.index)) else .ok x) k := by
    cases param sp c.index with
    | error z => rfl
    | ok x => by_cases hp : p x <;> simp [need, Except.bind, hp]
  rw [merged]
  exact follows_need (checked_bind hc) fun v hv _ => hk v hv

theorem checked_zeroParam (sp : Memory SpCell) (i : Nat) : Checked sp (zeroCheck i) (zeroParam sp i) :=
  checked_required (c := zeroCheck i) fun v => by simp only [zeroCheck, ← BitVec.toNat_inj]; rfl

theorem checked_ranged (sp : Memory SpCell) (i lo hi : Nat) :
    Checked sp (rangeCheck i lo hi) (ranged sp i lo hi) :=
  checked_bind (c := rangeCheck i lo hi) (f := .heParamRange) fun v =>
    ite_none_swap (by omega) _

end Sys2Proof.TemplateFamily
end

section
/-! SUPPORT. The checks of the two sequencers, in their order (spec/43_header_h264.md R193 (1),
44_header_h265.md R223 (1)). -/

namespace Sys2Proof.SequencerFamily

open Sys2Proof.Machine Sys2Proof.Safety Sys2Proof.TemplateFamily

variable {sp : Memory SpCell} {a : Script}

theorem follows_h264Weighted {c : H264Steer} (hst : holds sp 0x02 c.st) (a : Script) :
    Follows sp (weightChecks264 (written sp 0x02)) (h264Weighted sp c (.reset :: a)) := by
  rw [written_eq_some.2 hst]
  unfold h264Weighted weightChecks264 h264Type
  dsimp only
  split
  · exact follows_need (checked_zeroParam sp 0x22) fun _ _ _ => follows_nil a
  · split
    · refine follows_need (checked_ranged sp 0x23 0 2) fun w hw _ => ?_
      exact follows_unless (c := ⟨0x23, fun w => if w = 1 then some 0x26 else none⟩) (f := .heUnsupported)
        hw rfl fun _ => follows_nil a
    · exact follows_nil a

theorem follows_h264Checks (sp : Memory SpCell) {k : H264Steer → Script} {rest : H264Steer → Script}
    (hk : ∀ c, k c = .reset :: rest c) : Follows sp (checks264 sp) (h264Checks sp k) := by
  unfold h264Checks checks264
  refine follows_need (checked_required (c := ⟨0x20, fun v => if v = 1 then none else some 0x26⟩)
    fun v => ?_) fun _ _ _ => ?_
  · simp only [← BitVec.toNat_inj]; rfl
  refine follows_need (checked_zeroParam sp 0x21) fun _ _ _ => ?_
  refine follows_need (checked_zeroParam sp 0x24) fun _ _ _ => ?_
  refine follows_need_unless (c := ⟨0x01, fun v => if v = 1 ∨ v = 5 then none else some 0x26⟩)
    (f := .heUnsupported) (fun v => ite_none_swap not_or.symm _) fun nut hnut => ?_
  refine follows_need (checked_ranged sp 0x00 0 3) fun nri hnri _ => ?_
  refine follows_unless (f := .heParamRange) hnri
    (by simp [written_eq_some.2 hnut, faultCodeOf]) fun _ => ?_
  refine follows_need (checked_ranged sp 0x02 0 9) fun st hst _ => ?_
  refine follows_unless (f := .heUnsupported) hst rfl fun _ => ?_
  refine follows_unless (f := .heParamRange) hst
    (by simp [written_eq_some.2 hnut, faultCodeOf]) fun _ => ?_
  rw [hk]
  exact follows_h264Weighted hst _

theorem follows_h265Weighted {st : Word} (hst : holds sp 0x105 st) (a : Script) :
    Follows sp (weightChecks265 (written sp 0x105)) (h265Weighted sp st (.reset :: a)) := by
  rw [written_eq_some.2 hst]
  unfold h265Weighted weightChecks265
  simp only [Option.some.injEq]
  split
  · exact follows_need (checked_zeroParam sp 0x134) fun _ _ _ => follows_nil a
  · split
    · exact follows_need (checked_zeroParam sp 0x135) fun _ _ _ => follows_nil a
    · exact follows_nil a

theorem h265NutAdmitted_iff {v : Word} :
    h265NutAdmitted v = true ↔ v.toNat ≤ 9 ∨ 16 ≤ v.toNat ∧ v.toNat ≤ 21 := by
  simp [h265NutAdmitted]

theorem follows_h265Checks (sp : Memory SpCell) {k : H265Steer → Script} {rest : H265Steer → Script}
    (hk : ∀ c, k c = .reset :: rest c) : Follows sp (checks265 sp) (h265Checks sp k) := by
  unfold h265Checks checks265
  iterate 8 refine follows_need (checked_zeroParam sp _) fun _ _ _ => ?_
  have admitted : ∀ v : Word, (!h265NutAdmitted v) = true ↔
      ¬(v.toNat ≤ 9 ∨ 16 ≤ v.toNat ∧ v.toNat ≤ 21) := fun v => by
    rw [Bool.not_eq_true', ← Bool.not_eq_true, h265NutAdmitted_iff]
  refine follows_need_unless (c := ⟨0x100, fun v =>
      if v.toNat ≤ 9 ∨ 16 ≤ v.toNat ∧ v.toNat ≤ 21 then none else some 0x26⟩)
    (f := .heUnsupported) (fun v => ite_none_swap (admitted v) _) fun nut hnut => ?_
  refine follows_need (checked_ranged sp 0x101 0 63) fun lid _ _ => ?_
  refine follows_need (checked_ranged sp 0x102 1 7) fun tid _ _ => ?_
  refine follows_need (checked_ranged sp 0x105 0 2) fun st hst _ => ?_
  refine follows_unless (f := .heParamRange) hst
    (by simp [written_eq_some.2 hnut, faultCodeOf, h265Irap]) fun _ => ?_
  rw [hk]
  exact follows_h265Weighted hst _

/-- A refused sequence enters the fault of the check, and nothing else changes. -/
theorem onEncoder_refused {s : State} {cs : List Check} (h : Follows s.sp cs a) {code : Byte} {i : Nat}
    (hx : firstRefusal s.sp cs = some (code, i)) (cap ilMax : Nat) :
    onEncoder 1 (runScript cap ilMax a) s = .next (recorded code (BitVec.ofNat 32 i) s) := by
  obtain ⟨f, rfl, rfl⟩ := h.refused code i hx
  exact onEncoder_of_raise rfl

/-- Settles O50. -/
theorem sequencerRefusals : Obligations.SequencerRefusals := by
  have h264 : ∀ sp, Follows sp (checks264 sp) (h264Script sp) := fun sp =>
    follows_h264Checks sp fun _ => rfl
  have h265 : ∀ sp, Follows sp (checks265 sp) (h265Script sp) := fun sp =>
    follows_h265Checks sp fun _ => rfl
  exact ⟨fun s code i => ⟨fun h => onEncoder_refused (h264 s.sp) h _ _,
    fun h => onEncoder_refused (h265 s.sp) h _ _⟩, fun sp => ⟨(h264 sp).passed, (h265 sp).passed⟩⟩

end Sys2Proof.SequencerFamily
end

section
/-! SUPPORT. The shape of the H.265 sequence (spec/44_header_h265.md R220, R223): read from its end, every stretch
of it meets a raise or is the rest of a template, whose markers are known. -/

namespace Sys2Proof.H265Family

open Sys2Proof.Machine Sys2Proof.Safety Sys2Proof.TemplateFamily Sys2Proof.H264Family

variable {sp : Memory SpCell} {a b : Script} {M : List IlKind → Prop} {k : Word → Script} {kind : IlKind}

/-- Settles O43. -/
theorem h265Completes : Obligations.H265Completes := by
  intro rs last s hscript hroom
  obtain ⟨e, he, templated⟩ := runScript_templateScript hroom
  have run : runScript s.outCapWords s.params.ilMax (h265Script s.sp) s.enc = .ok e := by
    rw [hscript, he]
  exact ⟨e, onEncoder_of_ok run, templated⟩

/-! ## The rest of a template -/

/-- The calls are the rest of a template: bits only in its ranges, and markers that satisfy `M`. -/
def Remains (M : List IlKind → Prop) (a : Script) : Prop :=
  ∃ (rs : List Range) (last : Script), a = templateCalls rs last ∧
    (∀ b ∈ bodies rs last, b.all isPut = true) ∧ M (rs.map Range.mark)

theorem remains_close (h : M []) : Remains M [.copy, .close] :=
  ⟨[], [], rfl, by simp [bodies], h⟩

theorem remains_mark (h : Remains (fun ms => M (kind :: ms)) a) :
    Remains M (.copy :: .mark kind :: a) := by
  obtain ⟨rs, last, rfl, puts, marks⟩ := h
  exact ⟨⟨[], kind⟩ :: rs, last, rfl, List.forall_mem_cons.2 ⟨rfl, puts⟩, marks⟩

/-- Bits before the rest of a template belong to its first range. -/
theorem remains_append (hb : b.all isPut = true) (h : Remains M a) : Remains M (b ++ a) := by
  obtain ⟨rs, last, rfl, puts, marks⟩ := h
  cases rs with
  | nil =>
    have lastPuts := puts last (List.mem_singleton_self last)
    refine ⟨[], b ++ last, by simp [templateCalls], List.forall_mem_singleton.2 ?_, marks⟩
    rw [List.all_append, hb, lastPuts, Bool.and_self]
  | cons r rs =>
    obtain ⟨first, others⟩ := (List.forall_mem_cons (l := bodies rs last)).1 puts
    refine ⟨⟨b ++ r.body, r.mark⟩ :: rs, last, by simp [templateCalls], ?_, marks⟩
    exact List.forall_mem_cons.2 ⟨by simp [hb, first], others⟩

theorem leads_mark (h : Leads (Remains fun ms => M (kind :: ms)) a) :
    Leads (Remains M) ([.copy, .mark kind] ++ a) :=
  h.imp (by simp [isStop]) remains_mark

theorem leads_append (hb : Plain b) (h : Leads (Remains M) a) : Leads (Remains M) (b ++ a) := by
  by_cases hstop : b.any isStop = true
  · exact .inl (by simp [hstop])
  · exact h.imp (by simp +contextual) (remains_append (hb.all_isPut hstop))

theorem leads_put {x : Item} (hx : isPut x = true) (h : Leads (Remains M) a) :
    Leads (Remains M) (x :: a) :=
  leads_append (b := [x]) (by simp [hx]) h

/-! ## The stretches without a marker (R223, R226, R227) -/

@[simp] theorem plain_h265RpsPairs (sp : Memory SpCell) (k b : Nat) : Plain (h265RpsPairs sp k b) := by
  induction k generalizing b with
  | zero => simp [h265RpsPairs]
  | succ k ih => simp [h265RpsPairs, ih]

@[simp] theorem plain_h265Entries (sp : Memory SpCell) (npc w k b : Nat) :
    Plain (h265Entries sp npc w k b) := by
  induction k generalizing b with
  | zero => simp [h265Entries]
  | succ k ih => simp [h265Entries, ih]

@[simp] theorem plain_h265Rplm (sp : Memory SpCell) (st : Word) (l0 l1 npc : Nat) :
    Plain (h265Rplm sp st l0 l1 npc) := by
  simp [h265Rplm, h265RplmList, isPut]

theorem plain_h265RefSet (sp : Memory SpCell) (n sf : Word) : Plain (h265RefSet sp n sf) := by
  simp [h265RefSet, h265StRps, badParam, isPut, isStop]

@[simp] theorem plain_h265Collocated (sp : Memory SpCell) (st : Word) (l0 l1 : Nat) :
    Plain (h265Collocated sp st l0 l1) := by
  simp [h265Collocated, isPut]

theorem plain_h265Inter (sp : Memory SpCell) (st tmvp : Word) : Plain (h265Inter sp st tmvp) := by
  simp [h265Inter, isPut]

theorem plain_h265Chroma (sp : Memory SpCell) : Plain (h265Chroma sp) := by simp [h265Chroma]

/-! ## The stretches that go on with a value they have read -/

theorem leads_h265Tmvp (hk : ∀ x, Leads (Remains M) (k x)) : Leads (Remains M) (h265Tmvp sp k) := by
  refine leads_need fun f => ?_
  split
  · exact leads_need fun tmvp => leads_put rfl (hk tmvp)
  · exact hk 0

theorem leads_h265Poc (c : H265Steer) (hk : ∀ x, Leads (Remains M) (k x)) :
    Leads (Remains M) (h265Poc sp c k) := by
  refine leads_append (by simp [isPut]) ?_
  split
  · exact hk 0
  · refine leads_need fun lp => leads_append (plain_emitBits _) ?_
    refine leads_need fun n => leads_need fun sf => leads_append ?_ (leads_h265Tmvp hk)
    simp [isPut, plain_h265RefSet]

theorem leads_h265Deblock (hk : ∀ x, Leads (Remains M) (k x)) : Leads (Remains M) (h265Deblock sp k) := by
  refine leads_need fun pps => leads_need fun enabled => ?_
  split
  · refine leads_need fun ov => leads_put rfl ?_
    split
    · exact leads_need fun dis => leads_put rfl (leads_append (by simp) (hk dis))
    · exact hk pps
  · exact hk pps

/-! ## The markers -/

/-- The markers behind the slice address: perhaps `SAO_ENABLE`, then `SLICE_QP_DELTA`, then perhaps
`LF_ACROSS_SLICES` (R220). -/
def lateMarks (sao lf : Bool) : List IlKind :=
  (if sao then [IlKind.saoEnable] else []) ++ [IlKind.sliceQpDelta] ++
    (if lf then [IlKind.lfAcrossSlices] else [])

theorem leads_h265Close (sao dis : Word) (h : ∀ lf : Bool, M (if lf then [.lfAcrossSlices] else [])) :
    Leads (Remains M) (h265Close sp sao dis) := by
  refine leads_need fun lf => ?_
  split
  · exact leads_mark (.inr (remains_close (h true)))
  · exact .inr (remains_close (h false))

/-- From the slice QP delta's marker on. -/
theorem leads_h265Tail (sao : Word) (h : ∀ lf, M (lateMarks false lf)) :
    Leads (Remains M) ([Item.copy, Item.mark .sliceQpDelta] ++ (h265Chroma sp ++
      h265Deblock sp fun dis => h265Close sp sao dis)) :=
  leads_mark <| leads_append (plain_h265Chroma sp) <| leads_h265Deblock fun dis =>
    leads_h265Close sao dis h

theorem leads_h265Rest (c : H265Steer) (tmvp : Word) (h : ∀ sao lf, M (lateMarks sao lf)) :
    Leads (Remains M) (h265Rest sp c tmvp) := by
  have inter := plain_h265Inter sp c.st tmvp
  refine leads_need fun sao => ?_
  simp only [List.append_assoc]
  split
  · exact leads_mark (leads_append inter (leads_h265Tail sao (h true)))
  · rw [List.nil_append]
    exact leads_append inter (leads_h265Tail sao (h false))

/-- All markers (R220). -/
def IsMarks (ms : List IlKind) : Prop := ∃ sao lf, ms = .firstSlice :: .sliceSegment :: lateMarks sao lf

/-- The calls behind the opening checks: a reset, and then those of a template. -/
theorem leads_h265Calls (c : H265Steer) : Leads
    (fun a => ∃ calls, a = .reset :: calls ∧ Remains IsMarks calls)
    (h265Nal c ++ h265Address sp c ++ h265Poc sp c fun tmvp => h265Rest sp c tmvp) := by
  have fields : Plain ((if h265Irap c.nut then emitBits (flagParam sp 0x103) 1 else []) ++
      emitUe (ranged sp 0x104 0 63)) := by simp
  have calls : Leads (Remains IsMarks) ([Item.bits 0 1, Item.bits c.nut 6, Item.bits c.lid 6, Item.bits c.tid 3] ++
      ([Item.copy, Item.mark .firstSlice] ++
        (h265Address sp c ++ h265Poc sp c fun tmvp => h265Rest sp c tmvp))) := by
    refine leads_append (by simp [isPut]) (leads_mark ?_)
    rw [h265Address, List.append_assoc]
    refine leads_append fields (leads_mark (leads_h265Poc c fun tmvp => leads_h265Rest c tmvp ?_))
    exact fun sao lf => ⟨sao, lf, rfl⟩
  rw [List.append_assoc]
  exact calls.imp (fun hs => hs) fun hr => ⟨_, rfl, hr⟩

theorem leads_h265Weighted {P : Script → Prop} {st : Word} (h : Leads P a) :
    Leads P (h265Weighted sp st a) := by
  unfold h265Weighted
  split
  · exact leads_need fun _ => h
  · split
    · exact leads_need fun _ => h
    · exact h

theorem leads_h265Checks {P : Script → Prop} {k : H265Steer → Script} (h : ∀ c, Leads P (k c)) :
    Leads P (h265Checks sp k) := by
  unfold h265Checks
  iterate 9 refine leads_need fun _ => ?_
  refine leads_unless ?_
  iterate 3 refine leads_need fun _ => ?_
  exact leads_unless (leads_h265Weighted (h _))

/-- Settles O45. -/
theorem h265Shape : Obligations.H265Shape := by
  intro sp
  refine (leads_h265Checks leads_h265Calls : Leads _ (h265Script sp)).imp_right ?_
  rintro ⟨calls, script, rs, last, rfl, puts, sao, lf, marks⟩
  exact ⟨rs, last, sao, lf, script.trans (templateScript_eq rs last).symm, puts, marks⟩

end Sys2Proof.H265Family
end

section
/-! SUPPORT. Stretches of a sequence that go on with a value they have read: such a stretch makes the calls of its
piece of the header, and then those of the rest (spec/44_header_h265.md R223). -/

namespace Sys2Proof.TemplateFamily

open Sys2Proof.Machine Sys2Proof.Safety Sys2Proof.BitWriterFamily

variable {sp : Memory SpCell} {a b t : Script} {p : Piece} {l : List Piece} {i : Nat} {v : Word}
  {r : Result Word} {k : Word → Script}

/-- Where SP holds what the piece reads, the sequence makes the calls of the piece, which raise no fault of their
own, and goes on with `t`. -/
def EmitsThen (sp : Memory SpCell) (a : Script) (p : Piece) (t : Script) : Prop :=
  (∀ x ∈ p.reads, holds sp x.1 x.2) → a = p.puts ++ t ∧ p.puts.all codes = true

theorem Emits.append (h : Emits sp a p) (t : Script) : EmitsThen sp (a ++ t) p t := fun hreads => by
  obtain ⟨rfl, hcodes⟩ := h hreads
  exact ⟨rfl, hcodes⟩

theorem emitsThen_none : EmitsThen sp t Piece.none t := emits_none.append t

theorem emitsThen_cons (ha : EmitsThen sp a p b) (hb : EmitsThen sp b (Piece.join l) t) :
    EmitsThen sp a (Piece.join (p :: l)) t := by
  intro hreads
  rw [join_cons_reads, List.forall_mem_append] at hreads
  obtain ⟨rfl, codesA⟩ := ha hreads.1
  obtain ⟨rfl, codesB⟩ := hb hreads.2
  rw [join_cons_puts, List.all_append, codesA, codesB, List.append_assoc]
  exact ⟨rfl, rfl⟩

theorem emitsThen_singleton (ha : EmitsThen sp a p t) : EmitsThen sp a (Piece.join [p]) t :=
  emitsThen_cons ha emitsThen_none

/-- A parameter that is read and not put. -/
theorem emitsThen_read (hr : Gives sp i r v) : EmitsThen sp (need r k) (readOnly i v) (k v) := fun hreads => by
  rw [hr (hreads (i, v) (List.mem_singleton_self _))]
  exact ⟨rfl, rfl⟩

/-- A flag that is put. -/
theorem emitsThen_flag (hv : v.toNat ≤ 1) :
    EmitsThen sp (need (flagParam sp i) fun x => .bits x 1 :: k x) (bitsOfParam i v 1) (k v) := fun hreads => by
  rw [gives_flagParam hv (hreads (i, v) (List.mem_singleton_self _))]
  exact ⟨rfl, rfl⟩

end Sys2Proof.TemplateFamily
end

section
/-! SUPPORT. The elements of an H.265 header (spec/44_header_h265.md R221, R223, R226, R227): each stretch of the
sequence makes the calls of its piece of the header. -/

namespace Sys2Proof.H265Family

open Sys2Proof.Machine Sys2Proof.Safety Sys2Proof.BitWriterFamily Sys2Proof.TemplateFamily Header265
open Sys2Proof.H264Family (zeroParam_of_holds all_some within_ne)

variable {sp : Memory SpCell} {h : Header265} {k : Word → Script}

/-! ## The counted loops (R226, R227) -/

theorem emits_h265RpsPairs {l : List (Word × Word)} (hl : pairsOk l = true) (b : Nat) :
    Emits sp (h265RpsPairs sp l.length b) (pairsFrom b l) := by
  simp only [pairsOk, Bool.and_eq_true, decide_eq_true_eq, List.all_eq_true] at hl
  replace hl := hl.2
  induction l generalizing b with
  | nil => exact emits_none
  | cons x l ih =>
    obtain ⟨⟨hdelta, hused⟩, hl⟩ := List.forall_mem_cons.1 hl
    rw [List.length_cons, h265RpsPairs, List.append_assoc]
    exact emits_cons (emits_ranged hdelta (by decide)) (emits_cons
      (emits_emitBits (by decide) (gives_flagParam hused)) (emits_join_singleton.2 (ih _ hl)))

/-- The width of a field that holds `n` values is `clog2(n)` (00_scope.md R10). -/
theorem clog2_of_widthOf {n w : Nat} (hn : 1 < n) (hw : widthOf n w = true) : clog2 n = w := by
  simp only [widthOf, Bool.and_eq_true, decide_eq_true_eq] at hw
  obtain ⟨fits, least⟩ := hw
  obtain _ | w := w
  · omega
  · have log : Nat.log2 (n - 1) = w := by
      rw [Nat.log2_eq_iff (by omega)]
      rw [Nat.pow_succ] at fits least
      omega
    rw [clog2, if_neg (by omega), log]

theorem width_le_of_widthOf {n w : Nat} (hn : n ≤ 64) (hw : widthOf n w = true) : w ≤ 32 := by
  simp only [widthOf, Bool.and_eq_true, decide_eq_true_eq] at hw
  have : 2 ^ w < 2 ^ 8 := by omega
  exact ((Nat.pow_lt_pow_iff_right (by decide)).1 this).le.trans (by decide)

theorem emits_h265Entries {n w : Nat} (hw : w ≤ 32) {l : List Word} (hl : ∀ v ∈ l, v.toNat < n) (b : Nat) :
    Emits sp (h265Entries sp n w l.length b) (entriesFrom w b l) := by
  induction l generalizing b with
  | nil => exact emits_none
  | cons v l ih =>
    obtain ⟨hv, hl⟩ := List.forall_mem_cons.1 hl
    exact emits_cons (emits_emitBits hw (gives_ranged (Nat.zero_le _) (Nat.le_sub_one_of_lt hv)))
      (emits_join_singleton.2 (ih hl _))

theorem emits_h265RplmList {n w l : Nat} (hn : 1 < n) (hn' : n ≤ 16) (hw : widthOf n w = true)
    {list : Option (List Word)} (hl : listOk n l list = true) (i base : Nat) :
    Emits sp (h265RplmList sp i base l n) (flagged i list (entriesFrom w base)) := by
  refine emits_flagged fun entries hentries => ?_
  have range := all_some hl hentries
  simp only [Bool.and_eq_true, beq_iff_eq, List.all_eq_true, decide_eq_true_eq] at range
  rw [clog2_of_widthOf hn hw, ← range.1]
  exact emits_h265Entries (width_le_of_widthOf (by omega) hw) range.2 base

/-! ## The reference picture set (R223 (4), R226) -/

theorem gives_zeroParam (i : Nat) : Gives sp i (zeroParam sp i) 0 := zeroParam_of_holds

/-- Two counts that are both read before they are put. -/
theorem emits_counts {i₁ i₂ : Nat} {r₁ r₂ : Result Word} {v₁ v₂ : Word} {l : List Piece}
    {rest : Word → Word → Script} (h₁ : codes (.ue v₁) = true) (h₂ : codes (.ue v₂) = true)
    (hr₁ : Gives sp i₁ r₁ v₁) (hr₂ : Gives sp i₂ r₂ v₂) (hrest : Emits sp (rest v₁ v₂) (Piece.join l)) :
    Emits sp (need r₁ fun x => need r₂ fun y => [.ue x, .ue y] ++ rest x y)
      (Piece.join (ueOfParam i₁ v₁ :: ueOfParam i₂ v₂ :: l)) := by
  intro hreads
  simp only [join_cons_reads, List.forall_mem_append, ueOfParam, List.forall_mem_singleton] at hreads
  obtain ⟨hv₁, hv₂, hreads⟩ := hreads
  obtain ⟨calls, hcodes⟩ := hrest hreads
  rw [hr₁ hv₁, need_ok, hr₂ hv₂, need_ok, calls]
  exact ⟨rfl, by simp [ueOfParam, h₁, h₂, hcodes]⟩

/-- The coded number of pairs. -/
theorem toNat_pairCount {l : List (Word × Word)} (hl : pairsOk l = true) :
    l.length ≤ 16 ∧ (BitVec.ofNat 32 l.length).toNat = l.length := by
  simp only [pairsOk, Bool.and_eq_true, decide_eq_true_eq] at hl
  exact ⟨hl.1, by rw [BitVec.toNat_ofNat, Nat.mod_eq_of_lt (by omega)]⟩

theorem emits_h265StRps (n : Word) {negative positive : List (Word × Word)} (hneg : pairsOk negative = true)
    (hpos : pairsOk positive = true) : Emits sp (h265StRps sp n.toNat) (Piece.join
      [onlyIf (n ≠ 0) (bitsOfParam 0x13A 0 1), ueOfParam 0x10D (BitVec.ofNat 32 negative.length),
       ueOfParam 0x10E (BitVec.ofNat 32 positive.length), pairsFrom 0x180 negative,
       pairsFrom 0x1A0 positive]) := by
  obtain ⟨negLe, negCount⟩ := toNat_pairCount hneg
  obtain ⟨posLe, posCount⟩ := toNat_pairCount hpos
  have nonzero : n.toNat ≠ 0 ↔ n ≠ 0 := not_congr (BitVec.toNat_inj (y := 0))
  have pred : Emits sp (need (zeroParam sp 0x13A) fun _ => [.bits 0 1]) (bitsOfParam 0x13A 0 1) :=
    emits_join_singleton.1 (emits_need (x := fun _ => .bits 0 1) rfl (gives_zeroParam _) emits_none)
  unfold h265StRps
  simp only [List.append_assoc]
  refine emits_cons (emits_onlyIf nonzero fun _ => pred) ?_
  refine emits_counts (codes_ue (by omega)) (codes_ue (by omega)) (gives_ranged (Nat.zero_le _) (by omega))
    (gives_ranged (Nat.zero_le _) (by omega)) ?_
  rw [negCount, posCount]
  exact emits_cons (emits_h265RpsPairs hneg _) (emits_join_singleton.2 (emits_h265RpsPairs hpos _))

/-- The flag for the form of the set, and the set. -/
theorem emitsThen_h265RefSet {n : Word} {set : RefSet265} (hn : n.toNat ≤ 64)
    (ok : refSetOk n.toNat set = true) (t : Script) :
    EmitsThen sp (need (flagParam sp 0x10A) fun sf => [.bits sf 1] ++ h265RefSet sp n sf ++ t)
      (refSetPiece n set) t := by
  cases set with
  | ofSps idx w =>
    simp only [refSetOk, Bool.and_eq_true, decide_eq_true_eq] at ok
    obtain ⟨hidx, hw⟩ := ok
    have nonempty : n ≠ 0 := fun hc => by simp [hc] at hidx
    refine emitsThen_cons (emitsThen_flag (by decide)) ((?_ : Emits sp _ _).append t)
    rw [h265RefSet, if_neg (by decide), if_neg nonempty]
    refine emits_join_singleton.2 (emits_onlyIf Iff.rfl fun more => ?_)
    rw [clog2_of_widthOf more hw]
    exact emits_emitBits (width_le_of_widthOf hn hw) (gives_ranged (Nat.zero_le _) (Nat.le_sub_one_of_lt hidx))
  | coded negative positive =>
    simp only [refSetOk, Bool.and_eq_true] at ok
    exact emitsThen_cons (emitsThen_flag (by decide)) ((emits_h265StRps n ok.1 ok.2).append t)

/-! ## Up to the temporal predictor (R223 (3), (4)) -/

/-- The steering values of a header. -/
def steer (h : Header265) : H265Steer := ⟨h.nut, h.lid, h.tid, h.st⟩

theorem h265Idr_steer (h : Header265) : h265Idr (steer h).nut = h.idr := by
  simp [h265Idr, steer, idr, Bool.beq_eq_decide_eq]

/-- `tmvp` of R223 (4). -/
def predictor (h : Header265) : Word := if h.idr then 0 else h.tmvp.getD 0

theorem emits_h265Address (ok : h.Ok) : Emits sp
    ((if h265Irap h.nut then emitBits (flagParam sp 0x103) 1 else []) ++ emitUe (ranged sp 0x104 0 63))
    h.address :=
  emits_cons (emits_onlyIf Iff.rfl fun _ => emits_emitBits (by decide) (gives_flagParam ok.noOutput))
    (emits_join_singleton.2 (emits_ranged ok.pps (by decide)))

theorem emitsThen_h265Tmvp {tmvp : Option Word} (ok : tmvp.all (fun v => v.toNat ≤ 1) = true) :
    EmitsThen sp (h265Tmvp sp k) (present 0x10F tmvp fun v => bitsOfParam 0x110 v 1) (k (tmvp.getD 0)) := by
  cases tmvp with
  | none => exact emitsThen_read (gives_flagParam (by decide))
  | some v =>
    exact emitsThen_cons (emitsThen_read (gives_flagParam (by decide)))
      (emitsThen_singleton (emitsThen_flag (of_decide_eq_true ok)))

theorem emitsThen_h265Poc (ok : h.Ok) :
    EmitsThen sp (h265Poc sp (steer h) k) h.picture (k (predictor h)) := by
  have st := ok.st
  obtain ⟨hlog, hlsb⟩ := ok.pocLsb
  rw [h265Poc, List.append_assoc, h265Idr_steer, predictor]
  refine emitsThen_cons ((emits_call (codes_ue (by simp only [steer]; omega))).append _) ?_
  refine emitsThen_cons ((emits_present fun v hv => emits_emitBits (by decide)
    (gives_flagParam (of_decide_eq_true (all_some ok.picOutput hv)))).append _) (emitsThen_singleton ?_)
  cases h.idr with
  | true => exact emitsThen_none
  | false =>
    refine emitsThen_cons (emitsThen_read (gives_ranged (Nat.zero_le _) hlog)) ?_
    refine emitsThen_cons ((emits_emitBits (by omega)
      (gives_ranged (Nat.zero_le _) (Nat.le_sub_one_of_lt hlsb))).append _) ?_
    refine emitsThen_cons (emitsThen_read (gives_ranged (Nat.zero_le _) ok.numSets)) ?_
    refine emitsThen_cons (emitsThen_h265RefSet ok.numSets ok.refSet _) ?_
    exact emitsThen_singleton (emitsThen_h265Tmvp ok.tmvp)

/-! ## The inter-prediction fields (R223 (6), R227) -/

/-- `l1`, which only a B slice reads. -/
theorem emits_h265L1 {st v : Word} {l : List Piece} (hv : v.toNat ≤ 14)
    (hk : ∀ l1, (st = 0 → l1 = v) → Emits sp (k l1) (Piece.join l)) :
    Emits sp (need (h265L1 sp st) k) (Piece.join (onlyIf (st = 0) (readOnly 0x114 v) :: l)) := by
  unfold h265L1
  by_cases hst : st = 0
  · rw [if_pos hst, onlyIf_pos hst]
    exact emits_read (gives_ranged (Nat.zero_le _) hv) (hk v fun _ => rfl)
  · rw [if_neg hst, onlyIf_neg hst]
    exact emits_cons emits_none (hk 0 fun hc => absurd hc hst)

theorem emits_h265Overrides {st o l0 l1 v : Word} (h0 : l0.toNat ≤ 14) (hv : v.toNat ≤ 14)
    (hl1 : st = 0 → l1 = v) :
    Emits sp (if o = 1 then [.ue l0] ++ (if st = 0 then [.ue l1] else []) else []) (Piece.join
      [onlyIf (o = 1) ⟨[], [.ue l0]⟩, onlyIf (o = 1 ∧ st = 0) ⟨[], [.ue v]⟩]) := by
  by_cases ho : o = 1
  · rw [if_pos ho, onlyIf_pos ho]
    refine emits_cons (emits_call (codes_ue (by omega))) (emits_join_singleton.2 ?_)
    refine emits_onlyIf (and_iff_right ho).symm fun hc => ?_
    rw [hl1 hc.2]
    exact emits_call (codes_ue (by omega))
  · rw [if_neg ho, onlyIf_neg ho, onlyIf_neg (fun hc => ho hc.1)]
    exact emits_cons emits_none (emits_cons emits_none emits_none)

theorem emits_h265Lists {st l0 v : Word} {l1 : Nat}
    {x : Word × Nat × Option (List Word) × Option (List Word)}
    (ok : listsOk l0.toNat v.toNat x = true) (hl1 : st = 0 → l1 = v.toNat) :
    Emits sp (need (ranged sp 0x116 0 16) fun npc =>
        if 1 < npc.toNat then h265Rplm sp st l0.toNat l1 npc.toNat else [])
      (Piece.join
        [ readOnly 0x116 x.1,
          onlyIf (1 < x.1.toNat) (flagged 0x117 x.2.2.1 (entriesFrom x.2.1 0x1C0)),
          onlyIf (1 < x.1.toNat ∧ st = 0) (flagged 0x118 x.2.2.2 (entriesFrom x.2.1 0x1D0)) ]) := by
  simp only [listsOk, Bool.or_eq_true, Bool.and_eq_true, decide_eq_true_eq] at ok
  refine emits_read (gives_ranged (Nat.zero_le _) (by omega)) ?_
  by_cases more : 1 < x.1.toNat
  · obtain ⟨⟨⟨hn, hw⟩, h0⟩, h1⟩ := ok.resolve_left (by omega)
    rw [if_pos more, onlyIf_pos more]
    refine emits_cons (emits_h265RplmList more hn hw h0 _ _) (emits_join_singleton.2 ?_)
    refine emits_onlyIf (and_iff_right more).symm fun hc => ?_
    rw [hl1 hc.2]
    exact emits_h265RplmList more hn hw h1 _ _
  · rw [if_neg more, onlyIf_neg more, onlyIf_neg (fun hc => more hc.1)]
    exact emits_cons emits_none (emits_cons emits_none emits_none)

theorem emits_h265Collocated {l1 : Nat} (ok : h.Ok) (hl1 : h.st = 0 → l1 = h.l1.toNat) :
    Emits sp (h265Collocated sp h.st h.l0.toNat l1) h.collocatedPiece := by
  have index : Emits sp (emitUe (ranged sp 0x11D 0 14)) (ueOfParam 0x11D h.collocated) :=
    emits_ranged ok.collocated (by decide)
  have positive : ∀ {v : Word}, 0 < v.toNat ↔ v ≠ 0 := fun {v} => by
    rw [Nat.pos_iff_ne_zero]; exact not_congr (BitVec.toNat_inj (y := 0))
  unfold h265Collocated collocatedPiece
  by_cases hst : h.st = 0
  · simp only [if_pos hst, onlyIf_pos hst, hl1 hst]
    refine emits_need (x := (.bits · 1)) rfl (gives_flagParam ok.fromL0) (emits_join_singleton.2 ?_)
    exact emits_onlyIf (by rw [positive, positive]) fun _ => index
  · simp only [if_neg hst, onlyIf_neg hst]
    refine emits_cons emits_none (emits_join_singleton.2 (emits_onlyIf ?_ fun _ => index))
    simp [positive]

theorem emits_h265Inter {tmvp : Word} (ok : h.Ok) (htmvp : tmvp = 1 ↔ h.tmvp = some 1) (hst : h.st ≠ 2) :
    Emits sp (h265Inter sp h.st tmvp) h.inter := by
  obtain ⟨h0, h1⟩ := ok.counts
  rw [h265Inter, if_neg hst]
  refine emits_need (x := (.bits · 1)) rfl (gives_flagParam ok.override) ?_
  refine emits_read (gives_ranged (Nat.zero_le _) h0) ?_
  refine emits_h265L1 h1 fun l1 hl1 => ?_
  have count : h.st = 0 → l1.toNat = h.l1.toNat := fun hc => by rw [hl1 hc]
  simp only [List.append_assoc]
  refine emits_append (emits_h265Overrides h0 h1 hl1) ?_
  refine emits_cons (emits_present fun x hx => emits_h265Lists (all_some ok.lists hx) count) ?_
  refine emits_cons (emits_onlyIf Iff.rfl fun _ => emits_emitBits (by decide)
    (gives_flagParam ok.mvdL1Zero)) ?_
  refine emits_cons (emits_present fun v hv => emits_emitBits (by decide)
    (gives_flagParam (of_decide_eq_true (all_some ok.cabacInit hv)))) ?_
  refine emits_cons (emits_onlyIf htmvp fun _ => emits_h265Collocated ok count) ?_
  exact emits_join_singleton.2 (emits_ranged ok.merge (by decide))

/-- Only an I slice has no inter-prediction fields, and every IDR slice is one (R221). -/
theorem emits_interOrNone (ok : h.Ok) : Emits sp (h265Inter sp h.st (predictor h)) h.interOrNone := by
  by_cases hst : h.st = 2
  · rw [interOrNone, onlyIf_neg (not_not.2 hst), h265Inter, if_pos hst]
    exact emits_none
  · have notIdr : h.idr = false := by
      have := ok.nut.resolve_right fun hc => hst hc.2.2
      simp only [idr, decide_eq_false_iff_not]
      rintro (hn | hn) <;> simp [hn] at this
    have tmvp : predictor h = 1 ↔ h.tmvp = some 1 := by
      rw [predictor, notIdr]
      cases h.tmvp <;> simp
    rw [interOrNone, onlyIf_pos hst]
    exact emits_h265Inter ok tmvp hst

/-! ## Chroma offsets and deblocking overrides (R223 (8)) -/

theorem emits_offset {b : Int} {v : Word} (hb : b < 2 ^ 31) (hv : within b v = true) (i : Nat) :
    Emits sp (emitSe (signedRanged sp i (-b) b)) (seOfParam i v) :=
  emits_emitSe (within_ne hb hv) (gives_signedRanged hv)

theorem emitsThen_h265Deblock (ok : h.Ok) : EmitsThen sp (h265Deblock sp k) (Piece.join
    [readOnly 0x128 h.ppsDisabled, present 0x122 h.deblock fun o => flagged 0x123 o fun d =>
      Piece.join [bitsOfParam 0x124 d.1 1,
        onlyIf (d.1 = 0) (Piece.join [seOfParam 0x125 d.2.1, seOfParam 0x126 d.2.2])]]) (k h.disabled) := by
  have flag : ∀ {i : Nat}, Gives sp i (flagParam sp i) 1 := gives_flagParam (by decide)
  refine emitsThen_cons (emitsThen_read (gives_flagParam ok.ppsDisabled)) (emitsThen_singleton ?_)
  unfold disabled
  rcases hd : h.deblock with _ | _ | d
  · exact emitsThen_read (gives_flagParam (by decide))
  · exact emitsThen_cons (emitsThen_read flag) (emitsThen_singleton (emitsThen_flag (by decide)))
  · have range := all_some (all_some ok.deblock hd) rfl
    simp only [Bool.and_eq_true, decide_eq_true_eq] at range
    obtain ⟨⟨hdis, hbeta⟩, htc⟩ := range
    refine emitsThen_cons (emitsThen_read flag) (emitsThen_singleton ?_)
    refine emitsThen_cons (emitsThen_flag (by decide)) (emitsThen_singleton ?_)
    refine emitsThen_cons (emitsThen_flag hdis) (emitsThen_singleton ?_)
    exact (emits_onlyIf Iff.rfl fun _ => emits_cons (emits_offset (by decide) hbeta _)
      (emits_join_singleton.2 (emits_offset (by decide) htc _))).append _

theorem emitsThen_h265Offsets (ok : h.Ok) :
    EmitsThen sp (h265Chroma sp ++ h265Deblock sp k) h.offsets (k h.disabled) := by
  refine emitsThen_cons ((emits_present fun c hc => ?_ : Emits sp _ _).append _) (emitsThen_h265Deblock ok)
  have range := all_some ok.chroma hc
  simp only [Bool.and_eq_true] at range
  exact emits_cons (emits_offset (by decide) range.1 _)
    (emits_join_singleton.2 (emits_offset (by decide) range.2 _))

end Sys2Proof.H265Family
end

section
/-! SUPPORT. A header of the admitted subset makes its template (spec/44_header_h265.md R220, R222, R223), and the
IDR header is one of them. -/

namespace Sys2Proof.H265Family

open Sys2Proof.Machine Sys2Proof.Safety Sys2Proof.BitWriterFamily Sys2Proof.TemplateFamily Header265
open Sys2Proof.H264Family (zeroParam_of_holds length_ueBits_lt)

variable {sp : Memory SpCell} {h : Header265}

/-! ## Every header (R221, R223) -/

theorem h265Weighted_eq {st : Word} (hP : st = 1 → holds sp 0x134 0) (hB : st = 0 → holds sp 0x135 0)
    (k : Script) : h265Weighted sp st k = k := by
  unfold h265Weighted
  split
  · rename_i hst
    rw [zeroParam_of_holds (hP hst), need_ok]
  · split
    · rename_i hst
      rw [zeroParam_of_holds (hB hst), need_ok]
    · rfl

/-- The opening checks pass a header of the admitted subset. -/
theorem h265Checks_eq (ok : h.Ok) (hr : ∀ x ∈ h.steering.reads, holds sp x.1 x.2)
    (k : H265Steer → Script) : h265Checks sp k = k (steer h) := by
  simp only [steering, join_cons_reads, List.forall_mem_append, readOnly, List.forall_mem_singleton] at hr
  obtain ⟨h130, h131, h132, h133, h136, h137, h138, h139, h100, h101, h102, h105, hP, hB, -⟩ := hr
  have nut := ok.nut
  have admitted : ¬(!h265NutAdmitted h.nut) = true := by simp [h265NutAdmitted]; omega
  have irap : ¬(h265Irap h.nut = true ∧ h.st ≠ 2) := by
    rintro ⟨hirap, hst⟩
    simp only [h265Irap, Bool.and_eq_true, decide_eq_true_eq] at hirap
    have := nut.resolve_right fun hc => hst hc.2.2
    omega
  have weighted := h265Weighted_eq (sp := sp) (st := h.st)
    (fun hst => by rw [onlyIf_pos hst] at hP; exact hP _ (List.mem_singleton_self _))
    (fun hst => by rw [onlyIf_pos hst] at hB; exact hB _ (List.mem_singleton_self _))
  rw [h265Checks, zeroParam_of_holds h130, need_ok, zeroParam_of_holds h131, need_ok,
    zeroParam_of_holds h132, need_ok, zeroParam_of_holds h133, need_ok, zeroParam_of_holds h136, need_ok,
    zeroParam_of_holds h137, need_ok, zeroParam_of_holds h138, need_ok, zeroParam_of_holds h139, need_ok,
    param_ok.2 h100, need_ok, if_neg admitted, ranged_of_holds h101 (Nat.zero_le _) ok.lid, need_ok,
    ranged_of_holds h102 ok.tid.1 ok.tid.2, need_ok, ranged_of_holds h105 (Nat.zero_le _) ok.st, need_ok,
    if_neg irap]
  exact weighted _

/-- The calls of the sequence for a header, from the SAO marker on (R223 (5) to (10)). -/
def restCalls (h : Header265) : Script :=
  (if h.sao = 1 then [Item.copy, Item.mark .saoEnable] else []) ++ h.interOrNone.puts ++
    [Item.copy, Item.mark .sliceQpDelta] ++ h.offsets.puts ++
    ((if h.marksAcross then [Item.copy, Item.mark .lfAcrossSlices] else []) ++ [Item.copy, Item.close])

theorem marksAcross_iff : h.marksAcross = true ↔ h.acrossSlices = 1 ∧ (h.sao = 1 ∨ h.disabled = 0) :=
  decide_eq_true_iff

/-- The ranges and the markers of a header stand in the order of the calls (R220). -/
theorem templateScript_ranges (h : Header265) : templateScript h.ranges h.last =
    .reset :: (h.nal ++ [Item.copy, Item.mark .firstSlice] ++ h.address.puts ++
      [Item.copy, Item.mark .sliceSegment] ++ h.picture.puts ++ restCalls h) := by
  unfold ranges firstRanges last restCalls
  split_ifs <;> simp [templateScript]

theorem h265Rest_eq (ok : h.Ok) (hsao : holds sp 0x111 h.sao) (hlf : holds sp 0x127 h.acrossSlices)
    (hinter : ∀ x ∈ h.interOrNone.reads, holds sp x.1 x.2)
    (hoffsets : ∀ x ∈ h.offsets.reads, holds sp x.1 x.2) :
    h265Rest sp (steer h) (predictor h) = restCalls h := by
  obtain ⟨inter, -⟩ := emits_interOrNone ok hinter
  obtain ⟨offsets, -⟩ := emitsThen_h265Offsets (k := fun dis => h265Close sp h.sao dis) ok hoffsets
  rw [h265Rest, flagParam_of_holds hsao ok.sao, need_ok, List.append_assoc, offsets, h265Close,
    flagParam_of_holds hlf ok.acrossSlices, need_ok, steer, inter, restCalls]
  simp only [List.append_assoc, marksAcross_iff]

/-- The sequence of a header is its template, and no call of it raises a fault of its own. -/
theorem h265Script_eq (ok : h.Ok) (hr : ∀ x ∈ h.reads, holds sp x.1 x.2) :
    h265Script sp = templateScript h.ranges h.last ∧
      ∀ b ∈ bodies h.ranges h.last, b.all codes = true := by
  simp only [reads, join_cons_reads, List.forall_mem_append, readOnly, List.forall_mem_singleton] at hr
  obtain ⟨steering, address, picture, sao, inter, offsets, across, -⟩ := hr
  obtain ⟨addressEq, addressCodes⟩ := emits_h265Address ok address
  obtain ⟨pictureEq, pictureCodes⟩ := emitsThen_h265Poc (k := fun tmvp => h265Rest sp (steer h) tmvp) ok picture
  obtain ⟨-, interCodes⟩ := emits_interOrNone ok inter
  obtain ⟨-, offsetsCodes⟩ := emitsThen_h265Offsets (k := fun _ => []) ok offsets
  constructor
  · rw [h265Script, h265Checks_eq ok steering, pictureEq, h265Rest_eq ok sao across inter offsets, h265Address,
      steer, addressEq, templateScript_ranges]
    simp [h265Nal, nal]
  · have nalCodes : h.nal.all codes = true := rfl
    simp only [bodies, ranges, firstRanges, last]
    split <;> split <;>
      simp [-List.all_eq_true, nalCodes, addressCodes, pictureCodes, interCodes, offsetsCodes]

/-- At most five markers (R220). -/
theorem length_templateEntries_le (h : Header265) : (templateEntries h.ranges h.last).length ≤ 12 := by
  have entries : ∀ (rs : List Range) (last : Script),
      (templateEntries rs last).length = 2 * rs.length + 2 := fun rs last => by
    induction rs with
    | nil => rfl
    | cons r rs ih => simp only [templateEntries, List.length_cons, ih]; omega
  rw [entries, ranges, firstRanges]
  split <;> split <;> simp

/-- Settles O49. -/
theorem h265Slices : Obligations.H265Slices := by
  intro h s ok hr hout hcap hil hmax
  obtain ⟨script, codes⟩ := h265Script_eq ok hr
  exact h265Completes h.ranges h.last s script
    ⟨codes, hout, hcap, (length_templateEntries_le h).trans hil, hmax⟩

/-! ## The IDR header -/

/-- An IDR header whose optional elements are absent. -/
structure IsIdr (h : Header265) : Prop where
  nut : h.nut = 19 ∨ h.nut = 20
  st : h.st = 2
  picOutput : h.picOutput = none
  chroma : h.chroma = none
  deblock : h.deblock = none

theorem IsIdr.irap (hi : IsIdr h) : h.irap = true := by
  rcases hi.nut with hn | hn <;> simp [Header265.irap, hn]

theorem IsIdr.address (hi : IsIdr h) :
    h.address = ⟨[(0x103, h.noOutput), (0x104, h.pps)], [.bits h.noOutput 1, .ue h.pps]⟩ := by
  rw [Header265.address, onlyIf_pos hi.irap]; rfl

theorem IsIdr.picture (hi : IsIdr h) : h.picture = ⟨[(0x106, 0)], [.ue 2]⟩ := by
  have idr : h.idr = true := decide_eq_true hi.nut
  rw [Header265.picture, hi.picOutput, onlyIf_neg (by simp [idr]), hi.st]; rfl

theorem IsIdr.inter (hi : IsIdr h) : h.interOrNone = Piece.none :=
  onlyIf_neg (not_not.2 hi.st) _

theorem IsIdr.offsets (hi : IsIdr h) : h.offsets = ⟨[(0x11F, 0), (0x128, h.ppsDisabled), (0x122, 0)], []⟩ := by
  rw [Header265.offsets, hi.chroma, hi.deblock]; rfl

theorem IsIdr.steering (hi : IsIdr h) : h.steering.reads =
    [(0x130, 0), (0x131, 0), (0x132, 0), (0x133, 0), (0x136, 0), (0x137, 0), (0x138, 0), (0x139, 0),
      (0x100, h.nut), (0x101, h.lid), (0x102, h.tid), (0x105, 2)] := by
  simp [Header265.steering, hi.st, readOnly]

theorem IsIdr.marksAcross (hi : IsIdr h) :
    h.marksAcross = true ↔ h.acrossSlices = 1 ∧ (h.sao = 1 ∨ h.ppsDisabled = 0) := by
  rw [marksAcross_iff, disabled, hi.deblock]

theorem IsIdr.ranges (hi : IsIdr h) : h.ranges =
    [⟨[.bits 0 1, .bits h.nut 6, .bits h.lid 6, .bits h.tid 3], .firstSlice⟩,
      ⟨[.bits h.noOutput 1, .ue h.pps], .sliceSegment⟩] ++
    (if h.sao = 1 then [⟨[.ue 2], .saoEnable⟩, ⟨[], .sliceQpDelta⟩] else [⟨[.ue 2], .sliceQpDelta⟩]) ++
    (if h.acrossSlices = 1 ∧ (h.sao = 1 ∨ h.ppsDisabled = 0) then [⟨[], .lfAcrossSlices⟩] else []) := by
  simp only [Header265.ranges, firstRanges, nal, hi.address, hi.picture, hi.inter, hi.offsets, hi.marksAcross,
    piece_none_puts, List.append_nil]

theorem IsIdr.last (hi : IsIdr h) : h.last = [] := by
  rw [Header265.last, hi.offsets, ite_self]

/-- The words that are read, in the order of R221. -/
theorem IsIdr.reads_subset (hi : IsIdr h) : h.reads ⊆
    [(0x100, h.nut), (0x101, h.lid), (0x102, h.tid), (0x103, h.noOutput), (0x104, h.pps), (0x105, 2),
      (0x106, 0), (0x111, h.sao), (0x11F, 0), (0x122, 0), (0x127, h.acrossSlices), (0x128, h.ppsDisabled),
      (0x130, 0), (0x131, 0), (0x132, 0), (0x133, 0), (0x136, 0), (0x137, 0), (0x138, 0), (0x139, 0)] := by
  simp only [reads, join_cons_reads, hi.steering, hi.address, hi.picture, hi.inter, hi.offsets, readOnly,
    join_nil, piece_none_reads, List.cons_append, List.nil_append, List.cons_subset, List.mem_cons, true_or,
    or_true, List.nil_subset, and_self]

/-- The first three ranges take one word each; the others hold no bits. -/
theorem IsIdr.words (hi : IsIdr h) (ok : h.Ok) : templateWords (bodies h.ranges h.last) ≤ 3 := by
  have pps := length_ueBits_lt (v := h.pps.toNat) (k := 7) (by have := ok.pps; omega)
  have two := length_ueBits_lt (v := (2 : Word).toNat) (k := 2) (by decide)
  rw [hi.ranges, hi.last]
  split <;> split <;>
    · simp only [bodies, templateWords, rangeWords, scriptBits, itemBits, List.map_cons, List.map_nil,
        List.flatMap_cons, List.flatMap_nil, List.length_append, length_bitsOf, List.cons_append,
        List.nil_append, List.sum_cons, List.sum_nil, List.length_nil]
      omega

/-- Settles O48: the header is one of those of O49. -/
theorem h265IdrSlice : Obligations.H265IdrSlice := by
  intro s nut lid tid noOut pps sao dis lf hnut hlid htid hno hpps hsao hdis hlf hr hout hcap hil hmax
  let h : Header265 :=
    { nut := nut, lid := lid, tid := tid, st := 2, noOutput := noOut, pps := pps, picOutput := none
      log2PocLsb := 0, pocLsb := 0, numSets := 0, refSet := .coded [] [], tmvp := none, sao := sao
      override := 0, l0 := 0, l1 := 0, lists := none, mvdL1Zero := 0, cabacInit := none, fromL0 := 0
      collocated := 0, merge := 0, chroma := none, ppsDisabled := dis, deblock := none, acrossSlices := lf }
  have range : 16 ≤ nut.toNat ∧ nut.toNat ≤ 21 := by rcases hnut with rfl | rfl <;> decide
  have ok : h.Ok :=
    { nut := .inr ⟨range.1, range.2, rfl⟩, lid := hlid, tid := htid, st := Nat.le_refl 2, noOutput := hno
      pps := hpps, picOutput := rfl, pocLsb := ⟨Nat.zero_le _, Nat.two_pow_pos _⟩, numSets := Nat.zero_le _
      refSet := rfl, tmvp := rfl, sao := hsao, override := Nat.zero_le _
      counts := ⟨Nat.zero_le _, Nat.zero_le _⟩, lists := rfl
      mvdL1Zero := Nat.zero_le _, cabacInit := rfl, fromL0 := Nat.zero_le _, collocated := Nat.zero_le _
      merge := Nat.zero_le _, chroma := rfl, ppsDisabled := hdis, deblock := rfl, acrossSlices := hlf }
  have isIdr : IsIdr h := ⟨hnut, rfl, rfl, rfl, rfl⟩
  have slice := h265Slices h s ok (fun x hx => hr x (isIdr.reads_subset hx)) ((isIdr.words ok).trans hout)
    hcap hil hmax
  rwa [isIdr.ranges, isIdr.last] at slice

end Sys2Proof.H265Family
end

section
/-! SUPPORT. Unit FG, the film-grain generator (45_av1_prng_cdf.md part A). -/

namespace Sys2Proof.PrngCdfFamily

open Sys2Proof.Machine Sys2Proof.Safety

/-! ## The register (R261, R265) -/

variable {k n : Nat} {v : Half}

theorem fgShift_getLsbD_of_lt (v : Half) (hk : k < 15) : (fgShift v).getLsbD k = v.getLsbD (k + 1) := by
  have low : (0x8000#16).getLsbD k = false := by
    rw [show 0x8000#16 = BitVec.twoPow 16 15 by decide, BitVec.getLsbD_twoPow]
    simp only [Bool.and_eq_false_iff, decide_eq_false_iff_not]
    omega
  unfold fgShift
  cases fgFeedback v <;> simp [low, Nat.add_comm]

theorem fgShift_getLsbD_top (v : Half) : (fgShift v).getLsbD 15 = fgFeedback v := by
  unfold fgShift
  cases fgFeedback v <;> simp

@[simp] theorem fgShift_zero : fgShift 0 = 0 := by decide

/-- A register that becomes 0 was 0: its bits 1 to 15 are seen again, and its bit 0 is the feedback, since
the other three taps are among those. -/
theorem eq_zero_of_fgShift_eq_zero (h : fgShift v = 0) : v = 0 := by
  have high : ∀ k < 15, v.getLsbD (k + 1) = false := fun k hk => by
    rw [← fgShift_getLsbD_of_lt v hk, h]; exact BitVec.getLsbD_zero
  have feedback : fgFeedback v = false := by
    rw [← fgShift_getLsbD_top, h]; exact BitVec.getLsbD_zero
  have low : v.getLsbD 0 = false := by
    rwa [fgFeedback, high 0 (by omega), high 2 (by omega), high 11 (by omega), Bool.xor_false,
      Bool.xor_false, Bool.xor_false] at feedback
  refine BitVec.eq_of_getLsbD_eq fun i hi => Eq.trans ?_ BitVec.getLsbD_zero.symm
  cases i with
  | zero => exact low
  | succ k => exact high k (by omega)

/-! ## The result (R261) -/

/-- The mask of R261 clears nothing: the shift leaves `n` bits. -/
theorem fgOutput_toNat (v : Half) (hn : n ≤ 16) : (fgOutput v n).toNat = v.toNat / 2 ^ (16 - n) := by
  have mask : (2 ^ n - 1) % 2 ^ 16 = 2 ^ n - 1 :=
    Nat.mod_eq_of_lt (Nat.lt_of_lt_of_le (Nat.sub_one_lt_of_lt (Nat.two_pow_pos n))
      (Nat.pow_le_pow_right (by omega) hn))
  have fits : v.toNat / 2 ^ (16 - n) < 2 ^ n := by
    rw [Nat.div_lt_iff_lt_mul (Nat.two_pow_pos _), ← Nat.pow_add, Nat.add_sub_cancel' hn]
    exact v.isLt
  rw [fgOutput, BitVec.toNat_and, BitVec.toNat_ushiftRight, BitVec.toNat_ofNat, mask,
    Nat.shiftRight_eq_div_pow, Nat.and_two_pow_sub_one_eq_mod, Nat.mod_eq_of_lt fits]

theorem fgOutput_setWidth (v : Half) (hn : n ≤ 16) :
    (fgOutput v n).setWidth 64 = BitVec.ofNat 64 (v.toNat / 2 ^ (16 - n)) :=
  BitVec.eq_of_toNat_eq (by rw [BitVec.toNat_setWidth, fgOutput_toNat v hn, BitVec.toNat_ofNat])

/-- The result for `n` bits is the top of the result for 16 (R265 (d)). -/
theorem fgOutput_setWidth_eq_shift (v : Half) (hn : n ≤ 16) :
    (fgOutput v n).setWidth 64 = (fgOutput v 16).setWidth 64 >>> (16 - n) := by
  apply BitVec.eq_of_toNat_eq
  rw [BitVec.toNat_ushiftRight, BitVec.toNat_setWidth_of_le (by omega),
    BitVec.toNat_setWidth_of_le (by omega), fgOutput_toNat v hn, fgOutput_toNat v le_rfl,
    Nat.shiftRight_eq_div_pow, Nat.sub_self, Nat.pow_zero, Nat.div_one]

/-! ## The commands (R262, R263) -/

variable {bits : Byte} {s : State}

theorem exec_fgSeed {plane : Byte} {x : Half} (h : planeXor plane = some x) (seed : Half) (s : State) :
    exec (.fgSeed plane seed) s = .next (advance 1 (seedLfsr (seed ^^^ x) s)) := by
  show execFgSeed plane seed s = _
  rw [execFgSeed, h]; rfl

theorem exec_fgRand_seeded (hlo : 1 ≤ bits.toNat) (hhi : bits.toNat ≤ 16) (hs : s.fgSeeded = true) :
    exec (.fgRand bits) s = .next (advance 1
      (setRes ((fgOutput (fgShift s.lfsr) bits.toNat).setWidth 64) (setLfsr (fgShift s.lfsr) s))) := by
  show execFgRand bits s = _
  rw [execFgRand, if_neg (by omega), if_pos hs]; rfl

theorem exec_fgRand_unseeded (hlo : 1 ≤ bits.toNat) (hhi : bits.toNat ≤ 16) (hs : s.fgSeeded = false) :
    exec (.fgRand bits) s = .next (takeFault .fgUnseeded 0 s) := by
  show execFgRand bits s = _
  rw [execFgRand, if_neg (by omega), if_neg (by simp [hs])]; rfl

/-- Settles O52. -/
theorem fgSeedLoads : Obligations.FgSeedLoads := by
  intro plane x seed s h
  have constant : planeXor plane = some x := by
    simp only [List.mem_cons, Prod.mk.injEq, List.not_mem_nil, or_false] at h
    rcases h with ⟨rfl, rfl⟩ | ⟨rfl, rfl⟩ | ⟨rfl, rfl⟩ <;> rfl
  exact exec_fgSeed constant seed s

/-- Settles O53: the register the command leaves is `fgShift` of the old one. -/
theorem fgRandSteps : Obligations.FgRandSteps := by
  intro bits s hlo hhi
  constructor
  · intro hs
    refine ⟨fgShift s.lfsr, fun k hk => fgShift_getLsbD_of_lt s.lfsr hk, fgShift_getLsbD_top s.lfsr, ?_⟩
    rw [exec_fgRand_seeded hlo hhi hs, fgOutput_setWidth _ hhi]
    rfl
  · exact fun hs => exec_fgRand_unseeded hlo hhi hs

/-- Settles O54. -/
theorem fgRegister : Obligations.FgRegister := by
  intro a s hlo hhi hs
  refine ⟨_, _, exec_fgRand_seeded hlo hhi hs, exec_fgRand_seeded (by decide) (by decide) hs, rfl,
    fgOutput_setWidth_eq_shift _ hhi, fun hz => ?_, fun hnz hz => hnz (eq_zero_of_fgShift_eq_zero hz)⟩
  have stays : fgShift s.lfsr = 0 := by rw [hz, fgShift_zero]
  refine ⟨stays, ?_⟩
  show (fgOutput (fgShift s.lfsr) a.toNat).setWidth 64 = 0
  simp [stays, fgOutput]

end Sys2Proof.PrngCdfFamily
end

section
/-! SUPPORT. Unit CDF, the default-CDF initializer (45_av1_prng_cdf.md part B). -/

namespace Sys2Proof.PrngCdfFamily

open Sys2Proof.Machine Sys2Proof.Safety Sys2Proof.StateFamily

/-! ## The invariant of the slots (R275) -/

theorem effect_cdfInv {s u : State} {r : Result State} (h : Effect s r) (hr : r = .ok u)
    (hl : s.params.layout.wf = true) (hc : CdfInv s.params.layout s.cdf) :
    CdfInv s.params.layout u.cdf := by
  cases h with
  | slots hkeeps => cases hr; exact hkeeps (regions_of_wf hl) hc
  | refuse => cases hr
  | encode | mapper | lookup =>
    obtain ⟨_, -, rfl⟩ := result_map_ok.1 hr
    exact hc
  | endRun | store | seed | random => cases hr; exact hc

/-- Settles O22: a command that completes has an effect that keeps the slots, and fault entry leaves them. -/
theorem slotInvariantKept : Obligations.SlotInvariantKept := by
  intro i s t hl hc h
  rcases exec_next h with ⟨u, rfl, he⟩ | ⟨f, info, rfl⟩
  · exact effect_cdfInv (u := u) he rfl hl hc
  · exact hc

/-! ## Writes to different bytes commute -/

variable {α : Type}

/-- The first written index stands before the second, wherever in the list the two belong; so this holds of
every list, canonical or not. -/
theorem write_comm (m : Memory α) {a b : Nat} (h : a ≠ b) (v w : α) :
    Memory.write (Memory.write m a v) b w = Memory.write (Memory.write m b w) a v := by
  induction m with
  | nil => grind [Memory.write]
  | cons c m ih => grind [Memory.write]

theorem writeRange_write_comm (vs : List α) (m : Memory α) {a b : Nat} (w : α)
    (h : b < a ∨ a + vs.length ≤ b) :
    Memory.writeRange (Memory.write m b w) a vs = Memory.write (Memory.writeRange m a vs) b w := by
  induction vs generalizing m a with
  | nil => rfl
  | cons v vs ih =>
    rw [List.length_cons] at h
    rw [Memory.writeRange, Memory.writeRange, write_comm m (by omega), ih _ (by omega)]

theorem writeRange_comm_of_disjoint (vs ws : List α) (m : Memory α) {a b : Nat}
    (h : a + vs.length ≤ b ∨ b + ws.length ≤ a) :
    Memory.writeRange (Memory.writeRange m a vs) b ws =
      Memory.writeRange (Memory.writeRange m b ws) a vs := by
  induction ws generalizing m b with
  | nil => rfl
  | cons w ws ih =>
    rw [List.length_cons] at h
    rw [Memory.writeRange, Memory.writeRange, ← writeRange_write_comm vs m w (by omega), ih _ (by omega)]

/-- Writes to regions that share no byte commute; an empty region may lie anywhere (R270). -/
theorem writeRange_comm (vs ws : List α) (m : Memory α) {a b : Nat}
    (h : regionsApart a vs.length b ws.length = true) :
    Memory.writeRange (Memory.writeRange m a vs) b ws =
      Memory.writeRange (Memory.writeRange m b ws) a vs := by
  rcases regionsApart_iff.1 h with h | h | h | h
  · exact writeRange_comm_of_disjoint vs ws m (.inl h)
  · exact writeRange_comm_of_disjoint vs ws m (.inr h)
  · rw [List.length_eq_zero_iff.1 h]; rfl
  · rw [List.length_eq_zero_iff.1 h]; rfl

/-! ## The tables of a slot and the single commands that copy them (R271 to R273) -/

/-- A default table that a single command copies into a slot. -/
inductive Table where
  | mode | mv | coef (index : Fin 4)

/-- What a slot is after the table was copied into it. -/
def Table.fill (l : CdfLayout) : Table → CdfSlot → CdfSlot
  | .mode => initMode l
  | .mv => initMv l
  | .coef j => initCoef l j

/-- The command that copies the table into slot `k`. -/
def Table.command (k : Fin 4) : Table → Instr
  | .mode => .cdfInitMode (BitVec.ofNat 8 k)
  | .mv => .cdfInitMv (BitVec.ofNat 8 k)
  | .coef j => .cdfInitCoef (BitVec.ofNat 8 k) (BitVec.ofNat 8 j)

theorem slotField_ofNat (k : Fin 4) : slotField (BitVec.ofNat 8 k) = some k := by
  have small : (BitVec.ofNat 8 k).toNat = k.val := Nat.mod_eq_of_lt (by omega)
  simp [slotField, small]

theorem exec_command (k : Fin 4) (table : Table) (s : State) : exec (table.command k) s =
    .next (advance 1 (setCdf (onSlot k (table.fill s.params.layout) s.cdf) s)) := by
  cases table with
  | mode =>
    show execCdfInitMode _ s = _
    rw [execCdfInitMode, slotField_ofNat]; rfl
  | mv =>
    show execCdfInitMv _ s = _
    rw [execCdfInitMv, slotField_ofNat]; rfl
  | coef j =>
    show execCdfInitCoef _ _ s = _
    rw [execCdfInitCoef, slotField_ofNat, slotField_ofNat]; rfl

theorem read_copied (m : Memory Byte) (off : Nat) (rom : List Byte) (a : Nat) :
    Memory.read (Memory.writeRange m off rom) a =
      if inRegion off rom.length a then rom[a - off]? else Memory.read m a := by
  simp only [Memory.read_writeRange, inRegion_iff]

theorem romCoef_eq_getElem (l : CdfLayout) (j : Fin 4) :
    romCoef l j = [l.romCoef0, l.romCoef1, l.romCoef2, l.romCoef3][j] := by
  fin_cases j <;> rfl

/-- Settles O55. -/
theorem cdfInitCopies : Obligations.CdfInitCopies := by
  intro i j s
  refine ⟨⟨_, read_copied _ _ _, exec_command i .mode s⟩,
    ⟨_, read_copied _ _ _, exec_command i .mv s⟩, ?_⟩
  rintro rom rfl
  rw [← romCoef_eq_getElem]
  exact ⟨_, read_copied _ _ _, exec_command i (.coef j) s⟩

/-! ## The twelve single commands (R274) -/

/-- The three tables of slot `k`, coefficient table `k`. -/
def tablesOf (k : Fin 4) : List Table := [.mode, .mv, .coef k]

/-- The twelve pairs of a slot and a table, in the order of R274. -/
def fills : List (Fin 4 × Table) := (List.finRange 4).flatMap fun k => (tablesOf k).map (k, ·)

/-- The single commands that copy tables into slots. -/
def commands (xs : List (Fin 4 × Table)) : List Instr := xs.map fun x => x.2.command x.1

/-- The orders of the twelve commands are the orders of the twelve copies. -/
theorem perm_twelve_iff {is : List Instr} :
    is.Perm twelve ↔ ∃ xs, is = commands xs ∧ xs.Perm fills := by
  have mapped := List.eq_map_comp_perm fun x : Fin 4 × Table => x.2.command x.1
  exact (iff_of_eq (congrFun (congrFun mapped is) fills)).symm

theorem mem_fills {x : Fin 4 × Table} : x ∈ fills ↔ x.2 ∈ tablesOf x.1 := by
  obtain ⟨k, table⟩ := x
  simp [fills]

/-- One table copied into one slot. -/
def fillOne (l : CdfLayout) (cdf : Vector CdfSlot 4) (x : Fin 4 × Table) : Vector CdfSlot 4 :=
  onSlot x.1 (x.2.fill l) cdf

theorem seedAll_eq (l : CdfLayout) (cdf : Vector CdfSlot 4) :
    seedAll l cdf = fills.foldl (fillOne l) cdf := rfl

/-- The tables of one slot go into disjoint regions, and each has an `ok` bit of its own. -/
theorem fill_comm {l : CdfLayout} (hl : Regions l) {k : Fin 4} {t u : Table} (ht : t ∈ tablesOf k)
    (hu : u ∈ tablesOf k) (c : CdfSlot) : t.fill l (u.fill l c) = u.fill l (t.fill l c) := by
  have modeMv : ∀ c, initMode l (initMv l c) = initMv l (initMode l c) := fun c => by
    simp only [initMode, initMv, writeRange_comm _ _ _ hl.modeMv]
  have modeCoef : ∀ c, initMode l (initCoef l k c) = initCoef l k (initMode l c) := fun c => by
    simp only [initMode, initCoef, writeRange_comm _ _ _ ((hl.coefLength k).symm ▸ hl.modeCoef)]
  have mvCoef : ∀ c, initMv l (initCoef l k c) = initCoef l k (initMv l c) := fun c => by
    simp only [initMv, initCoef, writeRange_comm _ _ _ ((hl.coefLength k).symm ▸ hl.mvCoef)]
  simp only [tablesOf, List.mem_cons, List.not_mem_nil, or_false] at ht hu
  rcases ht with rfl | rfl | rfl <;> rcases hu with rfl | rfl | rfl <;>
    simp only [Table.fill, modeMv, modeCoef, mvCoef]

theorem getElem_onSlot (i : Fin 4) (f : CdfSlot → CdfSlot) (cdf : Vector CdfSlot 4) {n : Nat} (hn : n < 4) :
    (onSlot i f cdf)[n] = if i.val = n then f cdf[n] else cdf[n] := by
  rw [onSlot, Vector.getElem_set]
  split
  · next h => subst h; rfl
  · rfl

theorem onSlot_comm {i j : Fin 4} {f g : CdfSlot → CdfSlot} (h : i = j → ∀ c, f (g c) = g (f c))
    (cdf : Vector CdfSlot 4) : onSlot i f (onSlot j g cdf) = onSlot j g (onSlot i f cdf) := by
  ext1 n hn
  simp only [getElem_onSlot]
  by_cases hi : i.val = n
  · by_cases hj : j.val = n
    · rw [if_pos hi, if_pos hj, if_pos hj, if_pos hi, h (Fin.ext (hi.trans hj.symm))]
    · simp only [if_neg hj]
  · simp only [if_neg hi]

theorem fillOne_comm {l : CdfLayout} (hl : Regions l) {x y : Fin 4 × Table} (hx : x ∈ fills)
    (hy : y ∈ fills) (cdf : Vector CdfSlot 4) :
    fillOne l (fillOne l cdf x) y = fillOne l (fillOne l cdf y) x :=
  onSlot_comm (fun h => fill_comm hl (mem_fills.1 hy) (h ▸ mem_fills.1 hx)) cdf

theorem advance_advance (m n : Nat) (s : State) : advance m (advance n s) = advance (m + n) s := by
  simp only [advance, BitVec.ofNat_add, BitVec.add_assoc, BitVec.add_comm (BitVec.ofNat 32 m)]

/-- Single commands one after the other copy their tables one after the other. -/
theorem execAll_commands (xs : List (Fin 4 × Table)) (s : State) :
    execAll (commands xs) s =
      .next (advance xs.length (setCdf (xs.foldl (fillOne s.params.layout) s.cdf) s)) := by
  induction xs generalizing s with
  | nil => exact congrArg _ (advance_zero s).symm
  | cons x xs ih =>
    have rest := ih (advance 1 (setCdf (fillOne s.params.layout s.cdf x) s))
    rw [commands, List.map_cons, execAll, exec_command, List.length_cons, ← advance_advance]
    exact rest

/-- The slots after `CDF_SEED_ALL`: each is filled with its three tables. -/
theorem getElem_seedAll (l : CdfLayout) (cdf : Vector CdfSlot 4) (k : Fin 4) :
    (seedAll l cdf)[k] = initCoef l k (initMv l (initMode l cdf[k])) := by
  fin_cases k <;> simp [seedAll, seedSlot, getElem_onSlot]

theorem complete_setCdf (c : Vector CdfSlot 4) (s : State) :
    complete 1 (setCdf c s) = .next { s with cp := s.cp + 1, cdf := c } := rfl

theorem exec_cdfSeedAll (s : State) :
    exec .cdfSeedAll s = .next { s with cp := s.cp + 1, cdf := seedAll s.params.layout s.cdf } :=
  complete_setCdf (seedAll s.params.layout s.cdf) s

/-- Settles O56: the single commands copy their tables one after the other, and two copies commute. -/
theorem cdfSeedAllIsTwelve : Obligations.CdfSeedAllIsTwelve := by
  constructor
  · intro l s hl _ hperm
    obtain ⟨xs, rfl, hxs⟩ := perm_twelve_iff.1 hperm
    have orderFree := hxs.foldl_eq' (fun x hx y hy =>
      fillOne_comm (regions_of_wf hl) (hxs.mem_iff.1 hx) (hxs.mem_iff.1 hy)) s.cdf
    have twelveLeave := execAll_commands xs s
    have oneLeaves := exec_cdfSeedAll s
    rw [orderFree, ← seedAll_eq] at twelveLeave
    generalize seedAll s.params.layout s.cdf = slots at twelveLeave oneLeaves
    exact ⟨advance xs.length (setCdf slots s), twelveLeave, oneLeaves⟩
  · refine fun s => ⟨seedAll s.params.layout s.cdf, exec_cdfSeedAll s, fun k => ?_⟩
    rw [getElem_seedAll]
    exact ⟨rfl, rfl, rfl, rfl⟩

end Sys2Proof.PrngCdfFamily
end

section
/-! SUPPORT. Unit DPB (46_dpb_mapper.md): what each of its procedures answers once the checks before a
point pass, and how a command ends with that answer. -/

namespace Sys2Proof.MapperFamily

open Sys2Proof.Machine Sys2Proof.Safety Sys2Proof.StateFamily

variable {d : Dpb} {slot : Byte} {cur addr : Addr}

/-! ## Checks in sequence -/

section
variable {α : Type} {check : Result Unit} {rest : Unit → Result α}

theorem bind_of_pass (h : check = .ok ()) : check.bind rest = rest () := by rw [h]; rfl

theorem bind_of_error {z : Stop} (h : check = .error z) : check.bind rest = .error z :=
  result_bind_error.2 (.inl h)

end

theorem dpbDynamic_none (h : d.mode = .none) :
    dpbDynamic d = .error (.raise .dpbOrder (dpbCtl d)) := by
  rw [dpbDynamic, h]

/-- The information of `DpbMode` is the code of the fixed mode. -/
theorem dpbDynamic_fixed (h : d.mode = .fixed) : dpbDynamic d = .error (.raise .dpbMode 1) := by
  rw [dpbDynamic, h]; rfl

theorem dpbWantOpen_ne {want : Bool} (h : d.isOpen ≠ want) :
    dpbWantOpen want d = .error (.raise .dpbOrder (dpbCtl d)) := if_neg h

theorem dpbSlotCheck_beyond (h : d.m.toNat < slot.toNat) :
    dpbSlotCheck slot d = .error (.raise .dpbSlotRange (BitVec.ofNat 32 slot.toNat)) := by
  rw [dpbSlotCheck, if_pos h, BitVec.ofNat_toNat]

/-! ## `DPB_BEGIN` (R293) -/

theorem dpbBeginProc_closed (hm : d.mode = .dynamicT2) (ho : d.isOpen = false) (hc : cur ≠ 0) :
    dpbBeginProc cur d = .ok (dpbOpenCall cur d) := by
  rw [dpbBeginProc, bind_of_pass (dpbDynamic_ok.2 hm), bind_of_pass (dpbWantOpen_ok.2 ho), if_neg hc]

theorem dpbBeginProc_open (hm : d.mode = .dynamicT2) (ho : d.isOpen = true) :
    dpbBeginProc cur d = .error (.raise .dpbOrder (dpbCtl d)) := by
  rw [dpbBeginProc, bind_of_pass (dpbDynamic_ok.2 hm), bind_of_error (dpbWantOpen_ne (by simp [ho]))]

theorem dpbBeginProc_null (hm : d.mode = .dynamicT2) (ho : d.isOpen = false) :
    dpbBeginProc 0 d = .error (.raise .dpbNullAddress 0xFFFFFFFF) := by
  rw [dpbBeginProc, bind_of_pass (dpbDynamic_ok.2 hm), bind_of_pass (dpbWantOpen_ok.2 ho), if_pos rfl]

/-- The whole table after `DPB_BEGIN`; `fillTable_read` is its first case. -/
theorem read_fillTable (n : Nat) (cur : Addr) (t : Memory Addr) (a : Nat) :
    Memory.read (fillTable n cur t) a = if a < n then some cur else Memory.read t a := by
  split
  · rename_i h; exact fillTable_read n cur t h
  · rename_i h
    rw [fillTable, Memory.read_writeRange, if_neg (by rw [List.length_replicate]; omega)]

/-! ## `DPB_REF` (R294) -/

theorem dpbRefProc_open (hm : d.mode = .dynamicT2) (ho : d.isOpen = true)
    (hs : slot.toNat ≤ d.m.toNat) (ha : addr ≠ 0) :
    dpbRefProc slot addr d = .ok { d with table := Memory.write d.table slot.toNat addr
                                          used := markUsed d.used slot.toNat } := by
  rw [dpbRefProc, bind_of_pass (dpbDynamic_ok.2 hm), bind_of_pass (dpbWantOpen_ok.2 ho),
    bind_of_pass (dpbSlotCheck_ok.2 hs), if_neg ha]

theorem dpbRefProc_closed (hm : d.mode = .dynamicT2) (ho : d.isOpen = false) :
    dpbRefProc slot addr d = .error (.raise .dpbOrder (dpbCtl d)) := by
  rw [dpbRefProc, bind_of_pass (dpbDynamic_ok.2 hm), bind_of_error (dpbWantOpen_ne (by simp [ho]))]

theorem dpbRefProc_beyond (hm : d.mode = .dynamicT2) (ho : d.isOpen = true)
    (hs : d.m.toNat < slot.toNat) :
    dpbRefProc slot addr d = .error (.raise .dpbSlotRange (BitVec.ofNat 32 slot.toNat)) := by
  rw [dpbRefProc, bind_of_pass (dpbDynamic_ok.2 hm), bind_of_pass (dpbWantOpen_ok.2 ho),
    bind_of_error (dpbSlotCheck_beyond hs)]

theorem dpbRefProc_null (hm : d.mode = .dynamicT2) (ho : d.isOpen = true)
    (hs : slot.toNat ≤ d.m.toNat) :
    dpbRefProc slot 0 d = .error (.raise .dpbNullAddress (BitVec.ofNat 32 slot.toNat)) := by
  rw [dpbRefProc, bind_of_pass (dpbDynamic_ok.2 hm), bind_of_pass (dpbWantOpen_ok.2 ho),
    bind_of_pass (dpbSlotCheck_ok.2 hs), if_pos rfl, BitVec.ofNat_toNat]

/-! ## `DPB_COMMIT` (R296) -/

theorem dpbCommitProc_open (hm : d.mode = .dynamicT2) (ho : d.isOpen = true) :
    dpbCommitProc d = .ok { d with isOpen := false, valid := true } := by
  rw [dpbCommitProc, bind_of_pass (dpbDynamic_ok.2 hm), bind_of_pass (dpbWantOpen_ok.2 ho)]

theorem dpbCommitProc_closed (hm : d.mode = .dynamicT2) (ho : d.isOpen = false) :
    dpbCommitProc d = .error (.raise .dpbOrder (dpbCtl d)) := by
  rw [dpbCommitProc, bind_of_pass (dpbDynamic_ok.2 hm), bind_of_error (dpbWantOpen_ne (by simp [ho]))]

/-! ## `DPB_LOOKUP` (R297) -/

theorem dpbLookupProc_none (hm : d.mode = .none) :
    dpbLookupProc slot d = .error (.raise .dpbOrder (dpbCtl d)) := by
  rw [dpbLookupProc, hm]

theorem dpbLookupProc_fixed (hm : d.mode = .fixed) (hs : slot.toNat ≤ d.m.toNat) :
    dpbLookupProc slot d = .ok (BitVec.ofNat 64 slot.toNat) := by
  simp only [dpbLookupProc, hm]
  rw [bind_of_pass (dpbSlotCheck_ok.2 hs), BitVec.ofNat_toNat]

theorem dpbLookupProc_uncommitted (hm : d.mode = .dynamicT2) (hv : d.valid = false) :
    dpbLookupProc slot d = .error (.raise .dpbOrder (dpbCtl d)) := by
  simp only [dpbLookupProc, hm, if_pos hv]

theorem dpbLookupProc_beyond (h : d.mode = .fixed ∨ d.mode = .dynamicT2 ∧ d.valid = true)
    (hs : d.m.toNat < slot.toNat) :
    dpbLookupProc slot d = .error (.raise .dpbSlotRange (BitVec.ofNat 32 slot.toNat)) := by
  rcases h with hm | ⟨hm, hv⟩
  · simp only [dpbLookupProc, hm]
    exact bind_of_error (dpbSlotCheck_beyond hs)
  · simp only [dpbLookupProc, hm, hv, Bool.true_eq_false, if_false]
    exact bind_of_error (dpbSlotCheck_beyond hs)

theorem dpbLookupProc_unused (hm : d.mode = .dynamicT2) (hv : d.valid = true)
    (hs : slot.toNat ≤ d.m.toNat) (hu : isUsed d.used slot.toNat = false) :
    dpbLookupProc slot d = .error (.raise .missingReference (BitVec.ofNat 32 slot.toNat)) := by
  simp only [dpbLookupProc, hm, hv, Bool.true_eq_false, if_false]
  rw [bind_of_pass (dpbSlotCheck_ok.2 hs), if_pos hu, BitVec.ofNat_toNat]

theorem dpbLookupProc_used {x : Addr} (hm : d.mode = .dynamicT2) (hv : d.valid = true)
    (hs : slot.toNat ≤ d.m.toNat) (hu : isUsed d.used slot.toNat = true)
    (hx : Memory.read d.table slot.toNat = some x) : dpbLookupProc slot d = .ok x := by
  simp only [dpbLookupProc, hm, hv, Bool.true_eq_false, if_false]
  rw [bind_of_pass (dpbSlotCheck_ok.2 hs), if_neg (by simp [hu]), hx]

/-! ## How a command ends with the answer of its procedure (40_control.md R123) -/

section
variable {α : Type} {len : Nat} {s : State} {r : Result α} {update : α → State}

theorem finish_map_of_ok {a : α} (h : r = .ok a) :
    finish len s (r.map update) = .next (advance len (update a)) := by rw [h]; rfl

theorem finish_map_of_raise {f : BswFault} {info : Word} (h : r = .error (.raise f info)) :
    finish len s (r.map update) = .next (takeFault f info s) := by rw [h]; rfl

end

end Sys2Proof.MapperFamily
end

section
/-! SUPPORT. The commands of unit DPB (46_dpb_mapper.md), and that every command keeps the invariant of the
mapper. -/

namespace Sys2Proof.MapperFamily

open Sys2Proof.Machine Sys2Proof.Safety Sys2Proof.StateFamily

/-! ## The invariant of the mapper (R298) -/

theorem effect_dpbInv {s u : State} {r : Result State} (h : Effect s r) (hr : r = .ok u)
    (hp : s.params.dpbSlots ≤ 32) (hd : DpbInv s.params s.dpb) : DpbInv s.params u.dpb := by
  cases h with
  | mapper hkeeps =>
    obtain ⟨d, hd', rfl⟩ := result_map_ok.1 hr
    exact (safe_iff.1 (hkeeps hp hd)).1 d hd'
  | refuse => cases hr
  | encode | lookup =>
    obtain ⟨_, -, rfl⟩ := result_map_ok.1 hr
    exact hd
  | endRun | store | seed | random | slots => cases hr; exact hd

/-- Settles O23: a command that completes has an effect that keeps the mapper, and fault entry leaves it. -/
theorem mapperInvariantKept : Obligations.MapperInvariantKept := by
  intro i s t hp hd h
  rcases exec_next h with ⟨u, rfl, he⟩ | ⟨f, info, rfl⟩
  · exact effect_dpbInv (u := u) he rfl hp hd
  · exact hd

/-! ## Sessions (R291, R292) -/

theorem dpbModeOf_eq (p : Params) (c : Codec) : dpbModeOf p c =
    if c = .av1 ∨ p.dynT2MinGen ≤ p.hwGen.toNat then .dynamicT2 else .fixed := by
  unfold dpbModeOf
  by_cases hc : c = .av1 <;> simp [hc]

theorem exec_dpbSession {codec maxRefs : Byte} {c : Codec} {s : State} (hc : codecField codec = some c)
    (hr : maxRefs.toNat < s.params.dpbSlots) : exec (.dpbSession codec maxRefs) s =
      .next (advance 1 (setDpb (dpbNewSession s.params c maxRefs.toNat) s)) := by
  show execDpbSession codec maxRefs s = _
  rw [execDpbSession, hc]
  exact if_neg (Nat.not_le_of_lt hr)

/-- Settles O57. -/
theorem dpbSessionStarts : Obligations.DpbSessionStarts := by
  intro codec c maxRefs s hmem hr
  have known : codecField codec = some c := by
    simp only [List.mem_cons, Prod.mk.injEq, List.not_mem_nil, or_false] at hmem
    rcases hmem with ⟨rfl, rfl⟩ | ⟨rfl, rfl⟩ | ⟨rfl, rfl⟩ <;> rfl
  rw [exec_dpbSession known hr, dpbNewSession, dpbModeOf_eq]
  rfl

/-! ## Decode calls and lookups (R293, R294, R296, R297) -/

/-- Settles O58. -/
theorem dpbCall : Obligations.DpbCall := by
  intro s hm
  refine ⟨fun cur ho hc => ?begin, fun slot addr ho hs ha => ?ref, fun ho => ?commit⟩
  case begin =>
    refine ⟨fillTable (s.dpb.m.toNat + 1) cur s.dpb.table, fun a => ?_,
      finish_map_of_ok (dpbBeginProc_closed hm ho hc)⟩
    simp only [read_fillTable, Nat.lt_succ_iff]
  case ref =>
    refine ⟨_, _, fun a => Memory.read_write _ _ a _, fun k hk => ?_,
      finish_map_of_ok (dpbRefProc_open hm ho hs ha)⟩
    rw [isUsed_markUsed _ hk, Bool.or_comm, beq_eq_decide]
  case commit => exact finish_map_of_ok (dpbCommitProc_open hm ho)

/-- Settles O59. -/
theorem dpbLookupAnswers : Obligations.DpbLookupAnswers := fun _ _ hs =>
  ⟨fun hm => finish_map_of_ok (dpbLookupProc_fixed hm hs),
    fun _ hm hv hu hx => finish_map_of_ok (dpbLookupProc_used hm hv hs hu hx)⟩

/-! ## Faults -/

/-- Settles O60: a check that fails ends the procedure with its fault. -/
theorem dpbFaults : Obligations.DpbFaults := by
  intro s slot x
  refine ⟨fun hm => ?noSession, fun hm => ?fixedSession,
    fun hm ho => finish_map_of_raise (dpbBeginProc_open hm ho),
    fun hm ho => ⟨finish_map_of_raise (dpbBeginProc_null hm ho),
      finish_map_of_raise (dpbRefProc_closed hm ho), finish_map_of_raise (dpbCommitProc_closed hm ho)⟩,
    fun hm ho hs => finish_map_of_raise (dpbRefProc_beyond hm ho hs),
    fun hm ho hs => finish_map_of_raise (dpbRefProc_null hm ho hs),
    fun hm hv => finish_map_of_raise (dpbLookupProc_uncommitted hm hv),
    fun h hs => finish_map_of_raise (dpbLookupProc_beyond h hs),
    fun hm hv hs hu => finish_map_of_raise (dpbLookupProc_unused hm hv hs hu)⟩
  case noSession =>
    have noSession := dpbDynamic_none hm
    simp only [List.forall_mem_cons]
    exact ⟨finish_map_of_raise (bind_of_error noSession), finish_map_of_raise (bind_of_error noSession),
      finish_map_of_raise (bind_of_error noSession), finish_map_of_raise (dpbLookupProc_none hm), nofun⟩
  case fixedSession =>
    have fixedSession := dpbDynamic_fixed hm
    simp only [List.forall_mem_cons]
    exact ⟨finish_map_of_raise (bind_of_error fixedSession),
      finish_map_of_raise (bind_of_error fixedSession),
      finish_map_of_raise (bind_of_error fixedSession), nofun⟩

end Sys2Proof.MapperFamily
end

section
/-! SUPPORT. How commands end, and that `FAULTED` stays (spec/40_control.md R123, R125; 60_exceptions.md R323,
R324): a command that completes keeps `run`, unless it is `END`. -/

namespace Sys2Proof.ExceptionFamily

open Sys2Proof.Machine Sys2Proof.Safety Sys2Proof.StateFamily Sys2Proof.ControlFamily

variable {s t u : State} {i : Instr} {len : Nat} {o o' : Host.Outcome State Fault Refusal}

/-! ## `FAULTED` (R324) -/

/-- Settles O18. -/
theorem faultedStays : Obligations.FaultedStays := by
  intro s hs
  have held : ¬(s.run = .idle ∨ s.run = .done) := not_idle_or_done (.inr hs)
  refine ⟨step_stopped (by simp [hs]), fun op t hmove => ?_, hwReset s, rfl, rfl, rfl⟩
  cases op with
  | hwReset => rfl
  | load cmd cap => exact absurd (hostLoad_eq_some.1 hmove).1 held
  | start => exact absurd (hostStart_eq_some.1 hmove).1 held

/-! ## Completion (R123, R125) -/

/-- The outcome is the end of a procedure that, if it completes, leaves `run` as it was. -/
def KeepsRun (s : State) (o : Host.Outcome State Fault Refusal) : Prop :=
  ∃ len r, o = finish len s r ∧ ∀ u, r = .ok u → u.run = s.run

theorem keepsRun_complete (h : u.run = s.run) : KeepsRun s (complete len u) :=
  ⟨len, .ok u, rfl, fun _ hu => Except.ok.inj hu ▸ h⟩

theorem keepsRun_raise (f : BswFault) (info : Word) : KeepsRun s (raise f info s) :=
  ⟨0, .error (.raise f info), rfl, fun _ h => by cases h⟩

/-- A procedure of one unit, whose value `f` puts into the state. -/
theorem keepsRun_map {α : Type} {r : Result α} {f : α → State} (hf : ∀ a, (f a).run = s.run) :
    KeepsRun s (finish len s (r.map f)) := by
  refine ⟨len, r.map f, rfl, fun u hu => ?_⟩
  obtain ⟨a, -, rfl⟩ := result_map_ok.1 hu
  exact hf a

theorem keepsRun_ite {c : Prop} [Decidable c] (h : KeepsRun s o) (h' : KeepsRun s o') :
    KeepsRun s (if c then o else o') := by
  split <;> assumption

/-- Every command but `END` keeps `run` when it completes. -/
theorem exec_keepsRun (hi : i ≠ .endRun) (s : State) : KeepsRun s (exec i s) := by
  cases i with
  | endRun => exact absurd rfl hi
  | bwReset | heClrp | cdfSeedAll => exact keepsRun_complete rfl
  | bwUe | bwSe | bwAlign | bwFlush | heCopy | heEnd | heH264Slice | heH265Slice | dpbBegin | dpbRef
  | dpbCommit | dpbLookup => exact keepsRun_map fun _ => rfl
  | bwSetep | heSetp => exact keepsRun_ite (keepsRun_raise _ _) (keepsRun_complete rfl)
  | bwPut => exact keepsRun_ite (keepsRun_raise _ _) (keepsRun_map fun _ => rfl)
  | fgRand =>
    exact keepsRun_ite (keepsRun_raise _ _) (keepsRun_ite (keepsRun_complete rfl) (keepsRun_raise _ _))
  | heMark =>
    simp only [exec, execHeMark]
    split
    · exact keepsRun_raise _ _
    · exact keepsRun_map fun _ => rfl
  | fgSeed | cdfInitMode | cdfInitMv =>
    simp only [exec, execFgSeed, execCdfInitMode, execCdfInitMv]
    split
    · exact keepsRun_raise _ _
    · exact keepsRun_complete rfl
  | cdfInitCoef =>
    simp only [exec, execCdfInitCoef]
    split
    · exact keepsRun_complete rfl
    · exact keepsRun_raise _ _
  | dpbSession =>
    simp only [exec, execDpbSession]
    split
    · exact keepsRun_raise _ _
    · exact keepsRun_ite (keepsRun_raise _ _) (keepsRun_complete rfl)

/-- A command that answers a next state has entered a fault, or has set `run` to what R123 and R125 say. -/
theorem exec_run (h : exec i s = .next t) :
    t.run = .faulted ∨ t.run = if i = .endRun then .done else s.run := by
  by_cases hi : i = .endRun
  · subst hi
    cases h
    exact .inr rfl
  · rw [if_neg hi]
    obtain ⟨len, r, hr, hrun⟩ := exec_keepsRun hi s
    rcases finish_next (hr.symm.trans h) with ⟨u, hu, rfl⟩ | ⟨f, info, -, rfl⟩
    · exact .inr (hrun u hu)
    · exact .inl rfl

/-- Settles O8. -/
theorem commandEnds : Obligations.CommandEnds := by
  intro i s t hs h
  rcases exec_next h with ⟨u, rfl, effect⟩ | ⟨f, info, rfl⟩
  · have same := effect.sameRun rfl
    have running : (advance (instrLength i) u).run ≠ .faulted := by
      rcases same.run with hu | hu <;> simp [hu, hs]
    have run := (exec_run h).resolve_left running
    rw [hs] at run
    exact .inl ⟨congrArg (· + _) same.cp, run, same.code, same.faultCp, same.info⟩
  · exact .inr ⟨f, info, rfl⟩

end Sys2Proof.ExceptionFamily
end

section
/-! SUPPORT. A template that has no room (spec/41_bitwriter.md R133, 42_header_template.md R172): the first range
whose bytes do not fit raises `OutOverflow`, and the first entry beyond the list raises `IlOverflow`. -/

namespace Sys2Proof.ExceptionFamily

open Sys2Proof.Machine Sys2Proof.Safety Sys2Proof.StateFamily Sys2Proof.BitWriterFamily Sys2Proof.TemplateFamily

variable {cap ilMax w : Nat} {e₀ e e' : Encoder} {m : Memory Word} {xs bs : List Bool} {a b : Script} {x : Item}
  {z : Stop} {done : List Script} {entries : List IlEntry} {rs : List Range} {last : Script} {s : State}

/-! ## Sequences that raise -/

theorem runScript_append_error (h : runScript cap ilMax a e = .error z) (b : Script) :
    runScript cap ilMax (a ++ b) e = .error z := by
  rw [runScript_append, h]; rfl

/-- The calls before one run, and that one raises. -/
theorem runScript_raise (ha : runScript cap ilMax a e = .ok e') (hx : runItem cap ilMax x e' = .error z)
    (b : Script) : runScript cap ilMax (a ++ x :: b) e = .error z := by
  rw [runScript_append, ha]
  show (runItem cap ilMax x e').bind _ = _
  rw [hx]; rfl

/-! ## OUT is too small -/

/-- `OutOverflow` at the end of OUT (R133). -/
def outFull (cap : Nat) : Stop := .raise .outOverflow (BitVec.ofNat 32 cap)

theorem outputByte_outFull (h : e.outWi.toNat = cap) (b : Byte) : outputByte cap b e = .error (outFull cap) := by
  rw [outputByte, if_pos h.ge, outFull, ← h, BitVec.ofNat_toNat]

/-- Whole bytes that find no room: the one behind the last lane of OUT raises. -/
theorem storeAll_outFull (h : Placed m w xs e) (hcap : cap ≤ outCapLimit) (hbs : bs.length % 8 = 0)
    (hstart : pos e ≤ 4 * cap) (hroom : 4 * cap < pos e + bs.length / 8) :
    storeAll cap (bytesOf bs) e = .error (outFull cap) := by
  induction bs using byteInduction generalizing xs e with
  | short bs hlt => omega
  | long bs hle ih =>
    rw [bytesOf_long hle, storeAll]
    by_cases hlane : e.outWi.toNat < cap
    · have byte : (bs.take 8).length = 8 := by simp [hle]
      obtain ⟨e₁, h₁, -, placed⟩ := h.byte byte hcap hlane
      have whole := h.whole
      have position := h.position
      have next := placed.position
      have lane := outWi_lt_iff.1 hlane
      rw [List.length_append, byte] at next
      rw [h₁]
      exact ih placed (by rw [List.length_drop]; omega) (by omega) (by rw [List.length_drop]; omega)
    · have full : e.outWi.toNat = cap := by unfold pos at hstart; omega
      rw [outputByte_outFull full]; rfl

/-- A range whose bytes do not fit: its calls or the flush of its `COPY` raise. -/
theorem range_outFull (h : Rested e) (hb : b.all codes = true) (hcap : cap ≤ outCapLimit)
    (hstart : e.outWi.toNat ≤ cap) (hroom : cap < e.outWi.toNat + rangeWords b) :
    (runScript cap ilMax b e).bind (flush cap) = .error (outFull cap) := by
  have start : Placed e.out e.outWi.toNat [] e :=
    ⟨⟨fun j hj => absurd hj (Nat.not_lt_zero j), fun _ _ => rfl⟩, rfl, h.position⟩
  have position := h.position
  have length : (scriptBits b ++ padding (scriptBits b).length).length =
      8 * (((scriptBits b).length + 7) / 8) := by simp [padding]; omega
  unfold rangeWords at hroom
  rw [runScript_puts (all_puts hb) e h.isPartial, h.heldBits, List.nil_append, feed_flush h,
    storeAll_outFull start hcap (by omega) (by omega) (by omega)]
  rfl

/-- Calls that put bits leave the list open or closed as it was. -/
theorem runScript_tmplDone (h : Rested e) (hb : b.all codes = true) (hx : runScript cap ilMax b e = .ok e') :
    e'.tmplDone = e.tmplDone := by
  rw [runScript_puts (all_puts hb) e h.isPartial] at hx
  obtain ⟨e₁, h₁, rfl⟩ := result_map_ok.1 hx
  rw [drainAll_plain h.ep] at h₁
  exact congrArg (·.tmplDone) (storeAll_frame h₁)

/-- One range too many for OUT. -/
theorem copy_outFull (h : Building e₀ e done entries false) (hb : b.all codes = true) (hcap : cap ≤ outCapLimit)
    (hstart : templateWords done ≤ cap) (hroom : cap < templateWords (done ++ [b])) :
    runScript cap ilMax (b ++ [.copy]) e = .error (outFull cap) := by
  rw [templateWords_append, ← h.word] at hroom
  have overflow := range_outFull (ilMax := ilMax) h.rested hb hcap (h.word ▸ hstart) hroom
  rcases result_bind_error.1 overflow with hputs | ⟨x, hx, hflush⟩
  · exact runScript_append_error hputs _
  · have isOpen := (runScript_tmplDone h.rested hb hx).trans h.closed
    exact runScript_raise (x := .copy) hx (heCopyProc_flush_error isOpen hflush) []

/-- The remaining ranges of a template do not fit into OUT. -/
theorem template_outFull (h : Building e₀ e done entries false) (hcap : cap ≤ outCapLimit)
    (hmax : ilMax ≤ 255) (hcodes : ∀ b ∈ bodies rs last, b.all codes = true) (hstart : templateWords done ≤ cap)
    (hroom : cap < templateWords (done ++ bodies rs last))
    (hil : entries.length + (templateEntries rs last).length ≤ ilMax) :
    runScript cap ilMax (templateCalls rs last) e = .error (outFull cap) := by
  induction rs generalizing e done entries with
  | nil =>
    have hlast := hcodes last (List.mem_singleton_self last)
    exact runScript_append_error (copy_outFull h hlast hcap hstart hroom) _
  | cons r rs ih =>
    obtain ⟨hbody, hrest⟩ := (List.forall_mem_cons (l := bodies rs last)).1 hcodes
    rw [templateEntries, List.length_cons, List.length_cons] at hil
    by_cases hfits : templateWords (done ++ [r.body]) ≤ cap
    · have split : done ++ bodies (r :: rs) last = (done ++ [r.body]) ++ bodies rs last := by simp [bodies]
      obtain ⟨e₁, h₁, copied⟩ := h.copy hbody hcap hfits hmax (by omega)
      have marked := copied.mark (cap := cap) (ilMax := ilMax) (by simp; omega) r.mark
      rw [templateCalls, runScript_append, h₁]
      show (runItem cap ilMax (.mark r.mark) e₁).bind _ = _
      rw [marked]
      exact ih (copied.entry (by simp; omega) ⟨r.mark, 0⟩) hrest hfits (split ▸ hroom) (by simp; omega)
    · exact runScript_append_error (copy_outFull h hbody hcap hstart (Nat.lt_of_not_le hfits)) _

/-! ## IL is too small -/

/-- `IlOverflow` at the end of the list (R172). -/
def ilFull (ilMax : Nat) : Stop := .raise .ilOverflow (BitVec.ofNat 32 ilMax)

theorem building_ilFull (h : Building e₀ e done entries false) (hfull : entries.length = ilMax) :
    ilMax ≤ e.ilCount.toNat ∧ Stop.raise .ilOverflow (e.ilCount.setWidth 32) = ilFull ilMax := by
  rw [ilFull, ← hfull, ← h.count, BitVec.ofNat_toNat]
  exact ⟨le_rfl, rfl⟩

theorem marker_ilFull (h : Building e₀ e done entries false) (hfull : entries.length = ilMax) (kind : IlKind)
    (f : Encoder → Encoder) : markerProc ilMax kind f e = .error (ilFull ilMax) := by
  obtain ⟨full, info⟩ := building_ilFull h hfull
  rw [markerProc_full h.closed h.rested.nbits h.copied.symm full, info]

/-- A range that fits into OUT, and whose `COPY` finds no entry. -/
theorem copy_ilFull (h : Building e₀ e done entries false) (hb : b.all codes = true) (hcap : cap ≤ outCapLimit)
    (hroom : templateWords (done ++ [b]) ≤ cap) (hfull : entries.length = ilMax) :
    runScript cap ilMax (b ++ [.copy]) e = .error (ilFull ilMax) := by
  rw [templateWords_append, ← h.word] at hroom
  obtain ⟨full, info⟩ := building_ilFull h hfull
  obtain ⟨e₁, h₁, -, -, -, frame⟩ := range_flush (ilMax := ilMax) h.rested hb hcap hroom
  obtain ⟨x, hx, hflush⟩ := result_bind_ok.1 h₁
  have isOpen : e₁.tmplDone = false := (congrArg (·.tmplDone) frame).trans h.closed
  have count : e₁.ilCount = e.ilCount := congrArg (·.ilCount) frame
  refine runScript_raise hx ?_ []
  show heCopyProc cap ilMax x = _
  rw [heCopyProc_flushed ((flush_tmplDone hflush).symm.trans isOpen) hflush,
    ilAppend_full isOpen (count ▸ full), count, info]
  rfl

/-- The remaining entries of a template do not fit into IL. -/
theorem template_ilFull (h : Building e₀ e done entries false) (hcap : cap ≤ outCapLimit)
    (hmax : ilMax ≤ 255) (hcodes : ∀ b ∈ bodies rs last, b.all codes = true)
    (hroom : templateWords (done ++ bodies rs last) ≤ cap)
    (hstart : entries.length ≤ ilMax) (hil : ilMax < entries.length + (templateEntries rs last).length) :
    runScript cap ilMax (templateCalls rs last) e = .error (ilFull ilMax) := by
  induction rs generalizing e done entries with
  | nil =>
    have hlast := hcodes last (List.mem_singleton_self last)
    rw [templateCalls]
    by_cases hcopy : entries.length = ilMax
    · exact runScript_append_error (copy_ilFull h hlast hcap hroom hcopy) _
    · obtain ⟨e₁, h₁, copied⟩ := h.copy hlast hcap hroom hmax (by omega)
      simp only [templateEntries, List.length_cons, List.length_nil] at hil
      exact runScript_raise (ilMax := ilMax) (x := .close) h₁
        (marker_ilFull copied (by simp; omega) .endList closeList) []
  | cons r rs ih =>
    have split : done ++ bodies (r :: rs) last = (done ++ [r.body]) ++ bodies rs last := by simp [bodies]
    rw [split] at hroom
    obtain ⟨hbody, hrest⟩ := (List.forall_mem_cons (l := bodies rs last)).1 hcodes
    have hfits := (templateWords_append_le _ _).trans hroom
    rw [templateEntries, List.length_cons, List.length_cons] at hil
    rw [templateCalls]
    by_cases hcopy : entries.length = ilMax
    · exact runScript_append_error (copy_ilFull h hbody hcap hfits hcopy) _
    · obtain ⟨e₁, h₁, copied⟩ := h.copy hbody hcap hfits hmax (by omega)
      by_cases hmark : entries.length + 1 = ilMax
      · refine runScript_raise h₁ ?_ _
        show heMarkProc ilMax r.mark e₁ = _
        rw [heMarkProc_eq]
        exact marker_ilFull copied (by simp; omega) r.mark id
      · have marked := copied.mark (cap := cap) (ilMax := ilMax) (by simp; omega) r.mark
        rw [runScript_append, h₁]
        show (runItem cap ilMax (.mark r.mark) e₁).bind _ = _
        rw [marked]
        exact ih (copied.entry (by simp; omega) ⟨r.mark, 0⟩) hrest hroom (by simp; omega) (by simp; omega)

end Sys2Proof.ExceptionFamily
end

section
/-! SUPPORT. A header sequence whose checks pass, and which raises in its second range (spec/43_header_h264.md R193,
44_header_h265.md R223): the NAL unit header and its marker are there, and some bits behind them. -/

namespace Sys2Proof.ExceptionFamily

open Sys2Proof.Machine Sys2Proof.Safety Sys2Proof.StateFamily Sys2Proof.BitWriterFamily Sys2Proof.TemplateFamily
open Sys2Proof.SequencerFamily (sequencerRefusals)

variable {cap ilMax : Nat} {e : Encoder} {a b puts rest : Script} {z : Stop} {sp : Memory SpCell} {s : State}
  {f : BswFault} {info : Word} {code : Byte}

/-! ## A raise behind a range -/

/-- A range with its marker and the calls behind it have room, and then the sequence raises. -/
theorem runScript_stop (hb : b.all codes = true) (hputs : puts.all codes = true) (hcap : cap ≤ outCapLimit)
    (hroom : rangeWords b + rangeWords puts ≤ cap) (hil : 2 ≤ ilMax) (hmax : ilMax ≤ 255) (kind : IlKind)
    (rest : Script) (e : Encoder) : runScript cap ilMax
      (.reset :: ((b ++ [.copy]) ++ .mark kind :: (puts ++ .stop z :: rest))) e = .error z := by
  have first : templateWords ([] ++ [b]) = rangeWords b := by
    rw [templateWords_append]; exact Nat.zero_add _
  obtain ⟨e₁, h₁, copied⟩ := (building_reset e).copy (cap := cap) (ilMax := ilMax) hb hcap
    (by omega) hmax (Nat.zero_lt_of_lt hil)
  have marked := copied.mark (cap := cap) (ilMax := ilMax) hil kind
  have built := copied.entry (by simp) ⟨kind, 0⟩
  have word : (withEntry ⟨kind, 0⟩ e₁).outWi.toNat = rangeWords b := built.word.trans first
  obtain ⟨e₂, h₂, -⟩ := range_flush (ilMax := ilMax) built.rested hputs hcap (by rw [word]; exact hroom)
  obtain ⟨x, hx, -⟩ := result_bind_ok.1 h₂
  show runScript cap ilMax _ (bwResetProc e) = _
  rw [runScript_append, h₁]
  show (runItem cap ilMax (.mark kind) e₁).bind _ = _
  rw [marked]
  exact runScript_raise (x := .stop z) hx rfl rest

/-! ## Behind the opening checks -/

/-- The calls of R193 (2) to (5). -/
def calls264 (sp : Memory SpCell) (c : H264Steer) : Script :=
  h264Nal c ++ h264Fields sp c ++ [.copy, .mark .sliceQpDelta] ++ h264Deblock sp ++ [.copy, .close]

/-- The calls of R223 (2) to (10). -/
def calls265 (sp : Memory SpCell) (c : H265Steer) : Script :=
  h265Nal c ++ h265Address sp c ++ h265Poc sp c fun tmvp => h265Rest sp c tmvp

theorem h264Script_eq_checks (sp : Memory SpCell) : h264Script sp = h264Checks sp (calls264 sp) := rfl

theorem h265Script_eq_checks (sp : Memory SpCell) : h265Script sp = h265Checks sp (calls265 sp) := rfl

/-- The arguments of the run leave room for two list entries (R8). -/
structure EntryRoom (s : State) : Prop where
  cap : s.outCapWords ≤ outCapLimit
  entries : 2 ≤ s.params.ilMax
  ilMax : s.params.ilMax ≤ 255

/-- The fields put some bits and then raise. -/
theorem exec_h264_stop {c : H264Steer} (hscript : h264Script s.sp = calls264 s.sp c)
    (hfields : h264Fields s.sp c = puts ++ .stop (.raise f info) :: rest) (hputs : puts.all codes = true)
    (hout : rangeWords puts < s.outCapWords) (room : EntryRoom s) :
    exec .heH264Slice s = .next (takeFault f info s) := by
  have nal : rangeWords [.bits 0 1, .bits c.nri 2, .bits c.nut 5] = 1 := by
    simp [rangeWords, scriptBits, itemBits]
  refine onEncoder_of_raise (f := runScript s.outCapWords s.params.ilMax (h264Script s.sp)) ?_
  rw [hscript, calls264, hfields]
  simp only [h264Nal, List.append_assoc, List.cons_append, List.nil_append]
  exact runScript_stop (b := [.bits 0 1, .bits c.nri 2, .bits c.nut 5]) rfl hputs room.cap
    (by rw [nal]; omega) room.entries room.ilMax .firstMb _ s.enc

/-- The address raises before it puts a bit. -/
theorem exec_h265_stop {c : H265Steer} (hscript : h265Script s.sp = calls265 s.sp c)
    (haddress : h265Address s.sp c = .stop (.raise f info) :: rest) (hout : 1 ≤ s.outCapWords)
    (room : EntryRoom s) : exec .heH265Slice s = .next (takeFault f info s) := by
  have nal : rangeWords [.bits 0 1, .bits c.nut 6, .bits c.lid 6, .bits c.tid 3] = 1 := by
    simp [rangeWords, scriptBits, itemBits]
  refine onEncoder_of_raise (f := runScript s.outCapWords s.params.ilMax (h265Script s.sp)) ?_
  rw [hscript, calls265, haddress]
  simp only [h265Nal, List.cons_append, List.nil_append]
  exact runScript_stop (b := [.bits 0 1, .bits c.nut 6, .bits c.lid 6, .bits c.tid 3]) (puts := []) rfl rfl
    room.cap (by rw [nal]; exact hout) room.entries room.ilMax .firstSlice _ s.enc

/-! ## The checks pass (R193 (1), R223 (1)) -/

/-- The sequence is a single raise or has `P`. -/
def Opens (P : Script → Prop) (a : Script) : Prop := (∃ z, a = [.stop z]) ∨ P a

variable {P : Script → Prop} {r : Result Word} {k : Word → Script}

theorem opens_need (h : ∀ x, r = .ok x → Opens P (k x)) : Opens P (need r k) := by
  cases r with
  | error z => exact .inl ⟨z, rfl⟩
  | ok x => exact h x rfl

theorem opens_unless {c : Prop} [Decidable c] (h : Opens P a) : Opens P (if c then [.stop z] else a) := by
  split
  · exact .inl ⟨z, rfl⟩
  · exact h

theorem opens_h264Weighted {c : H264Steer} (h : P a) : Opens P (h264Weighted sp c a) := by
  unfold h264Weighted
  split
  · exact opens_need fun _ _ => .inr h
  · split
    · exact opens_need fun _ _ => opens_unless (.inr h)
    · exact .inr h

theorem opens_h264Checks {k : H264Steer → Script} (h : ∀ c, c.st.toNat ≤ 9 → P (k c)) :
    Opens P (h264Checks sp k) :=
  opens_need fun _ _ => opens_need fun _ _ => opens_need fun _ _ => opens_need fun _ _ => opens_unless <|
    opens_need fun _ _ => opens_unless <| opens_need fun _ hst => opens_unless <| opens_unless <|
      opens_h264Weighted (h _ (ranged_ok hst).2.2)

theorem opens_h265Weighted {st : Word} (h : P a) : Opens P (h265Weighted sp st a) := by
  unfold h265Weighted
  split
  · exact opens_need fun _ _ => .inr h
  · split
    · exact opens_need fun _ _ => .inr h
    · exact .inr h

theorem opens_h265Checks {k : H265Steer → Script} (h : ∀ c, holds sp 0x100 c.nut → P (k c)) :
    Opens P (h265Checks sp k) := by
  unfold h265Checks
  iterate 8 refine opens_need fun _ _ => ?_
  refine opens_need fun nut hnut => opens_unless ?_
  iterate 3 refine opens_need fun _ _ => ?_
  exact opens_unless (opens_h265Weighted (h _ (param_ok.1 hnut)))

theorem Opens.begun (h : Opens P (.reset :: a)) : P (.reset :: a) :=
  h.resolve_left fun ⟨_, hz⟩ => by cases hz

/-- Where no check refuses, the calls follow, with a slice type in its range. -/
theorem h264Script_passed (h : firstRefusal sp (checks264 sp) = none) :
    ∃ c : H264Steer, c.st.toNat ≤ 9 ∧ h264Script sp = calls264 sp c := by
  obtain ⟨rest, begun⟩ := (sequencerRefusals.2 sp).1 h
  have opens : Opens (fun a => ∃ c : H264Steer, c.st.toNat ≤ 9 ∧ a = calls264 sp c) (h264Script sp) :=
    opens_h264Checks fun c hst => ⟨c, hst, rfl⟩
  rw [begun] at opens ⊢
  exact opens.begun

/-- Where no check refuses, the calls follow, with the NAL unit type that SP holds. -/
theorem h265Script_passed (h : firstRefusal sp (checks265 sp) = none) :
    ∃ c : H265Steer, holds sp 0x100 c.nut ∧ h265Script sp = calls265 sp c := by
  obtain ⟨rest, begun⟩ := (sequencerRefusals.2 sp).2 h
  have opens : Opens (fun a => ∃ c : H265Steer, holds sp 0x100 c.nut ∧ a = calls265 sp c) (h265Script sp) :=
    opens_h265Checks fun c hnut => ⟨c, hnut, rfl⟩
  rw [begun] at opens ⊢
  exact opens.begun

/-! ## The PPS identifier (R193 (3), R223 (3)) -/

/-- The read of `SP[i]` raises the fault with this code and the index as its information. -/
def RaisesAt (r : Result Word) (code : Byte) (i : Nat) : Prop :=
  ∃ f, faultCodeOf f = code ∧ r = .error (.raise f (BitVec.ofNat 32 i))

theorem ranged_raises_unwritten {i : Nat} (h : unwritten sp i) (lo hi : Nat) :
    RaisesAt (ranged sp i lo hi) 0x24 i :=
  ⟨.spUnwritten, rfl, (checked_ranged sp i lo hi).unwritten h⟩

theorem ranged_raises_above {i hi : Nat} {v : Word} (hv : holds sp i v) (h : hi < v.toNat) (lo : Nat) :
    RaisesAt (ranged sp i lo hi) 0x25 i :=
  (checked_ranged sp i lo hi).refused v 0x25 hv (if_neg (by omega))

theorem holds_unique {i : Nat} {v w : Word} (hv : holds sp i v) (hw : holds sp i w) : v = w := by
  have same := Option.some.inj (hv.symm.trans hw)
  exact congrArg SpCell.word same

theorem exec_h264_pps (hpassed : firstRefusal s.sp (checks264 s.sp) = none) (hout : 2 ≤ s.outCapWords)
    (room : EntryRoom s) (hpps : RaisesAt (ranged s.sp 0x03 0 255) code 0x03) :
    exec .heH264Slice s = .next (recorded code 0x03 s) := by
  obtain ⟨c, hst, hscript⟩ := h264Script_passed hpassed
  obtain ⟨f, rfl, hraise⟩ := hpps
  have fields : ∃ rest, h264Fields s.sp c = [.ue c.st] ++ .stop (.raise f (BitVec.ofNat 32 0x03)) :: rest := by
    rw [h264Fields, hraise]
    exact ⟨_, rfl⟩
  obtain ⟨rest, fields⟩ := fields
  have short : (ueBits c.st.toNat).length < 2 * 4 := H264Family.length_ueBits_lt (by omega)
  have words : rangeWords [.ue c.st] ≤ 1 := by
    simp only [rangeWords, scriptBits, List.flatMap_singleton, itemBits]
    omega
  exact exec_h264_stop hscript fields (by simp [codes]; omega) (by omega) room

theorem exec_h265_pps {v : Word} (hpassed : firstRefusal s.sp (checks265 s.sp) = none)
    (hnut : holds s.sp 0x100 v) (hv : v.toNat ≤ 9) (hout : 1 ≤ s.outCapWords) (room : EntryRoom s)
    (hpps : RaisesAt (ranged s.sp 0x104 0 63) code 0x104) :
    exec .heH265Slice s = .next (recorded code 0x104 s) := by
  obtain ⟨c, hc, hscript⟩ := h265Script_passed hpassed
  obtain rfl := holds_unique hc hnut
  obtain ⟨f, rfl, hraise⟩ := hpps
  have noFlag : h265Irap c.nut = false := by simp [h265Irap]; omega
  have address : h265Address s.sp c =
      .stop (.raise f (BitVec.ofNat 32 0x104)) :: [.copy, .mark .sliceSegment] := by
    simp [h265Address, noFlag, hraise, emitUe]
  exact exec_h265_stop hscript address hout room

end Sys2Proof.ExceptionFamily
end

section
/-! SUPPORT. The two loops of the H.264 sequence without their end code (spec/43_header_h264.md R197, R198): the
calls for the entries, and then the raise. -/

namespace Sys2Proof.ExceptionFamily

open Sys2Proof.Machine Sys2Proof.Safety Sys2Proof.StateFamily Sys2Proof.BitWriterFamily Sys2Proof.TemplateFamily
open Sys2Proof.H264Family (length_ueBits_lt emits_h264MmcoOperands)

variable {sp : Memory SpCell}

/-! ## Lengths of calls -/

theorem length_scriptBits_append (a b : Script) :
    (scriptBits (a ++ b)).length = (scriptBits a).length + (scriptBits b).length := by
  simp [scriptBits]

/-- Calls made for each element of a list. -/
theorem length_scriptBits_flatMap_le {α : Type} {f : α → Script} {n : Nat} {l : List α}
    (h : ∀ x ∈ l, (scriptBits (f x)).length ≤ n) : (scriptBits (l.flatMap f)).length ≤ n * l.length := by
  induction l with
  | nil => exact Nat.zero_le _
  | cons x l ih =>
    obtain ⟨hx, hl⟩ := List.forall_mem_cons.1 h
    rw [List.flatMap_cons, length_scriptBits_append, List.length_cons, Nat.mul_succ]
    have := ih hl
    omega

/-- The longest code has 63 bits (R139). -/
theorem length_ueBits_le {v : Word} (h : v ≠ 0xFFFFFFFF) : (ueBits v.toNat).length ≤ 63 := by
  have := toNat_ne_of_ne h
  have := v.isLt
  exact Nat.le_of_lt_succ (length_ueBits_lt (k := 32) (by omega))

/-! ## A modification list without its terminator (R197) -/

/-- The calls for one entry of a modification list. -/
def rplmPuts (x : Word × Word) : Script := [.ue x.1, .ue x.2]

/-- Where every entry that is left stands in SP and none is the terminator, the loop raises behind them. -/
theorem h264RplmFrom_endless {l : List (Word × Word)} {base i : Nat} (hidc : ∀ x ∈ l, x.1.toNat ≤ 2)
    (hreads : ∀ (k : Nat) (x : Word × Word), l[k]? = some x →
      holds sp (base + 2 * (i + k)) x.1 ∧ holds sp (base + 2 * (i + k) + 1) x.2) :
    h264RplmFrom sp base l.length i =
      l.flatMap rplmPuts ++ [.stop (.raise .heListUnterminated (BitVec.ofNat 32 base))] := by
  induction l generalizing i with
  | nil => rfl
  | cons x l ih =>
    obtain ⟨hx, hl⟩ := List.forall_mem_cons.1 hidc
    obtain ⟨first, second⟩ := hreads 0 x rfl
    simp only [Nat.add_zero] at first second
    have more : x.1 ≠ 3 := fun hc => by rw [hc] at hx; revert hx; decide
    have others := ih (i := i + 1) hl fun k y hy => by
      rw [Nat.add_assoc, Nat.add_comm 1]
      exact hreads (k + 1) y hy
    rw [List.length_cons, h264RplmFrom, ranged_of_holds first (Nat.zero_le _) (by omega), need_ok, if_neg more,
      param_ok.2 second, need_ok, others]
    rfl

theorem h264Rplm_endless {l : List (Word × Word)} {base : Nat} (hlen : l.length = 32)
    (hidc : ∀ x ∈ l, x.1.toNat ≤ 2)
    (hreads : ∀ (k : Nat) (x : Word × Word), l[k]? = some x →
      holds sp (base + 2 * k) x.1 ∧ holds sp (base + 2 * k + 1) x.2) :
    h264Rplm sp base = l.flatMap rplmPuts ++ [.stop (.raise .heListUnterminated (BitVec.ofNat 32 base))] := by
  have loop := h264RplmFrom_endless (sp := sp) (base := base) (i := 0) hidc fun k x hx => by
    rw [Nat.zero_add]; exact hreads k x hx
  rwa [hlen] at loop

theorem codes_rplmPuts {x : Word × Word} (h : x.1.toNat ≤ 2 ∧ x.2 ≠ 0xFFFFFFFF) :
    (rplmPuts x).all codes = true := by
  have idc := codes_ue (v := x.1) (by omega)
  have val := codes_ue (toNat_ne_of_ne h.2)
  simp [rplmPuts, idc, val]

theorem length_rplmPuts_le {x : Word × Word} (h : x.1.toNat ≤ 2 ∧ x.2 ≠ 0xFFFFFFFF) :
    (scriptBits (rplmPuts x)).length ≤ 66 := by
  have idc := length_ueBits_lt (v := x.1.toNat) (k := 2) (by omega)
  have val := length_ueBits_le h.2
  simp only [rplmPuts, scriptBits, List.flatMap_cons, List.flatMap_nil, itemBits, List.length_append,
    List.length_nil]
  omega

/-! ## A memory-management list without its end code (R198) -/

/-- The operands of one operation, from SP index `b` on. -/
def mmcoOperands (b : Nat) (x : Word × Word × Word) : Piece :=
  Piece.join [onlyIf (x.1 ≠ 5) (ueOfParam (b + 1) x.2.1), onlyIf (x.1 = 3) (ueOfParam (b + 2) x.2.2)]

/-- The calls for one operation: operation 5 has no operand, operation 3 has two, every other one has one. -/
def mmcoPuts (x : Word × Word × Word) : Script :=
  .ue x.1 :: ((if x.1 ≠ 5 then [.ue x.2.1] else []) ++ if x.1 = 3 then [.ue x.2.2] else [])

/-- An operation other than the end code, with operands that have a code. -/
def MmcoOk (x : Word × Word × Word) : Prop :=
  (1 ≤ x.1.toNat ∧ x.1.toNat ≤ 6) ∧ x.2.1 ≠ 0xFFFFFFFF ∧ x.2.2 ≠ 0xFFFFFFFF

theorem mmcoOperands_puts (b : Nat) (x : Word × Word × Word) :
    .ue x.1 :: (mmcoOperands b x).puts = mmcoPuts x := by
  unfold mmcoOperands mmcoPuts onlyIf
  split <;> split <;> simp [ueOfParam]

theorem mem_mmcoOperands_reads {b : Nat} {x : Word × Word × Word} {y : Nat × Word}
    (h : y ∈ (mmcoOperands b x).reads) : y = (b + 1, x.2.1) ∨ y = (b + 2, x.2.2) := by
  unfold mmcoOperands onlyIf at h
  split at h <;> split at h <;> simp_all [ueOfParam]

/-- Where every operation that is left stands in SP and none is the end code, the loop raises behind them. -/
theorem h264MmcoFrom_endless {l : List (Word × Word × Word)} {i : Nat} (hops : ∀ x ∈ l, MmcoOk x)
    (hreads : ∀ (k : Nat) (x : Word × Word × Word), l[k]? = some x → holds sp (0xC0 + 3 * (i + k)) x.1 ∧
      holds sp (0xC0 + 3 * (i + k) + 1) x.2.1 ∧ holds sp (0xC0 + 3 * (i + k) + 2) x.2.2) :
    h264MmcoFrom sp l.length i =
      l.flatMap mmcoPuts ++ [.stop (.raise .heListUnterminated 0xC0)] := by
  induction l generalizing i with
  | nil => rfl
  | cons x l ih =>
    obtain ⟨⟨hop, h₁, h₂⟩, hl⟩ := List.forall_mem_cons.1 hops
    obtain ⟨op, first, second⟩ := hreads 0 x rfl
    simp only [Nat.add_zero] at op first second
    have more : x.1 ≠ 0 := fun hc => by rw [hc] at hop; revert hop; decide
    have others := ih (i := i + 1) hl fun k y hy => by
      rw [Nat.add_assoc, Nat.add_comm 1]
      exact hreads (k + 1) y hy
    have operands : h264MmcoOperands sp (0xC0 + 3 * i) x.1 = (mmcoOperands (0xC0 + 3 * i) x).puts :=
      (emits_h264MmcoOperands hop h₁ h₂ fun y hy => by
        rcases mem_mmcoOperands_reads hy with rfl | rfl
        · exact first
        · exact second).1
    rw [List.length_cons, h264MmcoFrom, ranged_of_holds op (Nat.zero_le _) hop.2, need_ok, if_neg more, operands,
      others, List.flatMap_cons, ← mmcoOperands_puts (0xC0 + 3 * i), List.append_assoc]
    rfl

theorem h264Mmco_endless {l : List (Word × Word × Word)} (hlen : l.length = 21) (hops : ∀ x ∈ l, MmcoOk x)
    (hreads : ∀ (k : Nat) (x : Word × Word × Word), l[k]? = some x → holds sp (0xC0 + 3 * k) x.1 ∧
      holds sp (0xC0 + 3 * k + 1) x.2.1 ∧ holds sp (0xC0 + 3 * k + 2) x.2.2) :
    h264Mmco sp = l.flatMap mmcoPuts ++ [.stop (.raise .heListUnterminated 0xC0)] := by
  have loop := h264MmcoFrom_endless (sp := sp) (i := 0) hops fun k x hx => by
    rw [Nat.zero_add]; exact hreads k x hx
  rwa [hlen] at loop

theorem codes_mmcoPuts {x : Word × Word × Word} (h : MmcoOk x) : (mmcoPuts x).all codes = true := by
  obtain ⟨hop, h₁, h₂⟩ := h
  have op := codes_ue (v := x.1) (by omega)
  have first := codes_ue (toNat_ne_of_ne h₁)
  have second := codes_ue (toNat_ne_of_ne h₂)
  unfold mmcoPuts
  split <;> split <;> simp [op, first, second]

theorem length_mmcoPuts_le {x : Word × Word × Word} (h : MmcoOk x) :
    (scriptBits (mmcoPuts x)).length ≤ 131 := by
  obtain ⟨hop, h₁, h₂⟩ := h
  have op := length_ueBits_lt (v := x.1.toNat) (k := 3) (by omega)
  have first := length_ueBits_le h₁
  have second := length_ueBits_le h₂
  unfold mmcoPuts
  split <;> split <;> simp [scriptBits, itemBits] <;> omega

end Sys2Proof.ExceptionFamily
end

section
/-! SUPPORT. H.264 headers with such a loop (spec/43_header_h264.md R193): the calls before the loop and the entries
have room, and the command ends in the fault. -/

namespace Sys2Proof.ExceptionFamily

open Sys2Proof.Machine Sys2Proof.Safety Sys2Proof.StateFamily Sys2Proof.BitWriterFamily Sys2Proof.TemplateFamily
open Sys2Proof.H264Family (length_ueBits_lt zeroParam_of_holds)

variable {sp : Memory SpCell} {s : State}

/-! ## Up to a list (R193 (1) to (3)) -/

/-- What the two headers with an endless list have in common: a reference slice that is not an IDR picture, with
picture-order-count type 2 and without a redundant picture count. -/
structure CommonReads (sp : Memory SpCell) (nri st pps l fn : Word) : Prop where
  nri : holds sp 0x00 nri ∧ 1 ≤ nri.toNat ∧ nri.toNat ≤ 3
  nut : holds sp 0x01 1
  st : holds sp 0x02 st
  pps : holds sp 0x03 pps ∧ pps.toNat ≤ 255
  log2FrameNum : holds sp 0x04 l ∧ l.toNat ≤ 12
  frameNum : holds sp 0x05 fn ∧ fn.toNat < 2 ^ (l.toNat + 4)
  poc : holds sp 0x07 2
  redundant : holds sp 0x0F 0
  admitted : holds sp 0x20 1 ∧ holds sp 0x21 0 ∧ holds sp 0x24 0

variable {nri st pps l fn : Word}

/-- The opening checks pass: an I slice, or a P slice without weighted prediction. -/
theorem h264Script_common (h : CommonReads sp nri st pps l fn)
    (hst : st = 2 ∨ (st = 0 ∨ st = 5) ∧ holds sp 0x22 0) : h264Script sp = calls264 sp ⟨1, nri, st⟩ := by
  obtain ⟨h20, h21, h24⟩ := h.admitted
  have kind : st.toNat ≤ 9 ∧ ¬2 < st.toNat % 5 := by rcases hst with rfl | ⟨rfl | rfl, -⟩ <;> decide
  have weighted (a : Script) : h264Weighted sp ⟨1, nri, st⟩ a = a := by
    rcases hst with rfl | ⟨hst, h22⟩
    · rfl
    · have isP : h264Type ⟨1, nri, st⟩ = 0 := by
        show st.toNat % 5 = 0
        rcases hst with rfl | rfl <;> decide
      rw [h264Weighted, if_pos isP, zeroParam_of_holds h22, need_ok]
  rw [h264Script_eq_checks, h264Checks, required_of_holds (v := 1) h20 rfl, need_ok, zeroParam_of_holds h21,
    need_ok, zeroParam_of_holds h24, need_ok, param_ok.2 h.nut, need_ok, if_neg (by decide),
    ranged_of_holds h.nri.1 (Nat.zero_le _) h.nri.2.2, need_ok, if_neg (by simp),
    ranged_of_holds h.st (Nat.zero_le _) kind.1, need_ok, if_neg kind.2, if_neg (by simp)]
  exact weighted _

/-- The calls up to the frame number. -/
def headPuts (st pps l fn : Word) : Script := [.ue st, .ue pps, .bits fn (l.toNat + 4)]

/-- The fields up to the marking. -/
theorem h264Fields_common (h : CommonReads sp nri st pps l fn) (hkind : st.toNat % 5 ≠ 1) :
    ∃ rest, h264Fields sp ⟨1, nri, st⟩ = headPuts st pps l fn ++ (h264NumRefIdx sp ⟨1, nri, st⟩ ++
      ((if h264Type ⟨1, nri, st⟩ ≠ 2 then h264RplmFlag sp 0x15 0x40 else []) ++
        (h264Marking sp ⟨1, nri, st⟩ ++ rest))) := by
  have frameNum := ranged_of_holds h.frameNum.1 (Nat.zero_le _) (Nat.le_sub_one_of_lt h.frameNum.2)
  have notIdr : h264Idr ⟨1, nri, st⟩ = false := rfl
  have notB : h264Type ⟨1, nri, st⟩ ≠ 1 := hkind
  rw [h264Fields, h264FrameNum, h264Poc, ranged_of_holds h.pps.1 (Nat.zero_le _) h.pps.2,
    ranged_of_holds h.log2FrameNum.1 (Nat.zero_le _) h.log2FrameNum.2, need_ok, frameNum,
    ranged_of_holds h.poc (by decide) (by decide), need_ok, flagParam_of_holds h.redundant (by decide), notIdr,
    if_neg notB, if_neg notB]
  simp only [List.append_assoc]
  exact ⟨_, rfl⟩

theorem codes_headPuts (h : CommonReads sp nri st pps l fn) (hst : st.toNat ≤ 9) :
    (headPuts st pps l fn).all codes = true := by
  have pps := h.pps.2
  have log2FrameNum := h.log2FrameNum.2
  simp [headPuts, codes]
  omega

theorem length_headPuts_le (h : CommonReads sp nri st pps l fn) (hst : st.toNat ≤ 9) :
    (scriptBits (headPuts st pps l fn)).length ≤ 40 := by
  have st := length_ueBits_lt (v := st.toNat) (k := 4) (by omega)
  have pps := length_ueBits_lt (v := pps.toNat) (k := 9) (by have := h.pps.2; omega)
  have log2FrameNum := h.log2FrameNum.2
  simp [headPuts, scriptBits, itemBits]
  omega

/-- A header whose calls behind the frame number raise. -/
theorem exec_h264_endless {puts rest : Script} {f : BswFault} {info : Word}
    (h : CommonReads s.sp nri st pps l fn) (hst : st = 2 ∨ (st = 0 ∨ st = 5) ∧ holds s.sp 0x22 0)
    (hfields : h264Fields s.sp ⟨1, nri, st⟩ =
      headPuts st pps l fn ++ (puts ++ .stop (.raise f info) :: rest)) (hputs : puts.all codes = true)
    (hout : (scriptBits puts).length + 72 ≤ 32 * s.outCapWords) (room : EntryRoom s) :
    exec .heH264Slice s = .next (takeFault f info s) := by
  have range : st.toNat ≤ 9 := by rcases hst with rfl | ⟨rfl | rfl, -⟩ <;> decide
  have head := length_headPuts_le h range
  have words : rangeWords (headPuts st pps l fn ++ puts) < s.outCapWords := by
    rw [rangeWords, length_scriptBits_append]
    omega
  rw [← List.append_assoc] at hfields
  exact exec_h264_stop (h264Script_common h hst) hfields
    (by rw [List.all_append, codes_headPuts h range, hputs]; rfl) words room

/-! ## The loops -/

/-- Some fields put bits, and then a modification list has no terminator. -/
theorem exec_h264_endlessRplm {count : Word} {list : List (Word × Word)} (h : CommonReads s.sp nri st pps l fn)
    (hst : st = 0 ∨ st = 5) (h12 : holds s.sp 0x12 1) (h13 : holds s.sp 0x13 count) (h15 : holds s.sp 0x15 1)
    (h22 : holds s.sp 0x22 0) (hcount : count.toNat ≤ 31) (hlen : list.length = 32)
    (hlist : ∀ x ∈ list, x.1.toNat ≤ 2 ∧ x.2 ≠ 0xFFFFFFFF)
    (hreads : ∀ (k : Nat) (x : Word × Word), list[k]? = some x →
      holds s.sp (0x40 + 2 * k) x.1 ∧ holds s.sp (0x41 + 2 * k) x.2)
    (hout : 80 ≤ s.outCapWords) (room : EntryRoom s) :
    exec .heH264Slice s = .next (recorded 0x27 0x40 s) := by
  have kind : st.toNat % 5 = 0 := by rcases hst with rfl | rfl <;> decide
  have isP : h264Type ⟨1, nri, st⟩ = 0 := kind
  have entries : h264Rplm s.sp 0x40 =
      list.flatMap rplmPuts ++ [.stop (.raise .heListUnterminated 0x40)] :=
    h264Rplm_endless hlen (fun x hx => (hlist x hx).1) fun k x hx => by
      rw [Nat.add_right_comm]; exact hreads k x hx
  have counts : h264NumRefIdx s.sp ⟨1, nri, st⟩ = [.bits 1 1, .ue count] := by
    rw [h264NumRefIdx, if_pos (.inl isP), flagParam_of_holds h12 (by decide), need_ok, if_pos rfl,
      ranged_of_holds h13 (Nat.zero_le _) hcount, isP]
    rfl
  have flag : h264RplmFlag s.sp 0x15 0x40 = .bits 1 1 :: h264Rplm s.sp 0x40 := by
    rw [h264RplmFlag, flagParam_of_holds h15 (by decide), need_ok, if_pos rfl]
  obtain ⟨rest, fields⟩ := h264Fields_common h (by omega)
  rw [counts, if_pos (by omega), flag, entries] at fields
  have listCodes : (list.flatMap rplmPuts).all codes = true := by
    rw [List.all_flatMap]
    exact List.all_eq_true.2 fun x hx => codes_rplmPuts (hlist x hx)
  have listLength := length_scriptBits_flatMap_le (f := rplmPuts) fun x hx => length_rplmPuts_le (hlist x hx)
  have countLength := length_ueBits_lt (v := count.toNat) (k := 6) (by omega)
  refine exec_h264_endless (puts := [.bits 1 1, .ue count, .bits 1 1] ++ list.flatMap rplmPuts) h
    (.inr ⟨hst, h22⟩) (by simpa using fields) ?_ ?_ room
  · rw [List.all_append, listCodes]
    simp [codes]
    omega
  · rw [length_scriptBits_append]
    simp only [scriptBits, List.flatMap_cons, List.flatMap_nil, itemBits, List.length_append, length_bitsOf,
      List.length_nil] at listLength ⊢
    omega

/-- Some fields put bits, and then a memory-management list has no end code. -/
theorem exec_h264_endlessMmco {ops : List (Word × Word × Word)} (h : CommonReads s.sp nri 2 pps l fn)
    (h19 : holds s.sp 0x19 1) (hlen : ops.length = 21) (hops : ∀ x ∈ ops, MmcoOk x)
    (hreads : ∀ (k : Nat) (x : Word × Word × Word), ops[k]? = some x → holds s.sp (0xC0 + 3 * k) x.1 ∧
      holds s.sp (0xC1 + 3 * k) x.2.1 ∧ holds s.sp (0xC2 + 3 * k) x.2.2)
    (hout : 100 ≤ s.outCapWords) (room : EntryRoom s) :
    exec .heH264Slice s = .next (recorded 0x27 0xC0 s) := by
  have entries : h264Mmco s.sp = ops.flatMap mmcoPuts ++ [.stop (.raise .heListUnterminated 0xC0)] :=
    h264Mmco_endless hlen hops fun k x hx => by
      rw [Nat.add_right_comm _ _ 1, Nat.add_right_comm _ _ 2]; exact hreads k x hx
  have reference : nri ≠ 0 := fun hc => by have := h.nri.2.1; rw [hc] at this; revert this; decide
  have marking : h264Marking s.sp ⟨1, nri, 2⟩ = .bits 1 1 :: h264Mmco s.sp := by
    rw [h264Marking, if_pos reference, if_neg (by simp [h264Idr]), flagParam_of_holds h19 (by decide),
      need_ok, if_pos rfl]
  obtain ⟨rest, fields⟩ := h264Fields_common h (by decide)
  rw [marking, entries] at fields
  have opsCodes : (ops.flatMap mmcoPuts).all codes = true := by
    rw [List.all_flatMap]
    exact List.all_eq_true.2 fun x hx => codes_mmcoPuts (hops x hx)
  have opsLength := length_scriptBits_flatMap_le (f := mmcoPuts) fun x hx => length_mmcoPuts_le (hops x hx)
  have behind : ∀ tail : Script, h264NumRefIdx s.sp ⟨1, nri, 2⟩ ++
      ((if h264Type ⟨1, nri, 2⟩ ≠ 2 then h264RplmFlag s.sp 0x15 0x40 else []) ++ tail) = tail := fun _ => rfl
  rw [behind] at fields
  refine exec_h264_endless (puts := [.bits 1 1] ++ ops.flatMap mmcoPuts) h (.inl rfl) (by simpa using fields)
    ?_ ?_ room
  · rw [List.all_append, opsCodes]
    rfl
  · rw [length_scriptBits_append]
    simp only [scriptBits, List.flatMap_cons, List.flatMap_nil, itemBits, List.length_append, length_bitsOf,
      List.length_nil] at opsLength ⊢
    omega

end Sys2Proof.ExceptionFamily
end

section
/-! SUPPORT. A fault inside a header sequence undoes the whole command (spec/60_exceptions.md R323). -/

namespace Sys2Proof.ExceptionFamily

open Sys2Proof.Machine Sys2Proof.Safety Sys2Proof.StateFamily Sys2Proof.BitWriterFamily Sys2Proof.TemplateFamily

variable {i : Instr} {script : Script} {s : State} {rs : List Range} {last : Script}

/-- Both sequencers run the sequence of calls that SP gives. -/
theorem exec_sequence
    (h : i = .heH264Slice ∧ script = h264Script s.sp ∨ i = .heH265Slice ∧ script = h265Script s.sp) :
    exec i s = onEncoder 1 (runScript s.outCapWords s.params.ilMax script) s := by
  rcases h with ⟨rfl, rfl⟩ | ⟨rfl, rfl⟩
  · rfl
  · rfl

/-- A template that does not fit into OUT. -/
theorem onEncoder_outFull (hcodes : ∀ b ∈ bodies rs last, b.all codes = true)
    (hcap : s.outCapWords ≤ outCapLimit) (hmax : s.params.ilMax ≤ 255)
    (hout : s.outCapWords < templateWords (bodies rs last))
    (hil : (templateEntries rs last).length ≤ s.params.ilMax) :
    onEncoder 1 (runScript s.outCapWords s.params.ilMax (templateScript rs last)) s =
      .next (recorded 0x10 (BitVec.ofNat 32 s.outCapWords) s) := by
  rw [templateScript_eq]
  refine onEncoder_of_raise (x := .outOverflow) ?_
  exact template_outFull (done := []) (building_reset s.enc) hcap hmax hcodes (Nat.zero_le _) hout
    (by rw [List.length_nil, Nat.zero_add]; exact hil)

/-- A template that fits into OUT and not into IL. -/
theorem onEncoder_ilFull (hcodes : ∀ b ∈ bodies rs last, b.all codes = true)
    (hcap : s.outCapWords ≤ outCapLimit) (hmax : s.params.ilMax ≤ 255)
    (hout : templateWords (bodies rs last) ≤ s.outCapWords)
    (hil : s.params.ilMax < (templateEntries rs last).length) :
    onEncoder 1 (runScript s.outCapWords s.params.ilMax (templateScript rs last)) s =
      .next (recorded 0x20 (BitVec.ofNat 32 s.params.ilMax) s) := by
  rw [templateScript_eq]
  refine onEncoder_of_raise (x := .ilOverflow) ?_
  exact template_ilFull (done := []) (building_reset s.enc) hcap hmax hcodes hout (Nat.zero_le _)
    (by rw [List.length_nil, Nat.zero_add]; exact hil)

/-- Settles O51: whichever call raises, `finish` enters the fault from the state before the command. -/
theorem sequencerFaults : Obligations.SequencerFaults := by
  refine ⟨fun i script s hi => ⟨?raise, ?room⟩,
    fun s hout hcap hil hmax => have room : EntryRoom s := ⟨hcap, hil, hmax⟩; ⟨?pps264, ?pps265⟩,
    ?list, ?rplm, ?mmco⟩
  case raise =>
    rintro a b x e f info rfl ha hx
    rw [exec_sequence hi]
    exact onEncoder_of_raise (runScript_raise ha hx b)
  case room =>
    rintro rs last rfl hcodes hcap hmax
    rw [exec_sequence hi]
    exact ⟨onEncoder_outFull hcodes hcap hmax, onEncoder_ilFull hcodes hcap hmax⟩
  case pps264 =>
    intro hpassed
    refine ⟨fun hu => ?_, fun v hv habove => ?_⟩
    · exact exec_h264_pps hpassed hout room (ranged_raises_unwritten hu 0 255)
    · exact exec_h264_pps hpassed hout room (ranged_raises_above hv habove 0)
  case pps265 =>
    intro hpassed v hnut hv
    have one : 1 ≤ s.outCapWords := Nat.le_of_succ_le hout
    refine ⟨fun hu => ?_, fun p hp habove => ?_⟩
    · exact exec_h265_pps hpassed hnut hv one room (ranged_raises_unwritten hu 0 63)
    · exact exec_h265_pps hpassed hnut hv one room (ranged_raises_above hp habove 0)
  case list => exact fun sp l base hlen hidc hreads => h264Rplm_endless hlen hidc hreads
  case rplm =>
    intro s nri st pps l fn count list hlen hnri hst hpps hl hfn hcount hlist hr hreads hout hcap hil hmax
    simp only [List.forall_mem_cons] at hr
    obtain ⟨h00, h01, h02, h03, h04, h05, h07, h0F, h12, h13, h15, h20, h21, h22, h24, -⟩ := hr
    have common : CommonReads s.sp nri st pps l fn :=
      ⟨⟨h00, hnri⟩, h01, h02, ⟨h03, hpps⟩, ⟨h04, hl⟩, ⟨h05, hfn⟩, h07, h0F, h20, h21, h24⟩
    exact exec_h264_endlessRplm common hst h12 h13 h15 h22 hcount hlen hlist hreads hout
      ⟨hcap, by omega, hmax⟩
  case mmco =>
    intro s nri pps l fn ops hlen hnri hpps hl hfn hops hr hreads hout hcap hil hmax
    simp only [List.forall_mem_cons] at hr
    obtain ⟨h00, h01, h02, h03, h04, h05, h07, h0F, h19, h20, h21, h24, -⟩ := hr
    have common : CommonReads s.sp nri 2 pps l fn :=
      ⟨⟨h00, hnri⟩, h01, h02, ⟨h03, hpps⟩, ⟨h04, hl⟩, ⟨h05, hfn⟩, h07, h0F, h20, h21, h24⟩
    exact exec_h264_endlessMmco common h19 hlen hops hreads hout ⟨hcap, by omega, hmax⟩

end Sys2Proof.ExceptionFamily
end
